-- ==== Sys2Proof/Word.lean ====
section
/-! DEFINITION. The words of the hart: integer registers and CSRs, bytes, CSR addresses and
register numbers (spec/10_state.md R22, R24; spec/30_encoding.md R205).

One model serves `XLEN = 32` and `XLEN = 64` (spec/00_scope.md R9, where `XLEN` is a parameter).
A register is carried in 64 bits; with `XLEN = 32` only its low 32 bits exist, and every read and
every write goes through `Config.trunc` (Machine/Legalize.lean), which clears the others. -/

namespace Sys2Proof

/-- The carrier of an XLEN-bit value (R11, R22). -/
abbrev Word := BitVec 64

/-- The smallest addressable unit of memory (R146). -/
abbrev Byte := BitVec 8

/-- A 12-bit CSR address `csr[11:0]` (R24). -/
abbrev CsrAddr := BitVec 12

/-- A register number, `x0` to `x31` (R22). -/
abbrev Reg := Fin 32

end Sys2Proof
end

