-- ==== Sys2Proof/Machine/Bits.lean ====
section
/-! DEFINITION. Bit fields of a word: assembling a register from its fields and replacing the
selected bits of one word by those of another (spec/00_scope.md R10, R11). -/

namespace Sys2Proof.Machine

/-- The word whose bit `i` is the disjunction of the flags listed at `i` (R10). -/
def wordOfBits : List (Nat × Bool) → Word
  | [] => 0
  | (i, b) :: rest => (if b then BitVec.twoPow 64 i else 0) ||| wordOfBits rest

/-- `v` on the bits of `mask`, `old` elsewhere. -/
def mergeBits (mask old v : Word) : Word := (old &&& ~~~mask) ||| (v &&& mask)

/-- The word with its low `n` bits one (all of them from 64 up). -/
def lowMask (n : Nat) : Word := BitVec.ofNat 64 (2 ^ min n 64 - 1)

/-- `v` with its low `n` bits cleared. -/
def clearLow (n : Nat) (v : Word) : Word := v &&& ~~~lowMask n

end Sys2Proof.Machine
end

