-- ==== Sys2Proof/Config.lean ====
section
/-! DEFINITION. What an implementation fixes: the named parameters of spec/00_scope.md R8 and R9
and of spec/92_eei_decisions.md, as one plain record, and the open functions of the spec
(`Legalize_f`, `g_f`) as constants without a body.

The record is a field of the machine's state that no step changes, so a statement about every
state is a statement about every choice of every parameter, as R8, D17 and D18 ask. -/

namespace Sys2Proof

/-- The privilege levels of Table 1.1 (R270). Level 2 is reserved (R271) and has no constructor,
so no field of this type can hold it. -/
inductive Priv
  | user
  | supervisor
  | machine
  deriving DecidableEq, Repr

/-- The two-bit encoding of Table 1.1 (R270). -/
def Priv.enc : Priv → BitVec 2
  | .user => 0
  | .supervisor => 1
  | .machine => 3

/-- The level an encoding names; `none` for the reserved encoding `10` (R271). -/
def Priv.ofEnc (v : BitVec 2) : Option Priv :=
  if v = 0 then some .user
  else if v = 1 then some .supervisor
  else if v = 3 then some .machine
  else none

/-- `XLEN` (R9). -/
inductive XLen
  | rv32
  | rv64
  deriving DecidableEq, Repr

/-- `XLEN` as a number of bits. -/
def XLen.bits : XLen → Nat
  | .rv32 => 32
  | .rv64 => 64

/-- The supported combinations of modes of Table 1.2 (R273). Every other set is excluded by the
type (spec/95_test_vectors.md E3). -/
inductive Modes
  | m
  | mu
  | msu
  deriving DecidableEq, Repr

/-- What a write of an unsupported value to a WLRL field does (R74, D17). -/
inductive WlrlPolicy
  | raise
  | store
  deriving DecidableEq, Repr

/-- When hardware sets `mstatus.FS` to Dirty on a CSR access to floating-point state: only if the
access changed it, on every write, or on every access (R97, U63). -/
inductive FsDirtyPolicy
  | onChange
  | onWrite
  | onAccess
  deriving DecidableEq, Repr

/-- Main memory, I/O or empty (R142, R171). -/
inductive RegionKind
  | mainMemory
  | io
  | empty
  deriving DecidableEq, Repr

/-- The ordering class of an I/O region (R171). -/
inductive IoOrdering
  | relaxed
  | strong
  deriving DecidableEq, Repr

/-- The physical memory attributes of one region (R171): its place, its kind, the access types and
widths (in bytes) it supports, and whether it supports the atomic update of R183, the one atomic operation of
this spec. The ordering class with its channel, coherence, cacheability and idempotency show in no access of
one hart to main memory, and R171 gives them no other effect (notes/assumptions/14.md). -/
structure PmaRegion where
  base : Nat
  size : Nat
  kind : RegionKind
  readable : Bool
  writable : Bool
  executable : Bool
  atomic : Bool
  widths : List Nat
  ordering : IoOrdering
  channel : Nat
  coherent : Bool
  cacheable : Bool
  idempotentReads : Bool
  idempotentWrites : Bool
  deriving DecidableEq, Repr

/-- How many low bits of `BASE` an `xtvec` register holds at zero in each mode, beyond the two of R98 when
larger (R98, U37). -/
structure TvecAlign where
  direct : Nat
  vectored : Nat
  deriving DecidableEq, Repr

/-- The WARL fields whose `Legalize_f` the spec leaves to the implementation (R8, R76). `satp`, `misa`,
the event counters and the PMP address registers are WARL too, and legalised as R120, U61, R104 and R176
say. Event selector `n` of the manual, 3 to 31, has index `n - 3`. -/
inductive WarlField
  | tvec (x : Priv)
  | epc (x : Priv)
  | medeleg
  | mideleg
  | sedeleg
  | sideleg
  | mcounteren
  | scounteren
  | pmpcfg (i : Fin 16)
  | hpmevent (n : Fin 29)
  deriving DecidableEq, Repr

/-- One value of `Legalize_f`: writing `written` to the field leaves `held`. -/
structure WarlEntry where
  field : WarlField
  written : Word
  held : Word
  deriving DecidableEq, Repr

/-- The parameters of the model (R8, R9 and the decisions D1 to D22). -/
structure Config where
  /-- `XLEN` (R9, D5). -/
  xlen : XLen
  /-- `Modes` (R8, R273). -/
  modes : Modes
  /-- `HasN` (R8, D16); effective only with U-mode (R43). -/
  hasN : Bool
  /-- The F extension, for `fflags`, `frm`, `fcsr` (R46, R97). -/
  hasF : Bool
  /-- Whether `mstatus.FS` is writable with S-mode but without F (R97 permits both). -/
  fsWithoutF : Bool
  /-- When `FS` becomes Dirty (R97, U63). -/
  fsDirty : FsDirtyPolicy
  /-- `HasDebugTriggers` (R8, D22). -/
  hasDebugTriggers : Bool
  /-- `HasPMP` (R8, D11). -/
  hasPMP : Bool
  /-- The number of PMP entries, 0 to 16 (R9, R172). -/
  pmpEntries : Nat
  /-- PMP granularity: `2 ^ (pmpGrain + 2)` bytes, so 0 is four bytes (R176, U51). -/
  pmpGrain : Nat
  /-- Optional CSRs left out: the user-level counter views only (R40, R46, R124). -/
  absentCsrs : List CsrAddr
  /-- `NonStandardCsrs` (R8, R29). -/
  nonStandardCsrs : List CsrAddr
  /-- `InterceptCsr`, as the list of the pairs on which it holds (R226, D3). -/
  interceptCsr : List (Priv × CsrAddr)
  /-- `WlrlPolicy_f` for `mstatus.MPP` (D17). -/
  wlrlMpp : WlrlPolicy
  /-- `WlrlPolicy_f` for `mcause.ExceptionCode` (D17). -/
  wlrlMcause : WlrlPolicy
  /-- `WlrlPolicy_f` for `scause.ExceptionCode` (D17). -/
  wlrlScause : WlrlPolicy
  /-- `WlrlPolicy_f` for `ucause.ExceptionCode` (D17). -/
  wlrlUcause : WlrlPolicy
  /-- `VectoredTraps` (R8, R98). -/
  vectoredTraps : Bool
  /-- A hard-wired `mtvec` and its value (R98), or none. -/
  mtvecHardwired : Option Word
  /-- The alignment of `BASE` in `mtvec`, `stvec` and `utvec`, each its own (R98, R113, R122, U37). -/
  mtvecAlign : TvecAlign
  stvecAlign : TvecAlign
  utvecAlign : TvecAlign
  /-- `Legalize_f` of the WARL fields, as the list of the written values where it differs from the form the
  spec gives the field (R8, R76). A register has finitely many values, so every function from written
  values to legal ones is such a list. -/
  warl : List WarlEntry
  /-- Bits of `medeleg` the implementation lets software set (R99). -/
  medelegMask : Word
  /-- Bits of `mideleg` the implementation lets software set (R99). -/
  midelegMask : Word
  /-- Bits of `sedeleg` the implementation lets software set (R121). -/
  sedelegMask : Word
  /-- Bits of `sideleg` the implementation lets software set (R121). -/
  sidelegMask : Word
  /-- Bits of `mcounteren` that are not hard-wired 0 (R106). -/
  mcounterenMask : BitVec 32
  /-- Bits of `scounteren` that are not hard-wired 0 (R106). -/
  scounterenMask : BitVec 32
  /-- Whether a bit not delegated in `mideleg` reads as zero in `sip` and `sie` (R114, G14). -/
  maskByMideleg : Bool
  /-- Whether `satp` supports Sv32 (R120, R177). -/
  satpSv32 : Bool
  /-- Whether `satp` supports Sv39 (R120, R177). -/
  satpSv39 : Bool
  /-- Whether `satp` supports Sv48 (R120, R177). -/
  satpSv48 : Bool
  /-- `ASIDLEN`, the number of implemented ASID bits (R120, U42). -/
  asidLen : Nat
  /-- The number of implemented `satp.PPN` bits (U42). -/
  ppnBits : Nat
  /-- Whether the translation cache is tagged with the ASID (R186). -/
  asidTagged : Bool
  /-- `HardwareADUpdate` (R8, R183). -/
  hardwareADUpdate : Bool
  /-- `MisalignedTraps` (R147, D7). -/
  misalignedTraps : Bool
  /-- Whether `misa` is implemented; if not it reads zero (R81). -/
  misaImplemented : Bool
  /-- Further letters of `misa.Extensions`: those that no other parameter fixes (R82). -/
  misaLetters : BitVec 26
  /-- `VendorId` (R9, R83). -/
  vendorId : Word
  /-- `ArchId` (R9, R84). -/
  archId : Word
  /-- `ImpId` (R9, R84). -/
  impId : Word
  /-- `HartId` (R9, R85). -/
  hartId : Word
  /-- Which of the event counters 3 to 31 are not hard-wired to zero (R104, R325). -/
  hpmImplemented : BitVec 32
  /-- The number of bits each such counter implements, at most 64, counter 3 first (R104). -/
  hpmBits : Vector Nat 29
  /-- `IllegalInstrTval = bits` (R297, D18). -/
  illegalTvalBits : Bool
  /-- `EbreakTval = pc` (R252, G21). -/
  ebreakTvalPc : Bool
  /-- `WfiInU` (R256, D19). -/
  wfiInU : Bool
  /-- Whether WFI sets `waiting`; an implementation may leave it false (R256). -/
  wfiWaits : Bool
  /-- `ResetVector` (R9, R341). -/
  resetVector : Word
  /-- `Pma`, as a list of regions; an address in none of them is empty, and where regions overlap the first
  gives the attributes (R171, D8). The platform may configure it anew while the hart runs: `State.pma`. -/
  pma : List PmaRegion
  /-- `MtimeAddr` (R103, D8), if the platform maps the register. -/
  mtimeAddr : Option Nat
  /-- `MtimecmpAddr` of this hart (R103, D8), if the platform maps the register. -/
  mtimecmpAddr : Option Nat
  /-- `MsipAddr` of this hart (R311, D8), if the platform maps the register. -/
  msipAddr : Option Nat
  deriving DecidableEq, Repr

/-- The platform of the spec's test configurations (D8): the whole physical address space is main
memory that supports every access the model makes. -/
def Config.flatMemory : PmaRegion :=
  { base := 0, size := 2 ^ 56, kind := .mainMemory, readable := true, writable := true,
    executable := true, atomic := true, widths := [1, 2, 4, 8], ordering := .relaxed, channel := 0,
    coherent := true, cacheable := true, idempotentReads := true, idempotentWrites := true }

/-- `CFG0` of spec/95_test_vectors.md section 0. Where CFG0 names no value (the WLRL policies,
`HardwareADUpdate`, `MisalignedTraps`, the reset vector, `VendorId`, `ArchId`, `ImpId`, whether `misa` is
implemented and its further letters, the ASID and PPN bits of `satp`, and the others that
notes/assumptions/3.md lists) the value here is a DESIGN CHOICE of that entry. -/
def Config.cfg0 : Config where
  xlen := .rv32
  modes := .msu
  hasN := false
  hasF := false
  fsWithoutF := false
  fsDirty := .onWrite
  hasDebugTriggers := false
  hasPMP := false
  pmpEntries := 16
  pmpGrain := 0
  absentCsrs := []
  nonStandardCsrs := []
  interceptCsr := []
  wlrlMpp := .store
  wlrlMcause := .store
  wlrlScause := .store
  wlrlUcause := .store
  vectoredTraps := true
  mtvecHardwired := none
  mtvecAlign := { direct := 2, vectored := 2 }
  stvecAlign := { direct := 2, vectored := 2 }
  utvecAlign := { direct := 2, vectored := 2 }
  warl := []
  medelegMask := BitVec.allOnes 64
  midelegMask := BitVec.allOnes 64
  sedelegMask := BitVec.allOnes 64
  sidelegMask := BitVec.allOnes 64
  mcounterenMask := 7
  scounterenMask := 7
  maskByMideleg := true
  satpSv32 := true
  satpSv39 := false
  satpSv48 := false
  asidLen := 9
  ppnBits := 22
  asidTagged := true
  hardwareADUpdate := false
  misalignedTraps := true
  misaImplemented := true
  misaLetters := 0
  vendorId := 0
  archId := 0
  impId := 0
  hartId := 0
  hpmImplemented := 0
  hpmBits := Vector.replicate 29 64
  illegalTvalBits := true
  ebreakTvalPc := false
  wfiInU := false
  wfiWaits := true
  resetVector := 0x80000000
  pma := [Config.flatMemory]
  mtimeAddr := none
  mtimecmpAddr := none
  msipAddr := none

/-- `CFG64` of spec/95_test_vectors.md section 0; the ASID and PPN bits are all implemented, a DESIGN
CHOICE of notes/assumptions/3.md. -/
def Config.cfg64 : Config :=
  { Config.cfg0 with xlen := .rv64, satpSv32 := false, satpSv39 := true, asidLen := 16, ppnBits := 44 }

/-! ## Open functions of the spec

Each is an opaque constant: nothing can be proved about its values, so a statement proved of the
model holds whatever they are (D17, R76). -/

/-- `g_MPP`: the pattern an illegal write to `mstatus.MPP` leaves, before the restriction of D17
to supported modes (R74). FREE VALUE. -/
opaque Config.wlrlMppPattern : BitVec 2 → BitVec 2

/-- `g_ExceptionCode` for `mcause`, `scause` and `ucause`: the pattern an illegal write leaves in the
field; the first argument is the mode of the register, the second the value written (R74). FREE VALUE. -/
opaque Config.wlrlCausePattern : Priv → Word → Word

/-- Part of `Legalize_mtvec`, `Legalize_stvec`, `Legalize_utvec`: whether a write whose `MODE` is
not supported leaves Vectored rather than Direct, where Vectored is supported (R76, U36). FREE VALUE. -/
opaque Config.tvecUnsupportedMode : Priv → Word → Bool

/-- Part of `Legalize_pmpcfg`: what the reserved combination `R = 0, W = 1` becomes (R172). FREE VALUE. -/
opaque Config.pmpReservedRwx : Byte → BitVec 3

/-- What a read of an implementation's own CSR returns: its address and the number of the draw
(R29, R215: the spec defines no non-standard CSR). FREE VALUE. -/
opaque Config.nonStandardRead : CsrAddr → Nat → Word

end Sys2Proof
end

