-- ==== Sys2Proof/Machine/Types.lean ====
section
/-! DEFINITION. The parts of the machine's state, as plain data: the fields of `mstatus`
(spec/11_csr_fields.md R87), the trap registers of one mode, delegation, interrupt lines, counters,
PMP, the translation cache (spec/21_translation_pmp.md R186), and the inputs that arrive from outside
the hart; and the names of the exceptions and interrupts (spec/60_exceptions.md R290, R291). -/

namespace Sys2Proof.Machine

/-- The synchronous exceptions of R290. Codes 10, 14 and 16 upward are reserved and have no name. -/
inductive Exception
  | instrAddrMisaligned
  | instrAccessFault
  | illegalInstruction
  | breakpoint
  | loadAddrMisaligned
  | loadAccessFault
  | storeAddrMisaligned
  | storeAccessFault
  | ecallFromU
  | ecallFromS
  | ecallFromM
  | instrPageFault
  | loadPageFault
  | storePageFault
  deriving DecidableEq, Repr

/-- The interrupts of R291. Codes 2, 6, 10 and 12 upward are reserved and have no name. -/
inductive Interrupt
  | userSoftware
  | supervisorSoftware
  | machineSoftware
  | userTimer
  | supervisorTimer
  | machineTimer
  | userExternal
  | supervisorExternal
  | machineExternal
  deriving DecidableEq, Repr

/-- The kind of a memory access (R181); AMOs and store-conditionals count as stores. -/
inductive Access
  | fetch
  | load
  | store
  deriving DecidableEq, Repr

/-- The stored fields of `mstatus` (R87). Reserved fields hold nothing (D14), `XS`, `SD`, `UXL` and
`SXL` are computed when the register is read (R97, D15). `MPP` names a level, so it cannot hold `10`. -/
structure Mstatus where
  uie : Bool
  sie : Bool
  mie : Bool
  upie : Bool
  spie : Bool
  mpie : Bool
  spp : Bool
  mpp : Priv
  fs : BitVec 2
  mprv : Bool
  sum : Bool
  mxr : Bool
  tvm : Bool
  tw : Bool
  tsr : Bool
  deriving DecidableEq, Repr

/-- The trap registers of one mode `x`: `xtvec`, `xscratch`, `xepc`, `xcause`, `xtval`
(R98, R107 to R110, R113, R116, R122). -/
structure TrapRegs where
  tvec : Word
  scratch : Word
  epc : Word
  cause : Word
  tval : Word
  deriving DecidableEq, Repr

/-- The delegation registers (R99, R121). -/
structure Delegation where
  medeleg : Word
  mideleg : Word
  sedeleg : Word
  sideleg : Word
  deriving DecidableEq, Repr

/-- The interrupt signals from outside the hart: the memory-mapped `MSIP` bit (R311) and the level
signals of the interrupt controller (R312). -/
structure IrqLines where
  msip : Bool
  meip : Bool
  seip : Bool
  ueip : Bool
  deriving DecidableEq, Repr

/-- The counters and their enables (R104, R106, R115). The event counters 3 to 31 stand at index
`n - 3`. -/
structure Counters where
  mcycle : BitVec 64
  minstret : BitVec 64
  hpmCounter : Vector (BitVec 64) 29
  hpmEvent : Vector Word 29
  mcounteren : BitVec 32
  scounteren : BitVec 32
  deriving DecidableEq, Repr

/-- The PMP entries: configuration bytes and address registers (R172). -/
structure Pmp where
  entryCfg : Vector Byte 16
  entryAddr : Vector Word 16
  deriving DecidableEq, Repr

/-- The trigger registers shared with debug mode (R39, D22). -/
structure Triggers where
  tselect : Word
  tdata1 : Word
  tdata2 : Word
  tdata3 : Word
  deriving DecidableEq, Repr

/-- One entry of the address-translation cache: a page-table entry read by a walk, valid or not, with the
pages it covers, its address space, and the PMP settings of the time (R186, R187, R176). -/
structure TlbEntry where
  asid : Nat
  global : Bool
  level : Nat
  vpn : Nat
  pte : Word
  pmp : Pmp
  deriving DecidableEq, Repr

/-- A speculative walk for an address (R186): at which level, and as a fetch or as a load. A store is not
among them: hardware never sets Dirty speculatively (R183). -/
structure SpecWalk where
  priv : Priv
  fetch : Bool
  va : Word
  deriving DecidableEq, Repr

/-- The draws of one instruction boundary that the architecture leaves open: which entry of the
translation cache is used instead of a walk, whether its cached PMP result is used (R186, R176), and
whether a WFI under `TW` exceeds its bound (R256). -/
structure Draws where
  cached : Option Nat
  cachedPmp : Bool
  twTimeout : Bool
  deriving DecidableEq, Repr

/-- What arrives from outside the hart at one instruction boundary (D9, D20, D21). -/
structure Input where
  /-- The hart is reset (R341). -/
  reset : Bool
  /-- How far `mcycle` and `mtime` advance (R345). -/
  mcycleTicks : BitVec 64
  mtimeTicks : BitVec 64
  /-- What the event counters count, by index (R104). -/
  hpmTicks : List (Fin 29 × BitVec 64)
  /-- The level signals of the interrupt controller (R312). -/
  meip : Bool
  seip : Bool
  ueip : Bool
  /-- The platform configures the physical memory attributes anew (R171). -/
  pma : Option (List PmaRegion)
  /-- Bytes that other harts and devices store, by physical address (R311, R320). -/
  writes : List Host.Cell
  /-- `waiting` is cleared for a reason of the implementation's own (R256). -/
  wake : Bool
  /-- The open choices of this boundary. -/
  draws : Draws
  /-- Speculative walks (R186). -/
  speculate : List SpecWalk
  deriving DecidableEq, Repr

/-- The draws with nothing cached used and no timeout. -/
def Draws.none : Draws := { cached := Option.none, cachedPmp := false, twTimeout := false }

end Sys2Proof.Machine
end

