-- ==== Sys2Proof/Machine/Legalize.lean ====
section
/-! DEFINITION. What follows from the parameters alone: which modes and bits exist, and how a value
written to a WARL or WLRL field lands in it (spec/10_state.md R73 to R77, spec/11_csr_fields.md,
spec/40_csr_instructions.md R237). A write that raises is `none`. -/

namespace Sys2Proof

open Machine

/-! ## Modes and widths -/

/-- `U in Modes` (R273). -/
def Config.hasU (c : Config) : Bool := c.modes != .m

/-- `S in Modes` (R273). -/
def Config.hasS (c : Config) : Bool := c.modes == .msu

/-- Whether a mode is in `Modes` (R273). -/
def Config.supports (c : Config) : Priv → Bool
  | .user => c.hasU
  | .supervisor => c.hasS
  | .machine => true

/-- User-level traps exist: `HasN`, which needs U-mode (R43). -/
def Config.n (c : Config) : Bool := c.hasN && c.hasU

/-- The least-privileged supported mode (R253). -/
def Config.leastPriv (c : Config) : Priv := if c.hasU then .user else .machine

/-- The low XLEN bits of a carrier word (R11). -/
def Config.trunc (c : Config) (v : Word) : Word :=
  match c.xlen with
  | .rv32 => v &&& 0xFFFFFFFF
  | .rv64 => v

/-- The number of the top bit of a register, `XLEN - 1`. -/
def Config.topBit (c : Config) : Nat := c.xlen.bits - 1

/-- The width of a physical address: 34 bits on RV32, 56 on RV64 (R172, R177). -/
def Config.physBits (c : Config) : Nat :=
  match c.xlen with
  | .rv32 => 34
  | .rv64 => 56

/-- The number of PMP entries that exist (R46, R172). -/
def Config.pmpCount (c : Config) : Nat := if c.hasPMP then min c.pmpEntries 16 else 0

/-! ## Interrupt and delegation masks -/

/-- The interrupts of the modes that exist (R100, R101): the U bits only with `HasN`. -/
def Config.intMask (c : Config) : Word :=
  0x888 ||| (if c.hasS then 0x222 else 0) ||| (if c.n then 0x111 else 0)

/-- The bits of `mip` that M-mode software writes: `USIP`, `SSIP`, `UTIP`, `STIP`, `UEIP`, `SEIP`
(R101, R102). -/
def Config.mipWritable (c : Config) : Word := 0x333 &&& c.intMask

/-- The bits of `medeleg` that can be set: the defined causes of the supported modes, and never
bit 11 (R99; spec/95_test_vectors.md V69). -/
def Config.medelegBits (c : Config) : Word :=
  (0xB0FF ||| (if c.hasU then 0x100 else 0) ||| (if c.hasS then 0x200 else 0)) &&& c.medelegMask

/-- The bits of `mideleg` that can be set (R99). -/
def Config.midelegBits (c : Config) : Word := c.intMask &&& c.midelegMask

/-- The bits of `sedeleg` that can be set: bits 11 to 9 are hard-wired 0 (R121). -/
def Config.sedelegBits (c : Config) : Word :=
  (0xB0FF ||| (if c.hasU then 0x100 else 0)) &&& c.sedelegMask

/-- The bits of `sideleg` that can be set (R121). -/
def Config.sidelegBits (c : Config) : Word := c.intMask &&& c.sidelegMask

/-- `medeleg` and `mideleg` exist (R44). -/
def Config.hasMdeleg (c : Config) : Bool := c.hasS || c.n

/-- The bits of `mip` and `mie` seen through `sip` and `sie`, given `mideleg` (R114). -/
def Config.sVisible (c : Config) (mideleg : Word) : Word :=
  c.mipWritable &&& (if c.maskByMideleg then mideleg else BitVec.allOnes 64)

/-- The bits of `sip` that S-mode writes: `USIP`, `SSIP`, `UEIP` (R114). -/
def Config.sipWritable (c : Config) (mideleg : Word) : Word := 0x103 &&& c.sVisible mideleg

/-- The bits of `mip` and `mie` seen through `uip` and `uie` (R122). -/
def Config.uVisible (c : Config) : Word := 0x111 &&& c.intMask

/-- The bit of `uip` that U-mode writes, `USIP`: R122 gives the view only, and the model takes the
rule of R114 for `sip`, where timer and own external bits are read-only. DEDUCED, unsafe:
notes/assumptions/9.md. -/
def Config.uipWritable (c : Config) : Word := 0x001 &&& c.intMask

/-! ## Addresses -/

/-- The XLEN-bit value with its two low bits clear: without 16-bit instruction alignment `xepc` reads them
as 0, and a trap and a return clear them (R108, R116, R298, R300). -/
def Config.alignPc (c : Config) (v : Word) : Word := clearLow 2 (c.trunc v)

/-! ## `satp` -/

/-- The `MODE` field of `satp` (R120). -/
def Config.satpMode (c : Config) (v : Word) : Nat :=
  match c.xlen with
  | .rv32 => (v.extractLsb' 31 1).toNat
  | .rv64 => (v.extractLsb' 60 4).toNat

/-- The `ASID` field of `satp` (R120). -/
def Config.satpAsid (c : Config) (v : Word) : Nat :=
  match c.xlen with
  | .rv32 => (v.extractLsb' 22 9).toNat
  | .rv64 => (v.extractLsb' 44 16).toNat

/-- The `PPN` field of `satp` (R120). -/
def Config.satpPpn (c : Config) (v : Word) : Nat :=
  match c.xlen with
  | .rv32 => (v.extractLsb' 0 22).toNat
  | .rv64 => (v.extractLsb' 0 44).toNat

/-- The page-based translation schemes (R177). -/
inductive Scheme
  | sv32
  | sv39
  | sv48
  deriving DecidableEq, Repr

/-- Step 0 of R181: the upper bits of an Sv39 or Sv48 address equal its top translated bit. -/
def Machine.canonical (sch : Scheme) (va : Word) : Bool :=
  match sch with
  | .sv32 => true
  | .sv39 => (va.extractLsb' 0 39).signExtend 64 == va
  | .sv48 => (va.extractLsb' 0 48).signExtend 64 == va

/-- The scheme a `satp.MODE` selects on this XLEN; none for Bare and for the reserved modes (R120). -/
def Config.schemeOfMode (c : Config) (mode : Nat) : Option Scheme :=
  match c.xlen with
  | .rv32 => if mode = 1 then some .sv32 else none
  | .rv64 => if mode = 8 then some .sv39 else if mode = 9 then some .sv48 else none

/-- Whether the implementation supports a scheme; Sv48 brings Sv39 (R177). -/
def Config.supportsScheme (c : Config) : Scheme → Bool
  | .sv32 => c.satpSv32
  | .sv39 => c.satpSv39 || c.satpSv48
  | .sv48 => c.satpSv48

/-- Whether a `satp.MODE` is supported: Bare always (R120). -/
def Config.satpModeSupported (c : Config) (mode : Nat) : Bool :=
  mode == 0 ||
    (match c.schemeOfMode mode with
     | some sch => c.supportsScheme sch
     | none => false)

/-- The bits of `satp` that hold something: `MODE`, the implemented bits of `ASID` and of `PPN`
(R120, U42). -/
def Config.satpBits (c : Config) : Word :=
  match c.xlen with
  | .rv32 => 0x80000000 ||| (lowMask (min c.asidLen 9) <<< 22) ||| lowMask (min c.ppnBits 22)
  | .rv64 => 0xF000000000000000 ||| (lowMask (min c.asidLen 16) <<< 44) ||| lowMask (min c.ppnBits 44)

/-- `Legalize_satp`: a write with an unsupported `MODE` changes no field (R120). -/
def Config.legalSatp (c : Config) (old v : Word) : Word :=
  if c.satpModeSupported (c.satpMode v) then v &&& c.satpBits else old

/-- A PMP address register: on RV64 bits 63:54 read 0 (R172). -/
def Config.legalPmpAddr (c : Config) (v : Word) : Word :=
  match c.xlen with
  | .rv32 => v &&& 0xFFFFFFFF
  | .rv64 => v &&& lowMask 54

/-- The bits an event counter implements (R104). -/
def Config.hpmCounterBits (c : Config) (n : Fin 29) : Word := lowMask c.hpmBits[n]

/-- Whether event counter `n` (3 to 31) is more than hard-wired zero (R104, R325). -/
def Config.hpmExists (c : Config) (n : Nat) : Bool := c.hpmImplemented.getLsbD n

/-- `misa`, which the model holds fixed (R81, R82, U61): `MXL`, and the letters that the parameters
fix (F, I, N, S, U) with the further ones of the configuration; C and E are absent (D5, R341). -/
def Config.misa (c : Config) : Word :=
  if c.misaImplemented then
    (match c.xlen with
     | .rv32 => 0x40000000
     | .rv64 => 0x8000000000000000)
    ||| ((c.misaLetters &&& 0xA99A4B).zeroExtend 64)
    ||| wordOfBits [(5, c.hasF), (8, true), (13, c.n), (18, c.hasS), (20, c.hasU)]
  else 0

/-! ## WARL fields: `Legalize_f` (R76)

A field holds the values of the form the spec gives it (`warlForm`), but for those the parameters except
(`Config.warl`); values that the spec asks it to hold cannot be excepted. What another value leaves is the
parameters' as well, and where they say nothing, the form makes it legal. -/

/-- Whether a write to `xtvec` selects Vectored: `MODE = 1` where Vectored is supported; for an
unsupported `MODE` a supported one that the spec does not say (R98, R76, U36). -/
def Config.tvecVectored (c : Config) (x : Priv) (v : Word) : Bool :=
  c.vectoredTraps &&
    (v.extractLsb' 0 2 == 1 || (v.extractLsb' 0 2 != 0 && Config.tvecUnsupportedMode x (c.trunc v)))

/-- The alignment of `BASE` in the `xtvec` of a mode (R98, U37). -/
def Config.tvecAlign (c : Config) : Priv → TvecAlign
  | .user => c.utvecAlign
  | .supervisor => c.stvecAlign
  | .machine => c.mtvecAlign

/-- The form of `xtvec` (R98, R113): `BASE` is 4-byte aligned, or more strictly if the implementation
says so for the mode; `MODE` is 0 or 1. -/
def Config.tvecForm (c : Config) (x : Priv) (v : Word) : Word :=
  if c.tvecVectored x v then clearLow (max 2 (c.tvecAlign x).vectored) (c.trunc v) ||| 1
  else clearLow (max 2 (c.tvecAlign x).direct) (c.trunc v)

/-- `R`, `W`, `X` of a PMP configuration byte: `R = 0, W = 1` is never held; bits 6:5 read 0 (R172). -/
def pmpRwxForm (b : Byte) : Byte :=
  if b.getLsbD 1 && !b.getLsbD 0 then
    let p := Config.pmpReservedRwx b
    (b &&& 0x98) ||| (if p.getLsbD 0 then 1 else 0) ||| (if p.getLsbD 0 && p.getLsbD 1 then 2 else 0)
      ||| (if p.getLsbD 2 then 4 else 0)
  else b &&& 0x9F

/-- The form of a PMP configuration byte (R172). With a granularity above four bytes `NA4` is not
available (R176); that it becomes OFF, where `Config.warl` does not say otherwise, is a DESIGN CHOICE
(notes/assumptions/14.md). -/
def Config.pmpByteForm (c : Config) (b : Byte) : Byte :=
  if c.pmpGrain != 0 && b.extractLsb' 3 2 == 2 then pmpRwxForm b &&& 0xE7 else pmpRwxForm b

/-- The form the spec gives the values of a WARL field: `xtvec` R98, R113; `xepc` R108, R116; the
delegation registers R99, R121; the counter enables R106; PMP bytes R172; event selectors R104. -/
def Config.warlForm (c : Config) : WarlField → Word → Word
  | .tvec x, v => c.tvecForm x v
  | .epc _, v => c.alignPc v
  | .medeleg, v => v &&& c.medelegBits
  | .mideleg, v => v &&& c.midelegBits
  | .sedeleg, v => v &&& c.sedelegBits
  | .sideleg, v => v &&& c.sidelegBits
  | .mcounteren, v => v &&& c.mcounterenMask.zeroExtend 64
  | .scounteren, v => v &&& c.scounterenMask.zeroExtend 64
  | .pmpcfg _, v => (c.pmpByteForm (v.extractLsb' 0 8)).zeroExtend 64
  | .hpmevent _, v => c.trunc v

/-- A valid address: a physical one, which on RV32 every XLEN-bit value is, or one that a supported scheme
translates (R108, R177, R181). -/
def Config.validAddress (c : Config) (v : Word) : Bool :=
  v.toNat < 2 ^ c.physBits
    || (c.hasS && ((c.supportsScheme .sv39 && canonical .sv39 v)
          || (c.supportsScheme .sv48 && canonical .sv48 v)))

/-- The values that the spec asks a field to hold: `xepc` every valid address (R108), a PMP configuration
byte the value zero, OFF and unlocked, which a reset may leave (D4). -/
def Config.warlAsked (c : Config) : WarlField → Word → Bool
  | .epc _, v => c.validAddress v
  | .pmpcfg _, v => v == 0
  | _, _ => false

/-- The values a field holds: those of its form, but for the ones that the parameters turn into
another (R76). -/
def Config.warlHolds (c : Config) (f : WarlField) (v : Word) : Bool :=
  c.warlForm f v == v
    && (c.warlAsked f v || !c.warl.any fun e => e.field == f && e.written == v && e.held != v)

/-- What a value that the field does not hold may leave, the first that the field holds: what the
parameters say, then its form, then any value of the parameters, then zero. -/
def Config.warlChoices (c : Config) (f : WarlField) (v : Word) : List Word :=
  ((c.warl.filter fun e => e.field == f && e.written == v).map WarlEntry.held)
    ++ c.warlForm f v :: (((c.warl.filter fun e => e.field == f).map WarlEntry.held) ++ [0])

/-- `Legalize_f` (R76): total, raises nothing, keeps every value the field holds, and leaves one that the
field holds. -/
def Config.legalize (c : Config) (f : WarlField) (v : Word) : Word :=
  if c.warlHolds f v then v else ((c.warlChoices f v).find? (c.warlHolds f)).getD 0

/-- `Legalize` of `mcounteren` and `scounteren`, which are 32 bits wide (R106). -/
def Config.legalEnable (c : Config) (f : WarlField) (v : BitVec 32) : BitVec 32 :=
  (c.legalize f (v.zeroExtend 64)).extractLsb' 0 32

/-- `Legalize` of a PMP configuration byte (R172). -/
def Config.legalPmpByte (c : Config) (i : Fin 16) (b : Byte) : Byte :=
  (c.legalize (.pmpcfg i) (b.zeroExtend 64)).extractLsb' 0 8

/-! ## WLRL fields -/

/-- Store a pattern in a privilege field: its range is restricted to the supported modes (D17). -/
def Config.coercePriv (c : Config) (v : BitVec 2) : Priv :=
  match Priv.ofEnc v with
  | some p => if c.supports p then p else c.leastPriv
  | none => c.leastPriv

/-- A write to `mstatus.MPP` (R89, R74, D17). -/
def Config.writeMpp (c : Config) (v : BitVec 2) : Option Priv :=
  match Priv.ofEnc v with
  | some p =>
    if c.supports p then some p
    else match c.wlrlMpp with
      | .raise => none
      | .store => some (c.coercePriv (Config.wlrlMppPattern v))
  | none =>
    match c.wlrlMpp with
    | .raise => none
    | .store => some (c.coercePriv (Config.wlrlMppPattern v))

/-- The exception codes that are not reserved (R290, U38). -/
def isExceptionCode (code : Nat) : Bool :=
  code < 16 && code != 10 && code != 14

/-- The interrupt codes that are not reserved (R291, U38). -/
def isInterruptCode (code : Nat) : Bool :=
  code < 12 && code != 2 && code != 6 && code != 10

/-- `xcause.Interrupt` (R109). -/
def Config.causeInterrupt (c : Config) (v : Word) : Bool := v.getLsbD c.topBit

/-- `xcause.ExceptionCode` (R109). -/
def Config.causeCode (c : Config) (v : Word) : Nat := (v &&& lowMask c.topBit).toNat

/-- Whether a value holds a supported `ExceptionCode` (R109, U38): every code that is not reserved, whatever
modes exist. Which codes beyond the reserved ones are supported is left open; DESIGN CHOICE of
notes/assumptions/4.md. -/
def Config.causeLegal (c : Config) (v : Word) : Bool :=
  if c.causeInterrupt v then isInterruptCode (c.causeCode v) else isExceptionCode (c.causeCode v)

/-- The policy of `xcause.ExceptionCode` (D17). -/
def Config.wlrlCause (c : Config) : Priv → WlrlPolicy
  | .user => c.wlrlUcause
  | .supervisor => c.wlrlScause
  | .machine => c.wlrlMcause

/-- A write to `xcause` (R109, R116, R74, D17): `Interrupt` as written; an unsupported
`ExceptionCode` raises or leaves a pattern that depends on the value written alone. -/
def Config.writeCause (c : Config) (x : Priv) (v : Word) : Option Word :=
  if c.causeLegal (c.trunc v) then some (c.trunc v)
  else match c.wlrlCause x with
    | .raise => none
    | .store =>
      some (mergeBits (lowMask c.topBit) (c.trunc v) (Config.wlrlCausePattern x (c.trunc v)))

end Sys2Proof

namespace Sys2Proof.Machine

/-! ## The fields of `mstatus` that exist -/

/-- Whether `FS` is writable (R97). -/
def fsWritable (c : Config) : Bool := c.hasF || (c.hasS && c.fsWithoutF)

/-- Write the fields of `mstatus` that `ustatus` shows (R122). -/
def Mstatus.writeU (c : Config) (m : Mstatus) (v : Word) : Mstatus :=
  { m with uie := c.n && v.getLsbD 0, upie := c.n && v.getLsbD 4 }

/-- Write the fields of `mstatus` that `sstatus` shows (R112, R87). -/
def Mstatus.writeS (c : Config) (m : Mstatus) (v : Word) : Mstatus :=
  { m.writeU c v with
    sie := c.hasS && v.getLsbD 1
    spie := c.hasS && v.getLsbD 5
    spp := c.hasS && v.getLsbD 8
    fs := if fsWritable c then v.extractLsb' 13 2 else 0
    sum := c.hasS && v.getLsbD 18
    mxr := c.hasS && v.getLsbD 19 }

/-- Write all writable fields of `mstatus`, with the value `MPP` takes (R87, R91 to R97). -/
def Mstatus.writeM (c : Config) (m : Mstatus) (v : Word) (mpp : Priv) : Mstatus :=
  { m.writeS c v with
    mie := v.getLsbD 3
    mpie := v.getLsbD 7
    mpp := mpp
    mprv := c.hasU && v.getLsbD 17
    tvm := c.hasS && v.getLsbD 20
    tw := c.hasU && v.getLsbD 21
    tsr := c.hasS && v.getLsbD 22 }

/-- The same fields with those of absent modes and units at zero (R87, R89, D14), and `MPP` a
supported mode. -/
def Mstatus.legalize (c : Config) (m : Mstatus) : Mstatus :=
  { uie := c.n && m.uie, sie := c.hasS && m.sie, mie := m.mie
    upie := c.n && m.upie, spie := c.hasS && m.spie, mpie := m.mpie
    spp := c.hasS && m.spp
    mpp := if c.supports m.mpp then m.mpp else c.leastPriv
    fs := if fsWritable c then m.fs else 0
    mprv := c.hasU && m.mprv, sum := c.hasS && m.sum, mxr := c.hasS && m.mxr
    tvm := c.hasS && m.tvm, tw := c.hasU && m.tw, tsr := c.hasS && m.tsr }

/-- The trap registers of mode `x` with each field legal (R98, R108). -/
def TrapRegs.legalize (c : Config) (x : Priv) (r : TrapRegs) : TrapRegs :=
  { tvec := c.legalize (.tvec x) r.tvec
    scratch := c.trunc r.scratch
    epc := c.legalize (.epc x) (c.alignPc r.epc)
    cause := c.trunc r.cause
    tval := c.trunc r.tval }

end Sys2Proof.Machine
end

