-- ==== Sys2Proof/Machine/Csr.lean ====
section
/-! DEFINITION. The CSR address space (spec/10_state.md R24 to R46): the allocated registers under
their names, the address of each, which of them an implementation has, and what an address's own
bits say about access. The registers of trap handling, which come once for each mode (`mepc`, `sepc`,
`uepc`), are named with the mode as an argument, as the spec writes `xepc`. -/

namespace Sys2Proof.Machine

/-- The allocated CSRs (R33 to R39), and the non-standard ones of an implementation (R29). The
debug-mode registers `dcsr`, `dpc`, `dscratch` exist only when `HasDebugMode`, which is fixed false
(R45, D12), so they have no constructor. Event counter `n` of the manual, 3 to 31, has index `n - 3`. -/
inductive Csr
  /-- 0x000, 0x100, 0x300. -/
  | ustatus
  | sstatus
  | mstatus
  /-- 0x004, 0x104, 0x304. -/
  | uie
  | sie
  | mie
  /-- 0x044, 0x144, 0x344. -/
  | uip
  | sip
  | mip
  /-- `utvec`, `stvec`, `mtvec`. -/
  | tvec (x : Priv)
  /-- `uscratch`, `sscratch`, `mscratch`. -/
  | scratch (x : Priv)
  /-- `uepc`, `sepc`, `mepc`. -/
  | epc (x : Priv)
  /-- `ucause`, `scause`, `mcause`. -/
  | cause (x : Priv)
  /-- `utval`, `stval`, `mtval`. -/
  | tval (x : Priv)
  | fflags
  | frm
  | fcsr
  | cycle
  | time
  | instret
  | hpmcounter (n : Fin 29)
  | cycleh
  | timeh
  | instreth
  | hpmcounterh (n : Fin 29)
  | sedeleg
  | sideleg
  | scounteren
  | satp
  | mvendorid
  | marchid
  | mimpid
  | mhartid
  | misa
  | medeleg
  | mideleg
  | mcounteren
  | pmpcfg (k : Fin 4)
  | pmpaddr (n : Fin 16)
  | mcycle
  | minstret
  | mhpmcounter (n : Fin 29)
  | mcycleh
  | minstreth
  | mhpmcounterh (n : Fin 29)
  | mhpmevent (n : Fin 29)
  | tselect
  | tdata1
  | tdata2
  | tdata3
  | nonStandard (a : CsrAddr)
  deriving DecidableEq, Repr

/-- The first address of a mode's block of trap registers (R33, R36, R37). -/
def trapBlock : Priv → Nat
  | .user => 0x000
  | .supervisor => 0x100
  | .machine => 0x300

/-- The number column of Tables 2.2 to 2.5 (R33 to R39). -/
def Csr.addr : Csr → Nat
  | .ustatus => 0x000
  | .sstatus => 0x100
  | .mstatus => 0x300
  | .uie => 0x004
  | .sie => 0x104
  | .mie => 0x304
  | .uip => 0x044
  | .sip => 0x144
  | .mip => 0x344
  | .tvec x => trapBlock x + 0x005
  | .scratch x => trapBlock x + 0x040
  | .epc x => trapBlock x + 0x041
  | .cause x => trapBlock x + 0x042
  | .tval x => trapBlock x + 0x043
  | .fflags => 0x001
  | .frm => 0x002
  | .fcsr => 0x003
  | .cycle => 0xC00
  | .time => 0xC01
  | .instret => 0xC02
  | .hpmcounter n => 0xC03 + n
  | .cycleh => 0xC80
  | .timeh => 0xC81
  | .instreth => 0xC82
  | .hpmcounterh n => 0xC83 + n
  | .sedeleg => 0x102
  | .sideleg => 0x103
  | .scounteren => 0x106
  | .satp => 0x180
  | .mvendorid => 0xF11
  | .marchid => 0xF12
  | .mimpid => 0xF13
  | .mhartid => 0xF14
  | .misa => 0x301
  | .medeleg => 0x302
  | .mideleg => 0x303
  | .mcounteren => 0x306
  | .pmpcfg k => 0x3A0 + k
  | .pmpaddr n => 0x3B0 + n
  | .mcycle => 0xB00
  | .minstret => 0xB02
  | .mhpmcounter n => 0xB03 + n
  | .mcycleh => 0xB80
  | .minstreth => 0xB82
  | .mhpmcounterh n => 0xB83 + n
  | .mhpmevent n => 0x323 + n
  | .tselect => 0x7A0
  | .tdata1 => 0x7A1
  | .tdata2 => 0x7A2
  | .tdata3 => 0x7A3
  | .nonStandard a => a.toNat

/-- The three modes, for the registers that come once for each. -/
def trapModes : List Priv := [.user, .supervisor, .machine]

/-- The CSRs that come once (R33 to R39). -/
def singleCsrs : List Csr :=
  [.ustatus, .sstatus, .mstatus, .uie, .sie, .mie, .uip, .sip, .mip,
   .fflags, .frm, .fcsr, .sedeleg, .sideleg, .scounteren, .satp,
   .mvendorid, .marchid, .mimpid, .mhartid, .misa, .medeleg, .mideleg, .mcounteren,
   .mcycle, .minstret, .mcycleh, .minstreth,
   .cycle, .time, .instret, .cycleh, .timeh, .instreth,
   .tselect, .tdata1, .tdata2, .tdata3]

/-- The CSRs that come once for each mode (R33, R36, R37). -/
def trapCsrs : List Csr :=
  trapModes.flatMap fun x => [Csr.tvec x, Csr.scratch x, Csr.epc x, Csr.cause x, Csr.tval x]

/-- The PMP registers (R38). -/
def pmpCsrs : List Csr :=
  List.append ((List.finRange 4).map Csr.pmpcfg) ((List.finRange 16).map Csr.pmpaddr)

/-- The registers of the event counters 3 to 31 (R35, R39). -/
def hpmCsrs : List Csr :=
  (List.finRange 29).flatMap fun n =>
    [Csr.mhpmcounter n, Csr.mhpmcounterh n, Csr.mhpmevent n, Csr.hpmcounter n, Csr.hpmcounterh n]

/-- Every standard CSR (R33 to R39). -/
def standardCsrs : List Csr := List.flatten [singleCsrs, trapCsrs, pmpCsrs, hpmCsrs]

/-- The level `csr[9:8]` names, the lowest that may access the register (R26). -/
def csrLevel (a : CsrAddr) : BitVec 2 := a.extractLsb' 8 2

/-- `csr[11:10] = 11`: the register is read-only (R25). -/
def csrReadOnly (a : CsrAddr) : Bool := a.extractLsb' 10 2 == 3

/-- The non-standard ranges of Table 2.1 (R28, R215). -/
def inNonStandardRange (a : CsrAddr) : Bool :=
  let n := a.toNat
  (0x800 ≤ n && n ≤ 0x8FF) || (0xCC0 ≤ n && n ≤ 0xCFF)
    || (0x5C0 ≤ n && n ≤ 0x5FF) || (0x9C0 ≤ n && n ≤ 0x9FF) || (0xDC0 ≤ n && n ≤ 0xDFF)
    || (0x7C0 ≤ n && n ≤ 0x7FF) || (0xBC0 ≤ n && n ≤ 0xBFF) || (0xFC0 ≤ n && n ≤ 0xFFF)

/-- The registers of a mode exist with the mode, those of U-mode with `HasN` (R42, R43). -/
def trapRegsExist (c : Config) : Priv → Bool
  | .user => c.n
  | .supervisor => c.hasS
  | .machine => true

/-- `XLEN32` (R8, R41). -/
def isRv32 (c : Config) : Bool := c.xlen == .rv32

/-- An optional register that the implementation does not leave out (R40). -/
def notAbsent (c : Config) (r : Csr) : Bool := !c.absentCsrs.any (fun a => a.toNat == r.addr)

/-- `Implemented` (R40 to R46, D13). With fewer than 16 PMP entries the registers of absent entries do not
exist, and `pmpcfg k` exists when entry `4k` does: R46 allows fewer entries and does not say what becomes
of their registers. DESIGN CHOICE of notes/assumptions/14.md. -/
def Csr.implemented (c : Config) : Csr → Bool
  | .ustatus | .uie | .uip => c.n
  | .sstatus | .sie | .sip | .satp | .scounteren => c.hasS
  | .mstatus | .mie | .mip | .misa => true
  | .mvendorid | .marchid | .mimpid | .mhartid => true
  | .tvec x | .scratch x | .epc x | .cause x | .tval x => trapRegsExist c x
  | .fflags | .frm | .fcsr => c.hasF
  | .cycle => notAbsent c .cycle
  | .time => notAbsent c .time
  | .instret => notAbsent c .instret
  | .hpmcounter n => notAbsent c (.hpmcounter n)
  | .cycleh => isRv32 c && notAbsent c .cycleh
  | .timeh => isRv32 c && notAbsent c .timeh
  | .instreth => isRv32 c && notAbsent c .instreth
  | .hpmcounterh n => isRv32 c && notAbsent c (.hpmcounterh n)
  | .sedeleg | .sideleg => c.hasS && c.n
  | .medeleg | .mideleg => c.hasMdeleg
  | .mcounteren => c.hasU
  | .pmpcfg k => decide (4 * k.val < c.pmpCount) && (isRv32 c || k.val % 2 == 0)
  | .pmpaddr n => decide (n.val < c.pmpCount)
  | .mcycle | .minstret | .mhpmcounter _ | .mhpmevent _ => true
  | .mcycleh | .minstreth | .mhpmcounterh _ => isRv32 c
  | .tselect | .tdata1 | .tdata2 | .tdata3 => c.hasDebugTriggers
  | .nonStandard a => inNonStandardRange a && c.nonStandardCsrs.contains a

/-- The standard register at an address, if one is allocated there (R33 to R39). -/
def standardCsrAt (a : CsrAddr) : Option Csr := standardCsrs.find? (fun r => r.addr == a.toNat)

/-- The register an access to an address reaches, if the implementation has it (R40, R222). -/
def csrAt (c : Config) (a : CsrAddr) : Option Csr :=
  match standardCsrAt a with
  | some r => if r.implemented c then some r else none
  | none => if Csr.implemented c (.nonStandard a) then some (.nonStandard a) else none

/-- `DebugOnly`: the addresses only debug mode may access; the model is never in debug mode
(R31, R227, D12). -/
def debugOnly (a : CsrAddr) : Bool := 0x7B0 ≤ a.toNat && a.toNat ≤ 0x7BF

end Sys2Proof.Machine
end

