-- ==== Sys2Proof/Syntax.lean ====
section
/-! DEFINITION. The instructions: one constructor for each row of spec/opcode_table.json
(spec/30_encoding.md R206 to R208), with the operands of R205. Register numbers are `Fin 32`, the
CSR address is the 12-bit field of R211 and the immediate the 5-bit field `uimm`, so a term of this
type holds nothing that the encoding cannot. -/

namespace Sys2Proof

/-- An instruction of the SYSTEM major opcode (R200). -/
inductive Instr
  /-- CSRRW, atomic read/write CSR (R230). -/
  | csrrw (rd : Reg) (csr : CsrAddr) (rs1 : Reg)
  /-- CSRRS, atomic read and set bits in CSR (R231). -/
  | csrrs (rd : Reg) (csr : CsrAddr) (rs1 : Reg)
  /-- CSRRC, atomic read and clear bits in CSR (R232). -/
  | csrrc (rd : Reg) (csr : CsrAddr) (rs1 : Reg)
  /-- CSRRWI, atomic read/write CSR with immediate (R233). -/
  | csrrwi (rd : Reg) (csr : CsrAddr) (uimm : BitVec 5)
  /-- CSRRSI, atomic read and set bits in CSR with immediate (R234). -/
  | csrrsi (rd : Reg) (csr : CsrAddr) (uimm : BitVec 5)
  /-- CSRRCI, atomic read and clear bits in CSR with immediate (R235). -/
  | csrrci (rd : Reg) (csr : CsrAddr) (uimm : BitVec 5)
  /-- ECALL, environment call (R251). -/
  | ecall
  /-- EBREAK, breakpoint (R252). -/
  | ebreak
  /-- URET, return from a trap taken into U-mode (R255). -/
  | uret
  /-- SRET, return from a trap taken into S-mode (R254). -/
  | sret
  /-- MRET, return from a trap taken into M-mode (R253). -/
  | mret
  /-- WFI, wait for interrupt (R256). -/
  | wfi
  /-- SFENCE.VMA, supervisor memory-management fence (R257). -/
  | sfenceVma (rs1 : Reg) (rs2 : Reg)
  deriving DecidableEq, Repr

end Sys2Proof
end

