-- ==== Sys2Proof/Decode.lean ====
section
/-! DEFINITION. The decoder, total on any bytes and rejecting by name, and the encoder, both from the
formats and values of spec/30_encoding.md R201 to R209. -/

namespace Sys2Proof

/-- What the decoder makes of the bytes at the program counter. -/
inductive Decoded
  /-- An instruction of the table (R208). -/
  | instr (i : Instr)
  /-- A word under the SYSTEM opcode that matches no row: a reserved encoding, which raises an
  illegal-instruction exception when executed (R209). -/
  | reserved (w : BitVec 32)
  /-- A word under another major opcode: outside the spec (R209, D5). -/
  | notSystem (w : BitVec 32)
  /-- Fewer than the four bytes of an instruction (R201). -/
  | truncated
  deriving DecidableEq, Repr

/-- The SYSTEM major opcode, `inst[6:0]` (R204). -/
def opSystem : BitVec 7 := 0b1110011

/-! ## Fields (R202, R203, R205) -/

def fieldOpcode (w : BitVec 32) : BitVec 7 := w.extractLsb' 0 7
def fieldRd (w : BitVec 32) : Reg := (w.extractLsb' 7 5).toFin
def fieldFunct3 (w : BitVec 32) : BitVec 3 := w.extractLsb' 12 3
def fieldRs1 (w : BitVec 32) : Reg := (w.extractLsb' 15 5).toFin
def fieldUimm (w : BitVec 32) : BitVec 5 := w.extractLsb' 15 5
def fieldRs2 (w : BitVec 32) : Reg := (w.extractLsb' 20 5).toFin
def fieldCsr (w : BitVec 32) : CsrAddr := w.extractLsb' 20 12
def fieldFunct7 (w : BitVec 32) : BitVec 7 := w.extractLsb' 25 7

/-- `funct3 = 000`: the rows of R207. `rd` must be zero; the rows but SFENCE.VMA fix `rs1` too. -/
def decodePriv (w : BitVec 32) : Decoded :=
  if fieldRd w = 0 ∧ fieldFunct7 w = 0b0001001 then .instr (.sfenceVma (fieldRs1 w) (fieldRs2 w))
  else if fieldRd w = 0 ∧ fieldRs1 w = 0 then
    if fieldCsr w = 0x000 then .instr .ecall
    else if fieldCsr w = 0x001 then .instr .ebreak
    else if fieldCsr w = 0x002 then .instr .uret
    else if fieldCsr w = 0x102 then .instr .sret
    else if fieldCsr w = 0x302 then .instr .mret
    else if fieldCsr w = 0x105 then .instr .wfi
    else .reserved w
  else .reserved w

/-- The decoder of one 32-bit word (R206, R207, R209). -/
def decodeWord (w : BitVec 32) : Decoded :=
  if fieldOpcode w = opSystem then
    if fieldFunct3 w = 0b000 then decodePriv w
    else if fieldFunct3 w = 0b001 then .instr (.csrrw (fieldRd w) (fieldCsr w) (fieldRs1 w))
    else if fieldFunct3 w = 0b010 then .instr (.csrrs (fieldRd w) (fieldCsr w) (fieldRs1 w))
    else if fieldFunct3 w = 0b011 then .instr (.csrrc (fieldRd w) (fieldCsr w) (fieldRs1 w))
    else if fieldFunct3 w = 0b101 then .instr (.csrrwi (fieldRd w) (fieldCsr w) (fieldUimm w))
    else if fieldFunct3 w = 0b110 then .instr (.csrrsi (fieldRd w) (fieldCsr w) (fieldUimm w))
    else if fieldFunct3 w = 0b111 then .instr (.csrrci (fieldRd w) (fieldCsr w) (fieldUimm w))
    else .reserved w
  else .notSystem w

/-- The value of bytes stored little-endian, the first at the lowest address (R146). -/
def littleEndian : List Byte → Nat
  | [] => 0
  | b :: bs => b.toNat + 256 * littleEndian bs

/-- The low `n` bytes of a value, little-endian (R146). -/
def bytesOf : Nat → Nat → List Byte
  | 0, _ => []
  | n + 1, v => BitVec.ofNat 8 v :: bytesOf n (v / 256)

/-- The decoder of the bytes at the program counter: the first four are the instruction (R201). -/
def decodeBytes (bs : List Byte) : Decoded :=
  if bs.length < 4 then .truncated
  else decodeWord (BitVec.ofNat 32 (littleEndian (bs.take 4)))

/-! ## Encoder -/

/-- A register number as its 5-bit field (R205). -/
def regField (r : Reg) : BitVec 5 := BitVec.ofFin r

/-- The I-type format of R202. -/
def encodeI (imm : BitVec 12) (rs1 : BitVec 5) (funct3 : BitVec 3) (rd : Reg) : BitVec 32 :=
  imm ++ rs1 ++ funct3 ++ regField rd ++ opSystem

/-- The R-type format of R203. -/
def encodeR (funct7 : BitVec 7) (rs2 rs1 : Reg) (funct3 : BitVec 3) (rd : Reg) : BitVec 32 :=
  funct7 ++ regField rs2 ++ regField rs1 ++ funct3 ++ regField rd ++ opSystem

/-- The word of an instruction (R202 to R208). Every bit of the word is fixed by the instruction, so
this is also the word that an illegal-instruction trap can capture (R297). -/
def encode : Instr → BitVec 32
  | .csrrw rd csr rs1 => encodeI csr (regField rs1) 0b001 rd
  | .csrrs rd csr rs1 => encodeI csr (regField rs1) 0b010 rd
  | .csrrc rd csr rs1 => encodeI csr (regField rs1) 0b011 rd
  | .csrrwi rd csr uimm => encodeI csr uimm 0b101 rd
  | .csrrsi rd csr uimm => encodeI csr uimm 0b110 rd
  | .csrrci rd csr uimm => encodeI csr uimm 0b111 rd
  | .ecall => encodeI 0x000 0 0b000 0
  | .ebreak => encodeI 0x001 0 0b000 0
  | .uret => encodeI 0x002 0 0b000 0
  | .sret => encodeI 0x102 0 0b000 0
  | .mret => encodeI 0x302 0 0b000 0
  | .wfi => encodeI 0x105 0 0b000 0
  | .sfenceVma rs1 rs2 => encodeR 0b0001001 rs2 rs1 0b000 0

/-- The instruction as the four bytes memory holds (R201). -/
def encodeBytes (i : Instr) : List Byte := bytesOf 4 (encode i).toNat

/-- The instruction of a row's word as spec/opcode_table.json numbers its bits: `w` is laid out
little-endian, every bit at or above `nbits` zero, and given to the decoder. -/
def decodeTableWord (nbits w : Nat) : Option Instr :=
  match decodeBytes (bytesOf 4 (w % 2 ^ nbits)) with
  | .instr i => some i
  | _ => none

end Sys2Proof
end

