-- ==== Sys2Proof/Machine/Memory.lean ====
section
/-! DEFINITION. Physical memory: bytes by physical address (spec/20_memory.md R140), as a list of
(address, byte) pairs with strictly rising addresses. An address that is not listed holds a byte
nobody has said (spec/70_reset_and_hazards.md R342: the contents of memory at reset are the
platform's); reading it gives no value. -/

namespace Sys2Proof.Machine

/-- Physical memory, in canonical form when `Memory.wf`. -/
abbrev Memory := List Host.Cell

/-- The byte at an address, if something has been written there. This is the ONE definition of what
an unlisted address reads as: no value. -/
def Memory.read : Memory → Nat → Option Byte
  | [], _ => none
  | (k, b) :: rest, a => if k = a then some b else Memory.read rest a

/-- Write a byte, keeping the addresses strictly rising. -/
def Memory.write : Memory → Nat → Byte → Memory
  | [], a, b => [(a, b)]
  | (k, c) :: rest, a, b =>
    if a < k then (a, b) :: (k, c) :: rest
    else if a = k then (a, b) :: rest
    else (k, c) :: Memory.write rest a b

/-- Write bytes at rising addresses. -/
def Memory.writeList : Memory → Nat → List Byte → Memory
  | m, _, [] => m
  | m, a, b :: bs => Memory.writeList (Memory.write m a b) (a + 1) bs

/-- Every address of the list is above `a`. -/
def Memory.above (a : Nat) : Memory → Bool
  | [] => true
  | (k, _) :: rest => decide (a < k) && Memory.above a rest

/-- The canonical form: addresses strictly rising. Since an unlisted address reads as no value, no
entry can equal what an unlisted address reads as. -/
def Memory.wf : Memory → Bool
  | [] => true
  | (k, _) :: rest => Memory.above k rest && Memory.wf rest

end Sys2Proof.Machine
end

