-- ==== Sys2Proof/Machine/State.lean ====
section
/-! DEFINITION. The machine's state as plain data (spec/10_state.md R79), the ways a step can stop,
and reset (spec/70_reset_and_hazards.md R341, R342). -/

namespace Sys2Proof.Machine

/-- Why the machine stops with a fault. -/
inductive Fault
  /-- The hart reads (to fetch, or to walk a page table) a byte of memory that nothing has written:
  the contents of memory are the platform's (R342, D8). Raised by `physRead`. SAFE: the model stops
  where the hardware reads some byte. -/
  | unwrittenMemory (addr : Nat)
  deriving DecidableEq, Repr

/-- Why the machine refuses to go on. -/
inductive Refusal
  /-- An instruction without a meaning yet. No arm answers it: every instruction is modelled. SAFE. -/
  | notModelled (mnemonic : String)
  /-- A word whose major opcode is not SYSTEM, which a model of this spec refuses (R209, D5). Raised by
  `runDecoded`. SAFE. -/
  | notSystemOpcode (w : BitVec 32)
  /-- Fewer than four bytes were given to the decoder (R201). A fetch reads four, so no step raises
  it; `runDecoded` names it because the decoder is total. SAFE. -/
  | truncatedInstruction
  /-- An implicit access of the hart to a device other than `mtime`, `mtimecmp` and `MSIP`, whose
  behaviour the spec does not give (R149, R171). Raised by `physRead` and `physWrite`. SAFE. -/
  | deviceRegion (addr : Nat)
  deriving DecidableEq, Repr

/-- The state of one hart and of the platform it sees (R79). -/
structure State where
  /-- The parameters (R8, R9); no step changes them. -/
  cfg : Config
  /-- The current privilege mode (R21). -/
  priv : Priv
  /-- `x0` to `x31`; the slot of `x0` is never read or written (R22). -/
  regs : Vector Word 32
  /-- The address of the instruction being executed (R23). -/
  pc : Word
  /-- The stored fields of `mstatus` (R87). -/
  mstatus : Mstatus
  /-- `medeleg`, `mideleg`, `sedeleg`, `sideleg` (R99, R121). -/
  deleg : Delegation
  /-- `mie` (R100). -/
  mie : Word
  /-- The software-writable bits of `mip`, with `seip_sw` and `ueip_sw` at bits 9 and 8 (R101, R102). -/
  mipSw : Word
  /-- `MSIP` and the signals of the interrupt controller (R311, R312). -/
  lines : IrqLines
  /-- `mtvec`, `mscratch`, `mepc`, `mcause`, `mtval` (R98, R107 to R110). -/
  mTrap : TrapRegs
  /-- `stvec`, `sscratch`, `sepc`, `scause`, `stval` (R113, R116). -/
  sTrap : TrapRegs
  /-- `utvec`, `uscratch`, `uepc`, `ucause`, `utval` (R122). -/
  uTrap : TrapRegs
  /-- The counters and counter enables (R104, R106). -/
  counters : Counters
  /-- The timer register `mtime` (R103). -/
  mtime : BitVec 64
  /-- The timer compare register `mtimecmp` of this hart (R103). -/
  mtimecmp : BitVec 64
  /-- `satp` (R120). -/
  satp : Word
  /-- `fcsr`: `fflags` in bits 4:0, `frm` in bits 7:5 (R123). -/
  fcsr : Byte
  /-- The PMP entries (R172). -/
  pmp : Pmp
  /-- `tselect`, `tdata1` to `tdata3` (R39, D22). -/
  triggers : Triggers
  /-- The address-translation cache (R186). -/
  tlb : List TlbEntry
  /-- The wait-for-interrupt flag (R256). -/
  waiting : Bool
  /-- Physical memory (R140). -/
  mem : Memory
  /-- The physical memory attributes now: those of the parameter `Pma` until the platform configures them
  anew, by means of its own (R171, D8). -/
  pma : List PmaRegion
  /-- What will arrive from outside at the coming instruction boundaries, the next first (D21). -/
  inputs : List Input
  /-- The open choices of the present boundary (R186, R256). -/
  draws : Draws
  /-- The model's own counter of free values drawn: the number of the next read of a non-standard
  CSR (notes/assumptions/8.md). -/
  drawCount : Nat
  deriving DecidableEq, Repr

/-! ## Reset -/

/-- The configuration byte of PMP entry `i` after reset: `A = OFF`, `L = 0`, the other bits as they were
where the field holds the byte they make (R342, D4). -/
def resetPmpByte (c : Config) (i : Fin 16) (b : Byte) : Byte :=
  let off := c.pmpByteForm b &&& 0x67
  if c.warlHolds (.pmpcfg i) (off.zeroExtend 64) then off else 0

/-- Reset of the hart (R341, R342): `priv`, `MIE`, `MPRV`, `pc`, `mcause` take their reset values, the
PMP entries, `MSIP` and `waiting` those of D4; the translation cache is empty, where D4 lets it hold what is
consistent with memory (DESIGN CHOICE of notes/assumptions/1.md); every other register keeps what it held, made
legal for its field. Where R342 says "unspecified" the result is thus whatever the
state before holds: a statement about every `s` draws those values freely. Memory with its attributes, `mtime`
and the signals from outside are the platform's and stay. -/
def State.hartReset (s : State) : State :=
  let c := s.cfg
  { s with
    priv := .machine
    regs := s.regs.map c.trunc
    pc := c.alignPc c.resetVector
    mstatus := { s.mstatus.legalize c with mie := false, mprv := false }
    deleg :=
      { medeleg := c.legalize .medeleg s.deleg.medeleg
        mideleg := c.legalize .mideleg s.deleg.mideleg
        sedeleg := c.legalize .sedeleg s.deleg.sedeleg
        sideleg := c.legalize .sideleg s.deleg.sideleg }
    mie := s.mie &&& c.intMask
    mipSw := s.mipSw &&& c.mipWritable
    lines := { s.lines with msip := false }
    mTrap :=
      { s.mTrap.legalize c .machine with
        tvec := c.legalize (.tvec .machine) (c.mtvecHardwired.getD s.mTrap.tvec)
        cause := 0 }
    sTrap := s.sTrap.legalize c .supervisor
    uTrap := s.uTrap.legalize c .user
    counters :=
      { mcycle := s.counters.mcycle
        minstret := s.counters.minstret
        hpmCounter := Vector.ofFn fun i =>
          if c.hpmExists (i.val + 3) then s.counters.hpmCounter[i] &&& c.hpmCounterBits i else 0
        hpmEvent := Vector.ofFn fun i =>
          if c.hpmExists (i.val + 3) then c.legalize (.hpmevent i) s.counters.hpmEvent[i] else 0
        mcounteren := c.legalEnable .mcounteren s.counters.mcounteren
        scounteren := c.legalEnable .scounteren s.counters.scounteren }
    satp := c.legalSatp 0 (c.trunc s.satp)
    pmp :=
      { entryCfg := Vector.ofFn fun i => resetPmpByte c i s.pmp.entryCfg[i]
        entryAddr := s.pmp.entryAddr.map c.legalPmpAddr }
    triggers :=
      { tselect := c.trunc s.triggers.tselect
        tdata1 := c.trunc s.triggers.tdata1
        tdata2 := c.trunc s.triggers.tdata2
        tdata3 := c.trunc s.triggers.tdata3 }
    tlb := []
    waiting := false }

/-- Trap registers that all hold zero. -/
def TrapRegs.zero : TrapRegs := { tvec := 0, scratch := 0, epc := 0, cause := 0, tval := 0 }

/-- The state whose reset is `State.reset`: each register whose reset value the spec leaves
unspecified holds zero (DESIGN CHOICE, notes/assumptions/1.md), but for `mtimecmp`, which holds the
all-ones value of R343 item 3. The interrupt signals from outside, whose levels the spec does not give
either, are low (the same entry). Nothing is listed in memory. -/
def State.blank (c : Config) : State where
  cfg := c
  priv := .machine
  regs := Vector.replicate 32 0
  pc := 0
  mstatus :=
    { uie := false, sie := false, mie := false, upie := false, spie := false, mpie := false,
      spp := false, mpp := c.leastPriv, fs := 0, mprv := false, sum := false, mxr := false,
      tvm := false, tw := false, tsr := false }
  deleg := { medeleg := 0, mideleg := 0, sedeleg := 0, sideleg := 0 }
  mie := 0
  mipSw := 0
  lines := { msip := false, meip := false, seip := false, ueip := false }
  mTrap := TrapRegs.zero
  sTrap := TrapRegs.zero
  uTrap := TrapRegs.zero
  counters :=
    { mcycle := 0, minstret := 0, hpmCounter := Vector.replicate 29 0,
      hpmEvent := Vector.replicate 29 0, mcounteren := 0, scounteren := 0 }
  mtime := 0
  mtimecmp := BitVec.allOnes 64
  satp := 0
  fcsr := 0
  pmp := { entryCfg := Vector.replicate 16 0, entryAddr := Vector.replicate 16 0 }
  triggers := { tselect := 0, tdata1 := 0, tdata2 := 0, tdata3 := 0 }
  tlb := []
  waiting := false
  mem := []
  pma := c.pma
  inputs := []
  draws := Draws.none
  drawCount := 0

/-- The machine after reset with the given parameters. -/
def State.resetWith (c : Config) : State := (State.blank c).hartReset

/-- The machine right after reset, with the parameters of `CFG0` (R341, R342). -/
def State.reset : State := State.resetWith Config.cfg0

end Sys2Proof.Machine
end

