-- ==== Sys2Proof/Machine/Flags.lean ====
section
/-! DEFINITION. The status and pending bits: `mstatus` as a word and its views, the interrupt-enable and
privilege stack (spec/11_csr_fields.md R87 to R97, R112, R122), and the pending bits of `mip`
(R100 to R103, R114). The hart has no arithmetic flags (spec/10_state.md R34). -/

namespace Sys2Proof.Machine

/-! ## `mstatus` -/

/-- `SD = 1` iff `FS = 3` or `XS = 3`; `XS` is hard-wired 0, as the spec has no further extension
state (R97). -/
def Mstatus.sd (m : Mstatus) : Bool := m.fs == 3

/-- `mstatus` as it is read (R87): reserved fields zero (D14), `UXL` and `SXL` fixed to `MXL` on RV64
for the modes that exist (R90, D15). -/
def Mstatus.toWord (c : Config) (m : Mstatus) : Word :=
  wordOfBits
    [(0, m.uie), (1, m.sie), (3, m.mie), (4, m.upie), (5, m.spie), (7, m.mpie), (8, m.spp),
     (11, m.mpp.enc.getLsbD 0), (12, m.mpp.enc.getLsbD 1),
     (13, m.fs.getLsbD 0), (14, m.fs.getLsbD 1),
     (17, m.mprv), (18, m.sum), (19, m.mxr), (20, m.tvm), (21, m.tw), (22, m.tsr),
     (33, c.xlen == .rv64 && c.hasU), (35, c.xlen == .rv64 && c.hasS),
     (c.topBit, m.sd)]

/-- The bits of `mstatus` that `sstatus` shows (R112): `UIE`, `SIE`, `UPIE`, `SPIE`, `SPP`, `FS`,
`XS`, `SUM`, `MXR`, on RV64 `UXL`, and `SD`. -/
def sstatusMask (c : Config) : Word :=
  0xDE133 ||| (if c.xlen == .rv64 then 0x300000000 else 0) ||| BitVec.twoPow 64 c.topBit

/-- The bits of `mstatus` that `ustatus` shows: `UIE`, `UPIE` (R122). -/
def ustatusMask : Word := 0x11

/-- The global interrupt enable of a mode (R88). -/
def Mstatus.ie (m : Mstatus) : Priv → Bool
  | .user => m.uie
  | .supervisor => m.sie
  | .machine => m.mie

/-- Entering a trap in mode `x` from mode `y`: `xPIE` takes `xIE`, `xIE` is cleared, `xPP` takes `y`
(R89, R300). -/
def Mstatus.push (m : Mstatus) (x y : Priv) : Mstatus :=
  match x with
  | .machine => { m with mpie := m.mie, mie := false, mpp := y }
  | .supervisor => { m with spie := m.sie, sie := false, spp := y == .supervisor }
  | .user => { m with upie := m.uie, uie := false }

/-- The mode a return from mode `x` goes to: `xPP`, and U for URET (R253 to R255). -/
def Mstatus.previous (m : Mstatus) : Priv → Priv
  | .machine => m.mpp
  | .supervisor => if m.spp then .supervisor else .user
  | .user => .user

/-- Returning from a trap in mode `x`: `xIE` takes `xPIE`, `xPIE` is set, `xPP` becomes the
least-privileged mode it can hold; `MPRV` stays (R253 to R255, R91). -/
def Mstatus.pop (c : Config) (m : Mstatus) : Priv → Mstatus
  | .machine => { m with mie := m.mpie, mpie := true, mpp := c.leastPriv }
  | .supervisor => { m with sie := m.spie, spie := true, spp := false }
  | .user => { m with uie := m.upie, upie := true }

/-! ## Pending interrupts -/

/-- `MTIP`: pending exactly while `mtime >= mtimecmp`, unsigned (R103). -/
def State.mtip (s : State) : Bool := s.mtimecmp ≤ s.mtime

/-- The read-only bits of `mip`: `MSIP`, `MTIP`, `MEIP` (R101). -/
def State.mipHardware (s : State) : Word :=
  wordOfBits [(3, s.lines.msip), (7, s.mtip), (11, s.lines.meip)]

/-- The signals that `SEIP` and `UEIP` are combined with: `seip_ext`, `ueip_ext` (R102). -/
def State.mipExternal (s : State) : Word :=
  wordOfBits [(8, s.lines.ueip), (9, s.lines.seip)]

/-- `mip` as it is read, with `SEIP` as `seip_sw | seip_ext` (R102); bits of absent modes are 0 (R101). -/
def State.mip (s : State) : Word :=
  (s.mipSw ||| s.mipHardware ||| s.mipExternal) &&& s.cfg.intMask

/-- `mip` as a CSRRS or CSRRC takes its old value: bits 9 and 8 are the software-writable bits alone
(R102, R231). -/
def State.mipRmw (s : State) : Word := (s.mipSw ||| s.mipHardware) &&& s.cfg.intMask

/-- The bits of `mip` and `mie` visible through `sip` and `sie` (R114). -/
def State.sVisible (s : State) : Word := s.cfg.sVisible s.deleg.mideleg

/-! ## Floating-point state -/

/-- `FS` after an access to floating-point state, if the access makes it Dirty (R97, U63). -/
def Mstatus.dirtyFs (m : Mstatus) (dirty : Bool) : Mstatus := if dirty then { m with fs := 3 } else m

end Sys2Proof.Machine
end

