-- ==== Sys2Proof/Machine/Ops.lean ====
section
/-! DEFINITION. The named operations over registers and control state: integer registers, the program
counter, retirement, taking a trap and returning from one (spec/00_scope.md R12, R14;
spec/60_exceptions.md R290 to R302; spec/41_privileged_instructions.md R253 to R255). -/

namespace Sys2Proof.Machine

/-- The outcome of an operation inside a step: a value; an exception with its trap value, which ends
the instruction (R14); or a stop of the machine. -/
inductive Res (α : Type)
  | ok (a : α)
  | exc (e : Exception) (tval : Word)
  | fault (f : Fault)
  | refused (r : Refusal)
  deriving Repr

/-- Go on with the value, if there is one. -/
def Res.bind {α β : Type} (x : Res α) (f : α → Res β) : Res β :=
  match x with
  | .ok a => f a
  | .exc e t => .exc e t
  | .fault r => .fault r
  | .refused r => .refused r

/-! ## Registers and the program counter -/

/-- `x[i]`; `x0` reads as zero (R12, R22). -/
def State.readReg (s : State) (r : Reg) : Word := if r = 0 then 0 else s.cfg.trunc s.regs[r]

/-- `x[i] <- v`; a write to `x0` is discarded (R12, R22). -/
def State.writeReg (s : State) (r : Reg) (v : Word) : State :=
  if r = 0 then s else { s with regs := s.regs.set r (s.cfg.trunc v) }

/-- `pc + 4` modulo `2^XLEN` (R23). -/
def State.nextPc (s : State) : Word := s.cfg.trunc (s.pc + 4)

/-- `minstret` as an instruction retires (R345, R104). -/
def Counters.retire (c : Counters) : Counters := { c with minstret := c.minstret + 1 }

/-- The instruction completes and control passes to `target`. `counted` is false when the instruction
itself wrote `minstret`: its own retirement is not added on top (R104, R239). -/
def State.retireTo (s : State) (target : Word) (counted : Bool) : State :=
  { s with pc := target, counters := if counted then s.counters.retire else s.counters }

/-- The instruction completes and control passes to the next one (R12, R345). -/
def State.advance (s : State) (counted : Bool) : State := s.retireTo s.nextPc counted

/-- The trap registers of a mode (R300). -/
def State.trapRegs (s : State) : Priv → TrapRegs
  | .user => s.uTrap
  | .supervisor => s.sTrap
  | .machine => s.mTrap

/-- Replace the trap registers of a mode. -/
def State.setTrapRegs (s : State) (x : Priv) (r : TrapRegs) : State :=
  match x with
  | .user => { s with uTrap := r }
  | .supervisor => { s with sTrap := r }
  | .machine => { s with mTrap := r }

/-! ## Causes -/

/-- The exception codes of R290. -/
def Exception.code : Exception → Nat
  | .instrAddrMisaligned => 0
  | .instrAccessFault => 1
  | .illegalInstruction => 2
  | .breakpoint => 3
  | .loadAddrMisaligned => 4
  | .loadAccessFault => 5
  | .storeAddrMisaligned => 6
  | .storeAccessFault => 7
  | .ecallFromU => 8
  | .ecallFromS => 9
  | .ecallFromM => 11
  | .instrPageFault => 12
  | .loadPageFault => 13
  | .storePageFault => 15

/-- The interrupt codes of R291. -/
def Interrupt.code : Interrupt → Nat
  | .userSoftware => 0
  | .supervisorSoftware => 1
  | .machineSoftware => 3
  | .userTimer => 4
  | .supervisorTimer => 5
  | .machineTimer => 7
  | .userExternal => 8
  | .supervisorExternal => 9
  | .machineExternal => 11

/-- The value of `xcause` (R109, R300): the Interrupt bit and the code. -/
def causeWord (c : Config) (intr : Bool) (code : Nat) : Word :=
  (if intr then BitVec.twoPow 64 c.topBit else 0) ||| BitVec.ofNat 64 code

/-! ## Delegation -/

/-- `Target` of an exception raised in the current mode (R295, R299). -/
def State.exceptionTarget (s : State) (e : Exception) : Priv :=
  if s.priv = .machine then .machine
  else if s.cfg.hasS && s.deleg.medeleg.getLsbD e.code then
    if s.priv == .user && s.cfg.n && s.deleg.sedeleg.getLsbD e.code then .user else .supervisor
  else if s.priv == .user && !s.cfg.hasS && s.cfg.n && s.deleg.medeleg.getLsbD e.code then .user
  else .machine

/-- `Target` of an interrupt, whatever the current mode (R295, R299). -/
def State.interruptTarget (s : State) (i : Interrupt) : Priv :=
  if s.cfg.hasMdeleg && s.deleg.mideleg.getLsbD i.code then
    if s.cfg.hasS then
      if s.cfg.n && s.deleg.sideleg.getLsbD i.code then .user else .supervisor
    else .user
  else .machine

/-! ## Taking a trap -/

/-- The address a trap into mode `x` goes to (R98, R301). -/
def State.trapVector (s : State) (x : Priv) (intr : Bool) (code : Nat) : Word :=
  let v := (s.trapRegs x).tvec
  let base := clearLow 2 (s.cfg.trunc v)
  if intr && v.extractLsb' 0 2 == 1 then s.cfg.trunc (base + BitVec.ofNat 64 (4 * code)) else base

/-- Trap entry, R300, as one step and nothing else: `xepc`, `xcause` and `xtval` are written, the
interrupt-enable stack of `x` is pushed, the mode becomes `x` and control passes to the vector. -/
def State.takeTrap (s : State) (x : Priv) (intr : Bool) (code : Nat) (tval : Word) : State :=
  { s.setTrapRegs x
      { s.trapRegs x with
        epc := s.cfg.alignPc s.pc
        cause := causeWord s.cfg intr code
        tval := s.cfg.trunc tval } with
    mstatus := s.mstatus.push x s.priv
    priv := x
    waiting := false
    pc := s.trapVector x intr code }

/-- `raise E(tval)`: the instruction has no effect and the exception is taken in its target mode
(R14, R299, R300). -/
def State.raise (s : State) (e : Exception) (tval : Word) : State :=
  s.takeTrap (s.exceptionTarget e) false e.code tval

/-- Taking an interrupt: its trap value is zero (R296, D21). -/
def State.takeInterrupt (s : State) (i : Interrupt) : State :=
  s.takeTrap (s.interruptTarget i) true i.code 0

/-- `tval_ii`, the trap value of an illegal instruction (R297, D18). -/
def State.illegalTval (s : State) (w : BitVec 32) : Word :=
  if s.cfg.illegalTvalBits then w.zeroExtend 64 else 0

/-- An illegal-instruction exception for the word `w` (R281, R297). -/
def State.illegal (s : State) (w : BitVec 32) : State :=
  s.raise .illegalInstruction (s.illegalTval w)

/-! ## Returning from a trap -/

/-- `xRET`: the mode before the trap and its interrupt enable are restored and control passes to
`xepc`, whose low bits read as zero (R253 to R255, R302). -/
def State.trapReturn (s : State) (x : Priv) : State :=
  { s with mstatus := s.mstatus.pop s.cfg x, priv := s.mstatus.previous x }.retireTo
    (s.cfg.alignPc (s.trapRegs x).epc) true

end Sys2Proof.Machine
end

