-- ==== Sys2Proof/Machine/Operands.lean ====
section
/-! DEFINITION. Every operand form of the instructions: the source of a CSR instruction, what it reads
and writes, and the value it writes (spec/30_encoding.md R205, spec/40_csr_instructions.md R236), and the
operands of SFENCE.VMA (spec/41_privileged_instructions.md R257). -/

namespace Sys2Proof.Machine

/-- What a CSR instruction does with the old value and its operand (R230 to R235). -/
inductive CsrOp
  | write
  | set
  | clear
  deriving DecidableEq, Repr

/-- The source operand of a CSR instruction: a register, or the 5-bit immediate `uimm` (R205). -/
inductive CsrSource
  | reg (rs1 : Reg)
  | imm (uimm : BitVec 5)
  deriving DecidableEq, Repr

/-- The value of the source, sampled before anything is written: the register, or `uimm`
zero-extended (R205, R230). -/
def State.sourceValue (s : State) : CsrSource → Word
  | .reg r => s.readReg r
  | .imm u => u.zeroExtend 64

/-- The source is `x0` or a zero immediate; decided by the register number, not by its value (R236). -/
def CsrSource.isZero : CsrSource → Bool
  | .reg r => r == 0
  | .imm u => u == 0

/-- Whether the instruction reads the CSR: CSRRW and CSRRWI only if `rd` is not `x0` (R236). -/
def CsrOp.reads (op : CsrOp) (rd : Reg) : Bool := op != .write || rd != 0

/-- Whether the instruction attempts a write: the set and clear forms only if the source is not
`x0` or zero (R236). -/
def CsrOp.writes (op : CsrOp) (src : CsrSource) : Bool := op == .write || !src.isZero

/-- The value written, from the old value and the operand (R230 to R235). -/
def CsrOp.result (op : CsrOp) (old operand : Word) : Word :=
  match op with
  | .write => operand
  | .set => old ||| operand
  | .clear => old &&& ~~~operand

/-- A CSR instruction's parts: what it does, `rd`, the CSR address and the source (R202, R205). -/
structure CsrForm where
  op : CsrOp
  rd : Reg
  csr : CsrAddr
  src : CsrSource
  deriving DecidableEq, Repr

/-- The parts of the six CSR instructions; none for the others (R206). -/
def csrForm : Instr → Option CsrForm
  | .csrrw rd csr rs1 => some ⟨.write, rd, csr, .reg rs1⟩
  | .csrrs rd csr rs1 => some ⟨.set, rd, csr, .reg rs1⟩
  | .csrrc rd csr rs1 => some ⟨.clear, rd, csr, .reg rs1⟩
  | .csrrwi rd csr uimm => some ⟨.write, rd, csr, .imm uimm⟩
  | .csrrsi rd csr uimm => some ⟨.set, rd, csr, .imm uimm⟩
  | .csrrci rd csr uimm => some ⟨.clear, rd, csr, .imm uimm⟩
  | .ecall | .ebreak | .uret | .sret | .mret | .wfi | .sfenceVma _ _ => none

/-- The low `ASIDLEN` bits of an ASID operand; the others are ignored (R257). -/
def asidOperand (c : Config) (v : Word) : Nat :=
  match c.xlen with
  | .rv32 => v.toNat % 2 ^ min c.asidLen 9
  | .rv64 => v.toNat % 2 ^ min c.asidLen 16

end Sys2Proof.Machine
end

