-- ==== Sys2Proof/Machine/CsrAccess.lean ====
section
/-! DEFINITION. Access to the CSRs: the checks (spec/40_csr_instructions.md R221 to R228), the value each
register reads as and the effect of writing it (R224, R225, R237, with spec/11_csr_fields.md), and the
one read-modify-write that the six CSR instructions share (R220, R236). -/

namespace Sys2Proof.Machine

/-! ## The checks -/

/-- The user-level counter addresses (R228 (a)). -/
def isUserCounter (a : CsrAddr) : Bool :=
  (0xC00 ≤ a.toNat && a.toNat ≤ 0xC1F) || (0xC80 ≤ a.toNat && a.toNat ≤ 0xC9F)

/-- R228 (a): the counter enables refuse the access. -/
def State.counterGate (s : State) (a : CsrAddr) : Bool :=
  let n := a.toNat % 32
  isUserCounter a &&
    (match s.priv with
     | .machine => false
     | .supervisor => !s.counters.mcounteren.getLsbD n
     | .user =>
       !s.counters.mcounteren.getLsbD n || (s.cfg.hasS && !s.counters.scounteren.getLsbD n))

/-- R228 (b): `TVM` traps S-mode access to `satp` (R94). -/
def State.tvmGate (s : State) (a : CsrAddr) : Bool :=
  a == 0x180 && s.priv == .supervisor && s.mstatus.tvm

/-- R228 (c): floating-point state is off (R97). -/
def State.fsGate (s : State) (a : CsrAddr) : Bool :=
  (a == 0x001 || a == 0x002 || a == 0x003) && s.mstatus.fs == 0

/-- `InterceptCsr`: a more privileged level traps the access, so it never holds in M-mode (R226). -/
def State.intercepted (s : State) (a : CsrAddr) : Bool :=
  s.priv != .machine && s.cfg.interceptCsr.contains (s.priv, a)

/-- `Gated` (R226, R228). -/
def State.gated (s : State) (a : CsrAddr) : Bool :=
  s.intercepted a || s.counterGate a || s.tvmGate a || s.fsGate a

/-- The privilege condition `priv >= a[9:8]`, as unsigned numbers (R221, R27). -/
def State.mayAccess (s : State) (a : CsrAddr) : Bool := csrLevel a ≤ s.priv.enc

/-- The register an access reaches if every check passes (R221 to R228); `none` raises an
illegal-instruction exception. `write` says whether the instruction attempts a write. -/
def State.csrAccess (s : State) (a : CsrAddr) (write : Bool) : Option Csr :=
  if s.mayAccess a && !(write && csrReadOnly a) && !debugOnly a && !s.gated a then csrAt s.cfg a
  else none

/-! ## Reading -/

/-- Bits 31:0 of a 64-bit counter on RV32, the whole of it on RV64 (R104). -/
def counterLow (c : Config) (v : BitVec 64) : Word := c.trunc v

/-- Bits 63:32 of a 64-bit counter (R104). -/
def counterHigh (v : BitVec 64) : Word := v >>> 32

/-- Event counter `n + 3`, zero if it is hard-wired (R104, R325). -/
def State.hpmCounterValue (s : State) (n : Fin 29) : BitVec 64 :=
  if s.cfg.hpmExists (n.val + 3) then s.counters.hpmCounter[n] &&& s.cfg.hpmCounterBits n else 0

/-- `pmpcfg k`: entries `4k` to `4k+3` on RV32, `4k` to `4k+7` on RV64 (R172). -/
def State.pmpcfgValue (s : State) (k : Fin 4) : Word :=
  let byte (j : Nat) : Word :=
    if 4 * k.val + j < s.cfg.pmpCount then
      ((s.pmp.entryCfg[4 * k.val + j]?.getD 0).zeroExtend 64) <<< (8 * j)
    else 0
  let low := byte 0 ||| byte 1 ||| byte 2 ||| byte 3
  match s.cfg.xlen with
  | .rv32 => low
  | .rv64 => low ||| byte 4 ||| byte 5 ||| byte 6 ||| byte 7

/-- `pmpaddr n`: with a granularity above four bytes its low bits read as fixed values (R176). R176 does
not say which; PRESUMED, as in later versions of the architecture, ones below the granularity for NAPOT and
zeros otherwise (notes/assumptions/14.md). -/
def State.pmpaddrValue (s : State) (n : Fin 16) : Word :=
  s.cfg.legalPmpAddr
    (if s.pmp.entryCfg[n].getLsbD 4 then s.pmp.entryAddr[n] ||| lowMask (s.cfg.pmpGrain - 1)
     else clearLow s.cfg.pmpGrain s.pmp.entryAddr[n])

/-- `ReadValue` of a CSR (R224), assembled from the fields that exist. -/
def State.readCsr (s : State) : Csr → Word
  | .mstatus => s.mstatus.toWord s.cfg
  | .sstatus => s.mstatus.toWord s.cfg &&& sstatusMask s.cfg
  | .ustatus => s.mstatus.toWord s.cfg &&& ustatusMask
  | .mie => s.mie
  | .sie => s.mie &&& s.sVisible
  | .uie => s.mie &&& s.cfg.uVisible
  | .mip => s.mip
  | .sip => s.mip &&& s.sVisible
  | .uip => s.mip &&& s.cfg.uVisible
  | .tvec x => s.cfg.trunc (s.trapRegs x).tvec
  | .scratch x => s.cfg.trunc (s.trapRegs x).scratch
  | .epc x => s.cfg.alignPc (s.trapRegs x).epc
  | .cause x => s.cfg.trunc (s.trapRegs x).cause
  | .tval x => s.cfg.trunc (s.trapRegs x).tval
  | .fflags => (s.fcsr &&& 0x1F).zeroExtend 64
  | .frm => (s.fcsr >>> 5).zeroExtend 64
  | .fcsr => s.fcsr.zeroExtend 64
  | .cycle | .mcycle => counterLow s.cfg s.counters.mcycle
  | .cycleh | .mcycleh => counterHigh s.counters.mcycle
  | .time => counterLow s.cfg s.mtime
  | .timeh => counterHigh s.mtime
  | .instret | .minstret => counterLow s.cfg s.counters.minstret
  | .instreth | .minstreth => counterHigh s.counters.minstret
  | .hpmcounter n => counterLow s.cfg (s.hpmCounterValue n)
  | .mhpmcounter n => counterLow s.cfg (s.hpmCounterValue n)
  | .hpmcounterh n => counterHigh (s.hpmCounterValue n)
  | .mhpmcounterh n => counterHigh (s.hpmCounterValue n)
  | .mhpmevent n => if s.cfg.hpmExists (n.val + 3) then s.cfg.trunc s.counters.hpmEvent[n] else 0
  | .medeleg => s.cfg.trunc s.deleg.medeleg
  | .mideleg => s.cfg.trunc s.deleg.mideleg
  | .sedeleg => s.cfg.trunc s.deleg.sedeleg
  | .sideleg => s.cfg.trunc s.deleg.sideleg
  | .mcounteren => s.counters.mcounteren.zeroExtend 64
  | .scounteren => s.counters.scounteren.zeroExtend 64
  | .satp => s.cfg.trunc s.satp
  | .mvendorid => s.cfg.trunc s.cfg.vendorId
  | .marchid => s.cfg.trunc s.cfg.archId
  | .mimpid => s.cfg.trunc s.cfg.impId
  | .mhartid => s.cfg.trunc s.cfg.hartId
  | .misa => s.cfg.misa
  | .pmpcfg k => s.pmpcfgValue k
  | .pmpaddr n => s.pmpaddrValue n
  | .tselect => s.cfg.trunc s.triggers.tselect
  | .tdata1 => s.cfg.trunc s.triggers.tdata1
  | .tdata2 => s.cfg.trunc s.triggers.tdata2
  | .tdata3 => s.cfg.trunc s.triggers.tdata3
  | .nonStandard a => s.cfg.trunc (Config.nonStandardRead a s.drawCount)

/-- The old value of a read-modify-write (R231): that of a read, but for `mip`, `sip` and `uip`, where
`SEIP` and `UEIP` are the software-writable bits alone (R102). -/
def State.rmwValue (s : State) (r : Csr) : Word :=
  match r with
  | .mip => s.mipRmw
  | .sip => s.mipRmw &&& s.sVisible
  | .uip => s.mipRmw &&& s.cfg.uVisible
  | r => s.readCsr r

/-- Whether a CSR is floating-point state (R97). -/
def Csr.isFloat : Csr → Bool
  | .fflags | .frm | .fcsr => true
  | _ => false

/-- The side effects of reading a CSR (R236): the next free value of a non-standard register, and
`FS` where any access makes it Dirty (R97). -/
def State.afterRead (s : State) : Csr → State
  | .nonStandard _ => { s with drawCount := s.drawCount + 1 }
  | r => { s with mstatus := s.mstatus.dirtyFs (r.isFloat && s.cfg.fsDirty == .onAccess) }

/-! ## Writing -/

/-- Replace bits 31:0 of a counter on RV32, all of it on RV64 (R104). -/
def setCounterLow (c : Config) (old : BitVec 64) (v : Word) : BitVec 64 :=
  match c.xlen with
  | .rv32 => mergeBits 0xFFFFFFFF old v
  | .rv64 => v

/-- Replace bits 63:32 of a counter (R104). -/
def setCounterHigh (old : BitVec 64) (v : Word) : BitVec 64 := mergeBits 0xFFFFFFFF00000000 old (v <<< 32)

/-- A write to floating-point state, with `FS` becoming Dirty as the policy says (R97, U63). -/
def State.writeFcsr (s : State) (v : Byte) : State :=
  { s with
    fcsr := v
    mstatus := s.mstatus.dirtyFs (s.cfg.fsDirty != .onChange || v != s.fcsr) }

/-- A write to event counter `n + 3`, ignored where it is hard-wired (R104, R325). -/
def State.writeHpmCounter (s : State) (n : Fin 29) (v : BitVec 64) : State :=
  if s.cfg.hpmExists (n.val + 3) then
    { s with counters :=
      { s.counters with hpmCounter := s.counters.hpmCounter.set n (v &&& s.cfg.hpmCounterBits n) } }
  else s

/-- Whether PMP entry `i` is locked (R175). -/
def Pmp.locked (p : Pmp) (i : Nat) : Bool := (p.entryCfg[i]?.getD 0).getLsbD 7

/-- Whether PMP entry `i` matches top-of-range, `A = 1` (R173). -/
def Pmp.isTor (p : Pmp) (i : Nat) : Bool := (p.entryCfg[i]?.getD 0).extractLsb' 3 2 == 1

/-- The number of entries one `pmpcfg` register holds (R172). -/
def pmpPerReg (c : Config) : Nat :=
  match c.xlen with
  | .rv32 => 4
  | .rv64 => 8

/-- A write to `pmpcfg k`: each byte of an entry that exists and is not locked (R172, R175). -/
def State.writePmpcfg (s : State) (k : Fin 4) (v : Word) : State :=
  { s with pmp :=
    { s.pmp with entryCfg := Vector.ofFn fun i : Fin 16 =>
      if 4 * k.val ≤ i.val ∧ i.val < 4 * k.val + pmpPerReg s.cfg ∧ i.val < s.cfg.pmpCount
          ∧ s.pmp.locked i.val = false then
        s.cfg.legalPmpByte i (v.extractLsb' (8 * (i.val - 4 * k.val)) 8)
      else s.pmp.entryCfg[i] } }

/-- A write to `pmpaddr n`: ignored if the entry is locked, or if the next one is locked with
`A = TOR` (R175). -/
def State.writePmpaddr (s : State) (n : Fin 16) (v : Word) : State :=
  if s.pmp.locked n.val
      || (decide (n.val + 1 < s.cfg.pmpCount) && s.pmp.locked (n.val + 1) && s.pmp.isTor (n.val + 1)) then s
  else { s with pmp := { s.pmp with entryAddr := s.pmp.entryAddr.set n (s.cfg.legalPmpAddr v) } }

/-- A write to `xtvec`; a hard-wired `mtvec` ignores it (R98, R113). -/
def State.writeTvec (s : State) (x : Priv) (v : Word) : State :=
  if x = .machine ∧ s.cfg.mtvecHardwired.isSome then s
  else s.setTrapRegs x { s.trapRegs x with tvec := s.cfg.legalize (.tvec x) v }

/-- The effect of writing a CSR (R225, R237), field by field; `none` if a WLRL field raises. The
registers that only exist read-only never reach this (R223) and keep their value. -/
def State.writeCsr (s : State) (r : Csr) (value : Word) : Option State :=
  let v := s.cfg.trunc value
  match r with
  | .mstatus =>
    (s.cfg.writeMpp (v.extractLsb' 11 2)).map fun p =>
      { s with mstatus := s.mstatus.writeM s.cfg v p }
  | .sstatus => some { s with mstatus := s.mstatus.writeS s.cfg v }
  | .ustatus => some { s with mstatus := s.mstatus.writeU s.cfg v }
  | .mie => some { s with mie := v &&& s.cfg.intMask }
  | .sie => some { s with mie := mergeBits s.sVisible s.mie v }
  | .uie => some { s with mie := mergeBits s.cfg.uVisible s.mie v }
  | .mip => some { s with mipSw := v &&& s.cfg.mipWritable }
  | .sip => some { s with mipSw := mergeBits (s.cfg.sipWritable s.deleg.mideleg) s.mipSw v }
  | .uip => some { s with mipSw := mergeBits s.cfg.uipWritable s.mipSw v }
  | .tvec x => some (s.writeTvec x v)
  | .scratch x => some (s.setTrapRegs x { s.trapRegs x with scratch := v })
  | .epc x => some (s.setTrapRegs x { s.trapRegs x with epc := s.cfg.legalize (.epc x) (s.cfg.alignPc v) })
  | .cause x =>
    (s.cfg.writeCause x v).map fun w => s.setTrapRegs x { s.trapRegs x with cause := w }
  | .tval x => some (s.setTrapRegs x { s.trapRegs x with tval := v })
  | .fflags => some (s.writeFcsr ((s.fcsr &&& 0xE0) ||| (v.extractLsb' 0 8 &&& 0x1F)))
  | .frm => some (s.writeFcsr ((s.fcsr &&& 0x1F) ||| (v.extractLsb' 0 8 <<< 5)))
  | .fcsr => some (s.writeFcsr (v.extractLsb' 0 8))
  | .medeleg => some { s with deleg := { s.deleg with medeleg := s.cfg.legalize .medeleg v } }
  | .mideleg => some { s with deleg := { s.deleg with mideleg := s.cfg.legalize .mideleg v } }
  | .sedeleg => some { s with deleg := { s.deleg with sedeleg := s.cfg.legalize .sedeleg v } }
  | .sideleg => some { s with deleg := { s.deleg with sideleg := s.cfg.legalize .sideleg v } }
  | .mcounteren =>
    some { s with counters :=
      { s.counters with mcounteren := s.cfg.legalEnable .mcounteren (v.extractLsb' 0 32) } }
  | .scounteren =>
    some { s with counters :=
      { s.counters with scounteren := s.cfg.legalEnable .scounteren (v.extractLsb' 0 32) } }
  | .satp => some { s with satp := s.cfg.legalSatp s.satp v }
  | .mcycle =>
    some { s with counters :=
      { s.counters with mcycle := setCounterLow s.cfg s.counters.mcycle v } }
  | .mcycleh =>
    some { s with counters := { s.counters with mcycle := setCounterHigh s.counters.mcycle v } }
  | .minstret =>
    some { s with counters :=
      { s.counters with minstret := setCounterLow s.cfg s.counters.minstret v } }
  | .minstreth =>
    some { s with counters := { s.counters with minstret := setCounterHigh s.counters.minstret v } }
  | .mhpmcounter n => some (s.writeHpmCounter n (setCounterLow s.cfg (s.hpmCounterValue n) v))
  | .mhpmcounterh n => some (s.writeHpmCounter n (setCounterHigh (s.hpmCounterValue n) v))
  | .mhpmevent n =>
    if s.cfg.hpmExists (n.val + 3) then
      some { s with counters :=
        { s.counters with
          hpmEvent := s.counters.hpmEvent.set n (s.cfg.legalize (.hpmevent n) v) } }
    else some s
  | .pmpcfg k => some (s.writePmpcfg k v)
  | .pmpaddr n => some (s.writePmpaddr n v)
  | .tselect => some { s with triggers := { s.triggers with tselect := v } }
  | .tdata1 => some { s with triggers := { s.triggers with tdata1 := v } }
  | .tdata2 => some { s with triggers := { s.triggers with tdata2 := v } }
  | .tdata3 => some { s with triggers := { s.triggers with tdata3 := v } }
  | .nonStandard _ => some { s with drawCount := s.drawCount + 1 }
  | .misa => some s
  | .mvendorid | .marchid | .mimpid | .mhartid => some s
  | .cycle | .time | .instret | .hpmcounter _ => some s
  | .cycleh | .timeh | .instreth | .hpmcounterh _ => some s

/-- A write to this CSR writes `minstret` (R104). -/
def Csr.isInstret : Csr → Bool
  | .minstret | .minstreth => true
  | _ => false

/-! ## The read-modify-write -/

/-- The state after the read and the write of a CSR instruction on register `r`, before `rd` and `pc`;
`none` if a WLRL field raises (R220, R236, R237). -/
def State.csrUpdate (s : State) (op : CsrOp) (rd : Reg) (r : Csr) (src : CsrSource) : Option State :=
  let s₁ := if op.reads rd then s.afterRead r else s
  if op.writes src then s₁.writeCsr r (op.result (s.rmwValue r) (s.sourceValue src)) else some s₁

/-- A CSR instruction on register `r`, all checks passed: `rd` takes the old value, the CSR its new
one, and the instruction retires (R230 to R235). -/
def State.csrComplete (s t : State) (op : CsrOp) (rd : Reg) (r : Csr) (src : CsrSource) : State :=
  (if op.reads rd then t.writeReg rd (s.readCsr r) else t).advance (!(op.writes src && r.isInstret))

/-- The six CSR instructions (R230 to R235): every check is made before anything changes, and an
access that fails one raises an illegal-instruction exception (R225, R14). -/
def State.csrInstr (s : State) (i : Instr) (op : CsrOp) (rd : Reg) (a : CsrAddr) (src : CsrSource) : State :=
  match s.csrAccess a (op.writes src) with
  | none => s.illegal (encode i)
  | some r =>
    match s.csrUpdate op rd r src with
    | none => s.illegal (encode i)
    | some t => s.csrComplete t op rd r src

end Sys2Proof.Machine
end

