-- ==== Sys2Proof/Machine/CsrInstr.lean ====
section
/-! DEFINITION. The meanings of the six CSR instructions (spec/40_csr_instructions.md R230 to R236), over
the one read-modify-write of Machine/CsrAccess.lean. Each always gives a next state: either the access is
made and the instruction retires, or it raises an illegal-instruction exception. -/

namespace Sys2Proof.Machine

/-- CSRRW (R230). -/
def execCsrrw (rd : Reg) (csr : CsrAddr) (rs1 : Reg) (s : State) : Host.Outcome State Fault Refusal :=
  .next (s.csrInstr (.csrrw rd csr rs1) .write rd csr (.reg rs1))

/-- CSRRS (R231). -/
def execCsrrs (rd : Reg) (csr : CsrAddr) (rs1 : Reg) (s : State) : Host.Outcome State Fault Refusal :=
  .next (s.csrInstr (.csrrs rd csr rs1) .set rd csr (.reg rs1))

/-- CSRRC (R232). -/
def execCsrrc (rd : Reg) (csr : CsrAddr) (rs1 : Reg) (s : State) : Host.Outcome State Fault Refusal :=
  .next (s.csrInstr (.csrrc rd csr rs1) .clear rd csr (.reg rs1))

/-- CSRRWI (R233). -/
def execCsrrwi (rd : Reg) (csr : CsrAddr) (uimm : BitVec 5) (s : State) :
    Host.Outcome State Fault Refusal :=
  .next (s.csrInstr (.csrrwi rd csr uimm) .write rd csr (.imm uimm))

/-- CSRRSI (R234). -/
def execCsrrsi (rd : Reg) (csr : CsrAddr) (uimm : BitVec 5) (s : State) :
    Host.Outcome State Fault Refusal :=
  .next (s.csrInstr (.csrrsi rd csr uimm) .set rd csr (.imm uimm))

/-- CSRRCI (R235). -/
def execCsrrci (rd : Reg) (csr : CsrAddr) (uimm : BitVec 5) (s : State) :
    Host.Outcome State Fault Refusal :=
  .next (s.csrInstr (.csrrci rd csr uimm) .clear rd csr (.imm uimm))

end Sys2Proof.Machine
end

