-- ==== Sys2Proof/Machine/PhysMem.lean ====
section
/-! DEFINITION. Physical accesses: physical memory attributes and PMP (spec/21_translation_pmp.md R171 to
R176), the memory-mapped timer and software-interrupt registers (spec/11_csr_fields.md R103,
spec/60_exceptions.md R311), and little-endian reads and writes (spec/20_memory.md R146, R149). Physical
addresses are natural numbers. -/

namespace Sys2Proof.Machine

/-! ## The exceptions of an access type -/

/-- The page fault of an access (R181). -/
def Access.pageFault : Access → Exception
  | .fetch => .instrPageFault
  | .load => .loadPageFault
  | .store => .storePageFault

/-- The access fault of an access (R171, R174). -/
def Access.accessFault : Access → Exception
  | .fetch => .instrAccessFault
  | .load => .loadAccessFault
  | .store => .storeAccessFault

/-- The address-misaligned exception of an access (R290). -/
def Access.misaligned : Access → Exception
  | .fetch => .instrAddrMisaligned
  | .load => .loadAddrMisaligned
  | .store => .storeAddrMisaligned

/-! ## PMP -/

/-- The number of consecutive one bits at the low end, looking at `fuel` bits. -/
def trailingOnes : Nat → Nat → Nat
  | 0, _ => 0
  | fuel + 1, v => if v % 2 = 1 then 1 + trailingOnes fuel (v / 2) else 0

/-- The word address of entry `i`, with the low bits below the granularity at zero (R173, R176). -/
def Pmp.boundary (p : Pmp) (c : Config) (i : Nat) : Nat :=
  (clearLow c.pmpGrain (p.entryAddr[i]?.getD 0)).toNat

/-- The word address of entry `i`, with the low bits below a NAPOT region of the granularity at one
(R173, R176). -/
def Pmp.napot (p : Pmp) (c : Config) (i : Nat) : Nat :=
  ((p.entryAddr[i]?.getD 0) ||| lowMask (c.pmpGrain - 1)).toNat

/-- The bytes entry `i` matches, from the first address to the one past the last; none if it is OFF
(R173). With a granularity above four bytes the low address bits are the fixed ones that a read of the
register gives (R176). -/
def Pmp.range (p : Pmp) (c : Config) (i : Nat) : Option (Nat × Nat) :=
  let mode := ((p.entryCfg[i]?.getD 0).extractLsb' 3 2).toNat
  if mode = 0 then none
  else if mode = 1 then
    some (4 * (if i = 0 then 0 else p.boundary c (i - 1)), 4 * p.boundary c i)
  else if mode = 2 then some (4 * p.boundary c i, 4 * p.boundary c i + 4)
  else
    let a := p.napot c i
    let t := trailingOnes 64 a
    let base := 4 * (a / 2 ^ (t + 1) * 2 ^ (t + 1))
    some (base, base + 2 ^ (t + 3))

/-- Entry `i` matches some byte of the access of `n` bytes at `pa` (R174). -/
def Pmp.touches (p : Pmp) (c : Config) (i pa n : Nat) : Bool :=
  match p.range c i with
  | none => false
  | some (lo, hi) => max lo pa < min hi (pa + n)

/-- Entry `i` matches every byte of the access (R174). -/
def Pmp.covers (p : Pmp) (c : Config) (i pa n : Nat) : Bool :=
  match p.range c i with
  | none => false
  | some (lo, hi) => lo ≤ pa && pa + n ≤ hi

/-- The permission bit of entry `i` for an access: `R` load, `W` store, `X` fetch (R174). -/
def Pmp.permits (p : Pmp) (i : Nat) : Access → Bool
  | .load => (p.entryCfg[i]?.getD 0).getLsbD 0
  | .store => (p.entryCfg[i]?.getD 0).getLsbD 1
  | .fetch => (p.entryCfg[i]?.getD 0).getLsbD 2

/-- The entry that decides for an access to the bytes of `parts`, each a physical address and a number of
bytes: the lowest-numbered one that matches any byte of the access (R174). -/
def Pmp.decidingParts (p : Pmp) (c : Config) (parts : List (Nat × Nat)) : Option Nat :=
  (List.range c.pmpCount).find? fun i => parts.any fun q => p.touches c i q.1 q.2

/-- The PMP check of an access to the bytes of `parts` with effective privilege `priv`: the deciding entry
must match them all (R174, U50). -/
def Pmp.allowsParts (p : Pmp) (c : Config) (acc : Access) (priv : Priv) (parts : List (Nat × Nat)) : Bool :=
  match p.decidingParts c parts with
  | some i =>
    parts.all (fun q => p.covers c i q.1 q.2) && ((priv == .machine && !p.locked i) || p.permits i acc)
  | none => priv == .machine || c.pmpCount == 0

/-- The entry that decides for an access of `n` bytes at `pa` (R174). -/
def Pmp.deciding (p : Pmp) (c : Config) (pa n : Nat) : Option Nat := p.decidingParts c [(pa, n)]

/-- The PMP check of an access of `n` bytes at `pa` (R174). -/
def Pmp.allows (p : Pmp) (c : Config) (acc : Access) (priv : Priv) (pa n : Nat) : Bool :=
  p.allowsParts c acc priv [(pa, n)]

/-! ## Physical memory attributes -/

/-- The region that gives an address its attributes, if there is one (R171, D8); where listed regions overlap,
the first. -/
def regionAt (l : List PmaRegion) (a : Nat) : Option PmaRegion :=
  l.find? fun r => r.base ≤ a && a < r.base + r.size

/-- The permission of a region for an access type (R171). -/
def regionPermits (r : PmaRegion) : Access → Bool
  | .load => r.readable
  | .store => r.writable
  | .fetch => r.executable

/-- The attributes of an address permit an access of `width` bytes to its byte: its region is not empty and
supports the access type and the width (R171). -/
def pmaAllowsByte (l : List PmaRegion) (acc : Access) (width a : Nat) : Bool :=
  match regionAt l a with
  | some r => r.kind != .empty && regionPermits r acc && r.widths.contains width
  | none => false

/-- The PMA check of `n` bytes that belong to an access of `width` bytes: no attribute of any of its addresses
is violated (R171). That bytes in two regions pass where each region permits the access is DEDUCED:
notes/assumptions/18.md. -/
def pmaAllows (l : List PmaRegion) (acc : Access) (pa n width : Nat) : Bool :=
  (List.range n).all fun k => pmaAllowsByte l acc width (pa + k)

/-- Whether every address of a page-table entry supports its atomic update (R171, R183). -/
def pmaAtomic (l : List PmaRegion) (pa n : Nat) : Bool :=
  (List.range n).all fun k => (regionAt l (pa + k)).any fun r => r.atomic

/-- PMP, then PMA (R156 steps 3 and 4), on an access of `n` bytes: an access that violates either raises
the access fault of its type. -/
def State.physAllows (s : State) (p : Pmp) (acc : Access) (priv : Priv) (pa n : Nat) : Bool :=
  p.allows s.cfg acc priv pa n && pmaAllows s.pma acc pa n n

/-! ## Memory-mapped registers -/

/-- The offset of `a` in a register of `size` bytes at `base`, if it lies there. -/
def registerOffset (base : Option Nat) (size a : Nat) : Option Nat :=
  match base with
  | none => none
  | some b => if b ≤ a ∧ a < b + size then some (a - b) else none

/-- Byte `k` of a 64-bit register (R146). -/
def byteOf (v : BitVec 64) (k : Nat) : Byte := v.extractLsb' (8 * k) 8

/-- A 64-bit register with byte `k` replaced (R146). -/
def setByteOf (v : BitVec 64) (k : Nat) (b : Byte) : BitVec 64 :=
  mergeBits (0xFF#64 <<< (8 * k)) v (b.zeroExtend 64 <<< (8 * k))

/-- A byte of `mtime`, `mtimecmp` or `MSIP`, if the address is one of theirs (R103, R311). Their addresses are
parameters, which nothing keeps apart (R150, D8): of an address in two of them `mtime` has the byte, then
`mtimecmp`, then `MSIP`. DESIGN CHOICE of notes/assumptions/22.md. -/
def State.deviceByte (s : State) (a : Nat) : Option Byte :=
  match registerOffset s.cfg.mtimeAddr 8 a with
  | some k => some (byteOf s.mtime k)
  | none =>
    match registerOffset s.cfg.mtimecmpAddr 8 a with
    | some k => some (byteOf s.mtimecmp k)
    | none =>
      match registerOffset s.cfg.msipAddr 4 a with
      | some k => some (if k = 0 ∧ s.lines.msip = true then 1 else 0)
      | none => none

/-- Store a byte at a physical address: into `mtime`, `mtimecmp` or `MSIP` where one lies there, into
memory elsewhere; an address outside the physical address space holds nothing (R103, R311). R103 has
software write `mtimecmp` and says of no store to `mtime` what it does; that one changes it is a DESIGN CHOICE
of notes/assumptions/19.md. Where two of the registers overlap the store reaches one of them, `mtime` before
`mtimecmp` before `MSIP`: DESIGN CHOICE of notes/assumptions/22.md. Memory keeps a byte stored here whatever
attributes the address has, which the hart's own accesses are checked against and the stores of others are not:
DESIGN CHOICE of notes/assumptions/23.md. -/
def State.storeByte (s : State) (a : Nat) (b : Byte) : State :=
  match registerOffset s.cfg.mtimeAddr 8 a with
  | some k => { s with mtime := setByteOf s.mtime k b }
  | none =>
    match registerOffset s.cfg.mtimecmpAddr 8 a with
    | some k => { s with mtimecmp := setByteOf s.mtimecmp k b }
    | none =>
      match registerOffset s.cfg.msipAddr 4 a with
      | some k => if k = 0 then { s with lines := { s.lines with msip := b.getLsbD 0 } } else s
      | none => if a < 2 ^ s.cfg.physBits then { s with mem := s.mem.write a b } else s

/-- Store bytes at rising addresses. -/
def State.storeBytes (s : State) (a : Nat) : List Byte → State
  | [] => s
  | b :: bs => (s.storeByte a b).storeBytes (a + 1) bs

/-- Whether an address lies in an I/O region (R171). -/
def isIo (l : List PmaRegion) (a : Nat) : Bool :=
  match regionAt l a with
  | some r => r.kind == .io
  | none => false

/-- The address lies in an I/O region, in none of the registers of the hart's platform that the spec gives: what
an access does there the spec does not say (R149, R171). -/
def State.unknownDevice (s : State) (a : Nat) : Bool := isIo s.pma a && (s.deviceByte a).isNone

/-- The byte the hart reads at a physical address: that of a memory-mapped register where one lies there, else
that of memory (notes/assumptions/22.md). -/
def State.physByte (s : State) (a : Nat) : Res Byte :=
  match s.deviceByte a with
  | some b => .ok b
  | none =>
    if isIo s.pma a then .refused (.deviceRegion a)
    else match s.mem.read a with
      | some b => .ok b
      | none => .fault (.unwrittenMemory a)

/-- `PhysRead(pa, n)`: the value of `n` bytes, little-endian (R13, R146). -/
def State.physRead (s : State) (a : Nat) : Nat → Res Nat
  | 0 => .ok 0
  | n + 1 =>
    (s.physByte a).bind fun b => (s.physRead (a + 1) n).bind fun rest => .ok (b.toNat + 256 * rest)

/-- `PhysWrite(pa, n, v)`: the low `8n` bits of `v`, little-endian (R13, R146). Where any of its bytes lies in a
device whose behaviour the spec does not give, the write is refused whole (notes/assumptions/17.md). -/
def State.physWrite (s : State) (a n v : Nat) : Res State :=
  match (List.range n).find? fun k => s.unknownDevice (a + k) with
  | some k => .refused (.deviceRegion (a + k))
  | none => .ok (s.storeBytes a (bytesOf n v))

end Sys2Proof.Machine
end

