-- ==== Sys2Proof/Machine/Translation.lean ====
section
/-! DEFINITION. Address translation (spec/21_translation_pmp.md R177 to R187): Sv32, Sv39 and Sv48, the
walk of R181 with the Accessed and Dirty bits of R183, the translation cache of R186, the effective
privilege of spec/11_csr_fields.md R91, and the memory accesses built on them (spec/20_memory.md R149,
R156). Of these the instructions of this spec make the fetch only; loads and stores are the
primitives of R13. -/

namespace Sys2Proof.Machine

/-! ## The schemes -/

/-- `LEVELS` (R177). -/
def schemeLevels : Scheme → Nat
  | .sv32 => 2
  | .sv39 => 3
  | .sv48 => 4

/-- `PTESIZE` (R177). -/
def pteSize : Scheme → Nat
  | .sv32 => 4
  | .sv39 => 8
  | .sv48 => 8

/-- The width of a VPN field (R177). -/
def vpnBits : Scheme → Nat
  | .sv32 => 10
  | .sv39 => 9
  | .sv48 => 9

/-- The page offset bits at a level: 12, and one VPN field more for each level above the last. -/
def pageShift (sch : Scheme) (level : Nat) : Nat := 12 + level * vpnBits sch

/-- `va.VPN[i]` (R178, R184, R185). -/
def vpnField (sch : Scheme) (va i : Nat) : Nat := va / 2 ^ pageShift sch i % 2 ^ vpnBits sch

/-! ## Page-table entries (R178, R179) -/

def pteV (p : Word) : Bool := p.getLsbD 0
def pteR (p : Word) : Bool := p.getLsbD 1
def pteW (p : Word) : Bool := p.getLsbD 2
def pteX (p : Word) : Bool := p.getLsbD 3
def pteU (p : Word) : Bool := p.getLsbD 4
def pteG (p : Word) : Bool := p.getLsbD 5
def pteA (p : Word) : Bool := p.getLsbD 6
def pteD (p : Word) : Bool := p.getLsbD 7

/-- The physical page number: bits 31:10 on Sv32, 53:10 on Sv39 and Sv48; bits 63:54 are ignored
(R178, R184, R185, U45). -/
def ptePpn (sch : Scheme) (p : Word) : Nat :=
  match sch with
  | .sv32 => (p.extractLsb' 10 22).toNat
  | .sv39 => (p.extractLsb' 10 44).toNat
  | .sv48 => (p.extractLsb' 10 44).toNat

/-- A leaf: `R = 1` or `X = 1` (R181 step 4). -/
def pteLeaf (p : Word) : Bool := pteR p || pteX p

/-- Step 3 of R181: not valid, or the reserved `W = 1, R = 0` (R180). -/
def pteInvalid (p : Word) : Bool := !pteV p || (!pteR p && pteW p)

/-- `Permitted` (R182): the type check and the privilege check. -/
def ptePermitted (p : Word) (acc : Access) (priv : Priv) (sum mxr : Bool) : Bool :=
  (match acc with
   | .fetch => pteX p
   | .store => pteW p
   | .load => pteR p || (mxr && pteX p))
  && (match priv with
      | .user => pteU p
      | _ => !pteU p || (acc != .fetch && sum))

/-- Step 6 of R181: a superpage whose low PPN fields are not zero. -/
def misalignedSuperpage (sch : Scheme) (level : Nat) (p : Word) : Bool :=
  ptePpn sch p % 2 ^ (level * vpnBits sch) != 0

/-- Step 7 of R181: the entry's Accessed or Dirty bit must be set first. -/
def needsAD (p : Word) (acc : Access) : Bool := !pteA p || (acc == .store && !pteD p)

/-- The entry with Accessed set, and Dirty for a store (R181 step 7). -/
def setAD (p : Word) (acc : Access) : Word := p ||| 0x40 ||| (if acc = .store then 0x80 else 0)

/-- Step 8 of R181: the physical address a leaf at a level gives. -/
def leafAddress (sch : Scheme) (level : Nat) (p : Word) (va : Nat) : Nat :=
  ptePpn sch p / 2 ^ (level * vpnBits sch) * 2 ^ pageShift sch level + va % 2 ^ pageShift sch level

/-! ## When translation is active -/

/-- The effective privilege of an access (R91). -/
def State.effPriv (s : State) (acc : Access) : Priv :=
  if acc = .fetch then s.priv else if s.mstatus.mprv then s.mstatus.mpp else s.priv

/-- The scheme that translates an access with effective privilege `priv`; none in M-mode, without
S-mode and for Bare (R177). -/
def State.activeScheme (s : State) (priv : Priv) : Option Scheme :=
  if priv = .machine ∨ s.cfg.hasS = false then none
  else s.cfg.schemeOfMode (s.cfg.satpMode s.satp)

/-- The physical address of an untranslated access (R177). -/
def State.bareAddress (s : State) (va : Word) : Nat := (s.cfg.trunc va).toNat % 2 ^ s.cfg.physBits

/-! ## The translation cache -/

/-- The entry of the cache for a page-table entry just read. -/
def State.tlbEntryFor (s : State) (sch : Scheme) (va level : Nat) (global : Bool) (pte : Word) : TlbEntry :=
  { asid := s.cfg.satpAsid s.satp
    global := global
    level := level
    vpn := va / 2 ^ pageShift sch level
    pte := pte
    pmp := s.pmp }

/-- Add entries that are not yet in the cache (R186). -/
def addTlb (tlb : List TlbEntry) : List TlbEntry → List TlbEntry
  | [] => tlb
  | e :: es => addTlb (if tlb.contains e then tlb else e :: tlb) es

/-- A page-table entry that ends a walk: one that is not valid, a leaf, or any on the last level (R181
steps 3 and 4). -/
def pteEnds (level : Nat) (p : Word) : Bool := pteInvalid p || pteLeaf p || level == 0

/-- Whether an access through a cached entry would come to the update of step 7 of R181: a valid leaf that
passes steps 5 and 6, has an Accessed or Dirty bit to set, and hardware sets it (R183). -/
def State.updateDue (s : State) (sch : Scheme) (e : TlbEntry) (acc : Access) (priv : Priv) : Bool :=
  s.cfg.hardwareADUpdate && !pteInvalid e.pte && pteLeaf e.pte
    && ptePermitted e.pte acc priv s.mstatus.sum s.mstatus.mxr
    && !misalignedSuperpage sch e.level e.pte && needsAD e.pte acc

/-- Whether a cached entry may serve an address in the present address space: its pages hold the
address, and its address space is the present one, or it is global, or the cache is untagged (R186,
R187). An entry that would come to the update of R183 does not, and the tables are walked, since that update
must find the entry as it was read; one that faults before serves, and gives its page fault. -/
def State.tlbServes (s : State) (sch : Scheme) (e : TlbEntry) (va : Nat) (acc : Access) (priv : Priv) : Bool :=
  e.vpn == va / 2 ^ pageShift sch e.level
    && (e.global || e.asid == s.cfg.satpAsid s.satp || !s.cfg.asidTagged)
    && !s.updateDue sch e acc priv

/-- The cached entry that this boundary's draw uses instead of a walk, if it serves (R186). -/
def State.tlbChoice (s : State) (sch : Scheme) (va : Nat) (acc : Access) (priv : Priv) : Option TlbEntry :=
  match s.draws.cached with
  | none => none
  | some k =>
    match s.tlb[k]? with
    | none => none
    | some e => if s.tlbServes sch e va acc priv then some e else none

/-! ## The walk -/

/-- A translated address: the state after the walk, the physical address, and the PMP settings that
the check of the access uses. -/
structure Translated where
  state : State
  pa : Nat
  pmp : Pmp
  deriving DecidableEq, Repr

/-- Steps 5 to 8 of R181 on a leaf. `pteAddr` is where the entry was read, or none for a cached one.
`path` holds the entries of the walk above it. -/
def State.walkLeaf (s : State) (sch : Scheme) (acc : Access) (priv : Priv) (va : Word) (level : Nat)
    (global : Bool) (pte : Word) (pteAddr : Nat) (path : List TlbEntry) : Res Translated :=
  if !ptePermitted pte acc priv s.mstatus.sum s.mstatus.mxr then .exc acc.pageFault va
  else if misalignedSuperpage sch level pte then .exc acc.pageFault va
  else if needsAD pte acc then
    if !s.cfg.hardwareADUpdate then .exc acc.pageFault va
    else if !(s.physAllows s.pmp .store .supervisor pteAddr (pteSize sch)
        && pmaAtomic s.pma pteAddr (pteSize sch)) then .exc acc.accessFault va
    else
      (s.physWrite pteAddr (pteSize sch) (setAD pte acc).toNat).bind fun t =>
        .ok
          { state := { t with
              tlb := addTlb t.tlb (s.tlbEntryFor sch va.toNat level global (setAD pte acc) :: path) }
            pa := leafAddress sch level pte va.toNat
            pmp := s.pmp }
  else
    .ok
      { state := { s with
          tlb := addTlb s.tlb (s.tlbEntryFor sch va.toNat level global pte :: path) }
        pa := leafAddress sch level pte va.toNat
        pmp := s.pmp }

/-- Step 2 of R181: read a page-table entry, as an S-mode load (R174). -/
def State.loadPte (s : State) (sch : Scheme) (acc : Access) (va : Word) (pteAddr : Nat) : Res Word :=
  if !s.physAllows s.pmp .load .supervisor pteAddr (pteSize sch) then .exc acc.accessFault va
  else (s.physRead pteAddr (pteSize sch)).bind fun v => .ok (BitVec.ofNat 64 v)

/-- Steps 2 and 3 of R181: read a page-table entry, which must be valid. -/
def State.readPte (s : State) (sch : Scheme) (acc : Access) (va : Word) (pteAddr : Nat) : Res Word :=
  (s.loadPte sch acc va pteAddr).bind fun pte =>
    if pteInvalid pte then .exc acc.pageFault va else .ok pte

/-- The address of the entry of level `level` for `va` in the table at physical address `a` (R181
step 2). -/
def pteAddress (sch : Scheme) (va : Word) (level a : Nat) : Nat :=
  a + vpnField sch va.toNat level * pteSize sch

/-- Steps 2 to 4 of R181 at a level, on the table at physical address `a`; `global` and `path` are
the `G` bits and the entries of the levels above. -/
def State.walk (s : State) (sch : Scheme) (acc : Access) (priv : Priv) (va : Word) (level a : Nat)
    (global : Bool) (path : List TlbEntry) : Res Translated :=
  (s.readPte sch acc va (pteAddress sch va level a)).bind fun pte =>
    if pteLeaf pte then
      s.walkLeaf sch acc priv va level (global || pteG pte) pte (pteAddress sch va level a) path
    else
      match level with
      | 0 => .exc acc.pageFault va
      | i + 1 =>
        s.walk sch acc priv va i (ptePpn sch pte * 4096) (global || pteG pte)
          (s.tlbEntryFor sch va.toNat (i + 1) (global || pteG pte) pte :: path)

/-- The entries that a walk reads from a level on, with the one that ends it, whether or not it then
succeeds (R181 steps 2 to 4, R186). The `G` bit of one that is not valid counts for nothing, also of the reserved
encoding `V = 1, W = 1, R = 0`, of which R179 does not say it: such an entry is global where the levels above are.
DESIGN CHOICE of notes/assumptions/13.md. -/
def State.walkReads (s : State) (sch : Scheme) (va : Word) (level a : Nat) (global : Bool) : List TlbEntry :=
  match s.loadPte sch .load va (pteAddress sch va level a) with
  | .ok pte =>
    s.tlbEntryFor sch va.toNat level (global || (!pteInvalid pte && pteG pte)) pte ::
      (if pteEnds level pte then []
       else
        match level with
        | 0 => []
        | i + 1 => s.walkReads sch va i (ptePpn sch pte * 4096) (global || pteG pte))
  | .exc _ _ => []
  | .fault _ => []
  | .refused _ => []

/-- A translation that starts from a cached entry (R186): an entry that is not valid faults, a leaf gives
the address after the checks of steps 5 to 7, a pointer continues the walk below it. The page-table reads of
that walk are checked with the present PMP settings, not with those that were cached with the pointer, which R176
does not rule out: DESIGN CHOICE of notes/assumptions/13.md. -/
def State.translateCached (s : State) (sch : Scheme) (acc : Access) (priv : Priv) (va : Word)
    (e : TlbEntry) : Res Translated :=
  if pteInvalid e.pte then .exc acc.pageFault va
  else if pteLeaf e.pte then
    if !ptePermitted e.pte acc priv s.mstatus.sum s.mstatus.mxr then .exc acc.pageFault va
    else if misalignedSuperpage sch e.level e.pte then .exc acc.pageFault va
    else if needsAD e.pte acc then .exc acc.pageFault va
    else
      .ok
        { state := s
          pa := leafAddress sch e.level e.pte va.toNat
          pmp := if s.draws.cachedPmp then e.pmp else s.pmp }
  else
    match e.level with
    | 0 => .exc acc.pageFault va
    | i + 1 => s.walk sch acc priv va i (ptePpn sch e.pte * 4096) e.global []

/-- Translation of a virtual address for an access with effective privilege `priv` (R177, R181, R186). -/
def State.translate (s : State) (acc : Access) (priv : Priv) (va : Word) : Res Translated :=
  match s.activeScheme priv with
  | none => .ok { state := s, pa := s.bareAddress va, pmp := s.pmp }
  | some sch =>
    if !canonical sch va then .exc acc.pageFault va
    else
      match s.tlbChoice sch va.toNat acc priv with
      | some e => s.translateCached sch acc priv va e
      | none =>
        s.walk sch acc priv va (schemeLevels sch - 1) (s.cfg.satpPpn s.satp * 4096) false []

/-- The page-table entries that a translation reads (R186): below the cached entry it starts from, or
from the root. -/
def State.translationReads (s : State) (acc : Access) (priv : Priv) (va : Word) : List TlbEntry :=
  match s.activeScheme priv with
  | none => []
  | some sch =>
    if !canonical sch va then []
    else
      match s.tlbChoice sch va.toNat acc priv with
      | none => s.walkReads sch va (schemeLevels sch - 1) (s.cfg.satpPpn s.satp * 4096) false
      | some e =>
        if pteEnds e.level e.pte then []
        else s.walkReads sch va (e.level - 1) (ptePpn sch e.pte * 4096) e.global

/-! ## Accesses -/

/-- Translation, then the PMP and PMA checks on the physical address (R156 steps 2 to 4), of an access of
`n` bytes that lie in one page. -/
def State.accessAddress (s : State) (acc : Access) (priv : Priv) (va : Word) (n : Nat) : Res Translated :=
  (s.translate acc priv va).bind fun t =>
    if s.physAllows t.pmp acc priv t.pa n then .ok t else .exc acc.accessFault va

/-- The instruction at the program counter (R147, R149, R156): its four bytes as a word, and the state
after the fetch. -/
def State.fetch (s : State) : Res (State × BitVec 32) :=
  let va := s.cfg.trunc s.pc
  if va.extractLsb' 0 2 != 0 then .exc .instrAddrMisaligned va
  else
    (s.accessAddress .fetch s.priv va 4).bind fun t =>
      (t.state.physRead t.pa 4).bind fun w => .ok (t.state, BitVec.ofNat 32 w)

/-- How many of the `n` bytes at an address lie in its page. -/
def bytesInPage (va n : Nat) : Nat := min n (4096 - va % 4096)

/-- The address of the bytes of an access that lie in the next page, after `k` of its bytes. -/
def State.nextPart (s : State) (va : Word) (k : Nat) : Word := s.cfg.trunc (va + BitVec.ofNat 64 k)

/-- The two parts of an access of `n` bytes that crosses a page, `k` of them in the first (R147, D7): both
are translated, the lower addresses first; PMP is checked on the whole access, whose deciding entry must
match all its bytes (R174, U50); the region of each part must support the whole access. A page fault, or a
PMA violation, of the second part has that part's address as trap value, and a PMP violation that of the
access (R296 says no more than 'the faulting address'). DESIGN CHOICE of notes/assumptions/11.md. -/
def State.accessParts (s : State) (acc : Access) (priv : Priv) (va : Word) (k n : Nat) :
    Res (Translated × Translated) :=
  (s.translate acc priv va).bind fun t =>
    (t.state.translate acc priv (s.nextPart va k)).bind fun u =>
      if !(t.pmp.allowsParts s.cfg acc priv [(t.pa, k), (u.pa, n - k)]
          && u.pmp.allowsParts s.cfg acc priv [(t.pa, k), (u.pa, n - k)]) then .exc acc.accessFault va
      else if !pmaAllows s.pma acc t.pa k n then .exc acc.accessFault va
      else if !pmaAllows s.pma acc u.pa (n - k) n then .exc acc.accessFault (s.nextPart va k)
      else .ok (t, u)

/-- `MemRead(addr, n)` (R13): alignment first (R156 step 1); where a misaligned load is permitted, one
that crosses a page is made of the two parts (R147, D7; notes/assumptions/11.md). -/
def State.memRead (s : State) (addr : Word) (n : Nat) : Res (State × Nat) :=
  let va := s.cfg.trunc addr
  let priv := s.effPriv .load
  let k := bytesInPage va.toNat n
  if va.toNat % n ≠ 0 ∧ s.cfg.misalignedTraps = true then .exc Access.load.misaligned va
  else if k = n then
    (s.accessAddress .load priv va n).bind fun t =>
      (t.state.physRead t.pa n).bind fun v => .ok (t.state, v)
  else
    (s.accessParts .load priv va k n).bind fun (t, u) =>
      (u.state.physRead t.pa k).bind fun low =>
        (u.state.physRead u.pa (n - k)).bind fun high => .ok (u.state, low + 2 ^ (8 * k) * high)

/-- `MemWrite(addr, n, v)` (R13), as `memRead`. An exception of either part leaves nothing stored (R14). -/
def State.memWrite (s : State) (addr : Word) (n v : Nat) : Res State :=
  let va := s.cfg.trunc addr
  let priv := s.effPriv .store
  let k := bytesInPage va.toNat n
  if va.toNat % n ≠ 0 ∧ s.cfg.misalignedTraps = true then .exc Access.store.misaligned va
  else if k = n then
    (s.accessAddress .store priv va n).bind fun t => t.state.physWrite t.pa n v
  else
    (s.accessParts .store priv va k n).bind fun (t, u) =>
      (u.state.physWrite t.pa k v).bind fun w => w.physWrite u.pa (n - k) (v / 2 ^ (8 * k))

/-! ## SFENCE.VMA -/

/-- Whether SFENCE.VMA with these operands drops an entry (R257): `rs1` other than `x0` restricts it
to the entries that end the walk for the page that holds the address, `rs2` other than `x0` to entries of
the address space that are not global. Such an entry is a leaf, or one whose use is a page fault, which is
a cached result for the address as well (R186). An entry of an untagged cache serves every address space,
so it is one of each (R186). DEDUCED: notes/assumptions/13.md. The address
must be valid in the scheme under which the entry was cached, since no other address has its page number:
R257 has an address that is not valid drop nothing, and does not say in which scheme. DESIGN CHOICE of
notes/assumptions/21.md. -/
def sfenceDrops (sch : Scheme) (tagged byAddr byAsid : Bool) (va asid : Nat) (e : TlbEntry) : Bool :=
  (!byAddr || (pteEnds e.level e.pte && e.vpn == va / 2 ^ pageShift sch e.level))
    && (!byAsid || ((!tagged || e.asid == asid) && !e.global))

/-- The scheme whose pages the cache holds: the VPN width depends on XLEN alone (R177). -/
def pageScheme (c : Config) : Scheme :=
  match c.xlen with
  | .rv32 => .sv32
  | .rv64 => .sv39

/-- Whether SFENCE.VMA `rs1, rs2` drops an entry of this hart's cache, given the values of its operands
(R257). -/
def State.sfenceSelects (s : State) (rs1 rs2 : Reg) (e : TlbEntry) : Bool :=
  sfenceDrops (pageScheme s.cfg) s.cfg.asidTagged (rs1 != 0) (rs2 != 0) (s.readReg rs1).toNat
    (asidOperand s.cfg (s.readReg rs2)) e

/-- The state with the translation cache as SFENCE.VMA leaves it (R257). -/
def State.sfence (s : State) (rs1 rs2 : Reg) : State :=
  { s with tlb := s.tlb.filter fun e => !s.sfenceSelects rs1 rs2 e }

end Sys2Proof.Machine
end

