-- ==== Sys2Proof/Machine/Privileged.lean ====
section
/-! DEFINITION. The meanings of the other privileged instructions (spec/41_privileged_instructions.md R251
to R257). Each always gives a next state: its own effect, or the exception it raises. -/

namespace Sys2Proof.Machine

/-- The environment call of a mode (R251). -/
def ecallException : Priv → Exception
  | .user => .ecallFromU
  | .supervisor => .ecallFromS
  | .machine => .ecallFromM

/-- `EbreakTval` (R252). -/
def State.ebreakTval (s : State) : Word := if s.cfg.ebreakTvalPc then s.cfg.trunc s.pc else 0

/-- When MRET is illegal: below M-mode (R253). -/
def State.mretIllegal (s : State) : Bool := s.priv != .machine

/-- When SRET is illegal: without S-mode, in U-mode, and in S-mode under `TSR` (R254, R96). -/
def State.sretIllegal (s : State) : Bool :=
  !s.cfg.hasS || s.priv == .user || (s.priv == .supervisor && s.mstatus.tsr)

/-- When URET is illegal: without the N extension (R255). -/
def State.uretIllegal (s : State) : Bool := !s.cfg.n

/-- When WFI is illegal: in U-mode unless `WfiInU`, and below M-mode under `TW` when it does not
complete within its bound (R256, R95). -/
def State.wfiIllegal (s : State) : Bool :=
  (s.priv == .user && !s.cfg.wfiInU) || (s.priv != .machine && s.mstatus.tw && s.draws.twTimeout)

/-- When SFENCE.VMA is illegal: without S-mode, in U-mode, and in S-mode under `TVM` (R257, R94). -/
def State.sfenceIllegal (s : State) : Bool :=
  !s.cfg.hasS || s.priv == .user || (s.priv == .supervisor && s.mstatus.tvm)

/-- ECALL (R251). -/
def execEcall (s : State) : Host.Outcome State Fault Refusal :=
  .next (s.raise (ecallException s.priv) 0)

/-- EBREAK (R252). -/
def execEbreak (s : State) : Host.Outcome State Fault Refusal :=
  .next (s.raise .breakpoint s.ebreakTval)

/-- URET (R255). -/
def execUret (s : State) : Host.Outcome State Fault Refusal :=
  .next (if s.uretIllegal then s.illegal (encode .uret) else s.trapReturn .user)

/-- SRET (R254). -/
def execSret (s : State) : Host.Outcome State Fault Refusal :=
  .next (if s.sretIllegal then s.illegal (encode .sret) else s.trapReturn .supervisor)

/-- MRET (R253). -/
def execMret (s : State) : Host.Outcome State Fault Refusal :=
  .next (if s.mretIllegal then s.illegal (encode .mret) else s.trapReturn .machine)

/-- WFI (R256): it retires, and the hart waits unless the implementation treats it as a no-op. -/
def execWfi (s : State) : Host.Outcome State Fault Refusal :=
  .next (if s.wfiIllegal then s.illegal (encode .wfi)
    else { s with waiting := s.cfg.wfiWaits }.advance true)

/-- SFENCE.VMA (R257): it drops the selected entries of this hart's translation cache. Every store of
this hart is complete before the next instruction (R151), so the ordering of R257 holds by itself. -/
def execSfenceVma (rs1 rs2 : Reg) (s : State) : Host.Outcome State Fault Refusal :=
  .next (if s.sfenceIllegal then s.illegal (encode (.sfenceVma rs1 rs2))
    else (s.sfence rs1 rs2).advance true)

end Sys2Proof.Machine
end

