-- ==== Sys2Proof/Machine/Cycle.lean ====
section
/-! DEFINITION. What happens around an instruction: the inputs of an instruction boundary
(spec/92_eei_decisions.md D9, D20, D21), waiting (spec/41_privileged_instructions.md R256), the interrupt
that is taken (spec/60_exceptions.md R292, R293), and the fetch and execution of the next instruction. -/

namespace Sys2Proof.Machine

/-! ## Interrupts -/

/-- The interrupts in the order of priority within one target mode (R293). -/
def interruptOrder : List Interrupt :=
  [.machineExternal, .machineSoftware, .machineTimer, .supervisorExternal, .supervisorSoftware,
   .supervisorTimer, .userExternal, .userSoftware, .userTimer]

/-- The mode `x` is enabled for interrupts while `priv` runs: it is more privileged, or it is the
current mode with its global enable set (R88, R292). -/
def State.modeEnabled (s : State) (x : Priv) : Bool :=
  s.priv.enc < x.enc || (s.priv == x && s.mstatus.ie x)

/-- Interrupt `i` can be taken now (R292). -/
def State.interruptReady (s : State) (i : Interrupt) : Bool :=
  s.mip.getLsbD i.code && s.mie.getLsbD i.code && s.modeEnabled (s.interruptTarget i)

/-- The first interrupt in priority order that can be taken and is destined for mode `x` (R293). -/
def State.readyFor (s : State) (x : Priv) : Option Interrupt :=
  interruptOrder.find? fun i => s.interruptReady i && s.interruptTarget i == x

/-- The interrupt that is taken at this boundary: those destined for the more privileged mode first
(R293). -/
def State.pendingInterrupt (s : State) : Option Interrupt :=
  (s.readyFor .machine).or ((s.readyFor .supervisor).or (s.readyFor .user))

/-! ## Instruction boundaries -/

/-- The event counters advance by what they counted; a counter whose event is 0, or that is
hard-wired, counts nothing (R104). -/
def countEvents (c : Config) (k : Counters) : List (Fin 29 × BitVec 64) → Counters
  | [] => k
  | (n, d) :: rest =>
    countEvents c
      (if c.hpmExists (n.val + 3) ∧ k.hpmEvent[n] ≠ 0 then
        { k with hpmCounter := k.hpmCounter.set n ((k.hpmCounter[n] + d) &&& c.hpmCounterBits n) }
      else k) rest

/-- Bytes stored by other harts and devices (R311, R320). -/
def State.storeCells (s : State) : List Host.Cell → State
  | [] => s
  | (a, b) :: rest => (s.storeByte a b).storeCells rest

/-- The state whose cache holds the page-table entries that the translation of a speculative walk reads. -/
def State.cacheReads (s : State) (acc : Access) (w : SpecWalk) : State :=
  { s with tlb := addTlb s.tlb (s.translationReads acc w.priv (s.cfg.trunc w.va)) }

/-- A speculative walk (R186): it may fill the translation cache and set Accessed bits, never Dirty
ones (R183). A walk that does not come to its end, since it would raise or meets a byte that the model cannot
read or write, fills the cache with the entries it read, so that a later translation may use them
(notes/assumptions/13.md). -/
def State.speculateOne (s : State) (w : SpecWalk) : State :=
  let acc := if w.fetch then Access.fetch else Access.load
  match s.translate acc w.priv (s.cfg.trunc w.va) with
  | .ok t => t.state
  | .exc _ _ => s.cacheReads acc w
  | .fault _ => s.cacheReads acc w
  | .refused _ => s.cacheReads acc w

/-- Speculative walks, one after the other (R186). -/
def State.speculateAll (s : State) : List SpecWalk → State
  | [] => s
  | w :: rest => (s.speculateOne w).speculateAll rest

/-- What arrives at a boundary, other than a reset (R171, R311, R312, R345, R186). Bytes stored here, and Accessed
bits set, are seen by the next fetch: R154 does not guarantee that. DESIGN CHOICE of
notes/assumptions/20.md. -/
def State.applyInput (s : State) (i : Input) : State :=
  ({ s with
      mtime := s.mtime + i.mtimeTicks
      counters :=
        countEvents s.cfg { s.counters with mcycle := s.counters.mcycle + i.mcycleTicks } i.hpmTicks
      lines := { s.lines with meip := i.meip, seip := i.seip, ueip := i.ueip }
      pma := i.pma.getD s.pma
      draws := i.draws }.storeCells i.writes).speculateAll i.speculate

/-- The hart goes on: it does not wait, or an interrupt that `mie` enables is pending, whatever the
global enables and the delegation say, or the implementation resumes it (R256). -/
def State.resumes (s : State) (wake : Bool) : Bool := !s.waiting || s.mip &&& s.mie != 0 || wake

/-! ## One instruction -/

/-- Execute what the decoder found: an instruction by its meaning, a reserved encoding as an illegal
instruction (R209); a word of another major opcode is outside the spec (D5). -/
def State.runDecoded (s : State) : Decoded → Host.Outcome State Fault Refusal
  | .instr i => exec i s
  | .reserved w => .next (s.illegal w)
  | .notSystem w => .refused (.notSystemOpcode w)
  | .truncated => .refused .truncatedInstruction

/-- Fetch the instruction at the program counter and execute it; an exception of the fetch is taken
(R290, R294). What the walk of a fetch did, the Accessed bit it set and the entries it cached, stays when
the instruction then raises: DESIGN CHOICE of notes/assumptions/10.md. -/
def State.runNext (s : State) : Host.Outcome State Fault Refusal :=
  match s.fetch with
  | .ok (t, w) => t.runDecoded (decodeWord w)
  | .exc e tval => .next (s.raise e tval)
  | .fault f => .fault f
  | .refused r => .refused r

/-- What the hart does at a boundary once its inputs are in: it keeps waiting, or takes an interrupt in
preference to the next instruction, or executes that instruction (R256, R292, R293). -/
def State.cycle (s : State) (wake : Bool) : Host.Outcome State Fault Refusal :=
  if s.resumes wake then
    match { s with waiting := false }.pendingInterrupt with
    | some i => .next ({ s with waiting := false }.takeInterrupt i)
    | none => { s with waiting := false }.runNext
  else .next s

/-- One boundary and what follows it: the next input is consumed, if there is one; where the list is
empty nothing arrives and every signal keeps its level. -/
def State.boundary (s : State) : Host.Outcome State Fault Refusal :=
  match s.inputs with
  | [] => s.cycle false
  | i :: rest =>
    if i.reset then .next { s with inputs := rest }.hartReset
    else ({ s with inputs := rest }.applyInput i).cycle i.wake

/-- The physical address of the next fetch: that of the translated program counter, or where the
translation fails the untranslated one. -/
def State.fetchAddress (s : State) : Nat :=
  match s.accessAddress .fetch s.priv (s.cfg.trunc s.pc) 4 with
  | .ok t => t.pa
  | .exc _ _ => s.bareAddress s.pc
  | .fault _ => s.bareAddress s.pc
  | .refused _ => s.bareAddress s.pc

end Sys2Proof.Machine
end

