-- ==== Sys2Proof/Machine/Step.lean ====
section
/-! DEFINITION. One step of the machine: an instruction boundary with its inputs, and then waiting, the
entry to an interrupt, or one instruction (spec/60_exceptions.md R292, spec/20_memory.md R151). -/

namespace Sys2Proof.Machine

/-- One step. -/
def step (s : State) : Host.Outcome State Fault Refusal := s.boundary

/-- The state with an instruction stored where the next step fetches: the word's four bytes,
little-endian, every bit at or above `nbits` zero (R201). -/
def State.withFetchWord (s : State) (nbits w : Nat) : State :=
  { s with mem := s.mem.writeList s.fetchAddress (bytesOf 4 (w % 2 ^ nbits)) }

end Sys2Proof.Machine
end

