-- ==== Sys2Proof/WellFormed.lean ====
section
/-! DEFINITION. Well-formedness. The operands of `Instr` are `Fin 32`, `BitVec 12` and `BitVec 5`, so
every instruction term is one the encoding admits, and there is nothing of it left to check. What can be
ill-formed is a configuration: these are the spec's conditions on its parameters. The machine does not
rely on them: where one fails, the functions of Machine/Legalize.lean take the parameter as the spec's
other rules bound it. -/

namespace Sys2Proof

open Machine

/-- `HasN` needs U-mode (R43). -/
def Config.wfN (c : Config) : Bool := !c.hasN || c.hasU

/-- Sv32 exists only on RV32, Sv39 and Sv48 only on RV64; Sv48 brings Sv39; all need S-mode (R177). -/
def Config.wfSatp (c : Config) : Bool :=
  (!c.satpSv32 || (c.xlen == .rv32 && c.hasS))
    && (!(c.satpSv39 || c.satpSv48) || (c.xlen == .rv64 && c.hasS))
    && (!c.satpSv48 || c.satpSv39)

/-- At most 16 PMP entries (R172). -/
def Config.wfPmp (c : Config) : Bool := c.pmpEntries ≤ 16

/-- The reset vector is an XLEN-bit address, 4-byte aligned (R342). -/
def Config.wfResetVector (c : Config) : Bool := c.alignPc c.resetVector == c.resetVector

/-- Non-standard CSRs lie in the non-standard ranges (R28, R29). -/
def Config.wfNonStandard (c : Config) : Bool := c.nonStandardCsrs.all inNonStandardRange

/-- Only optional registers are left out: the user-level counter views (R46). -/
def Config.wfAbsent (c : Config) : Bool :=
  c.absentCsrs.all fun a => (0xC00 ≤ a.toNat && a.toNat ≤ 0xC1F) || (0xC80 ≤ a.toNat && a.toNat ≤ 0xC9F)

/-- The field widths of `satp` bound the implemented ASID and PPN bits (R120). -/
def Config.wfWidths (c : Config) : Bool :=
  match c.xlen with
  | .rv32 => c.asidLen ≤ 9 && c.ppnBits ≤ 22
  | .rv64 => c.asidLen ≤ 16 && c.ppnBits ≤ 44

/-- Event counters have at most 64 bits (R104). -/
def Config.wfHpm (c : Config) : Bool := c.hpmBits.all fun n => n ≤ 64

/-- Every exception that the parameters make for a WARL field leaves a value the field holds, and none is
made for a value the spec asks the field to hold (R76, R108). -/
def Config.wfWarl (c : Config) : Bool :=
  c.warl.all fun e => c.warlHolds e.field e.held && !c.warlAsked e.field e.written

/-- Interception is by a more privileged level, so M-mode is never intercepted (R226). -/
def Config.wfIntercept (c : Config) : Bool := c.interceptCsr.all fun p => p.1 != .machine

/-- All the conditions on the parameters. -/
def Config.wellFormed (c : Config) : Bool :=
  c.wfN && c.wfSatp && c.wfPmp && c.wfResetVector && c.wfNonStandard && c.wfAbsent && c.wfWidths
    && c.wfIntercept && c.wfHpm && c.wfWarl

end Sys2Proof
end

