-- ==== Sys2Proof/Safety.lean ====
section
/-! DEFINITION. What the statements call a legal state, an allowed CSR access and a register that an
access does not touch. -/

namespace Sys2Proof.Machine

/-! ## Legal states -/

/-- A value `xtvec` can hold: an XLEN-bit value whose `MODE` is 0, or 1 where Vectored is supported
(R98, R113, R301). -/
def tvecHeld (c : Config) (v : Word) : Prop :=
  c.trunc v = v ∧ v.getLsbD 1 = false ∧ (v.getLsbD 0 = true → c.vectoredTraps = true)

/-- A PMP configuration byte that can be held: bits 6:5 zero, not `R = 0, W = 1` (R172), and not `NA4` where
the granularity is above four bytes (R176). -/
def pmpByteHeld (c : Config) (b : Byte) : Prop :=
  b.getLsbD 5 = false ∧ b.getLsbD 6 = false ∧ (b.getLsbD 1 = true → b.getLsbD 0 = true)
    ∧ (c.pmpGrain ≠ 0 → b.extractLsb' 3 2 ≠ 2)

/-- The trap registers of a mode hold legal values (R98, R108 to R110). -/
structure TrapRegs.Legal (c : Config) (x : Priv) (r : TrapRegs) : Prop where
  tvec : tvecHeld c r.tvec
  /-- It is a value that the implementation's field holds (R76). -/
  tvecKept : c.legalize (.tvec x) r.tvec = r.tvec
  scratch : c.trunc r.scratch = r.scratch
  epc : c.alignPc r.epc = r.epc
  cause : c.trunc r.cause = r.cause
  tval : c.trunc r.tval = r.tval

/-- A legal state: every register holds a value its fields can hold under the parameters. -/
structure State.Legal (s : State) : Prop where
  /-- The mode is a supported one (R21). -/
  priv : s.cfg.supports s.priv = true
  /-- Fields of absent modes are zero and `MPP` is a supported mode (R89, R253). -/
  mstatus : s.mstatus.legalize s.cfg = s.mstatus
  /-- The program counter is an XLEN-bit address, 4-byte aligned (R23). -/
  pc : s.cfg.alignPc s.pc = s.pc
  /-- Integer registers are XLEN bits wide (R22). -/
  regs : ∀ r : Reg, s.cfg.trunc s.regs[r] = s.regs[r]
  /-- The trap registers of every mode are legal. -/
  traps : ∀ x : Priv, (s.trapRegs x).Legal s.cfg x
  /-- A hard-wired `mtvec` holds its value (R98). -/
  mtvec : ∀ v, s.cfg.mtvecHardwired = some v → s.mTrap.tvec = s.cfg.legalize (.tvec .machine) v
  /-- Delegation bits that cannot be set are clear (R99, R121). -/
  medeleg : s.deleg.medeleg &&& s.cfg.medelegBits = s.deleg.medeleg
  mideleg : s.deleg.mideleg &&& s.cfg.midelegBits = s.deleg.mideleg
  sedeleg : s.deleg.sedeleg &&& s.cfg.sedelegBits = s.deleg.sedeleg
  sideleg : s.deleg.sideleg &&& s.cfg.sidelegBits = s.deleg.sideleg
  /-- They hold values that the implementation's fields hold (R76). -/
  delegKept : s.cfg.legalize .medeleg s.deleg.medeleg = s.deleg.medeleg
    ∧ s.cfg.legalize .mideleg s.deleg.mideleg = s.deleg.mideleg
    ∧ s.cfg.legalize .sedeleg s.deleg.sedeleg = s.deleg.sedeleg
    ∧ s.cfg.legalize .sideleg s.deleg.sideleg = s.deleg.sideleg
  /-- Interrupt bits of absent modes are clear (R101). -/
  mie : s.mie &&& s.cfg.intMask = s.mie
  mipSw : s.mipSw &&& s.cfg.mipWritable = s.mipSw
  /-- `satp` holds a supported mode, and nothing in bits that do not exist (R120). -/
  satpMode : s.cfg.satpModeSupported (s.cfg.satpMode s.satp) = true
  satpBits : s.satp &&& s.cfg.satpBits = s.satp
  /-- The PMP registers hold legal values (R172). -/
  pmpCfg : ∀ i : Fin 16, pmpByteHeld s.cfg s.pmp.entryCfg[i]
  /-- They hold values that the implementation's fields hold (R76). -/
  pmpKept : ∀ i : Fin 16, s.cfg.legalPmpByte i s.pmp.entryCfg[i] = s.pmp.entryCfg[i]
  pmpAddr : ∀ i : Fin 16, s.cfg.legalPmpAddr s.pmp.entryAddr[i] = s.pmp.entryAddr[i]
  /-- Counter-enable bits that are hard-wired 0 are clear (R106). -/
  mcounteren : s.counters.mcounteren &&& s.cfg.mcounterenMask = s.counters.mcounteren
  scounteren : s.counters.scounteren &&& s.cfg.scounterenMask = s.counters.scounteren
  /-- They hold values that the implementation's fields hold (R76). -/
  enablesKept : s.cfg.legalEnable .mcounteren s.counters.mcounteren = s.counters.mcounteren
    ∧ s.cfg.legalEnable .scounteren s.counters.scounteren = s.counters.scounteren
  /-- An event counter holds nothing in bits it does not implement, and an event selector a value that the
  field holds; both are zero where they are hard-wired (R104, R325). -/
  hpmCounter : ∀ n : Fin 29, s.counters.hpmCounter[n] =
    if s.cfg.hpmExists (n.val + 3) then s.counters.hpmCounter[n] &&& s.cfg.hpmCounterBits n else 0
  hpmEvent : ∀ n : Fin 29, s.counters.hpmEvent[n] =
    if s.cfg.hpmExists (n.val + 3) then s.cfg.legalize (.hpmevent n) s.counters.hpmEvent[n] else 0
  /-- The trigger registers are XLEN bits wide (R39). -/
  triggers : s.cfg.trunc s.triggers.tselect = s.triggers.tselect
    ∧ s.cfg.trunc s.triggers.tdata1 = s.triggers.tdata1
    ∧ s.cfg.trunc s.triggers.tdata2 = s.triggers.tdata2
    ∧ s.cfg.trunc s.triggers.tdata3 = s.triggers.tdata3
  /-- Memory is in canonical form. -/
  mem : s.mem.wf = true

/-! ## CSR accesses -/

/-- The conditions under which an access to CSR address `a` is permitted (R221 to R223, R226 to R228). -/
structure CsrAllowed (s : State) (op : CsrOp) (a : CsrAddr) (src : CsrSource) : Prop where
  /-- `priv >= a[9:8]` (R221). -/
  level : (csrLevel a).toNat ≤ s.priv.enc.toNat
  /-- The implementation has the register (R222). -/
  present : (csrAt s.cfg a).isSome = true
  /-- The register is not read-only, or no write is attempted (R223, R236). -/
  writable : op.writes src = true → csrReadOnly a = false
  /-- It is not one of the debug-mode-only addresses (R227). -/
  notDebug : debugOnly a = false
  /-- No gate refuses it (R226, R228). -/
  notGated : s.gated a = false

/-- Writing `v` to `r` raises nothing: the WLRL field of the register, if it has one, gets a supported
value, or its policy is to store (R74, D17). -/
def wlrlAccepts (c : Config) : Csr → Word → Bool
  | .mstatus, v =>
    c.wlrlMpp == .store || (Priv.ofEnc ((c.trunc v).extractLsb' 11 2)).any c.supports
  | .cause x, v => c.wlrlCause x == .store || c.causeLegal (c.trunc v)
  | _, _ => true

/-- Registers that share state: a write to one can change what another of the same group reads.
The views of R112, R114, R122 to R124 are with the registers they view. `mideleg` is with the interrupt
registers, since it masks `sip` and `sie` (R114), and floating-point state with `mstatus`, since it makes
`FS` Dirty (R97). -/
inductive CsrGroup
  | status
  | interrupts
  | tvec (x : Priv)
  | scratch (x : Priv)
  | epc (x : Priv)
  | cause (x : Priv)
  | tval (x : Priv)
  | cycle
  | instret
  | time
  | hpmCounter (n : Fin 29)
  | hpmEvent (n : Fin 29)
  | medeleg
  | sedeleg
  | sideleg
  | mcounteren
  | scounteren
  | satp
  | pmp
  | identity
  | tselect
  | tdata1
  | tdata2
  | tdata3
  | nonStandard
  deriving DecidableEq, Repr

/-- The group of a register. -/
def Csr.group : Csr → CsrGroup
  | .mstatus | .sstatus | .ustatus | .fflags | .frm | .fcsr => .status
  | .mie | .sie | .uie | .mip | .sip | .uip | .mideleg => .interrupts
  | .tvec x => .tvec x
  | .scratch x => .scratch x
  | .epc x => .epc x
  | .cause x => .cause x
  | .tval x => .tval x
  | .cycle | .mcycle | .cycleh | .mcycleh => .cycle
  | .instret | .minstret | .instreth | .minstreth => .instret
  | .time | .timeh => .time
  | .hpmcounter n => .hpmCounter n
  | .mhpmcounter n => .hpmCounter n
  | .hpmcounterh n => .hpmCounter n
  | .mhpmcounterh n => .hpmCounter n
  | .mhpmevent n => .hpmEvent n
  | .medeleg => .medeleg
  | .sedeleg => .sedeleg
  | .sideleg => .sideleg
  | .mcounteren => .mcounteren
  | .scounteren => .scounteren
  | .satp => .satp
  | .pmpcfg _ => .pmp
  | .pmpaddr _ => .pmp
  | .mvendorid | .marchid | .mimpid | .mhartid | .misa => .identity
  | .tselect => .tselect
  | .tdata1 => .tdata1
  | .tdata2 => .tdata2
  | .tdata3 => .tdata3
  | .nonStandard _ => .nonStandard

/-! ## Steps without outside events -/

/-- Nothing arrives at the next boundary, the hart does not wait, and no interrupt is taken: the next
step executes an instruction. -/
structure State.Running (s : State) : Prop where
  inputs : s.inputs = []
  waiting : s.waiting = false
  interrupt : s.pendingInterrupt = none

/-- The next input, if there is one, does not reset the hart. -/
def State.noReset (s : State) : Bool :=
  match s.inputs with
  | [] => true
  | i :: _ => !i.reset

end Sys2Proof.Machine
end

