-- ==== Sys2Proof/Reference.lean ====
section
/-! DEFINITION. The rules of the spec that the statements hold the machine against, written down from
the spec's own text and not from the machine: the match and mask table (spec/30_encoding.md R208), the
tables of CSRs (spec/10_state.md R33 to R39) and the rules of which exist (R40 to R46), the
pseudocode of CSR access (spec/40_csr_instructions.md R224, R225, R230 to R235), what taking a trap does
(spec/60_exceptions.md R300), the PMP match of one byte (spec/21_translation_pmp.md R173), the pages a
walk reaches (R181), the cached entries that serve (R186), and what arrives at a boundary (R103, R311, R312,
R345). -/

namespace Sys2Proof

/-! ## The match and mask table (R208) -/

/-- A row of the table of R208: a word `w` is the instruction when `w & mask = value`. -/
structure OpcodeRow where
  mnemonic : String
  mask : BitVec 32
  value : BitVec 32
  deriving DecidableEq, Repr

/-- The table of R208. -/
def opcodeRows : List OpcodeRow :=
  [⟨"CSRRW", 0x0000707F, 0x00001073⟩, ⟨"CSRRS", 0x0000707F, 0x00002073⟩,
   ⟨"CSRRC", 0x0000707F, 0x00003073⟩, ⟨"CSRRWI", 0x0000707F, 0x00005073⟩,
   ⟨"CSRRSI", 0x0000707F, 0x00006073⟩, ⟨"CSRRCI", 0x0000707F, 0x00007073⟩,
   ⟨"ECALL", 0xFFFFFFFF, 0x00000073⟩, ⟨"EBREAK", 0xFFFFFFFF, 0x00100073⟩,
   ⟨"URET", 0xFFFFFFFF, 0x00200073⟩, ⟨"SRET", 0xFFFFFFFF, 0x10200073⟩,
   ⟨"MRET", 0xFFFFFFFF, 0x30200073⟩, ⟨"WFI", 0xFFFFFFFF, 0x10500073⟩,
   ⟨"SFENCE.VMA", 0xFE007FFF, 0x12000073⟩]

/-- The word matches the row (R208). -/
def OpcodeRow.Matches (r : OpcodeRow) (w : BitVec 32) : Prop := w &&& r.mask = r.value

/-- The mnemonic of an instruction (R206, R207). -/
def Instr.mnemonic : Instr → String
  | .csrrw _ _ _ => "CSRRW"
  | .csrrs _ _ _ => "CSRRS"
  | .csrrc _ _ _ => "CSRRC"
  | .csrrwi _ _ _ => "CSRRWI"
  | .csrrsi _ _ _ => "CSRRSI"
  | .csrrci _ _ _ => "CSRRCI"
  | .ecall => "ECALL"
  | .ebreak => "EBREAK"
  | .uret => "URET"
  | .sret => "SRET"
  | .mret => "MRET"
  | .wfi => "WFI"
  | .sfenceVma _ _ => "SFENCE.VMA"

end Sys2Proof

namespace Sys2Proof.Machine

/-! ## The CSRs (R28, R33 to R46) -/

/-- The rows of Tables 2.2 to 2.5 for the CSRs that do not come in numbers: user trap and floating-point
registers (R33, R34), user counters (R35), supervisor registers (R36), machine registers (R37), counters and
triggers (R39). The debug-mode registers `dcsr`, `dpc`, `dscratch` are left out, since they exist only with
debug mode (R45, D12). -/
def namedCsrRows : List (Nat × Csr) :=
  [(0x000, .ustatus), (0x004, .uie), (0x005, .tvec .user), (0x040, .scratch .user), (0x041, .epc .user),
   (0x042, .cause .user), (0x043, .tval .user), (0x044, .uip),
   (0x001, .fflags), (0x002, .frm), (0x003, .fcsr),
   (0xC00, .cycle), (0xC01, .time), (0xC02, .instret), (0xC80, .cycleh), (0xC81, .timeh), (0xC82, .instreth),
   (0x100, .sstatus), (0x102, .sedeleg), (0x103, .sideleg), (0x104, .sie), (0x105, .tvec .supervisor),
   (0x106, .scounteren), (0x140, .scratch .supervisor), (0x141, .epc .supervisor),
   (0x142, .cause .supervisor), (0x143, .tval .supervisor), (0x144, .sip), (0x180, .satp),
   (0xF11, .mvendorid), (0xF12, .marchid), (0xF13, .mimpid), (0xF14, .mhartid),
   (0x300, .mstatus), (0x301, .misa), (0x302, .medeleg), (0x303, .mideleg), (0x304, .mie),
   (0x305, .tvec .machine), (0x306, .mcounteren), (0x340, .scratch .machine), (0x341, .epc .machine),
   (0x342, .cause .machine), (0x343, .tval .machine), (0x344, .mip),
   (0xB00, .mcycle), (0xB02, .minstret), (0xB80, .mcycleh), (0xB82, .minstreth),
   (0x7A0, .tselect), (0x7A1, .tdata1), (0x7A2, .tdata2), (0x7A3, .tdata3)]

/-- Number `a` is that of register `r` in Tables 2.2 to 2.5: a named row, or a register that comes in
numbers, the event counters and their selectors 3 to 31 (R35, R39) and the PMP registers (R38). -/
def InCsrTables (a : Nat) (r : Csr) : Prop :=
  (a, r) ∈ namedCsrRows
    ∨ (∃ k : Fin 4, a = 0x3A0 + k.val ∧ r = .pmpcfg k)
    ∨ (∃ i : Fin 16, a = 0x3B0 + i.val ∧ r = .pmpaddr i)
    ∨ ∃ n : Fin 29,
        (a = 0xC00 + (n.val + 3) ∧ r = .hpmcounter n) ∨ (a = 0xC80 + (n.val + 3) ∧ r = .hpmcounterh n)
          ∨ (a = 0xB00 + (n.val + 3) ∧ r = .mhpmcounter n) ∨ (a = 0xB80 + (n.val + 3) ∧ r = .mhpmcounterh n)
          ∨ (a = 0x320 + (n.val + 3) ∧ r = .mhpmevent n)

/-- Which of the registers exist (R40 to R46, D13): user trap registers with N and U-mode, supervisor
registers with S-mode, delegation registers as R44 and R46 say, floating-point registers with F, upper
halves on RV32 only, a PMP register with its entries, triggers as D22 says; the user-level counters unless
the implementation leaves them out; the others always. -/
def CsrExists (c : Config) (a : Nat) : Csr → Prop
  | .ustatus | .uie | .uip | .tvec .user | .scratch .user | .epc .user | .cause .user | .tval .user =>
    c.hasN = true ∧ c.modes ≠ .m
  | .sstatus | .sie | .sip | .satp | .scounteren | .tvec .supervisor | .scratch .supervisor
  | .epc .supervisor | .cause .supervisor | .tval .supervisor => c.modes = .msu
  | .sedeleg | .sideleg => c.modes = .msu ∧ c.hasN = true
  | .medeleg | .mideleg => c.modes = .msu ∨ (c.modes = .mu ∧ c.hasN = true)
  | .mcounteren => c.modes ≠ .m
  | .fflags | .frm | .fcsr => c.hasF = true
  | .cycle | .time | .instret => ∀ b ∈ c.absentCsrs, b.toNat ≠ a
  | .hpmcounter _ => ∀ b ∈ c.absentCsrs, b.toNat ≠ a
  | .cycleh | .timeh | .instreth => c.xlen = .rv32 ∧ ∀ b ∈ c.absentCsrs, b.toNat ≠ a
  | .hpmcounterh _ => c.xlen = .rv32 ∧ ∀ b ∈ c.absentCsrs, b.toNat ≠ a
  | .mcycleh | .minstreth | .mhpmcounterh _ => c.xlen = .rv32
  | .pmpcfg k => 4 * k.val < c.pmpCount ∧ (c.xlen = .rv32 ∨ k.val = 0 ∨ k.val = 2)
  | .pmpaddr i => i.val < c.pmpCount
  | .tselect | .tdata1 | .tdata2 | .tdata3 => c.hasDebugTriggers = true
  | .mstatus | .mie | .mip | .misa | .mvendorid | .marchid | .mimpid | .mhartid => True
  | .tvec .machine | .scratch .machine | .epc .machine | .cause .machine | .tval .machine => True
  | .mcycle | .minstret => True
  | .mhpmcounter _ | .mhpmevent _ => True
  | .nonStandard _ => False

/-- The ranges of Table 2.1 for non-standard use (R28, R215). -/
def NonStandardRange (a : Nat) : Prop :=
  (0x800 ≤ a ∧ a ≤ 0x8FF) ∨ (0xCC0 ≤ a ∧ a ≤ 0xCFF) ∨ (0x5C0 ≤ a ∧ a ≤ 0x5FF) ∨ (0x9C0 ≤ a ∧ a ≤ 0x9FF)
    ∨ (0xDC0 ≤ a ∧ a ≤ 0xDFF) ∨ (0x7C0 ≤ a ∧ a ≤ 0x7FF) ∨ (0xBC0 ≤ a ∧ a ≤ 0xBFF) ∨ (0xFC0 ≤ a ∧ a ≤ 0xFFF)

/-- The parameters make no exception from the form of a WARL field (R76). -/
def Unexcepted (c : Config) (f : WarlField) : Prop := ∀ e ∈ c.warl, e.field ≠ f

/-- A valid address (R108): a physical one, which on RV32 every XLEN-bit value is, or one of a supported
translation scheme, whose upper bits equal the top translated bit (R181). -/
def ValidAddress (c : Config) (v : Word) : Prop :=
  c.xlen = .rv32 ∨ v.toNat < 2 ^ 56
    ∨ (c.hasS = true ∧ (c.satpSv39 = true ∨ c.satpSv48 = true) ∧ (v.extractLsb' 0 39).signExtend 64 = v)
    ∨ (c.hasS = true ∧ c.satpSv48 = true ∧ (v.extractLsb' 0 48).signExtend 64 = v)

/-! ## Taking a trap (R300) -/

/-- The previous interrupt enable of a mode (R89). -/
def Mstatus.pie (m : Mstatus) : Priv → Bool
  | .user => m.upie
  | .supervisor => m.spie
  | .machine => m.mpie

/-- The address of R301: `BASE`, or `BASE + 4 * code` for an interrupt in Vectored mode. -/
def vectorAddress (c : Config) (tvec : Word) (intr : Bool) (code : Nat) : Word :=
  if tvec.extractLsb' 0 2 = 1 ∧ intr = true then
    c.trunc ((c.trunc tvec &&& ~~~3) + BitVec.ofNat 64 (4 * code))
  else c.trunc tvec &&& ~~~3

/-- `trap(x, intr, code, tval)` of R300 leads from `s` to `t`: each assignment of its pseudocode, and
nothing else. -/
structure Trapped (s t : State) (x : Priv) (intr : Bool) (code : Nat) (tval : Word) : Prop where
  /-- `xepc <- pc` with bits 1:0 cleared (R298). -/
  epc : (t.trapRegs x).epc = s.cfg.trunc s.pc &&& ~~~3
  /-- `xcause <- intr ++ zext(code)`. -/
  causeInterrupt : s.cfg.causeInterrupt (t.trapRegs x).cause = intr
  causeCode : s.cfg.causeCode (t.trapRegs x).cause = code
  /-- `xtval <- tval`. -/
  tval : (t.trapRegs x).tval = s.cfg.trunc tval
  /-- `xtvec` and `xscratch` are untouched. -/
  tvec : (t.trapRegs x).tvec = (s.trapRegs x).tvec
  scratch : (t.trapRegs x).scratch = (s.trapRegs x).scratch
  /-- The trap registers of the other modes are untouched. -/
  otherModes : ∀ y, y ≠ x → t.trapRegs y = s.trapRegs y
  /-- `mstatus.xPIE <- mstatus.xIE`, `mstatus.xIE <- 0`. -/
  previousEnable : t.mstatus.pie x = s.mstatus.ie x
  enable : t.mstatus.ie x = false
  /-- The stacks of the other modes are untouched. -/
  otherEnables : ∀ y, y ≠ x → t.mstatus.pie y = s.mstatus.pie y ∧ t.mstatus.ie y = s.mstatus.ie y
  /-- `mstatus.xPP <- y`: `MPP` for M, `SPP` for S, nothing for U. -/
  previousMode :
    t.mstatus.mpp = (if x = .machine then s.priv else s.mstatus.mpp)
      ∧ t.mstatus.spp = (if x = .supervisor then s.priv == .supervisor else s.mstatus.spp)
  /-- The other fields of `mstatus` are untouched. -/
  otherFields :
    t.mstatus.fs = s.mstatus.fs ∧ t.mstatus.mprv = s.mstatus.mprv ∧ t.mstatus.sum = s.mstatus.sum
      ∧ t.mstatus.mxr = s.mstatus.mxr ∧ t.mstatus.tvm = s.mstatus.tvm ∧ t.mstatus.tw = s.mstatus.tw
      ∧ t.mstatus.tsr = s.mstatus.tsr
  /-- `priv <- x`. -/
  priv : t.priv = x
  /-- `waiting <- false`. -/
  waiting : t.waiting = false
  /-- `pc` is the vector's address (R301). -/
  pc : t.pc = vectorAddress s.cfg (s.trapRegs x).tvec intr code
  /-- Every byte of memory reads as before. -/
  mem : ∀ a, t.mem.read a = s.mem.read a
  /-- Everything else is unchanged: the general registers and every other register. -/
  rest :
    { t with
        mTrap := s.mTrap, sTrap := s.sTrap, uTrap := s.uTrap, mstatus := s.mstatus, priv := s.priv,
        waiting := s.waiting, pc := s.pc } = s

/-- The instruction raises exception `e` with trap value `tval` in state `s`: its next state is the
entry of R300 in the exception's target mode, and the instruction has had no effect (R14). -/
def Raises (i : Instr) (s : State) (e : Exception) (tval : Word) : Prop :=
  ∃ t, exec i s = .next t ∧ Trapped s t (s.exceptionTarget e) false e.code tval

/-- The instruction raises an illegal-instruction exception, with the trap value of R297. -/
def RaisesIllegal (i : Instr) (s : State) : Prop :=
  Raises i s .illegalInstruction (if s.cfg.illegalTvalBits then (encode i).zeroExtend 64 else 0)

/-! ## CSR access (R224, R225, R230 to R235) -/

/-- `csr_read(a)` of R224: the value, and the state after the side effects of reading (R236); none where
it raises. -/
def csrReadSpec (s : State) (a : CsrAddr) : Option (Word × State) :=
  match csrAt s.cfg a with
  | none => none
  | some r =>
    if s.priv.enc < csrLevel a then none
    else if 0x7B0 ≤ a.toNat ∧ a.toNat ≤ 0x7BF then none
    else if s.gated a then none
    else some (s.readCsr r, s.afterRead r)

/-- `csr_write(a, v)` of R225; none where it raises. -/
def csrWriteSpec (s : State) (a : CsrAddr) (v : Word) : Option State :=
  match csrAt s.cfg a with
  | none => none
  | some r =>
    if s.priv.enc < csrLevel a then none
    else if a.extractLsb' 10 2 = 0b11 then none
    else if 0x7B0 ≤ a.toNat ∧ a.toNat ≤ 0x7BF then none
    else if s.gated a then none
    else s.writeCsr r v

/-- `rmw_old(csr)` of R231: the old value, but for the interrupt-pending registers, where `SEIP` and
`UEIP` are the software-writable bits alone (R102). -/
def rmwOld (s : State) (a : CsrAddr) : Word :=
  match csrAt s.cfg a with
  | none => 0
  | some r =>
    if r = .mip ∨ r = .sip ∨ r = .uip then
      (s.readCsr r &&& ~~~0x300) ||| (s.readCsr r &&& s.mipSw &&& 0x300)
    else s.readCsr r

/-- The end of a CSR instruction: `x[rd] <- old` and `pc <- pc + 4`, or the exception where a part of it
raised. A write to `minstret` or `minstreth` is not followed by the instruction's own increment (R239). -/
def csrFinish (s : State) (i : Instr) (rd : Reg) (old : Word) (counted : Bool) : Option State → State
  | none => s.illegal (encode i)
  | some t => (t.writeReg rd old).advance counted

/-- The address is that of `minstret` or `minstreth` (R39). -/
def isInstretAddr (a : CsrAddr) : Bool := a == 0xB02 || a == 0xB82

/-- CSRRW and CSRRWI (R230, R233), with `t` the value of the source. -/
def csrrwSpec (s : State) (i : Instr) (rd : Reg) (a : CsrAddr) (t : Word) : State :=
  if rd = 0 then csrFinish s i rd 0 (!isInstretAddr a) (csrWriteSpec s a t)
  else
    match csrReadSpec s a with
    | none => s.illegal (encode i)
    | some (old, u) => csrFinish s i rd old (!isInstretAddr a) (csrWriteSpec u a t)

/-- CSRRS, CSRRC and their immediate forms (R231, R232, R234, R235): `write` says whether the source is
other than `x0` or zero, `f` makes the value written from `rmw_old`. -/
def csrModifySpec (s : State) (i : Instr) (rd : Reg) (a : CsrAddr) (write : Bool) (f : Word → Word) : State :=
  match csrReadSpec s a with
  | none => s.illegal (encode i)
  | some (old, u) =>
    if write then csrFinish s i rd old (!isInstretAddr a) (csrWriteSpec u a (f (rmwOld s a)))
    else csrFinish s i rd old true (some u)

/-- The conditions of R228, as they stand there. -/
def standardGate (s : State) (a : CsrAddr) : Prop :=
  ((0xC00 ≤ a.toNat ∧ a.toNat ≤ 0xC1F ∨ 0xC80 ≤ a.toNat ∧ a.toNat ≤ 0xC9F) ∧
      (s.priv = .supervisor ∧ s.counters.mcounteren.getLsbD (a.toNat % 32) = false
        ∨ s.priv = .user ∧ s.cfg.hasS = true
            ∧ (s.counters.mcounteren.getLsbD (a.toNat % 32) = false
                ∨ s.counters.scounteren.getLsbD (a.toNat % 32) = false)
        ∨ s.priv = .user ∧ s.cfg.hasS = false
            ∧ s.counters.mcounteren.getLsbD (a.toNat % 32) = false))
    ∨ (a = 0x180 ∧ s.priv = .supervisor ∧ s.mstatus.tvm = true)
    ∨ ((a = 0x001 ∨ a = 0x002 ∨ a = 0x003) ∧ s.mstatus.fs = 0)

/-- A CSR instruction with every check passed leads from `s` to `t` and attempts a write of `v` to
register `r` that raises nothing. -/
def CsrWritten (s t : State) (r : Csr) (v : Word) : Prop :=
  ∃ i f, csrForm i = some f ∧ csrAt s.cfg f.csr = some r ∧ CsrAllowed s f.op f.csr f.src
    ∧ f.op.writes f.src = true
    ∧ v = s.cfg.trunc (f.op.result (s.rmwValue r) (s.sourceValue f.src))
    ∧ wlrlAccepts s.cfg r v = true ∧ exec i s = .next t

/-- What a CSR instruction of form `f` on register `r` leaves, every check passed: the old value in `rd`,
the next program counter, its retirement counted, and no change outside the register's group. -/
structure CsrDone (s t : State) (f : CsrForm) (r : Csr) : Prop where
  /-- `x[rd]` takes the old value; `x0` stays zero (R230 to R235). -/
  result : t.readReg f.rd = if f.rd = 0 then 0 else s.cfg.trunc (s.readCsr r)
  /-- Every other integer register is unchanged. -/
  regs : ∀ x, x ≠ f.rd → t.readReg x = s.readReg x
  /-- `pc <- pc + 4`. -/
  pc : t.pc = s.cfg.trunc (s.pc + 4)
  /-- The instruction is counted as retired, unless it writes the counter itself (R104, R239). -/
  retired : (f.op.writes f.src && r.isInstret) = false →
    t.counters.minstret = s.counters.minstret + 1
  /-- Every CSR of another group reads as before, but for the retirement counter. -/
  others : ∀ r' : Csr, r'.group ≠ r.group → r'.group ≠ .instret → t.readCsr r' = s.readCsr r'
  /-- Inside the groups of the interrupt and the status registers, only what the written register shows
  changes: the enables by `mie` and its views (R101, R114, R122); -/
  enables : (f.op.writes f.src = true → r ∉ [.mie, .sie, .uie]) → t.mie = s.mie
  /-- the software-writable interrupt bits, which a read does not show beside a signal of the controller
  (R102), by `mip` and its views; -/
  pending : (f.op.writes f.src = true → r ∉ [.mip, .sip, .uip]) → t.mipSw = s.mipSw
  /-- the delegated interrupts by `mideleg` (R99); -/
  delegated : (f.op.writes f.src = true → r ≠ .mideleg) → t.deleg.mideleg = s.deleg.mideleg
  /-- the floating-point state by `fcsr` and its parts (R123); -/
  floatState : (f.op.writes f.src = true → r ∉ [.fflags, .frm, .fcsr]) → t.fcsr = s.fcsr
  /-- the fields of `mstatus` by `mstatus` and its views, but for `FS`, with which `SD` goes (R97, R112). -/
  status : (f.op.writes f.src = true → r ∉ [.mstatus, .sstatus, .ustatus]) →
    { t.mstatus with fs := s.mstatus.fs } = s.mstatus
  /-- The PMP registers, whose address bits below the granularity no read shows (R176). -/
  protection : r.group ≠ .pmp → t.pmp = s.pmp
  /-- An instruction that attempts no write changes no CSR, but for the retirement counter and, where
  the access alone makes `FS` Dirty, the status registers; a non-standard register is read afresh. -/
  pureRead : f.op.writes f.src = false → (r.isFloat && s.cfg.fsDirty == .onAccess) = false →
    r.group ≠ .nonStandard → ∀ r' : Csr, r'.group ≠ .instret → t.readCsr r' = s.readCsr r'
  /-- Every byte of memory reads as before. -/
  mem : ∀ a, t.mem.read a = s.mem.read a
  /-- What no CSR holds is unchanged: the mode, the platform's registers and signals, the translation
  cache, the waiting flag and what is still to arrive. -/
  rest :
    t.cfg = s.cfg ∧ t.priv = s.priv ∧ t.lines = s.lines ∧ t.mtime = s.mtime ∧ t.mtimecmp = s.mtimecmp
      ∧ t.pma = s.pma ∧ t.tlb = s.tlb ∧ t.waiting = s.waiting ∧ t.inputs = s.inputs ∧ t.draws = s.draws

/-- The instruction that returns from a trap taken into a mode (R302). -/
def returnInstr : Priv → Instr
  | .user => .uret
  | .supervisor => .sret
  | .machine => .mret

/-! ## The views of the interrupt registers (R114, R122) -/

/-- The bits `sip` and `sie` show: `USIP`, `SSIP`, `UTIP`, `STIP`, `UEIP`, `SEIP` (R114). -/
def supervisorInterruptBits : List Nat := [0, 1, 4, 5, 8, 9]

/-- The bits `uip` and `uie` show: `USIP`, `UTIP`, `UEIP` (R122). -/
def userInterruptBits : List Nat := [0, 4, 8]

/-- The bits of `mstatus` that `sstatus` shows (R112). -/
def sstatusBits (c : Config) : List Nat :=
  [0, 1, 4, 5, 8, 13, 14, 15, 16, 18, 19]
    ++ (if c.xlen = .rv64 then [32, 33] else []) ++ [c.xlen.bits - 1]

/-- Bit `k` of `sip` and `sie` is one that S-mode sees: it is in the view, and delegated where bits that
are not delegated read as zero (R114, G14). -/
def seenBySupervisor (s : State) (k : Nat) : Bool :=
  supervisorInterruptBits.contains k && (!s.cfg.maskByMideleg || s.deleg.mideleg.getLsbD k)

/-- Bit `k` of the interrupt-pending bits that software writes, 8 `UEIP` or 9 `SEIP`, can be written through
this register: both through `mip` (R101, R102), `UEIP` through `sip` where S-mode sees it (R114), none through
`uip` (log entry 9). -/
def injectable (s : State) (r : Csr) (k : Nat) : Bool :=
  (r == .mip || (r == .sip && k == 8 && seenBySupervisor s 8))
    && (if k = 9 then s.cfg.hasS else s.cfg.n)

/-! ## Interrupts (R292) -/

/-- Interrupt `i` meets the three conditions of R292. -/
def InterruptEnabled (s : State) (i : Interrupt) : Prop :=
  s.mip.getLsbD i.code = true ∧ s.mie.getLsbD i.code = true ∧
    (s.priv.enc.toNat < (s.interruptTarget i).enc.toNat
      ∨ (s.priv = s.interruptTarget i ∧ s.mstatus.ie (s.interruptTarget i) = true))

/-- The place of an interrupt in the order of R293. -/
def interruptRank (i : Interrupt) : Nat := interruptOrder.idxOf i

/-! ## PMP (R173, R174) -/

/-- The word address of entry `i` down to the granularity: with four bytes it is the register (R176). -/
def pmpWord (p : Pmp) (c : Config) (i : Nat) : Nat :=
  (p.entryAddr[i]?.getD 0).toNat / 2 ^ c.pmpGrain * 2 ^ c.pmpGrain

/-- Entry `i` matches the byte at physical address `a` (R173): TOR, NA4 or NAPOT on its word address. With
a granularity above four bytes a NAPOT address has ones below it (R176; log entry 14). -/
def pmpMatchesByte (p : Pmp) (c : Config) (i : Nat) (a : Nat) : Prop :=
  match ((p.entryCfg[i]?.getD 0).extractLsb' 3 2).toNat with
  | 0 => False
  | 1 => (if i = 0 then 0 else pmpWord p c (i - 1)) ≤ a / 4 ∧ a / 4 < pmpWord p c i
  | 2 => a / 4 = pmpWord p c i
  | _ => ∃ t addr, addr = ((p.entryAddr[i]?.getD 0) ||| lowMask (c.pmpGrain - 1)).toNat
      ∧ addr % 2 ^ (t + 1) = 2 ^ t - 1 ∧ a / 4 / 2 ^ (t + 1) = addr / 2 ^ (t + 1)

/-- The bit of a configuration byte that permits an access: `R`, bit 0, a load; `W`, bit 1, a store; `X`,
bit 2, a fetch (R172, R174). -/
def permissionBit : Access → Nat
  | .load => 0
  | .store => 1
  | .fetch => 2

/-- Bit `k` of the configuration byte of entry `i`; bit 7 is `L` (R172). -/
def pmpBit (p : Pmp) (i k : Nat) : Bool := (p.entryCfg[i]?.getD 0).getLsbD k

/-- A byte of an access made of parts, each an address and a number of bytes. -/
def InParts (parts : List (Nat × Nat)) (a : Nat) : Prop := ∃ q ∈ parts, q.1 ≤ a ∧ a < q.1 + q.2

/-- The check of R174 on an access of these parts: the lowest-numbered entry that matches any byte decides,
and it must match all. -/
def PmpGrants (p : Pmp) (c : Config) (acc : Access) (priv : Priv) (parts : List (Nat × Nat)) : Prop :=
  (∃ i, i < c.pmpCount
      ∧ (∃ a, InParts parts a ∧ pmpMatchesByte p c i a)
      ∧ (∀ j, j < i → ∀ a, InParts parts a → ¬ pmpMatchesByte p c j a)
      ∧ (∀ a, InParts parts a → pmpMatchesByte p c i a)
      ∧ ((priv = .machine ∧ pmpBit p i 7 = false) ∨ pmpBit p i (permissionBit acc) = true))
    ∨ ((∀ j, j < c.pmpCount → ∀ a, InParts parts a → ¬ pmpMatchesByte p c j a)
        ∧ (priv = .machine ∨ c.pmpCount = 0))

/-! ## Physical memory attributes (R171) -/

/-- The address lies in the region. -/
def PmaRegion.Holds (r : PmaRegion) (a : Nat) : Prop := r.base ≤ a ∧ a < r.base + r.size

/-- `r` is the region that gives the address its attributes: the first listed that holds it (log entry 18). -/
def HasRegion (l : List PmaRegion) (a : Nat) (r : PmaRegion) : Prop :=
  ∃ i : Nat, l[i]? = some r ∧ PmaRegion.Holds r a ∧ ∀ j q, j < i → l[j]? = some q → ¬ PmaRegion.Holds q a

/-- The attributes of the address permit an access of this type and of `width` bytes: its region is not empty and
supports both. -/
def AttributesPermit (l : List PmaRegion) (acc : Access) (width a : Nat) : Prop :=
  ∃ r, HasRegion l a r ∧ r.kind ≠ .empty ∧ width ∈ r.widths
    ∧ match acc with
      | .load => r.readable = true
      | .store => r.writable = true
      | .fetch => r.executable = true

/-! ## Memory and the memory-mapped registers (R103, R311) -/

/-- The address lies in the memory-mapped register of `size` bytes at `base`. -/
def inWindow (base : Option Nat) (size a : Nat) : Bool := base.any fun b => decide (b ≤ a ∧ a < b + size)

/-- The address is one of memory: none of the memory-mapped registers `mtime`, `mtimecmp` (R103) and `MSIP`
(R311), and inside the physical address space. That a register hides memory at its address is log entry 22. -/
def isMemory (c : Config) (a : Nat) : Bool :=
  !inWindow c.mtimeAddr 8 a && !inWindow c.mtimecmpAddr 8 a && !inWindow c.msipAddr 4 a
    && decide (a < 2 ^ c.physBits)

/-! ## The page-table walk (R181) -/

/-- Step 2 of R181 reads the valid entry `pte` at physical address `at_`: the read passes the PMP and PMA
checks of an S-mode load, and the entry is not refused in step 3. -/
def PteAt (s : State) (sch : Scheme) (at_ : Nat) (pte : Word) : Prop :=
  s.physAllows s.pmp .load .supervisor at_ (pteSize sch) = true
    ∧ (∃ v, s.physRead at_ (pteSize sch) = .ok v ∧ pte = BitVec.ofNat 64 v)
    ∧ pteV pte = true ∧ (pteR pte = true ∨ pteW pte = false)

/-- Steps 2 to 4 of R181 for `va`, from the table at `a` on level `i`, come to the leaf `pte`, read at
`at_` on level `l`. -/
inductive LeafReached (s : State) (sch : Scheme) (va : Nat) : Nat → Nat → Nat → Nat → Word → Prop
  | leaf (i a : Nat) (pte : Word)
      (read : PteAt s sch (a + vpnField sch va i * pteSize sch) pte)
      (isLeaf : pteR pte = true ∨ pteX pte = true) :
      LeafReached s sch va i a i (a + vpnField sch va i * pteSize sch) pte
  | pointer (i a l at_ : Nat) (ptr pte : Word)
      (read : PteAt s sch (a + vpnField sch va (i + 1) * pteSize sch) ptr)
      (notLeaf : pteR ptr = false ∧ pteX ptr = false)
      (next : LeafReached s sch va i (ptePpn sch ptr * 4096) l at_ pte) :
      LeafReached s sch va (i + 1) a l at_ pte

/-- `Permitted` of R182: the type check and the privilege check. -/
def Permitted (pte : Word) (acc : Access) (p : Priv) (sum mxr : Bool) : Prop :=
  (match acc with
    | .fetch => pteX pte = true
    | .store => pteW pte = true
    | .load => pteR pte = true ∨ (pteX pte = true ∧ mxr = true))
  ∧ (match p with
    | .user => pteU pte = true
    | _ => pteU pte = false ∨ (acc ≠ .fetch ∧ sum = true))

/-- Step 2 of R181 reads the entry `pte`, valid or not, at physical address `at_`. -/
def PteRead (s : State) (sch : Scheme) (at_ : Nat) (pte : Word) : Prop :=
  s.physAllows s.pmp .load .supervisor at_ (pteSize sch) = true
    ∧ ∃ v, s.physRead at_ (pteSize sch) = .ok v ∧ pte = BitVec.ofNat 64 v

/-- Steps 5 to 7 of R181 raise a page fault at the leaf `pte` on level `l`: it does not permit the access, its
page is misaligned, or the bit to be set is software's. -/
def LeafPageFaults (s : State) (sch : Scheme) (acc : Access) (p : Priv) (l : Nat) (pte : Word) : Prop :=
  ¬ Permitted pte acc p s.mstatus.sum s.mstatus.mxr
    ∨ ptePpn sch pte % 2 ^ (l * vpnBits sch) ≠ 0
    ∨ (s.cfg.hardwareADUpdate = false ∧ (pteA pte = false ∨ (acc = .store ∧ pteD pte = false)))

/-- The steps of R181 for `va`, from the table at `a` on level `i`, raise a page fault: an entry is not valid,
none is a leaf, or the leaf raises one. -/
def WalkPageFaults (s : State) (sch : Scheme) (acc : Access) (p : Priv) (va : Nat) : Nat → Nat → Prop
  | i, a =>
    ∃ pte, PteRead s sch (a + vpnField sch va i * pteSize sch) pte
      ∧ (pteV pte = false ∨ (pteR pte = false ∧ pteW pte = true)
        ∨ ((pteR pte = true ∨ pteX pte = true) ∧ LeafPageFaults s sch acc p i pte)
        ∨ (pteR pte = false ∧ pteW pte = false ∧ pteX pte = false ∧
            match i with
            | 0 => True
            | j + 1 => WalkPageFaults s sch acc p va j (ptePpn sch pte * 4096)))

/-- The steps of R181 raise an access fault: the read of an entry, or the update of the leaf's Accessed or
Dirty bit, violates a PMP or PMA check. -/
def WalkAccessFaults (s : State) (sch : Scheme) (acc : Access) (p : Priv) (va : Nat) : Nat → Nat → Prop
  | i, a =>
    s.physAllows s.pmp .load .supervisor (a + vpnField sch va i * pteSize sch) (pteSize sch) = false
      ∨ ∃ pte, PteAt s sch (a + vpnField sch va i * pteSize sch) pte
        ∧ (((pteR pte = true ∨ pteX pte = true) ∧ ¬ LeafPageFaults s sch acc p i pte
              ∧ (pteA pte = false ∨ (acc = .store ∧ pteD pte = false))
              ∧ (s.physAllows s.pmp .store .supervisor (a + vpnField sch va i * pteSize sch) (pteSize sch) = false
                ∨ pmaAtomic s.pma (a + vpnField sch va i * pteSize sch) (pteSize sch) = false))
          ∨ (pteR pte = false ∧ pteX pte = false ∧
              match i with
              | 0 => False
              | j + 1 => WalkAccessFaults s sch acc p va j (ptePpn sch pte * 4096)))

/-! ## Translations from the cache (R186) -/

/-- `satp.ASID`, bits 30:22 on RV32 and 59:44 on RV64 (R120). -/
def presentAsid (s : State) : Nat :=
  match s.cfg.xlen with
  | .rv32 => (s.satp.extractLsb' 22 9).toNat
  | .rv64 => (s.satp.extractLsb' 44 16).toNat

/-- Step 3 of R181 lets the entry pass. -/
def PteValid (pte : Word) : Prop := pteV pte = true ∧ (pteR pte = true ∨ pteW pte = false)

/-- Step 4 of R181 takes the entry for a leaf. -/
def PteLeaf (pte : Word) : Prop := pteR pte = true ∨ pteX pte = true

/-- An access through the leaf `pte` on level `l` passes steps 5 to 7 of R181 with no update: it is permitted
now, its page is aligned, and the Accessed and Dirty bits that it needs are set. -/
def LeafReady (s : State) (sch : Scheme) (acc : Access) (p : Priv) (l : Nat) (pte : Word) : Prop :=
  Permitted pte acc p s.mstatus.sum s.mstatus.mxr
    ∧ ptePpn sch pte % 2 ^ (l * vpnBits sch) = 0
    ∧ pteA pte = true ∧ (acc = .store → pteD pte = true)

/-- The cached entry `e` serves the translation of `va`: it is the one that the boundary draws, its pages
hold the address, and it is of the present address space, or global, or of an untagged cache (R186, R187).
One that would come to the update of R183 does not serve, log entry 13. -/
structure CachedServes (s : State) (sch : Scheme) (acc : Access) (p : Priv) (va : Nat) (e : TlbEntry) : Prop where
  drawn : ∃ k, s.draws.cached = some k ∧ s.tlb[k]? = some e
  page : e.vpn = va / 2 ^ (12 + e.level * vpnBits sch)
  space : e.global = true ∨ e.asid = presentAsid s ∨ s.cfg.asidTagged = false
  noUpdate : ¬(s.cfg.hardwareADUpdate = true ∧ PteValid e.pte ∧ PteLeaf e.pte
    ∧ ¬ LeafPageFaults s sch acc p e.level e.pte ∧ (pteA e.pte = false ∨ (acc = .store ∧ pteD e.pte = false)))

/-- The translation of `va` walks the tables from level `i` of the table at `a`: from the root (R181 step 1)
where no cached entry serves, and below the cached pointer that serves; `g` says whether an entry above makes the
mapping global (R179). -/
def WalkStartsBelow (s : State) (sch : Scheme) (acc : Access) (p : Priv) (va i a : Nat) (g : Bool) : Prop :=
  ((∀ e, ¬ CachedServes s sch acc p va e) ∧ i = schemeLevels sch - 1 ∧ a = s.cfg.satpPpn s.satp * 4096
      ∧ g = false)
    ∨ ∃ e, CachedServes s sch acc p va e ∧ PteValid e.pte ∧ ¬ PteLeaf e.pte ∧ e.level = i + 1
        ∧ a = ptePpn sch e.pte * 4096 ∧ g = e.global

/-- The translation of `va` walks the tables from level `i` of the table at `a`. -/
def WalkStartsAt (s : State) (sch : Scheme) (acc : Access) (p : Priv) (va i a : Nat) : Prop :=
  ∃ g, WalkStartsBelow s sch acc p va i a g

/-- Steps 2 to 4 of R181 for `va`, from the table at `a` on level `i`, `g` telling whether an entry above is
global, read the entry `pte` on level `l`, and `g'` tells whether it or an entry above is global (R179). The `G`
bit of an entry that step 3 refuses counts for nothing, log entry 13. -/
inductive EntryRead (s : State) (sch : Scheme) (va : Nat) : Nat → Nat → Bool → Nat → Word → Bool → Prop
  | here (i a : Nat) (g : Bool) (pte : Word)
      (read : PteRead s sch (a + vpnField sch va i * pteSize sch) pte) :
      EntryRead s sch va i a g i pte (g || (pteV pte && (pteR pte || !pteW pte) && pteG pte))
  | deeper (i a l : Nat) (g g' : Bool) (ptr pte : Word)
      (read : PteAt s sch (a + vpnField sch va (i + 1) * pteSize sch) ptr)
      (notLeaf : pteR ptr = false ∧ pteX ptr = false)
      (next : EntryRead s sch va i (ptePpn sch ptr * 4096) (g || pteG ptr) l pte g') :
      EntryRead s sch va (i + 1) a g l pte g'

/-- The cache entry `e` holds what the translation of `va` reads now: an entry that its walk reads, on that
level, for the pages of the address, in the present address space, with the present PMP settings (R176, R186),
and with a leaf as `f` makes it. -/
structure CachedRead (s : State) (sch : Scheme) (acc : Access) (p : Priv) (va : Nat) (f : Word → Word)
    (e : TlbEntry) : Prop where
  read : ∃ i a g pte, WalkStartsBelow s sch acc p va i a g ∧ EntryRead s sch va i a g e.level pte e.global
    ∧ e.pte = if pteR pte || pteX pte then f pte else pte
  asid : e.asid = presentAsid s
  page : e.vpn = va / 2 ^ (12 + e.level * vpnBits sch)
  pmp : e.pmp = s.pmp

/-- The cache of `t` is that of `s` with what the translation of `va` reads. -/
def CacheGains (s t : State) (sch : Scheme) (acc : Access) (p : Priv) (va : Nat) (f : Word → Word) : Prop :=
  ∀ e, e ∈ t.tlb ↔ e ∈ s.tlb ∨ CachedRead s sch acc p va f e

/-- A cached entry that serves raises a page fault by itself: it is not valid, it is a leaf that steps 5 to 7
of R181 refuse now, or a pointer on the last level. -/
def CachedPageFaults (s : State) (sch : Scheme) (acc : Access) (p : Priv) (va : Nat) : Prop :=
  ∃ e, CachedServes s sch acc p va e
    ∧ (¬ PteValid e.pte ∨ (PteLeaf e.pte ∧ LeafPageFaults s sch acc p e.level e.pte)
      ∨ (¬ PteLeaf e.pte ∧ e.level = 0))

/-- The entry after the update of R183: Accessed set, and for a store Dirty. -/
def updatedPte (acc : Access) (pte : Word) : Word := pte ||| 0x40 ||| (if acc = .store then 0x80 else 0)

/-- Steps 5 to 8 of R181 give the translation `t` of `va` through the leaf `pte`, which the walk read at `at_`
on level `l`: the access is permitted, the page aligned, the address the page's with the offset, and the PMP
settings the present ones. Where the Accessed and Dirty bits that the access needs are set nothing changes but
the translation cache; else hardware updates the entry (R183), little-endian in memory, and every other byte of
memory reads as before. -/
def LeafGives (s : State) (sch : Scheme) (acc : Access) (p : Priv) (va l at_ : Nat) (pte : Word)
    (t : Translated) : Prop :=
  Permitted pte acc p s.mstatus.sum s.mstatus.mxr
    ∧ ptePpn sch pte % 2 ^ (l * vpnBits sch) = 0
    ∧ t.pa = ptePpn sch pte * 4096 + va % 2 ^ (12 + l * vpnBits sch) ∧ t.pmp = s.pmp
    ∧ ((pteA pte = true ∧ (acc = .store → pteD pte = true) ∧ { t.state with tlb := s.tlb } = s)
      ∨ ((pteA pte = false ∨ (acc = .store ∧ pteD pte = false)) ∧ s.cfg.hardwareADUpdate = true
          ∧ (∀ a, t.state.mem.read a =
              if isMemory s.cfg a = true ∧ at_ ≤ a ∧ a < at_ + pteSize sch then
                some ((updatedPte acc pte).extractLsb' (8 * (a - at_)) 8)
              else s.mem.read a)
          ∧ { t.state with
                tlb := s.tlb, mem := s.mem, mtime := s.mtime, mtimecmp := s.mtimecmp, lines := s.lines } = s))

/-! ## What arrives at a boundary (R103, R311, R312, R320, R345) -/

/-- The last byte that a list of stores puts at an address, if it puts one there. -/
def lastStored : List Host.Cell → Nat → Option Byte
  | [], _ => none
  | (k, b) :: rest, a => (lastStored rest a).or (if k = a then some b else none)

/-- The input `i` arrives at state `s` and leaves `v`, with `rest` still to come: time, cycles and events
advance, the platform may configure the attributes of memory, the controller's signals take their levels, the
bytes that others store land in memory and in the memory-mapped registers, the draws of the boundary are made,
and nothing else changes. That a store to the address of `mtime` changes it is log entry 19; that where the
addresses of the memory-mapped registers overlap `mtime` is stored to before `mtimecmp`, and `mtimecmp` before
`MSIP`, is log entry 22. -/
structure Arrived (s : State) (i : Input) (rest : List Input) (v : State) : Prop where
  /-- `mtime` advances (R345); a byte stored at its address replaces its byte. -/
  mtime : s.cfg.mtimeAddr = none → v.mtime = s.mtime + i.mtimeTicks
  mtimeBytes : ∀ b k, s.cfg.mtimeAddr = some b → k < 8 →
    v.mtime.extractLsb' (8 * k) 8
      = (lastStored i.writes (b + k)).getD ((s.mtime + i.mtimeTicks).extractLsb' (8 * k) 8)
  /-- A byte stored at the address of `mtimecmp` replaces its byte (R103). -/
  mtimecmp : s.cfg.mtimecmpAddr = none → v.mtimecmp = s.mtimecmp
  mtimecmpBytes : ∀ b k, s.cfg.mtimecmpAddr = some b → k < 8 →
    v.mtimecmp.extractLsb' (8 * k) 8
      = if inWindow s.cfg.mtimeAddr 8 (b + k) then s.mtimecmp.extractLsb' (8 * k) 8
        else (lastStored i.writes (b + k)).getD (s.mtimecmp.extractLsb' (8 * k) 8)
  /-- Bit 0 of the byte stored at the address of `MSIP` (R311). -/
  msip : v.lines.msip =
    match s.cfg.msipAddr with
    | none => s.lines.msip
    | some b =>
      if inWindow s.cfg.mtimeAddr 8 b || inWindow s.cfg.mtimecmpAddr 8 b then s.lines.msip
      else ((lastStored i.writes b).map fun x => x.getLsbD 0).getD s.lines.msip
  /-- The level signals of the interrupt controller (R312). -/
  signals : v.lines.meip = i.meip ∧ v.lines.seip = i.seip ∧ v.lines.ueip = i.ueip
  /-- `mcycle` advances (R345). -/
  mcycle : v.counters.mcycle = s.counters.mcycle + i.mcycleTicks
  /-- An event counter that exists, and whose event is not 0, adds what it counted, in the bits it
  implements; every other one stays (R104). -/
  events : ∀ n : Fin 29, v.counters.hpmCounter[n] =
    if s.cfg.hpmExists (n.val + 3) = true ∧ s.counters.hpmEvent[n] ≠ 0 then
      (i.hpmTicks.filter fun e => e.1 == n).foldl (fun x e => (x + e.2) &&& s.cfg.hpmCounterBits n)
        s.counters.hpmCounter[n]
    else s.counters.hpmCounter[n]
  /-- `minstret`, the event selectors and the counter enables stay. -/
  otherCounters :
    { v.counters with mcycle := s.counters.mcycle, hpmCounter := s.counters.hpmCounter } = s.counters
  /-- Every byte of memory reads as the last byte stored there, and where none was, as before; the attributes of
  its address do not matter (log entry 23). -/
  mem : ∀ a, v.mem.read a =
    if isMemory s.cfg a then (lastStored i.writes a).or (s.mem.read a) else s.mem.read a
  /-- The attributes of memory are those the platform gives now, if it configures them (R171). -/
  pma : v.pma = i.pma.getD s.pma
  draws : v.draws = i.draws
  inputs : v.inputs = rest
  /-- Everything else is unchanged. -/
  rest :
    { v with
        mtime := s.mtime, mtimecmp := s.mtimecmp, lines := s.lines, counters := s.counters, mem := s.mem
        pma := s.pma, draws := s.draws, inputs := s.inputs } = s

/-- What speculative walks can change from `v` to `u` (R186): the translation cache, and where hardware
updates the bits, Accessed bits, never Dirty ones (R183): a byte of memory reads as before, or as before with
bit 6 set. -/
structure Speculated (v u : State) : Prop where
  bytes : ∀ a, u.mem.read a = v.mem.read a
    ∨ ∃ b, v.mem.read a = some b ∧ u.mem.read a = some (b ||| 0x40)
  noUpdate : v.cfg.hardwareADUpdate = false → { u with tlb := v.tlb } = v
  signals : u.lines.meip = v.lines.meip ∧ u.lines.seip = v.lines.seip ∧ u.lines.ueip = v.lines.ueip
  rest :
    { u with
        tlb := v.tlb, mem := v.mem, mtime := v.mtime, mtimecmp := v.mtimecmp, lines := v.lines } = v

/-- A speculative walk is made as a fetch or as a load. -/
def specAccess (w : SpecWalk) : Access := if w.fetch then .fetch else .load

/-- One speculative walk leads from `v` to `m`: a translation of its address, and where that does not succeed the
cache alone gains the entries that were read, as they were read (log entry 13). -/
structure SpeculatedBy (w : SpecWalk) (v m : State) : Prop where
  succeeds : ∀ t, v.translate (specAccess w) w.priv (v.cfg.trunc w.va) = .ok t → m = t.state
  fails : (∀ t, v.translate (specAccess w) w.priv (v.cfg.trunc w.va) ≠ .ok t) →
    { m with tlb := v.tlb } = v
      ∧ ∀ sch, v.activeScheme w.priv = some sch →
          (canonical sch (v.cfg.trunc w.va) = false → m = v)
            ∧ (canonical sch (v.cfg.trunc w.va) = true →
                CacheGains v m sch (specAccess w) w.priv (v.cfg.trunc w.va).toNat id)

/-- Speculative walks, one after the other. -/
def SpeculatedInTurn : List SpecWalk → State → State → Prop
  | [], v, u => u = v
  | w :: rest, v, u => ∃ m, SpeculatedBy w v m ∧ SpeculatedInTurn rest m u

/-- `u` is the state at the boundary of `s`, its input in, and `wake` says whether the implementation resumes
a waiting hart. Where no input is left nothing arrives. -/
def AtBoundary (s u : State) (wake : Bool) : Prop :=
  match s.inputs with
  | [] => u = s ∧ wake = false
  | i :: rest =>
    wake = i.wake ∧ ∃ v, Arrived s i rest v ∧ u = v.speculateAll i.speculate ∧ Speculated v u
      ∧ SpeculatedInTurn i.speculate v u

/-! ## What U-mode may change -/

/-- `t` differs from `s` in nothing that belongs to a mode above U: outside the integer registers, the
program counter, the U-mode trap registers, the floating-point state with `FS`, the U bits of the status
and interrupt registers, the retirement counter and the translation cache, all is as in `s`. Memory and
the memory-mapped registers are as the fetch of the instruction leaves them, which may update page-table
entries, and as in `s` where the fetch is not translated, raises, or hardware makes no such update. The
signals of the interrupt controller are as in `s`. -/
structure OnlyUserStateChanged (s t : State) : Prop where
  mstatus : { t.mstatus with uie := s.mstatus.uie, upie := s.mstatus.upie, fs := s.mstatus.fs } = s.mstatus
  mie : t.mie &&& ~~~0x111 = s.mie &&& ~~~0x111
  mipSw : t.mipSw &&& ~~~0x111 = s.mipSw &&& ~~~0x111
  counters : { t.counters with minstret := s.counters.minstret } = s.counters
  memory : ∀ u : State, ((∃ w, s.fetch = .ok (u, w)) ∨ ((∀ v w, s.fetch ≠ .ok (v, w)) ∧ u = s)) →
    (∀ a, t.mem.read a = u.mem.read a) ∧ t.mtime = u.mtime ∧ t.mtimecmp = u.mtimecmp ∧ t.lines = u.lines
  untouched : s.cfg.hardwareADUpdate = false ∨ s.activeScheme s.priv = none →
    (∀ a, t.mem.read a = s.mem.read a) ∧ t.mtime = s.mtime ∧ t.mtimecmp = s.mtimecmp ∧ t.lines = s.lines
  signals : t.lines.meip = s.lines.meip ∧ t.lines.seip = s.lines.seip ∧ t.lines.ueip = s.lines.ueip
  rest :
    { t with
        regs := s.regs, pc := s.pc, uTrap := s.uTrap, fcsr := s.fcsr, mstatus := s.mstatus, mie := s.mie,
        mipSw := s.mipSw, counters := s.counters, tlb := s.tlb, waiting := s.waiting,
        drawCount := s.drawCount, mem := s.mem, mtime := s.mtime, mtimecmp := s.mtimecmp,
        lines := s.lines } = s

end Sys2Proof.Machine
end

