-- ==== Sys2Proof/Certificates/Slice0/Obligations.lean ====
section
/-! DEFINITION. The statements for the provers. They quantify over every state, and a state carries its
parameters, so each holds for every choice of the parameters of spec/00_scope.md R8 and R9. -/

open Sys2Proof Sys2Proof.Machine

/-! ## Encoding -/

/-- Decoding the encoding of an instruction gives it back, as a word and as four bytes of memory (R201
to R207). -/
def Obligations.DecodeInvertsEncode : Prop :=
  ∀ i : Instr, decodeWord (encode i) = .instr i ∧ decodeBytes (encodeBytes i) = .instr i

/-- A word that decodes to an instruction is its encoding: no bit of the word is ignored (R207, R208). -/
def Obligations.EncodeInvertsDecode : Prop :=
  ∀ (w : BitVec 32) (i : Instr), decodeWord w = .instr i → encode i = w

/-- The decoder is the match and mask table of R208, and no two rows of the table overlap. -/
def Obligations.DecoderIsMatchMaskTable : Prop :=
  (∀ (w : BitVec 32) (r : OpcodeRow), r ∈ opcodeRows →
      (r.Matches w ↔ ∃ i, decodeWord w = .instr i ∧ i.mnemonic = r.mnemonic))
    ∧ ∀ r ∈ opcodeRows, ∀ q ∈ opcodeRows, r ≠ q → ∀ w, ¬(r.Matches w ∧ q.Matches w)

/-- A fetched word under the SYSTEM opcode that matches no row of R208 raises an illegal-instruction
exception; a word under another opcode is refused (R209, D5). The trap is taken from the state after the
fetch: that what the walk of the fetch did stays is the model's choice, notes/assumptions/10.md. -/
def Obligations.ReservedWordsRaiseIllegal : Prop :=
  ∀ (s t : State) (w : BitVec 32), s.fetch = .ok (t, w) →
    (w.extractLsb' 0 7 = 0b1110011 → (∀ r ∈ opcodeRows, ¬ r.Matches w) →
        ∃ u, s.runNext = .next u ∧ (s.Running → step s = .next u)
          ∧ Trapped t u (t.exceptionTarget .illegalInstruction) false 2
              (if t.cfg.illegalTvalBits then w.zeroExtend 64 else 0))
      ∧ (w.extractLsb' 0 7 ≠ 0b1110011 →
          s.runNext = .refused (.notSystemOpcode w)
            ∧ (s.Running → step s = .refused (.notSystemOpcode w)))

/-- Words written out from R206 and R207, one or more of each family, decode to their instructions; the
encodings that version 1.10 removed are reserved (R210). -/
def Obligations.WrittenWordsDecode : Prop :=
  decodeWord 0x340312F3 = .instr (.csrrw 5 0x340 6)
    ∧ decodeWord 0xF1402573 = .instr (.csrrs 10 0xF14 0)
    ∧ decodeWord 0x3003B073 = .instr (.csrrc 0 0x300 7)
    ∧ decodeWord 0x3408D073 = .instr (.csrrwi 0 0x340 17)
    ∧ decodeWord 0x30046073 = .instr (.csrrsi 0 0x300 8)
    ∧ decodeWord 0x300472F3 = .instr (.csrrci 5 0x300 8)
    ∧ decodeWord 0x00000073 = .instr .ecall
    ∧ decodeWord 0x00100073 = .instr .ebreak
    ∧ decodeWord 0x00200073 = .instr .uret
    ∧ decodeWord 0x10200073 = .instr .sret
    ∧ decodeWord 0x30200073 = .instr .mret
    ∧ decodeWord 0x10500073 = .instr .wfi
    ∧ decodeWord 0x12628073 = .instr (.sfenceVma 5 6)
    ∧ decodeWord 0x10400073 = .reserved 0x10400073
    ∧ decodeWord 0x20200073 = .reserved 0x20200073

/-! ## Steps -/

/-- What runs at a boundary once its inputs are in and neither waiting nor an interrupt precedes, `runNext`,
executes the instruction that the word at the program counter decodes to, in the state after the fetch; an
exception of the fetch is taken. A step at which nothing arrives is that; a step at which something arrives
comes to it as `InterruptTakenExactlyWhenEnabled` and `WaitingHartResumes` say. Two clauses rest on a choice of the model, notes/assumptions/10.md: what the walk of a successful fetch did to
page-table entries and to the translation cache stays, and a fetch that raises leaves both as they were. -/
def Obligations.StepRunsDecodedInstruction : Prop :=
  (∀ s : State, s.Running → step s = s.runNext)
    ∧ (∀ (s t : State) (w : BitVec 32) (i : Instr), s.fetch = .ok (t, w) → decodeWord w = .instr i →
        s.runNext = exec i t ∧ (s.Running → step s = exec i t))
    ∧ ∀ (s : State) (e : Exception) (tval : Word), s.fetch = .exc e tval →
        ∃ u, s.runNext = .next u ∧ (s.Running → step s = .next u)
          ∧ Trapped s u (s.exceptionTarget e) false e.code tval

/-- R146, R149, R156, R177, R201: a fetch takes the four bytes at the translated program counter, the first in
bits 7:0, where its checks pass, and leaves the state that its translation leaves; where it is not translated
these are the bytes at the program counter itself, and the instruction they hold is executed. It raises exactly
what its translation and its checks raise, an instruction page fault (12) or an instruction access fault (1),
with the program counter as trap value. `PhysRead` of R13 reads the byte at each address, little-endian. That a
program counter which is not aligned raises an instruction-address-misaligned exception is log entry 12; how the
memory-mapped registers are read, byte by byte, and before the memory at their addresses, log entries 17 and 22:
the bytes of `mtime` and `mtimecmp`, little-endian, and `MSIP` with its bit 0 (R103, R311). -/
def Obligations.StepRunsInstructionAtPc : Prop :=
  (∀ (s : State) (i : Instr) (b0 b1 b2 b3 : Byte), s.activeScheme s.priv = none →
    s.cfg.alignPc s.pc = s.pc →
    s.physAllows s.pmp .fetch s.priv (s.pc.toNat % 2 ^ s.cfg.physBits) 4 = true →
    (∀ k, k < 4 → s.deviceByte (s.pc.toNat % 2 ^ s.cfg.physBits + k) = none
      ∧ isIo s.pma (s.pc.toNat % 2 ^ s.cfg.physBits + k) = false) →
    s.mem.read (s.pc.toNat % 2 ^ s.cfg.physBits) = some b0 →
    s.mem.read (s.pc.toNat % 2 ^ s.cfg.physBits + 1) = some b1 →
    s.mem.read (s.pc.toNat % 2 ^ s.cfg.physBits + 2) = some b2 →
    s.mem.read (s.pc.toNat % 2 ^ s.cfg.physBits + 3) = some b3 →
    decodeWord (b3 ++ b2 ++ b1 ++ b0) = .instr i → s.runNext = exec i s ∧ (s.Running → step s = exec i s))
    ∧ (∀ (s : State) (t : Translated) (b0 b1 b2 b3 : Byte), (s.cfg.trunc s.pc).extractLsb' 0 2 = 0 →
        s.accessAddress .fetch s.priv (s.cfg.trunc s.pc) 4 = .ok t →
        (∀ k, k < 4 → t.state.deviceByte (t.pa + k) = none ∧ isIo t.state.pma (t.pa + k) = false) →
        t.state.mem.read t.pa = some b0 → t.state.mem.read (t.pa + 1) = some b1 →
        t.state.mem.read (t.pa + 2) = some b2 → t.state.mem.read (t.pa + 3) = some b3 →
        s.fetch = .ok (t.state, b3 ++ b2 ++ b1 ++ b0))
    ∧ (∀ (s : State) (e : Exception) (tval : Word),
        (s.fetch = .exc e tval ↔
          ((s.cfg.trunc s.pc).extractLsb' 0 2 ≠ 0 ∧ e = .instrAddrMisaligned ∧ tval = s.cfg.trunc s.pc)
            ∨ ((s.cfg.trunc s.pc).extractLsb' 0 2 = 0
                ∧ s.accessAddress .fetch s.priv (s.cfg.trunc s.pc) 4 = .exc e tval))
          ∧ (s.fetch = .exc e tval → (s.cfg.trunc s.pc).extractLsb' 0 2 = 0 →
              tval = s.cfg.trunc s.pc ∧ (e = .instrPageFault ∨ e = .instrAccessFault)))
    ∧ (Access.pageFault .fetch = .instrPageFault ∧ Access.accessFault .fetch = .instrAccessFault
        ∧ Exception.instrPageFault.code = 12 ∧ Exception.instrAccessFault.code = 1
        ∧ Exception.instrAddrMisaligned.code = 0)
    ∧ (∀ (s : State) (a n v : Nat), s.physRead a n = .ok v ↔
        v < 2 ^ (8 * n) ∧ ∀ k, k < n →
          s.deviceByte (a + k) = some (BitVec.ofNat 8 (v / 2 ^ (8 * k)))
            ∨ (s.deviceByte (a + k) = none ∧ isIo s.pma (a + k) = false
                ∧ s.mem.read (a + k) = some (BitVec.ofNat 8 (v / 2 ^ (8 * k)))))
    ∧ ∀ s : State,
        (∀ b k, s.cfg.mtimeAddr = some b → k < 8 → s.deviceByte (b + k) = some (s.mtime.extractLsb' (8 * k) 8))
          ∧ (∀ b k, s.cfg.mtimecmpAddr = some b → k < 8 → inWindow s.cfg.mtimeAddr 8 (b + k) = false →
              s.deviceByte (b + k) = some (s.mtimecmp.extractLsb' (8 * k) 8))
          ∧ (∀ b k, s.cfg.msipAddr = some b → k < 4 → inWindow s.cfg.mtimeAddr 8 (b + k) = false →
              inWindow s.cfg.mtimecmpAddr 8 (b + k) = false →
              s.deviceByte (b + k) = some (if k = 0 ∧ s.lines.msip = true then 1 else 0))
          ∧ ∀ a, inWindow s.cfg.mtimeAddr 8 a = false → inWindow s.cfg.mtimecmpAddr 8 a = false →
              inWindow s.cfg.msipAddr 4 a = false → s.deviceByte a = none

/-! ## CSR instructions -/

/-- The six CSR instructions are the pseudocode of R230 to R235 over the checked accesses of R224 and R225;
what is read and what is written is decided as R236 says. -/
def Obligations.CsrInstructionsFollowPseudocode : Prop :=
  ∀ (s : State) (rd rs1 : Reg) (a : CsrAddr) (uimm : BitVec 5),
    exec (.csrrw rd a rs1) s = .next (csrrwSpec s (.csrrw rd a rs1) rd a (s.readReg rs1))
      ∧ exec (.csrrs rd a rs1) s =
          .next (csrModifySpec s (.csrrs rd a rs1) rd a (rs1 != 0) fun old => old ||| s.readReg rs1)
      ∧ exec (.csrrc rd a rs1) s =
          .next (csrModifySpec s (.csrrc rd a rs1) rd a (rs1 != 0) fun old => old &&& ~~~ s.readReg rs1)
      ∧ exec (.csrrwi rd a uimm) s = .next (csrrwSpec s (.csrrwi rd a uimm) rd a (uimm.zeroExtend 64))
      ∧ exec (.csrrsi rd a uimm) s =
          .next (csrModifySpec s (.csrrsi rd a uimm) rd a (uimm != 0) fun old => old ||| uimm.zeroExtend 64)
      ∧ exec (.csrrci rd a uimm) s =
          .next (csrModifySpec s (.csrrci rd a uimm) rd a (uimm != 0) fun old =>
            old &&& ~~~ uimm.zeroExtend 64)

/-- CSRRW, CSRRS, CSRRC, CSRRWI, CSRRSI and CSRRCI complete whenever the access is permitted and no WLRL
field raises: `rd` takes the old value, the program counter moves on, the retirement is counted, and
nothing outside the register's group changes; nor do, of the interrupt and the status registers, the parts that
the written register does not show, but for `FS` with floating-point state (`CsrDone`). -/
def Obligations.CsrInstructionsComplete : Prop :=
  ∀ (s : State) (i : Instr) (f : CsrForm) (r : Csr), csrForm i = some f → csrAt s.cfg f.csr = some r →
    CsrAllowed s f.op f.csr f.src →
    (f.op.writes f.src = true →
      wlrlAccepts s.cfg r (f.op.result (s.rmwValue r) (s.sourceValue f.src)) = true) →
    ∃ t, exec i s = .next t ∧ CsrDone s t f r

/-- R221: an access without sufficient privilege raises an illegal-instruction exception. -/
def Obligations.CsrNeedsPrivilege : Prop :=
  ∀ (s : State) (i : Instr) (f : CsrForm), csrForm i = some f →
    s.priv.enc.toNat < (f.csr.extractLsb' 8 2).toNat → RaisesIllegal i s

/-- R222: an access to a CSR that does not exist raises an illegal-instruction exception, in every mode. The
CSRs that exist are those of the tables of R33 to R39, at their numbers, that R40 to R46 give the
implementation, and its own in the non-standard ranges; no other address has one. That the registers of
absent PMP entries do not exist is the model's choice (log entry 14). -/
def Obligations.CsrMustExist : Prop :=
  (∀ (s : State) (i : Instr) (f : CsrForm), csrForm i = some f → csrAt s.cfg f.csr = none →
      RaisesIllegal i s)
    ∧ ∀ (c : Config) (a : CsrAddr) (r : Csr), csrAt c a = some r ↔
        (InCsrTables a.toNat r ∧ CsrExists c a.toNat r)
          ∨ (r = .nonStandard a ∧ a ∈ c.nonStandardCsrs ∧ NonStandardRange a.toNat)

/-- R223: an instruction that attempts a write to a read-only CSR raises an illegal-instruction exception,
whatever value it would write. -/
def Obligations.CsrReadOnlyRefusesWrites : Prop :=
  ∀ (s : State) (i : Instr) (f : CsrForm), csrForm i = some f → f.csr.extractLsb' 10 2 = 0b11 →
    f.op.writes f.src = true → RaisesIllegal i s

/-- R226, D3: an access that a more privileged level intercepts raises an illegal-instruction exception. -/
def Obligations.CsrInterceptionRaises : Prop :=
  ∀ (s : State) (i : Instr) (f : CsrForm), csrForm i = some f → s.priv ≠ .machine →
    (s.priv, f.csr) ∈ s.cfg.interceptCsr → RaisesIllegal i s

/-- R227: every access to 0x7B0 to 0x7BF raises an illegal-instruction exception, and without debug
triggers every access to 0x7A0 to 0x7BF does; with them the trigger registers exist, as machine-level
read/write CSRs, and the rest of 0x7A0 to 0x7AF does not. -/
def Obligations.CsrDebugRangesRaise : Prop :=
  (∀ (s : State) (i : Instr) (f : CsrForm), csrForm i = some f →
      (0x7B0 ≤ f.csr.toNat ∧ f.csr.toNat ≤ 0x7BF
        ∨ s.cfg.hasDebugTriggers = false ∧ 0x7A0 ≤ f.csr.toNat ∧ f.csr.toNat ≤ 0x7BF) →
      RaisesIllegal i s)
    ∧ ∀ c : Config, c.hasDebugTriggers = true →
        csrAt c 0x7A0 = some .tselect ∧ csrAt c 0x7A1 = some .tdata1 ∧ csrAt c 0x7A2 = some .tdata2
          ∧ csrAt c 0x7A3 = some .tdata3
          ∧ (∀ a : CsrAddr, 0x7A0 ≤ a.toNat → a.toNat ≤ 0x7AF → csrLevel a = 3 ∧ csrReadOnly a = false)
          ∧ ∀ a : CsrAddr, 0x7A4 ≤ a.toNat → a.toNat ≤ 0x7AF → csrAt c a = none

/-- R228: where a standard gate holds the access raises an illegal-instruction exception; R94 is its case
(b), and without a gate, an interception or another failed check the access is permitted. -/
def Obligations.CsrStandardGates : Prop :=
  ∀ (s : State) (i : Instr) (f : CsrForm), csrForm i = some f →
    (standardGate s f.csr → RaisesIllegal i s)
      ∧ (¬ standardGate s f.csr → (s.priv = .machine ∨ (s.priv, f.csr) ∉ s.cfg.interceptCsr) →
          s.gated f.csr = false)

/-- R74, R109, D17: where the policy of a WLRL field is to raise, writing an unsupported value raises an
illegal-instruction exception; where it is to store, what is read back depends on the value written alone,
and `MPP` is a supported mode; a supported value is read back as written. -/
def Obligations.WlrlFields : Prop :=
  (∀ (s : State) (i : Instr) (f : CsrForm) (r : Csr), csrForm i = some f → csrAt s.cfg f.csr = some r →
      f.op.writes f.src = true →
      wlrlAccepts s.cfg r (f.op.result (s.rmwValue r) (s.sourceValue f.src)) = false → RaisesIllegal i s)
    ∧ (∀ (s t s' t' : State) (x : Priv) (v : Word), CsrWritten s t (.cause x) v →
        CsrWritten s' t' (.cause x) v → s.cfg = s'.cfg →
        t.readCsr (.cause x) = t'.readCsr (.cause x)
          ∧ (s.cfg.causeLegal v = true → t.readCsr (.cause x) = v))
    ∧ (∀ (s t s' t' : State) (v : Word), CsrWritten s t .mstatus v → CsrWritten s' t' .mstatus v →
        s.cfg = s'.cfg →
        t.mstatus.mpp = t'.mstatus.mpp ∧ s.cfg.supports t.mstatus.mpp = true
          ∧ ∀ p, Priv.ofEnc (v.extractLsb' 11 2) = some p → s.cfg.supports p = true → t.mstatus.mpp = p)

/-! ## The values CSRs hold -/

/-- R107, R108, R110, R116: `xscratch` and `xtval` hold every XLEN-bit value written to them; `xepc` holds
every valid address written to it, its two low bits cleared, and those bits always read zero. Which other
values it holds is a parameter; where the parameters make no exception, all. -/
def Obligations.TrapRegistersHoldWhatIsWritten : Prop :=
  (∀ (s t : State) (x : Priv) (v : Word),
      (CsrWritten s t (.scratch x) v → t.readCsr (.scratch x) = v)
        ∧ (CsrWritten s t (.tval x) v → t.readCsr (.tval x) = v)
        ∧ (CsrWritten s t (.epc x) v → ValidAddress s.cfg (v &&& ~~~3) →
            t.readCsr (.epc x) = v &&& ~~~3)
        ∧ (CsrWritten s t (.epc x) v → Unexcepted s.cfg (.epc x) → t.readCsr (.epc x) = v &&& ~~~3))
    ∧ ∀ (s : State) (x : Priv), (s.readCsr (.epc x)).extractLsb' 0 2 = 0

/-- R98, R113, R76: what `xtvec` holds after a write: a supported `MODE`, and `BASE` aligned as that mode
asks of this register; writing the value read back keeps it. Where the parameters make no exception, `BASE`
is as written down to the alignment, and a supported `MODE` is as written. A hard-wired `mtvec` keeps its
value. What an unsupported `MODE` becomes, and the alignments, are parameters. -/
def Obligations.TvecHoldsLegalValues : Prop :=
  ∀ (s t : State) (x : Priv) (v : Word), CsrWritten s t (.tvec x) v →
    ((x = .machine ∧ s.cfg.mtvecHardwired.isSome = true) → t.readCsr (.tvec x) = s.readCsr (.tvec x))
      ∧ (¬(x = .machine ∧ s.cfg.mtvecHardwired.isSome = true) →
          (t.readCsr (.tvec x)).getLsbD 1 = false
            ∧ ((t.readCsr (.tvec x)).getLsbD 0 = true → s.cfg.vectoredTraps = true)
            ∧ (∀ k, 2 ≤ k →
                k < (if (t.readCsr (.tvec x)).getLsbD 0 then (s.cfg.tvecAlign x).vectored
                  else (s.cfg.tvecAlign x).direct) → (t.readCsr (.tvec x)).getLsbD k = false)
            ∧ (∀ (u w : State), CsrWritten u w (.tvec x) (t.readCsr (.tvec x)) → u.cfg = s.cfg →
                w.readCsr (.tvec x) = t.readCsr (.tvec x))
            ∧ (Unexcepted s.cfg (.tvec x) →
                (v.extractLsb' 0 2 = 0 → (t.readCsr (.tvec x)).getLsbD 0 = false)
                  ∧ (v.extractLsb' 0 2 = 1 → (t.readCsr (.tvec x)).getLsbD 0 = s.cfg.vectoredTraps)
                  ∧ ∀ k, 2 ≤ k → (t.readCsr (.tvec x)).getLsbD k =
                      (v.getLsbD k && decide ((if (t.readCsr (.tvec x)).getLsbD 0
                        then (s.cfg.tvecAlign x).vectored else (s.cfg.tvecAlign x).direct) ≤ k))))

/-- R99, R121: the delegation registers hold no bit but those that the implementation lets be set, and where
the parameters make no exception, all of these that are written; `medeleg[11]` and `sedeleg[11:9]` are
hard-wired 0. -/
def Obligations.DelegationRegistersHoldLegalBits : Prop :=
  ∀ (s t : State) (v : Word),
    (CsrWritten s t .medeleg v → t.readCsr .medeleg &&& s.cfg.medelegBits = t.readCsr .medeleg
        ∧ (t.readCsr .medeleg).getLsbD 11 = false
        ∧ (Unexcepted s.cfg .medeleg → t.readCsr .medeleg = v &&& s.cfg.medelegBits))
      ∧ (CsrWritten s t .mideleg v → t.readCsr .mideleg &&& s.cfg.midelegBits = t.readCsr .mideleg
          ∧ (Unexcepted s.cfg .mideleg → t.readCsr .mideleg = v &&& s.cfg.midelegBits))
      ∧ (CsrWritten s t .sedeleg v → t.readCsr .sedeleg &&& s.cfg.sedelegBits = t.readCsr .sedeleg
          ∧ (t.readCsr .sedeleg).extractLsb' 9 3 = 0
          ∧ (Unexcepted s.cfg .sedeleg → t.readCsr .sedeleg = v &&& s.cfg.sedelegBits))
      ∧ (CsrWritten s t .sideleg v → t.readCsr .sideleg &&& s.cfg.sidelegBits = t.readCsr .sideleg
          ∧ (Unexcepted s.cfg .sideleg → t.readCsr .sideleg = v &&& s.cfg.sidelegBits))

/-- R120: a write of `satp` with an unsupported `MODE` changes no field; with a supported one it sets
`MODE` and the implemented bits of `ASID` and `PPN`. -/
def Obligations.SatpKeepsSupportedModes : Prop :=
  ∀ (s t : State) (v : Word), CsrWritten s t .satp v →
    (s.cfg.satpModeSupported (s.cfg.satpMode v) = false → t.satp = s.satp)
      ∧ (s.cfg.satpModeSupported (s.cfg.satpMode v) = true →
          t.readCsr .satp = v &&& s.cfg.satpBits ∧ s.cfg.satpMode t.satp = s.cfg.satpMode v)

/-- R87, R90, D14, D15: each bit of `mstatus` after a write: the fields that exist hold the bit written,
`MPP` every supported mode written and otherwise some supported mode, `UXL` and `SXL` on RV64 read 2 for
the modes that exist, reserved fields read zero, `SD` is set exactly when `FS` is Dirty. -/
def Obligations.MstatusFieldsAfterWrite : Prop :=
  ∀ (s t : State) (v : Word), CsrWritten s t .mstatus v →
    (∀ k ∈ [3, 7], (t.readCsr .mstatus).getLsbD k = v.getLsbD k)
      ∧ (∀ k ∈ [1, 5, 8, 18, 19, 20, 22], (t.readCsr .mstatus).getLsbD k = (s.cfg.hasS && v.getLsbD k))
      ∧ (∀ k ∈ [17, 21], (t.readCsr .mstatus).getLsbD k = (s.cfg.hasU && v.getLsbD k))
      ∧ (∀ k ∈ [0, 4], (t.readCsr .mstatus).getLsbD k = (s.cfg.n && v.getLsbD k))
      ∧ (∀ k ∈ [13, 14], (t.readCsr .mstatus).getLsbD k =
          ((s.cfg.hasF || (s.cfg.hasS && s.cfg.fsWithoutF)) && v.getLsbD k))
      ∧ (∀ k ∈ [2, 6, 9, 10, 15, 16, 23, 24, 25, 26, 27, 28, 29, 30],
          (t.readCsr .mstatus).getLsbD k = false)
      ∧ (∀ p, Priv.ofEnc (v.extractLsb' 11 2) = some p → s.cfg.supports p = true →
          (t.readCsr .mstatus).extractLsb' 11 2 = v.extractLsb' 11 2)
      ∧ (∃ p, s.cfg.supports p = true ∧ (t.readCsr .mstatus).extractLsb' 11 2 = p.enc)
      ∧ (s.cfg.xlen = .rv64 →
          (t.readCsr .mstatus).extractLsb' 32 2 = (if s.cfg.hasU then 2 else 0)
            ∧ (t.readCsr .mstatus).extractLsb' 34 2 = (if s.cfg.hasS then 2 else 0)
            ∧ (t.readCsr .mstatus).getLsbD 31 = false
            ∧ (t.readCsr .mstatus).extractLsb' 36 27 = 0)
      ∧ (s.cfg.xlen = .rv32 → (t.readCsr .mstatus).extractLsb' 32 32 = 0)
      ∧ ((t.readCsr .mstatus).getLsbD (s.cfg.xlen.bits - 1) = true ↔
          (t.readCsr .mstatus).extractLsb' 13 2 = 3)

/-- R112: `sstatus` shows the listed bits of `mstatus` and zero elsewhere, and a write changes only these
bits: `XS` and `UXL` are read-only, and `SD` follows `FS`. -/
def Obligations.SstatusIsViewOfMstatus : Prop :=
  (∀ (s : State) (k : Nat), (s.readCsr .sstatus).getLsbD k =
      ((sstatusBits s.cfg).contains k && (s.readCsr .mstatus).getLsbD k))
    ∧ ∀ (s t : State) (v : Word), CsrWritten s t .sstatus v →
        (∀ k, (sstatusBits s.cfg).contains k = false →
            (t.readCsr .mstatus).getLsbD k = (s.readCsr .mstatus).getLsbD k)
          ∧ (∀ k ∈ [1, 5, 8, 18, 19], (t.readCsr .mstatus).getLsbD k = v.getLsbD k)
          ∧ (∀ k ∈ [0, 4], (t.readCsr .mstatus).getLsbD k = (s.cfg.n && v.getLsbD k))
          ∧ (∀ k ∈ [13, 14], (t.readCsr .mstatus).getLsbD k =
              ((s.cfg.hasF || (s.cfg.hasS && s.cfg.fsWithoutF)) && v.getLsbD k))
          ∧ (∀ k ∈ [15, 16, 32, 33], (t.readCsr .mstatus).getLsbD k = (s.readCsr .mstatus).getLsbD k)
          ∧ ((t.readCsr .mstatus).getLsbD (s.cfg.xlen.bits - 1) = true ↔
              (t.readCsr .mstatus).extractLsb' 13 2 = 3)

/-- R114: `sip` and `sie` show the listed bits of `mip` and `mie`; through `sip` only `SSIP`, `USIP` and
`UEIP` can be written, through `sie` every bit it shows. Whether bits that are not delegated are shown is
a parameter (G14). -/
def Obligations.SipAndSieAreViews : Prop :=
  ∀ s : State, s.Legal →
    (∀ k, (s.readCsr .sip).getLsbD k = (seenBySupervisor s k && (s.readCsr .mip).getLsbD k)
        ∧ (s.readCsr .sie).getLsbD k = (seenBySupervisor s k && (s.readCsr .mie).getLsbD k))
      ∧ (∀ (t : State) (v : Word), CsrWritten s t .sip v → t.mie = s.mie ∧
          ∀ k, t.mipSw.getLsbD k =
            if seenBySupervisor s k && [0, 1, 8].contains k && s.cfg.intMask.getLsbD k then v.getLsbD k
            else s.mipSw.getLsbD k)
      ∧ (∀ (t : State) (v : Word), CsrWritten s t .sie v → t.mipSw = s.mipSw ∧
          ∀ k, t.mie.getLsbD k =
            if seenBySupervisor s k && s.cfg.intMask.getLsbD k then v.getLsbD k else s.mie.getLsbD k)

/-- R122: `ustatus`, `uie` and `uip` show the listed bits of `mstatus`, `mie` and `mip`; a write of
`ustatus` or `uie` changes only those bits, and one of `uip` only `USIP`: that the other bits of `uip` are
read-only is log entry 9. -/
def Obligations.UserRegistersAreViews : Prop :=
  ∀ s : State, s.Legal → s.cfg.n = true →
    (∀ k, (s.readCsr .ustatus).getLsbD k = ([0, 4].contains k && (s.readCsr .mstatus).getLsbD k)
        ∧ (s.readCsr .uie).getLsbD k = (userInterruptBits.contains k && (s.readCsr .mie).getLsbD k)
        ∧ (s.readCsr .uip).getLsbD k = (userInterruptBits.contains k && (s.readCsr .mip).getLsbD k))
      ∧ (∀ (t : State) (v : Word), CsrWritten s t .ustatus v →
          ∀ k, (t.readCsr .mstatus).getLsbD k =
            if [0, 4].contains k then v.getLsbD k else (s.readCsr .mstatus).getLsbD k)
      ∧ (∀ (t : State) (v : Word), CsrWritten s t .uie v →
          ∀ k, (t.readCsr .mie).getLsbD k =
            if userInterruptBits.contains k then v.getLsbD k else (s.readCsr .mie).getLsbD k)
      ∧ (∀ (t : State) (v : Word), CsrWritten s t .uip v → t.mie = s.mie ∧
          ∀ k, t.mipSw.getLsbD k = if k = 0 then v.getLsbD 0 else s.mipSw.getLsbD k)

/-- R102, R231: a read of `mip` by CSRRW, CSRRS or CSRRC gives `seip_sw | seip_ext` in bit 9 and likewise in
bit 8; a write sets the software-writable bits, and a set or clear takes them alone as the old value, so it
never latches the controller's signal. A set or clear of `mip`, `sip` or `uip`, from a register or an
immediate, changes these two bits only by its operand, and only where the register lets software write them;
that `uip` does not is log entry 9. -/
def Obligations.MipSoftwareInjection : Prop :=
  (∀ s : State, s.priv = .machine →
    (s.readCsr .mip).getLsbD 9 = (s.cfg.hasS && (s.mipSw.getLsbD 9 || s.lines.seip))
      ∧ (s.readCsr .mip).getLsbD 8 = (s.cfg.n && (s.mipSw.getLsbD 8 || s.lines.ueip))
      ∧ (∀ rd rs1 : Reg, ∃ t, exec (.csrrw rd 0x344 rs1) s = .next t
          ∧ t.mipSw.getLsbD 9 = (s.cfg.hasS && (s.readReg rs1).getLsbD 9)
          ∧ t.mipSw.getLsbD 8 = (s.cfg.n && (s.readReg rs1).getLsbD 8)
          ∧ (rd ≠ 0 → t.readReg rd = s.cfg.trunc (s.readCsr .mip)))
      ∧ (∀ rd rs1 : Reg, rs1 ≠ 0 →
          (∃ t, exec (.csrrs rd 0x344 rs1) s = .next t
            ∧ t.mipSw.getLsbD 9 = (s.cfg.hasS && (s.mipSw.getLsbD 9 || (s.readReg rs1).getLsbD 9))
            ∧ t.mipSw.getLsbD 8 = (s.cfg.n && (s.mipSw.getLsbD 8 || (s.readReg rs1).getLsbD 8))
            ∧ (rd ≠ 0 → t.readReg rd = s.cfg.trunc (s.readCsr .mip)))
          ∧ (∃ t, exec (.csrrc rd 0x344 rs1) s = .next t
            ∧ t.mipSw.getLsbD 9 = (s.cfg.hasS && (s.mipSw.getLsbD 9 && !(s.readReg rs1).getLsbD 9))
            ∧ t.mipSw.getLsbD 8 = (s.cfg.n && (s.mipSw.getLsbD 8 && !(s.readReg rs1).getLsbD 8))
            ∧ (rd ≠ 0 → t.readReg rd = s.cfg.trunc (s.readCsr .mip)))))
    ∧ ∀ (s : State) (i : Instr) (f : CsrForm) (r : Csr), s.Legal → csrForm i = some f →
        csrAt s.cfg f.csr = some r → (r = .mip ∨ r = .sip ∨ r = .uip) → CsrAllowed s f.op f.csr f.src →
        f.op ≠ .write → f.op.writes f.src = true →
        ∃ t, exec i s = .next t
          ∧ (f.rd ≠ 0 → t.readReg f.rd = s.cfg.trunc (s.readCsr r))
          ∧ ∀ k ∈ [8, 9], t.mipSw.getLsbD k =
              if injectable s r k then
                (if f.op = .set then s.mipSw.getLsbD k || (s.sourceValue f.src).getLsbD k
                 else s.mipSw.getLsbD k && !(s.sourceValue f.src).getLsbD k)
              else s.mipSw.getLsbD k

/-- R100, R101, R103: `MTIP`, `MSIP` and `MEIP` follow `mtime >= mtimecmp`, the memory-mapped bit and the
controller, and no write of `mip` changes them; the software bits of the modes that exist are as written.
`mie` holds the bits written of the modes that exist, and no other. -/
def Obligations.MipHardwareBits : Prop :=
  (∀ s : State, s.Legal → ((s.readCsr .mip).getLsbD 7 = true ↔ s.mtimecmp.toNat ≤ s.mtime.toNat)
      ∧ (s.readCsr .mip).getLsbD 3 = s.lines.msip ∧ (s.readCsr .mip).getLsbD 11 = s.lines.meip)
    ∧ (∀ (s t : State) (v : Word), s.Legal → CsrWritten s t .mip v →
        (∀ k ∈ [3, 7, 11], (t.readCsr .mip).getLsbD k = (s.readCsr .mip).getLsbD k)
          ∧ (∀ k ∈ [1, 5], (t.readCsr .mip).getLsbD k = (s.cfg.hasS && v.getLsbD k))
          ∧ (∀ k ∈ [0, 4], (t.readCsr .mip).getLsbD k = (s.cfg.n && v.getLsbD k)))
    ∧ ∀ (s t : State) (v : Word), CsrWritten s t .mie v →
        (∀ k ∈ [3, 7, 11], (t.readCsr .mie).getLsbD k = v.getLsbD k)
          ∧ (∀ k ∈ [1, 5, 9], (t.readCsr .mie).getLsbD k = (s.cfg.hasS && v.getLsbD k))
          ∧ (∀ k ∈ [0, 4, 8], (t.readCsr .mie).getLsbD k = (s.cfg.n && v.getLsbD k))
          ∧ ∀ k, k = 2 ∨ k = 6 ∨ k = 10 ∨ 12 ≤ k → (t.readCsr .mie).getLsbD k = false

/-- R104, R106, R115, R239 (c): a counter holds what is written to it after the writing instruction, without
the instruction's own increment; on RV32 each half is written by itself; an event counter holds the bits it
implements. An event selector and a counter enable read back a value that writing it again keeps (R75,
R76); where the parameters make no exception that is the value written, of an enable the bits that are
not hard-wired 0. -/
def Obligations.CountersHoldWhatIsWritten : Prop :=
  (∀ (s t : State) (v : Word),
      (CsrWritten s t .minstret v → t.readCsr .minstret = v
          ∧ (s.cfg.xlen = .rv32 → t.readCsr .minstreth = s.readCsr .minstreth))
        ∧ (CsrWritten s t .minstreth v →
            t.readCsr .minstreth = v ∧ t.readCsr .minstret = s.readCsr .minstret)
        ∧ (CsrWritten s t .mcycle v → t.readCsr .mcycle = v
            ∧ (s.cfg.xlen = .rv32 → t.readCsr .mcycleh = s.readCsr .mcycleh))
        ∧ (CsrWritten s t .mcycleh v → t.readCsr .mcycleh = v ∧ t.readCsr .mcycle = s.readCsr .mcycle))
    ∧ (∀ (s t : State) (v : Word) (n : Fin 29), s.cfg.hpmExists (n.val + 3) = true →
        (CsrWritten s t (.mhpmcounter n) v → t.readCsr (.mhpmcounter n) = v &&& s.cfg.hpmCounterBits n
            ∧ (s.cfg.xlen = .rv32 → t.readCsr (.mhpmcounterh n) = s.readCsr (.mhpmcounterh n)))
          ∧ (CsrWritten s t (.mhpmcounterh n) v →
              t.readCsr (.mhpmcounterh n) = v &&& (s.cfg.hpmCounterBits n >>> 32)
                ∧ t.readCsr (.mhpmcounter n) = s.readCsr (.mhpmcounter n))
          ∧ (CsrWritten s t (.mhpmevent n) v →
              (∀ u w : State, CsrWritten u w (.mhpmevent n) (t.readCsr (.mhpmevent n)) → u.cfg = s.cfg →
                  w.readCsr (.mhpmevent n) = t.readCsr (.mhpmevent n))
                ∧ (Unexcepted s.cfg (.hpmevent n) → t.readCsr (.mhpmevent n) = v)))
    ∧ ∀ (s t : State) (v : Word),
        (CsrWritten s t .mcounteren v →
            t.readCsr .mcounteren &&& s.cfg.mcounterenMask.zeroExtend 64 = t.readCsr .mcounteren
              ∧ (∀ u w : State, CsrWritten u w .mcounteren (t.readCsr .mcounteren) → u.cfg = s.cfg →
                  w.readCsr .mcounteren = t.readCsr .mcounteren)
              ∧ (Unexcepted s.cfg .mcounteren →
                  t.readCsr .mcounteren = v &&& s.cfg.mcounterenMask.zeroExtend 64))
          ∧ (CsrWritten s t .scounteren v →
              t.readCsr .scounteren &&& s.cfg.scounterenMask.zeroExtend 64 = t.readCsr .scounteren
                ∧ (∀ u w : State, CsrWritten u w .scounteren (t.readCsr .scounteren) → u.cfg = s.cfg →
                    w.readCsr .scounteren = t.readCsr .scounteren)
                ∧ (Unexcepted s.cfg .scounteren →
                    t.readCsr .scounteren = v &&& s.cfg.scounterenMask.zeroExtend 64))

/-- R32, R124: the user-level counters return the machine-level ones, and `time` returns `mtime`. -/
def Obligations.UserCountersShadowMachineCounters : Prop :=
  ∀ (s : State) (n : Fin 29),
    s.readCsr .cycle = s.readCsr .mcycle ∧ s.readCsr .cycleh = s.readCsr .mcycleh
      ∧ s.readCsr .instret = s.readCsr .minstret ∧ s.readCsr .instreth = s.readCsr .minstreth
      ∧ s.readCsr (.hpmcounter n) = s.readCsr (.mhpmcounter n)
      ∧ s.readCsr (.hpmcounterh n) = s.readCsr (.mhpmcounterh n)
      ∧ s.readCsr .time = s.cfg.trunc s.mtime ∧ s.readCsr .timeh = s.mtime >>> 32

/-- R123, R97: `fflags` and `frm` are the low five and the upper three bits of `fcsr`, in every state; a write of
one leaves the other, and a write that changes `fcsr` makes `FS` Dirty. -/
def Obligations.FloatingPointCsrs : Prop :=
  (∀ s : State, s.readCsr .fflags = s.readCsr .fcsr &&& 0x1F
      ∧ s.readCsr .frm = (s.readCsr .fcsr >>> 5) &&& 0x7 ∧ s.readCsr .fcsr &&& 0xFF = s.readCsr .fcsr)
    ∧ ∀ (s t : State) (v : Word),
        (CsrWritten s t .fflags v → t.readCsr .fflags = v &&& 0x1F ∧ t.readCsr .frm = s.readCsr .frm)
          ∧ (CsrWritten s t .frm v → t.readCsr .frm = v &&& 0x7 ∧ t.readCsr .fflags = s.readCsr .fflags)
          ∧ (CsrWritten s t .fcsr v → t.readCsr .fcsr = v &&& 0xFF
              ∧ t.readCsr .fflags = v &&& 0x1F ∧ t.readCsr .frm = (v >>> 5) &&& 0x7)
          ∧ ∀ r ∈ [Csr.fflags, Csr.frm, Csr.fcsr], CsrWritten s t r v →
              t.readCsr .fcsr ≠ s.readCsr .fcsr → (t.readCsr .mstatus).extractLsb' 13 2 = 3

/-- R81 to R85, R104, R325: `misa` reads zero where it is not implemented; else its top two bits are 1 on RV32
and 2 on RV64, its letters F, I, N, S and U are those of the parameters, C, E and the letters that R82 only
reserves are clear, the bits above the letters are clear, and the other letters are as the implementation
gives them. Writes of `misa`, and of an event counter or selector that is hard-wired to zero, are ignored;
`mvendorid`, `marchid`, `mimpid` and `mhartid` read as the implementation's constants.
That `misa` is fixed is the model's choice (U61, log entry 16). -/
def Obligations.FixedRegistersIgnoreWrites : Prop :=
  (∀ (s t : State) (v : Word) (n : Fin 29),
      (CsrWritten s t .misa v → t.readCsr .misa = s.readCsr .misa)
        ∧ (s.cfg.hpmExists (n.val + 3) = false →
            (CsrWritten s t (.mhpmcounter n) v → t.readCsr (.mhpmcounter n) = 0)
              ∧ (CsrWritten s t (.mhpmcounterh n) v → t.readCsr (.mhpmcounterh n) = 0)
              ∧ (CsrWritten s t (.mhpmevent n) v → t.readCsr (.mhpmevent n) = 0)))
    ∧ (∀ s : State, s.readCsr .mvendorid = s.cfg.trunc s.cfg.vendorId
        ∧ s.readCsr .marchid = s.cfg.trunc s.cfg.archId ∧ s.readCsr .mimpid = s.cfg.trunc s.cfg.impId
        ∧ s.readCsr .mhartid = s.cfg.trunc s.cfg.hartId)
    ∧ ∀ s : State, (s.cfg.misaImplemented = false → s.readCsr .misa = 0)
        ∧ (s.cfg.misaImplemented = true →
            (s.cfg.xlen = .rv32 →
                (s.readCsr .misa).extractLsb' 30 2 = 1 ∧ (s.readCsr .misa).extractLsb' 26 4 = 0
                  ∧ (s.readCsr .misa).extractLsb' 32 32 = 0)
              ∧ (s.cfg.xlen = .rv64 →
                  (s.readCsr .misa).extractLsb' 62 2 = 2 ∧ (s.readCsr .misa).extractLsb' 26 36 = 0)
              ∧ (s.readCsr .misa).getLsbD 5 = s.cfg.hasF ∧ (s.readCsr .misa).getLsbD 8 = true
              ∧ ((s.readCsr .misa).getLsbD 13 = true ↔ s.cfg.hasN = true ∧ s.cfg.modes ≠ .m)
              ∧ ((s.readCsr .misa).getLsbD 18 = true ↔ s.cfg.modes = .msu)
              ∧ ((s.readCsr .misa).getLsbD 20 = true ↔ s.cfg.modes ≠ .m)
              ∧ (∀ k ∈ [2, 4, 7, 10, 14, 17, 22, 24, 25], (s.readCsr .misa).getLsbD k = false)
              ∧ ∀ k ∈ [0, 1, 3, 6, 9, 11, 12, 15, 16, 19, 21, 23],
                  (s.readCsr .misa).getLsbD k = s.cfg.misaLetters.getLsbD k)

/-! ## Traps -/

/-- R251: ECALL always raises the environment call of the current mode, with trap value 0; `xepc` is its
own address and it is not counted as retired. -/
def Obligations.EcallRaises : Prop :=
  ∀ s : State,
    (s.priv = .user → Raises .ecall s .ecallFromU 0)
      ∧ (s.priv = .supervisor → Raises .ecall s .ecallFromS 0)
      ∧ (s.priv = .machine → Raises .ecall s .ecallFromM 0)
      ∧ Exception.ecallFromU.code = 8 ∧ Exception.ecallFromS.code = 9 ∧ Exception.ecallFromM.code = 11

/-- R252: EBREAK always raises a breakpoint, with the trap value of the parameter `EbreakTval`; `xepc` is
its own address and it is not counted as retired. -/
def Obligations.EbreakRaises : Prop :=
  ∀ s : State, Raises .ebreak s .breakpoint (if s.cfg.ebreakTvalPc then s.pc else 0)
    ∧ Exception.breakpoint.code = 3

/-- R300, R301: taking an exception or an interrupt does what the pseudocode of trap entry says, and
nothing else. -/
def Obligations.TrapEntry : Prop :=
  (∀ (s : State) (e : Exception) (tval : Word),
      Trapped s (s.raise e tval) (s.exceptionTarget e) false e.code tval)
    ∧ ∀ (s : State) (i : Interrupt), Trapped s (s.takeInterrupt i) (s.interruptTarget i) true i.code 0

/-- R299: the mode that takes a trap. -/
def Obligations.TrapTarget : Prop :=
  (∀ (s : State) (e : Exception), s.exceptionTarget e =
      if s.priv = .machine then .machine
      else if s.cfg.hasS = true ∧ s.deleg.medeleg.getLsbD e.code = true then
        if s.priv = .user ∧ s.cfg.n = true ∧ s.deleg.sedeleg.getLsbD e.code = true then .user
        else .supervisor
      else if s.cfg.hasS = false ∧ s.cfg.n = true ∧ s.deleg.medeleg.getLsbD e.code = true
          ∧ s.priv = .user then .user
      else .machine)
    ∧ ∀ (s : State) (i : Interrupt), s.interruptTarget i =
        if (s.cfg.hasS = true ∨ s.cfg.n = true) ∧ s.deleg.mideleg.getLsbD i.code = true then
          if s.cfg.hasS = true then
            if s.cfg.n = true ∧ s.deleg.sideleg.getLsbD i.code = true then .user else .supervisor
          else if s.cfg.n = true then .user
          else .machine
        else .machine

/-- No trap lowers the privilege level: the inference that R276 draws from its list of the two kinds of
trap, vertical and horizontal. -/
def Obligations.NoTrapLowersPrivilege : Prop :=
  (∀ (s : State) (e : Exception), s.priv.enc.toNat ≤ (s.exceptionTarget e).enc.toNat)
    ∧ ∀ (s : State) (i : Interrupt), s.pendingInterrupt = some i →
        s.priv.enc.toNat ≤ (s.interruptTarget i).enc.toNat

/-- Without S-mode and without user-level traps the delegation registers do not exist and every trap is
taken in M-mode: the inference that R284 draws from R277 and the absence of the registers. -/
def Obligations.WithoutDelegationTrapsGoToMachineMode : Prop :=
  ∀ s : State, s.cfg.hasS = false → s.cfg.n = false →
    csrAt s.cfg 0x302 = none ∧ csrAt s.cfg 0x303 = none
      ∧ (∀ e, s.exceptionTarget e = .machine) ∧ ∀ i, s.interruptTarget i = .machine

/-- R292, R293: of the interrupts that meet the three conditions the one taken before the next instruction is
destined for the most privileged mode, and is the first of these in the order of the spec; if none meets them,
no interrupt is taken. They are those of the state at the boundary, where what arrives from outside is in
(`AtBoundary`): `mtime` and `mcycle` have advanced, the signals of the controller have their new levels, the
bytes that others stored are in memory, `mtimecmp` and `MSIP` (R103, R311, R312, R320, R345), the attributes of
memory are those the platform gives (R171), and speculative walks have filled the translation cache (R186).
What the model chooses there is log entries 6, 13, 17, 19, 20, 22 and 23, and of the order of R293 log entry 15. -/
def Obligations.InterruptTakenExactlyWhenEnabled : Prop :=
  ∀ s : State, s.noReset = true →
    ∃ (u : State) (wake : Bool), AtBoundary s u wake
      ∧ ((∃ i, InterruptEnabled u i) →
          ∃ i t, InterruptEnabled u i
            ∧ (∀ j, InterruptEnabled u j → (u.interruptTarget j).enc.toNat < (u.interruptTarget i).enc.toNat
                ∨ (u.interruptTarget j = u.interruptTarget i ∧ interruptRank i ≤ interruptRank j))
            ∧ step s = .next t ∧ Trapped u t (u.interruptTarget i) true i.code 0)
      ∧ ((∀ i, ¬ InterruptEnabled u i) → u.waiting = false → step s = u.runNext)

/-- R293: of the interrupts that can be taken, the one taken is destined for the most privileged mode, and
is the first of these in the order of the spec. -/
def Obligations.InterruptPriority : Prop :=
  (∀ (s : State) (i j : Interrupt), s.pendingInterrupt = some i → InterruptEnabled s j →
      (s.interruptTarget j).enc.toNat < (s.interruptTarget i).enc.toNat
        ∨ (s.interruptTarget j = s.interruptTarget i ∧ interruptRank i ≤ interruptRank j))
    ∧ interruptOrder.map Interrupt.code = [11, 3, 7, 9, 1, 5, 8, 0, 4]

/-- R256: while the hart waits nothing executes and `minstret` does not count; it goes on when an interrupt
that `mie` enables is pending, whatever the global enables and the delegation say, or when it is resumed.
What is pending is judged at the boundary, what arrives there being in (`AtBoundary`; log entries 6, 13, 17,
19, 20, 22 and 23). -/
def Obligations.WaitingHartResumes : Prop :=
  (∀ (s : State) (wake : Bool), s.waiting = true →
      (s.mip &&& s.mie = 0 → wake = false → s.cycle wake = .next s)
        ∧ ((s.mip &&& s.mie ≠ 0 ∨ wake = true) →
            s.cycle wake = { s with waiting := false }.cycle false))
    ∧ ∀ s : State, s.noReset = true → s.waiting = true →
        ∃ (u : State) (wake : Bool), AtBoundary s u wake ∧ u.waiting = true
          ∧ (u.mip &&& u.mie = 0 → wake = false → step s = .next u)
          ∧ ((u.mip &&& u.mie ≠ 0 ∨ wake = true) → (∀ i, ¬ InterruptEnabled u i) →
              step s = { u with waiting := false }.runNext)

/-! ## Trap return and the other privileged instructions -/

/-- R253: MRET in M-mode restores `MIE` from `MPIE` and the mode from `MPP`, sets `MPIE`, leaves the
least-privileged mode in `MPP` and jumps to `mepc`; nothing else changes but the retirement count. Below
M-mode it raises an illegal-instruction exception. -/
def Obligations.MretReturns : Prop :=
  ∀ s : State,
    (s.priv = .machine → exec .mret s = .next
        { s with
          mstatus := { s.mstatus with
            mie := s.mstatus.mpie, mpie := true,
            mpp := if s.cfg.hasU then .user else .machine }
          priv := s.mstatus.mpp
          pc := s.readCsr (.epc .machine)
          counters := { s.counters with minstret := s.counters.minstret + 1 } })
      ∧ (s.priv ≠ .machine → RaisesIllegal .mret s)

/-- R254: SRET restores `SIE` from `SPIE` and the mode from `SPP`, sets `SPIE`, clears `SPP` and jumps to
`sepc`; without S-mode, in U-mode, and in S-mode under `TSR` it raises an illegal-instruction exception. -/
def Obligations.SretReturns : Prop :=
  ∀ s : State,
    ((s.cfg.hasS = true ∧ s.priv ≠ .user ∧ ¬(s.priv = .supervisor ∧ s.mstatus.tsr = true)) →
        exec .sret s = .next
          { s with
            mstatus := { s.mstatus with sie := s.mstatus.spie, spie := true, spp := false }
            priv := if s.mstatus.spp then .supervisor else .user
            pc := s.readCsr (.epc .supervisor)
            counters := { s.counters with minstret := s.counters.minstret + 1 } })
      ∧ ((s.cfg.hasS = false ∨ s.priv = .user ∨ (s.priv = .supervisor ∧ s.mstatus.tsr = true)) →
          RaisesIllegal .sret s)

/-- R255: with the N extension URET restores `UIE` from `UPIE`, sets `UPIE`, moves to U-mode and jumps to
`uepc`; without it, it raises an illegal-instruction exception. -/
def Obligations.UretReturns : Prop :=
  ∀ s : State,
    (s.cfg.n = true → exec .uret s = .next
        { s with
          mstatus := { s.mstatus with uie := s.mstatus.upie, upie := true }
          priv := .user
          pc := s.readCsr (.epc .user)
          counters := { s.counters with minstret := s.counters.minstret + 1 } })
      ∧ (s.cfg.n = false → RaisesIllegal .uret s)

/-- R300, R302: the return instruction of the mode that took a trap, executed at once, goes back to the
mode, the program counter and the interrupt enable of before, with every integer register as it was. -/
def Obligations.TrapThenReturnRestores : Prop :=
  ∀ (s t : State) (x : Priv) (intr : Bool) (code : Nat) (tval : Word), s.Legal →
    Trapped s t x intr code tval → s.priv.enc.toNat ≤ x.enc.toNat →
    (x = .supervisor → s.cfg.hasS = true ∧ s.mstatus.tsr = false) → (x = .user → s.cfg.n = true) →
    ∃ u, exec (returnInstr x) t = .next u ∧ u.priv = s.priv ∧ u.pc = s.pc
      ∧ u.mstatus.ie x = s.mstatus.ie x ∧ u.regs = s.regs ∧ ∀ a, u.mem.read a = s.mem.read a

/-- R256: WFI completes as a hint: `pc + 4`, the waiting flag as the implementation sets it, its
retirement counted, nothing else; in U-mode unless `WfiInU`, and below M-mode under `TW` past its bound,
it raises an illegal-instruction exception. -/
def Obligations.WfiCompletesOrRaises : Prop :=
  ∀ s : State,
    (¬((s.priv = .user ∧ s.cfg.wfiInU = false)
          ∨ (s.priv ≠ .machine ∧ s.mstatus.tw = true ∧ s.draws.twTimeout = true)) →
        exec .wfi s = .next
          { s with
            waiting := s.cfg.wfiWaits
            pc := s.cfg.trunc (s.pc + 4)
            counters := { s.counters with minstret := s.counters.minstret + 1 } })
      ∧ (((s.priv = .user ∧ s.cfg.wfiInU = false)
            ∨ (s.priv ≠ .machine ∧ s.mstatus.tw = true ∧ s.draws.twTimeout = true)) →
          RaisesIllegal .wfi s)

/-- R257: SFENCE.VMA drops exactly the entries of the translation cache that the two operands select, by
register number, and changes nothing else but `pc` and the retirement count; without S-mode, in U-mode, and
in S-mode under `TVM` it raises an illegal-instruction exception. That an entry which ends a walk without
being a leaf counts as a result for its address, and one of an untagged cache as one of every address space,
is the model's reading (notes/assumptions/13.md). What an address drops that is not valid in the scheme which
`satp` selects is the model's choice (notes/assumptions/21.md): R257 has an address that is not valid drop
nothing, and does not say in which scheme. -/
def Obligations.SfenceVmaDropsSelectedEntries : Prop :=
  ∀ (s : State) (rs1 rs2 : Reg),
    ((s.cfg.hasS = true ∧ s.priv ≠ .user ∧ ¬(s.priv = .supervisor ∧ s.mstatus.tvm = true)) →
        ∃ t, exec (.sfenceVma rs1 rs2) s = .next t
          ∧ (∀ e, e ∈ t.tlb ↔ e ∈ s.tlb ∧
              ¬((rs1 = 0 ∨ ((pteLeaf e.pte = true ∨ pteInvalid e.pte = true ∨ e.level = 0)
                    ∧ e.vpn = (s.readReg rs1).toNat / 2 ^ pageShift (pageScheme s.cfg) e.level))
                ∧ (rs2 = 0 ∨ ((e.asid = asidOperand s.cfg (s.readReg rs2) ∨ s.cfg.asidTagged = false)
                    ∧ e.global = false))))
          ∧ t.pc = s.cfg.trunc (s.pc + 4) ∧ t.counters.minstret = s.counters.minstret + 1
          ∧ { t with
                tlb := s.tlb, pc := s.pc
                counters := { t.counters with minstret := s.counters.minstret } } = s)
      ∧ ((s.cfg.hasS = false ∨ s.priv = .user ∨ (s.priv = .supervisor ∧ s.mstatus.tvm = true)) →
          RaisesIllegal (.sfenceVma rs1 rs2) s)

/-- R186, R257: after SFENCE.VMA `x0, x0` no translation uses a cached entry, whatever the choices of the
boundary: it walks the page tables. -/
def Obligations.AfterFullFenceTranslationsWalk : Prop :=
  ∀ (s t : State) (d : Draws) (acc : Access) (p : Priv) (va : Word) (sch : Scheme),
    exec (.sfenceVma 0 0) s = .next t →
    (s.cfg.hasS = true ∧ s.priv ≠ .user ∧ ¬(s.priv = .supervisor ∧ s.mstatus.tvm = true)) →
    t.activeScheme p = some sch → canonical sch va = true →
    t.tlb = [] ∧
      { t with draws := d }.translate acc p va =
        { t with draws := d }.walk sch acc p va (schemeLevels sch - 1) (t.cfg.satpPpn t.satp * 4096) false []

/-! ## Memory protection and translation -/

/-- R172, R174, R176: a PMP entry that is not locked holds the configuration byte and the address written, as
far as they are legal, at its place in the registers; a byte of a legal form is kept where the parameters
make no exception. A write of a configuration register changes no entry that it does not hold and no address, a
write of an address register no other address and no configuration; one that a lock makes ignored changes
nothing (R175). The PMP check grants an access exactly when the lowest-numbered entry that matches any of
its bytes matches all of them and permits it, or none matches and the mode is M or there are no entries; the
bytes of an access may lie in two parts, which are checked as one access.
What the address bits below a granularity above four bytes read as is log entry 14. -/
def Obligations.PmpCheckFollowsMatchedEntry : Prop :=
  (∀ (s t : State) (v : Word) (k : Fin 4) (i : Fin 16), CsrWritten s t (.pmpcfg k) v →
      4 * k.val ≤ i.val → i.val < 4 * k.val + (if s.cfg.xlen = .rv32 then 4 else 8) →
      i.val < s.cfg.pmpCount →
      (t.readCsr (.pmpcfg k)).extractLsb' (8 * (i.val - 4 * k.val)) 8 = t.pmp.entryCfg[i]
        ∧ (pmpBit s.pmp i.val 7 = true → t.pmp.entryCfg[i] = s.pmp.entryCfg[i])
        ∧ (pmpBit s.pmp i.val 7 = false → pmpByteHeld s.cfg t.pmp.entryCfg[i]
            ∧ (Unexcepted s.cfg (.pmpcfg i) →
                pmpByteHeld s.cfg (v.extractLsb' (8 * (i.val - 4 * k.val)) 8) →
                t.pmp.entryCfg[i] = v.extractLsb' (8 * (i.val - 4 * k.val)) 8)))
    ∧ (∀ (s t : State) (v : Word) (k : Fin 4), CsrWritten s t (.pmpcfg k) v →
        t.pmp.entryAddr = s.pmp.entryAddr
          ∧ ∀ i : Fin 16, ¬(4 * k.val ≤ i.val ∧ i.val < 4 * k.val + (if s.cfg.xlen = .rv32 then 4 else 8)
              ∧ i.val < s.cfg.pmpCount) → t.pmp.entryCfg[i] = s.pmp.entryCfg[i])
    ∧ (∀ (s t : State) (v : Word) (i : Fin 16), CsrWritten s t (.pmpaddr i) v →
        t.pmp.entryCfg = s.pmp.entryCfg
          ∧ (∀ j : Fin 16, j ≠ i → t.pmp.entryAddr[j] = s.pmp.entryAddr[j])
          ∧ ((pmpBit s.pmp i.val 7 = true
                ∨ (i.val + 1 < s.cfg.pmpCount ∧ pmpBit s.pmp (i.val + 1) 7 = true
                    ∧ pmpBit s.pmp (i.val + 1) 4 = false ∧ pmpBit s.pmp (i.val + 1) 3 = true)) →
              t.pmp.entryAddr[i] = s.pmp.entryAddr[i]))
    ∧ (∀ (s t : State) (v : Word) (i : Fin 16), CsrWritten s t (.pmpaddr i) v →
        pmpBit s.pmp i.val 7 = false →
        ¬(i.val + 1 < s.cfg.pmpCount ∧ pmpBit s.pmp (i.val + 1) 7 = true
            ∧ pmpBit s.pmp (i.val + 1) 4 = false ∧ pmpBit s.pmp (i.val + 1) 3 = true) →
        ∀ b, (t.readCsr (.pmpaddr i)).getLsbD b =
          (decide (b < (if s.cfg.xlen = .rv32 then 32 else 54))
            && (if t.pmp.entryCfg[i].getLsbD 4 then v.getLsbD b || decide (b < s.cfg.pmpGrain - 1)
              else v.getLsbD b && decide (s.cfg.pmpGrain ≤ b))))
    ∧ ∀ (p : Pmp) (c : Config) (acc : Access) (priv : Priv),
        (∀ pa n, 0 < n → (p.allows c acc priv pa n = true ↔ PmpGrants p c acc priv [(pa, n)]))
          ∧ ∀ parts : List (Nat × Nat), parts ≠ [] → (∀ q ∈ parts, 0 < q.2) →
              (p.allowsParts c acc priv parts = true ↔ PmpGrants p c acc priv parts)

/-- R175: a step that is no reset keeps the configuration and the address of every locked entry, and the
address below a locked top-of-range entry; the bits of a locked entry bind M-mode too. -/
def Obligations.LockedPmpEntriesStayUntilReset : Prop :=
  ∀ (s t : State) (k : Fin 16), s.noReset = true → step s = .next t → k.val < s.cfg.pmpCount →
    pmpBit s.pmp k.val 7 = true →
    t.pmp.entryCfg[k] = s.pmp.entryCfg[k] ∧ t.pmp.entryAddr[k] = s.pmp.entryAddr[k]
      ∧ (∀ j : Fin 16, j.val + 1 = k.val → pmpBit s.pmp k.val 4 = false → pmpBit s.pmp k.val 3 = true →
          t.pmp.entryAddr[j] = s.pmp.entryAddr[j])
      ∧ ∀ (acc : Access) (pa n : Nat), s.pmp.deciding s.cfg pa n = some k.val →
          s.pmp.allows s.cfg acc .machine pa n = true → pmpBit s.pmp k.val (permissionBit acc) = true

/-- R91, R120, R177: in M-mode, without S-mode and for Bare an access is not translated; its physical address is
the virtual one, cut to the physical width. Else `satp.MODE` selects the scheme: Sv32 on RV32, Sv39 and Sv48 on
RV64. `MPRV` moves loads and stores to `MPP`, and never a fetch. The formats of the schemes are those of R177,
R178, R179, R184 and R185: levels, sizes, the fields of addresses and of page-table entries, the root table, and
the addresses that step 0 of R181 lets pass. -/
def Obligations.UntranslatedAccess : Prop :=
  (∀ (s : State) (acc : Access) (p : Priv) (va : Word),
      (p = .machine ∨ s.cfg.hasS = false ∨ s.cfg.satpMode s.satp = 0) →
      s.translate acc p va =
        .ok { state := s, pa := (s.cfg.trunc va).toNat % 2 ^ s.cfg.physBits, pmp := s.pmp })
    ∧ (∀ s : State, s.effPriv .fetch = s.priv
        ∧ (∀ acc, acc ≠ .fetch → s.effPriv acc = if s.mstatus.mprv = true then s.mstatus.mpp else s.priv))
    ∧ (∀ s : State, s.cfg.physBits = (if s.cfg.xlen = .rv32 then 34 else 56)
        ∧ s.cfg.satpMode s.satp =
            (if s.cfg.xlen = .rv32 then (s.satp.extractLsb' 31 1).toNat else (s.satp.extractLsb' 60 4).toNat)
        ∧ s.cfg.satpPpn s.satp =
            (if s.cfg.xlen = .rv32 then (s.satp.extractLsb' 0 22).toNat else (s.satp.extractLsb' 0 44).toNat)
        ∧ ∀ p, s.activeScheme p =
            if p = .machine ∨ s.cfg.modes ≠ .msu then none
            else if s.cfg.xlen = .rv32 then (if s.satp.getLsbD 31 = true then some .sv32 else none)
            else if s.satp.extractLsb' 60 4 = 8 then some .sv39
            else if s.satp.extractLsb' 60 4 = 9 then some .sv48
            else none)
    ∧ (schemeLevels .sv32 = 2 ∧ schemeLevels .sv39 = 3 ∧ schemeLevels .sv48 = 4
        ∧ pteSize .sv32 = 4 ∧ pteSize .sv39 = 8 ∧ pteSize .sv48 = 8
        ∧ vpnBits .sv32 = 10 ∧ vpnBits .sv39 = 9 ∧ vpnBits .sv48 = 9)
    ∧ (∀ va : Word, vpnField .sv32 va.toNat 0 = (va.extractLsb' 12 10).toNat
        ∧ vpnField .sv32 va.toNat 1 = (va.extractLsb' 22 10).toNat
        ∧ (∀ sch ∈ [Scheme.sv39, Scheme.sv48], vpnField sch va.toNat 0 = (va.extractLsb' 12 9).toNat
            ∧ vpnField sch va.toNat 1 = (va.extractLsb' 21 9).toNat
            ∧ vpnField sch va.toNat 2 = (va.extractLsb' 30 9).toNat)
        ∧ vpnField .sv48 va.toNat 3 = (va.extractLsb' 39 9).toNat
        ∧ canonical .sv32 va = true
        ∧ (canonical .sv39 va = true ↔ ∀ k, 39 ≤ k → k < 64 → va.getLsbD k = va.getLsbD 38)
        ∧ (canonical .sv48 va = true ↔ ∀ k, 48 ≤ k → k < 64 → va.getLsbD k = va.getLsbD 47))
    ∧ ∀ pte : Word, pteV pte = pte.getLsbD 0 ∧ pteR pte = pte.getLsbD 1 ∧ pteW pte = pte.getLsbD 2
        ∧ pteX pte = pte.getLsbD 3 ∧ pteU pte = pte.getLsbD 4 ∧ pteG pte = pte.getLsbD 5
        ∧ pteA pte = pte.getLsbD 6 ∧ pteD pte = pte.getLsbD 7
        ∧ ptePpn .sv32 pte = (pte.extractLsb' 10 22).toNat ∧ ptePpn .sv39 pte = (pte.extractLsb' 10 44).toNat
        ∧ ptePpn .sv48 pte = (pte.extractLsb' 10 44).toNat

/-- R181, R182, R183, R186, R187: a translation succeeds only through a leaf that permits the access now, of a
page that is aligned: the leaf that the walk reaches from the root, or the cached entry that serves, or the
leaf that the walk reaches below a cached pointer that serves; only an entry of the cache for that page and
address space, or a global one, serves. A leaf of a walk has its Accessed and Dirty bits set, by software or by
the update of R183, a cached one has them set; the address is the page's with the offset. Where a leaf's bits
are set already the translation does succeed, and also where hardware sets them, of a leaf that permits the
access on an aligned page, and the update passes PMP and PMA and is supported as atomic there (an entry at the
address of a memory-mapped register: log entry 22). A cached leaf may bring the PMP settings of its time (R176).
The cache gains the entries that the walk reads, and no other: each on its level, for the pages of the address,
in the present address space, global as it and the entries above say, a leaf with the bits that are set now, and
with the present PMP settings (R176, R179, R187); nothing leaves it.
That a cached entry which would come to the update of R183 does not serve, and that every entry read is kept, is
log entry 13. -/
def Obligations.TranslationIsThePageTableWalk : Prop :=
  ∀ (s : State) (sch : Scheme) (acc : Access) (p : Priv) (va : Word), s.activeScheme p = some sch →
    (∀ t, s.translate acc p va = .ok t →
        canonical sch va = true ∧ CacheGains s t.state sch acc p va.toNat (updatedPte acc) ∧
          ((∃ i a l at_ pte, WalkStartsAt s sch acc p va.toNat i a ∧ LeafReached s sch va.toNat i a l at_ pte
              ∧ LeafGives s sch acc p va.toNat l at_ pte t)
            ∨ ∃ e, CachedServes s sch acc p va.toNat e ∧ PteValid e.pte ∧ PteLeaf e.pte
                ∧ LeafReady s sch acc p e.level e.pte ∧ t.state = s
                ∧ t.pa = ptePpn sch e.pte * 4096 + va.toNat % 2 ^ (12 + e.level * vpnBits sch)
                ∧ t.pmp = if s.draws.cachedPmp then e.pmp else s.pmp))
      ∧ (∀ i a l at_ pte, canonical sch va = true → WalkStartsAt s sch acc p va.toNat i a →
          LeafReached s sch va.toNat i a l at_ pte → LeafReady s sch acc p l pte →
          ∃ t, s.translate acc p va = .ok t ∧ LeafGives s sch acc p va.toNat l at_ pte t)
      ∧ (∀ i a l at_ pte, canonical sch va = true → WalkStartsAt s sch acc p va.toNat i a →
          LeafReached s sch va.toNat i a l at_ pte → s.cfg.hardwareADUpdate = true →
          ¬ LeafPageFaults s sch acc p l pte →
          s.physAllows s.pmp .store .supervisor at_ (pteSize sch) = true →
          pmaAtomic s.pma at_ (pteSize sch) = true →
          ∃ t, s.translate acc p va = .ok t ∧ LeafGives s sch acc p va.toNat l at_ pte t)
      ∧ ∀ e, canonical sch va = true → CachedServes s sch acc p va.toNat e → PteValid e.pte → PteLeaf e.pte →
          LeafReady s sch acc p e.level e.pte →
          s.translate acc p va = .ok
            { state := s
              pa := ptePpn sch e.pte * 4096 + va.toNat % 2 ^ (12 + e.level * vpnBits sch)
              pmp := if s.draws.cachedPmp then e.pmp else s.pmp }

/-- R156, R181, R186, R296: an access that fails raises the page fault or the access fault of its own type,
with the virtual address as trap value. A violation of PMP or of a PMA, by the access or by the walk, gives the
access fault; an entry that is not valid or not permitted, a misaligned superpage, a bit that software must
set, or an address out of the scheme's range gives the page fault, whether the walk reads the entry or a cached
one serves. Which cached entries serve is log entry 13. An access passes where PMP grants it (R174) and the
attributes of each of its bytes permit its type and width (R171): that bytes in several regions are judged one by
one, and that of regions that overlap the first counts, is log entry 18. -/
def Obligations.TranslationFaultsAreOfTheAccessType : Prop :=
  (∀ (s : State) (acc : Access) (p : Priv) (va : Word) (n : Nat) (e : Exception) (tval : Word),
      s.accessAddress acc p va n = .exc e tval → tval = va ∧ (e = acc.pageFault ∨ e = acc.accessFault))
    ∧ (∀ (s : State) (acc : Access) (p : Priv) (va : Word) (n : Nat) (t : Translated),
        s.translate acc p va = .ok t →
        (s.physAllows t.pmp acc p t.pa n = false ↔ s.accessAddress acc p va n = .exc acc.accessFault va))
    ∧ (∀ (s : State) (acc : Access) (p : Priv) (va : Word) (n : Nat),
        (∀ t, s.accessAddress acc p va n = .ok t ↔
            s.translate acc p va = .ok t ∧ s.physAllows t.pmp acc p t.pa n = true)
          ∧ ∀ e tval, s.translate acc p va = .exc e tval → s.accessAddress acc p va n = .exc e tval)
    ∧ (∀ (s : State) (q : Pmp) (acc : Access) (p : Priv) (pa n : Nat), 0 < n →
        (s.physAllows q acc p pa n = true ↔
          PmpGrants q s.cfg acc p [(pa, n)] ∧ ∀ k, k < n → AttributesPermit s.pma acc n (pa + k)))
    ∧ (∀ (l : List PmaRegion) (acc : Access) (pa n width : Nat),
        (pmaAllows l acc pa n width = true ↔ ∀ k, k < n → AttributesPermit l acc width (pa + k))
          ∧ (pmaAtomic l pa n = true ↔ ∀ k, k < n → ∃ r, HasRegion l (pa + k) r ∧ r.atomic = true)
          ∧ (isIo l pa = true ↔ ∃ r, HasRegion l pa r ∧ r.kind = .io))
    ∧ ∀ (s : State) (sch : Scheme) (acc : Access) (p : Priv) (va : Word), s.activeScheme p = some sch →
        (s.translate acc p va = .exc acc.pageFault va ↔
            canonical sch va = false
              ∨ (∃ i a, WalkStartsAt s sch acc p va.toNat i a ∧ WalkPageFaults s sch acc p va.toNat i a)
              ∨ CachedPageFaults s sch acc p va.toNat)
          ∧ (s.translate acc p va = .exc acc.accessFault va ↔
              canonical sch va = true
                ∧ ∃ i a, WalkStartsAt s sch acc p va.toNat i a ∧ WalkAccessFaults s sch acc p va.toNat i a)

/-! ## The whole machine -/

/-- R149, R300: no instruction stores to memory, to the memory-mapped registers, to the signals from outside or
to the attributes of memory: every byte reads as before. -/
def Obligations.InstructionsStoreNothing : Prop :=
  ∀ (i : Instr) (s t : State), exec i s = .next t →
    (∀ a, t.mem.read a = s.mem.read a) ∧ t.mtime = s.mtime ∧ t.mtimecmp = s.mtimecmp
      ∧ t.lines = s.lines ∧ t.pma = s.pma ∧ t.inputs = s.inputs

/-- R345: an instruction that raises an exception leaves `minstret`; one that retires adds exactly 1,
unless it is a CSR instruction that writes the counter itself, every check passed. -/
def Obligations.MinstretCountsRetiredInstructions : Prop :=
  ∀ (i : Instr) (s t : State), exec i s = .next t →
    (t.counters.minstret = s.counters.minstret
        ∧ ∃ e tval, Trapped s t (s.exceptionTarget e) false e.code tval)
      ∨ t.counters.minstret = s.counters.minstret + 1
      ∨ ∃ f r, csrForm i = some f ∧ csrAt s.cfg f.csr = some r ∧ CsrAllowed s f.op f.csr f.src
          ∧ f.op.writes f.src = true ∧ (f.csr = 0xB02 ∨ f.csr = 0xB82)

/-- R275, R276: an instruction ends in a more privileged mode only by raising an exception. -/
def Obligations.PrivilegeRisesOnlyByTrap : Prop :=
  ∀ (i : Instr) (s t : State), exec i s = .next t → s.priv.enc.toNat < t.priv.enc.toNat →
    ∃ e tval, Trapped s t (s.exceptionTarget e) false e.code tval

/-- R26, R221, R274: an instruction that starts and ends in U-mode changes nothing that belongs to a more
privileged mode; only the walk of its fetch can store, to page-table entries. What memory holds where the
fetch, or the fetched instruction, raises is the model's choice, notes/assumptions/10.md. -/
def Obligations.UserModeCannotChangePrivilegedState : Prop :=
  ∀ s t : State, s.Running → s.priv = .user → step s = .next t → t.priv = .user →
    OnlyUserStateChanged s t

/-- Every step keeps every register at a value its fields can hold under the parameters (R22, R23, R87, R89,
R98 to R101, R104, R106 to R110, R113, R116, R120 to R122, R172), a hard-wired `mtvec` at its value (R98), the
mode a supported one (R21), the program counter aligned and memory in its canonical form. -/
def Obligations.StepKeepsLegalStates : Prop :=
  ∀ s t : State, s.Legal → step s = .next t → t.Legal

/-- The state after reset is legal. -/
def Obligations.ResetStateIsLegal : Prop := State.reset.Legal

/-- A reset leads to a legal state whatever the registers held and whatever the parameters are. -/
def Obligations.HartResetGivesLegalState : Prop :=
  (∀ s : State, s.mem.wf = true → s.hartReset.Legal) ∧ ∀ c : Config, (State.resetWith c).Legal

/-- R341, D4: what a reset sets, at the boundary where it arrives. That the PMP entries are off, the
software interrupt clear and the hart not waiting are the choices of D4. Two clauses are the model's choice
(notes/assumptions/1.md): that the translation cache is empty, where D4 and R342 let it hold anything
consistent with memory, and that memory, its attributes and `mtime` stay, which R341, R342 and R346 leave open. -/
def Obligations.ResetValues : Prop :=
  ∀ (s : State) (i : Input) (rest : List Input), s.inputs = i :: rest → i.reset = true →
    ∃ t, step s = .next t ∧ t.priv = .machine ∧ t.mstatus.mie = false ∧ t.mstatus.mprv = false
      ∧ t.pc = s.cfg.alignPc s.cfg.resetVector ∧ t.readCsr (.cause .machine) = 0
      ∧ t.readCsr .misa = s.cfg.misa
      ∧ (∀ k : Fin 16, t.pmp.locked k.val = false ∧ t.pmp.entryCfg[k].extractLsb' 3 2 = 0)
      ∧ t.lines.msip = false ∧ t.waiting = false ∧ t.tlb = [] ∧ t.mtime = s.mtime ∧ t.inputs = rest
      ∧ t.pma = s.pma ∧ ∀ a, t.mem.read a = s.mem.read a

/-- No step changes the parameters of the implementation. -/
def Obligations.StepKeepsParameters : Prop :=
  ∀ s t : State, step s = .next t → t.cfg = s.cfg
end

