-- ==== Sys2Proof/Laws/Bits.lean ====
section
/-! SUPPORT. Bits of the words built by Machine/Bits.lean, and of `Config.trunc`: one lemma for each
operation that says every bit of its result. -/

namespace Sys2Proof.Machine

theorem lowMask_getLsbD (n i : Nat) : (lowMask n).getLsbD i = decide (i < n ∧ i < 64) := by
  unfold lowMask
  rw [BitVec.getLsbD_ofNat, Nat.testBit_two_pow_sub_one]
  by_cases h : i < 64 <;> simp [h]

theorem clearLow_getLsbD (n i : Nat) (v : Word) :
    (clearLow n v).getLsbD i = (v.getLsbD i && decide (n ≤ i)) := by
  unfold clearLow
  rw [BitVec.getLsbD_and, BitVec.getLsbD_not, lowMask_getLsbD]
  by_cases h : i < 64
  · by_cases hn : i < n
    · simp [h, hn, Nat.not_le.mpr hn]
    · simp [h, hn, Nat.le_of_not_lt hn]
  · simp [h, BitVec.getLsbD_of_ge v i (Nat.le_of_not_lt h)]

theorem mergeBits_getLsbD (mask old v : Word) (i : Nat) :
    (mergeBits mask old v).getLsbD i = if mask.getLsbD i then v.getLsbD i else old.getLsbD i := by
  unfold mergeBits
  rw [BitVec.getLsbD_or, BitVec.getLsbD_and, BitVec.getLsbD_and, BitVec.getLsbD_not]
  by_cases h : i < 64
  · cases hm : mask.getLsbD i <;> simp [h]
  · simp [BitVec.getLsbD_of_ge _ i (Nat.le_of_not_lt h)]

/-- Every bit of an assembled word: some flag listed at its position is set. -/
theorem wordOfBits_getLsbD (l : List (Nat × Bool)) (i : Nat) :
    (wordOfBits l).getLsbD i = (decide (i < 64) && l.any fun p => p.1 == i && p.2) := by
  induction l with
  | nil => simp [wordOfBits]
  | cons p rest ih =>
    obtain ⟨k, b⟩ := p
    rw [wordOfBits, BitVec.getLsbD_or, ih, List.any_cons]
    cases b
    · simp
    · rw [if_pos rfl, BitVec.getLsbD_twoPow]
      by_cases hi : i < 64 <;> by_cases hk : k = i <;> simp [hi, hk]

end Sys2Proof.Machine

namespace Sys2Proof

open Machine

theorem Config.trunc_getLsbD (c : Config) (v : Word) (i : Nat) :
    (c.trunc v).getLsbD i = (decide (i < c.xlen.bits) && v.getLsbD i) := by
  unfold Config.trunc XLen.bits
  cases c.xlen with
  | rv32 =>
    have h : (0xFFFFFFFF : Word) = lowMask 32 := rfl
    simp only [h, BitVec.getLsbD_and, lowMask_getLsbD]
    by_cases hi : i < 32
    · simp [hi, Nat.lt_trans hi]
    · simp [hi]
  | rv64 =>
    by_cases hi : i < 64
    · simp [hi]
    · simp [hi, BitVec.getLsbD_of_ge v i (Nat.le_of_not_lt hi)]

/-- Two words with the same bits are equal. -/
theorem Word.ext {v w : Word} (h : ∀ i, v.getLsbD i = w.getLsbD i) : v = w :=
  BitVec.eq_of_getLsbD_eq fun i _ => h i

theorem XLen.bits_le (x : XLen) : x.bits ≤ 64 := by cases x <;> decide

theorem XLen.bits_ge (x : XLen) : 32 ≤ x.bits := by cases x <;> decide

@[simp] theorem Config.trunc_trunc (c : Config) (v : Word) : c.trunc (c.trunc v) = c.trunc v := by
  apply Word.ext; intro i; simp only [Config.trunc_getLsbD]; cases decide (i < c.xlen.bits) <;> simp

@[simp] theorem Config.trunc_zero (c : Config) : c.trunc 0 = 0 := by
  apply Word.ext; intro i; simp [Config.trunc_getLsbD]

/-- A mask of an XLEN-bit value is an XLEN-bit value. -/
theorem Config.trunc_and (c : Config) (v m : Word) : c.trunc (v &&& m) = c.trunc v &&& m := by
  apply Word.ext; intro i
  simp only [Config.trunc_getLsbD, BitVec.getLsbD_and, Bool.and_assoc]

theorem Config.trunc_or (c : Config) (v w : Word) : c.trunc (v ||| w) = c.trunc v ||| c.trunc w := by
  apply Word.ext; intro i
  simp only [Config.trunc_getLsbD, BitVec.getLsbD_or, Bool.and_or_distrib_left]

theorem Config.trunc_clearLow (c : Config) (n : Nat) (v : Word) :
    c.trunc (clearLow n v) = clearLow n (c.trunc v) := by
  apply Word.ext; intro i
  simp only [Config.trunc_getLsbD, clearLow_getLsbD, Bool.and_assoc]

/-- `xepc` is legal once made legal (R108). -/
@[simp] theorem Config.alignPc_alignPc (c : Config) (v : Word) :
    c.alignPc (c.alignPc v) = c.alignPc v := by
  apply Word.ext; intro i
  simp only [Config.alignPc, Config.trunc_getLsbD, clearLow_getLsbD]
  cases decide (i < c.xlen.bits) <;> cases decide (2 ≤ i) <;> simp

/-- The bits of `xepc` (R108): an XLEN-bit value with bits 1:0 clear. -/
theorem Config.alignPc_getLsbD (c : Config) (v : Word) (i : Nat) :
    (c.alignPc v).getLsbD i = (decide (i < c.xlen.bits) && v.getLsbD i && decide (2 ≤ i)) := by
  simp only [Config.alignPc, clearLow_getLsbD, Config.trunc_getLsbD]

@[simp] theorem Config.trunc_alignPc (c : Config) (v : Word) : c.trunc (c.alignPc v) = c.alignPc v := by
  apply Word.ext; intro i
  simp only [Config.trunc_getLsbD, Config.alignPc_getLsbD]
  cases decide (i < c.xlen.bits) <;> simp

/-- A PMP address register is legal once made legal (R172). -/
@[simp] theorem Config.legalPmpAddr_legalPmpAddr (c : Config) (v : Word) :
    c.legalPmpAddr (c.legalPmpAddr v) = c.legalPmpAddr v := by
  unfold Config.legalPmpAddr
  cases c.xlen <;> simp only [BitVec.and_assoc, BitVec.and_self]

end Sys2Proof
end

