-- ==== Sys2Proof/Laws/State.lean ====
section
/-! SUPPORT. One lemma for each field of the state and each update of Machine/Ops.lean: the fields an update
leaves alone, and the value of those it sets. Later proofs cite these and unfold no update. -/

namespace Sys2Proof.Machine

/-! ## Writing a register -/

@[simp] theorem State.writeReg_cfg (s : State) (r : Reg) (v : Word) : (s.writeReg r v).cfg = s.cfg := by
  unfold State.writeReg; split <;> rfl

@[simp] theorem State.writeReg_priv (s : State) (r : Reg) (v : Word) : (s.writeReg r v).priv = s.priv := by
  unfold State.writeReg; split <;> rfl

@[simp] theorem State.writeReg_pc (s : State) (r : Reg) (v : Word) : (s.writeReg r v).pc = s.pc := by
  unfold State.writeReg; split <;> rfl

@[simp] theorem State.writeReg_mstatus (s : State) (r : Reg) (v : Word) : (s.writeReg r v).mstatus = s.mstatus := by
  unfold State.writeReg; split <;> rfl

@[simp] theorem State.writeReg_deleg (s : State) (r : Reg) (v : Word) : (s.writeReg r v).deleg = s.deleg := by
  unfold State.writeReg; split <;> rfl

@[simp] theorem State.writeReg_mie (s : State) (r : Reg) (v : Word) : (s.writeReg r v).mie = s.mie := by
  unfold State.writeReg; split <;> rfl

@[simp] theorem State.writeReg_mipSw (s : State) (r : Reg) (v : Word) : (s.writeReg r v).mipSw = s.mipSw := by
  unfold State.writeReg; split <;> rfl

@[simp] theorem State.writeReg_lines (s : State) (r : Reg) (v : Word) : (s.writeReg r v).lines = s.lines := by
  unfold State.writeReg; split <;> rfl

@[simp] theorem State.writeReg_mTrap (s : State) (r : Reg) (v : Word) : (s.writeReg r v).mTrap = s.mTrap := by
  unfold State.writeReg; split <;> rfl

@[simp] theorem State.writeReg_sTrap (s : State) (r : Reg) (v : Word) : (s.writeReg r v).sTrap = s.sTrap := by
  unfold State.writeReg; split <;> rfl

@[simp] theorem State.writeReg_uTrap (s : State) (r : Reg) (v : Word) : (s.writeReg r v).uTrap = s.uTrap := by
  unfold State.writeReg; split <;> rfl

@[simp] theorem State.writeReg_counters (s : State) (r : Reg) (v : Word) : (s.writeReg r v).counters = s.counters := by
  unfold State.writeReg; split <;> rfl

@[simp] theorem State.writeReg_mtime (s : State) (r : Reg) (v : Word) : (s.writeReg r v).mtime = s.mtime := by
  unfold State.writeReg; split <;> rfl

@[simp] theorem State.writeReg_mtimecmp (s : State) (r : Reg) (v : Word) : (s.writeReg r v).mtimecmp = s.mtimecmp := by
  unfold State.writeReg; split <;> rfl

@[simp] theorem State.writeReg_satp (s : State) (r : Reg) (v : Word) : (s.writeReg r v).satp = s.satp := by
  unfold State.writeReg; split <;> rfl

@[simp] theorem State.writeReg_fcsr (s : State) (r : Reg) (v : Word) : (s.writeReg r v).fcsr = s.fcsr := by
  unfold State.writeReg; split <;> rfl

@[simp] theorem State.writeReg_pmp (s : State) (r : Reg) (v : Word) : (s.writeReg r v).pmp = s.pmp := by
  unfold State.writeReg; split <;> rfl

@[simp] theorem State.writeReg_triggers (s : State) (r : Reg) (v : Word) : (s.writeReg r v).triggers = s.triggers := by
  unfold State.writeReg; split <;> rfl

@[simp] theorem State.writeReg_tlb (s : State) (r : Reg) (v : Word) : (s.writeReg r v).tlb = s.tlb := by
  unfold State.writeReg; split <;> rfl

@[simp] theorem State.writeReg_waiting (s : State) (r : Reg) (v : Word) : (s.writeReg r v).waiting = s.waiting := by
  unfold State.writeReg; split <;> rfl

@[simp] theorem State.writeReg_mem (s : State) (r : Reg) (v : Word) : (s.writeReg r v).mem = s.mem := by
  unfold State.writeReg; split <;> rfl

@[simp] theorem State.writeReg_inputs (s : State) (r : Reg) (v : Word) : (s.writeReg r v).inputs = s.inputs := by
  unfold State.writeReg; split <;> rfl

@[simp] theorem State.writeReg_pma (s : State) (r : Reg) (v : Word) : (s.writeReg r v).pma = s.pma := by
  unfold State.writeReg; split <;> rfl

@[simp] theorem State.writeReg_draws (s : State) (r : Reg) (v : Word) : (s.writeReg r v).draws = s.draws := by
  unfold State.writeReg; split <;> rfl

@[simp] theorem State.writeReg_drawCount (s : State) (r : Reg) (v : Word) : (s.writeReg r v).drawCount = s.drawCount := by
  unfold State.writeReg; split <;> rfl

/-- Reading back: `x0` is zero, the register written holds the XLEN-bit value, the others are kept. -/
theorem State.readReg_writeReg (s : State) (r q : Reg) (v : Word) :
    (s.writeReg r v).readReg q = if q = 0 then 0 else if q = r then s.cfg.trunc v else s.readReg q := by
  unfold State.readReg State.writeReg
  by_cases hq : q = 0
  · simp [hq]
  · by_cases hr : r = 0
    · have : q ≠ r := by rw [hr]; exact hq
      simp [hq, hr]
    · by_cases h : q = r
      · subst h
        simp only [hq, if_false, if_true]
        have : (s.regs.set q (s.cfg.trunc v))[q] = s.cfg.trunc v := by simp
        rw [this]
        unfold Config.trunc
        cases s.cfg.xlen <;> simp [BitVec.and_assoc]
      · simp only [hq, hr, h, if_false]
        have hne : r.val ≠ q.val := fun e => h (Fin.ext e.symm)
        have : (s.regs.set r (s.cfg.trunc v))[q] = s.regs[q] := by
          simp [Fin.getElem_fin, Vector.getElem_set_ne, hne]
        rw [this]

/-! ## Retiring -/

@[simp] theorem State.retireTo_cfg (s : State) (a : Word) (b : Bool) : (s.retireTo a b).cfg = s.cfg := rfl

@[simp] theorem State.retireTo_priv (s : State) (a : Word) (b : Bool) : (s.retireTo a b).priv = s.priv := rfl

@[simp] theorem State.retireTo_regs (s : State) (a : Word) (b : Bool) : (s.retireTo a b).regs = s.regs := rfl

@[simp] theorem State.retireTo_mstatus (s : State) (a : Word) (b : Bool) : (s.retireTo a b).mstatus = s.mstatus := rfl

@[simp] theorem State.retireTo_deleg (s : State) (a : Word) (b : Bool) : (s.retireTo a b).deleg = s.deleg := rfl

@[simp] theorem State.retireTo_mie (s : State) (a : Word) (b : Bool) : (s.retireTo a b).mie = s.mie := rfl

@[simp] theorem State.retireTo_mipSw (s : State) (a : Word) (b : Bool) : (s.retireTo a b).mipSw = s.mipSw := rfl

@[simp] theorem State.retireTo_lines (s : State) (a : Word) (b : Bool) : (s.retireTo a b).lines = s.lines := rfl

@[simp] theorem State.retireTo_mTrap (s : State) (a : Word) (b : Bool) : (s.retireTo a b).mTrap = s.mTrap := rfl

@[simp] theorem State.retireTo_sTrap (s : State) (a : Word) (b : Bool) : (s.retireTo a b).sTrap = s.sTrap := rfl

@[simp] theorem State.retireTo_uTrap (s : State) (a : Word) (b : Bool) : (s.retireTo a b).uTrap = s.uTrap := rfl

@[simp] theorem State.retireTo_mtime (s : State) (a : Word) (b : Bool) : (s.retireTo a b).mtime = s.mtime := rfl

@[simp] theorem State.retireTo_mtimecmp (s : State) (a : Word) (b : Bool) : (s.retireTo a b).mtimecmp = s.mtimecmp := rfl

@[simp] theorem State.retireTo_satp (s : State) (a : Word) (b : Bool) : (s.retireTo a b).satp = s.satp := rfl

@[simp] theorem State.retireTo_fcsr (s : State) (a : Word) (b : Bool) : (s.retireTo a b).fcsr = s.fcsr := rfl

@[simp] theorem State.retireTo_pmp (s : State) (a : Word) (b : Bool) : (s.retireTo a b).pmp = s.pmp := rfl

@[simp] theorem State.retireTo_triggers (s : State) (a : Word) (b : Bool) : (s.retireTo a b).triggers = s.triggers := rfl

@[simp] theorem State.retireTo_tlb (s : State) (a : Word) (b : Bool) : (s.retireTo a b).tlb = s.tlb := rfl

@[simp] theorem State.retireTo_waiting (s : State) (a : Word) (b : Bool) : (s.retireTo a b).waiting = s.waiting := rfl

@[simp] theorem State.retireTo_mem (s : State) (a : Word) (b : Bool) : (s.retireTo a b).mem = s.mem := rfl

@[simp] theorem State.retireTo_inputs (s : State) (a : Word) (b : Bool) : (s.retireTo a b).inputs = s.inputs := rfl

@[simp] theorem State.retireTo_pma (s : State) (a : Word) (b : Bool) : (s.retireTo a b).pma = s.pma := rfl

@[simp] theorem State.retireTo_draws (s : State) (a : Word) (b : Bool) : (s.retireTo a b).draws = s.draws := rfl

@[simp] theorem State.retireTo_drawCount (s : State) (a : Word) (b : Bool) : (s.retireTo a b).drawCount = s.drawCount := rfl

@[simp] theorem State.retireTo_pc (s : State) (a : Word) (b : Bool) : (s.retireTo a b).pc = a := rfl

@[simp] theorem State.retireTo_counters (s : State) (a : Word) (b : Bool) :
    (s.retireTo a b).counters = if b then s.counters.retire else s.counters := rfl

@[simp] theorem Counters.retire_minstret (c : Counters) : c.retire.minstret = c.minstret + 1 := rfl

@[simp] theorem State.advance_cfg (s : State) (b : Bool) : (s.advance b).cfg = s.cfg := rfl

@[simp] theorem State.advance_priv (s : State) (b : Bool) : (s.advance b).priv = s.priv := rfl

@[simp] theorem State.advance_regs (s : State) (b : Bool) : (s.advance b).regs = s.regs := rfl

@[simp] theorem State.advance_mstatus (s : State) (b : Bool) : (s.advance b).mstatus = s.mstatus := rfl

@[simp] theorem State.advance_deleg (s : State) (b : Bool) : (s.advance b).deleg = s.deleg := rfl

@[simp] theorem State.advance_mie (s : State) (b : Bool) : (s.advance b).mie = s.mie := rfl

@[simp] theorem State.advance_mipSw (s : State) (b : Bool) : (s.advance b).mipSw = s.mipSw := rfl

@[simp] theorem State.advance_lines (s : State) (b : Bool) : (s.advance b).lines = s.lines := rfl

@[simp] theorem State.advance_mTrap (s : State) (b : Bool) : (s.advance b).mTrap = s.mTrap := rfl

@[simp] theorem State.advance_sTrap (s : State) (b : Bool) : (s.advance b).sTrap = s.sTrap := rfl

@[simp] theorem State.advance_uTrap (s : State) (b : Bool) : (s.advance b).uTrap = s.uTrap := rfl

@[simp] theorem State.advance_mtime (s : State) (b : Bool) : (s.advance b).mtime = s.mtime := rfl

@[simp] theorem State.advance_mtimecmp (s : State) (b : Bool) : (s.advance b).mtimecmp = s.mtimecmp := rfl

@[simp] theorem State.advance_satp (s : State) (b : Bool) : (s.advance b).satp = s.satp := rfl

@[simp] theorem State.advance_fcsr (s : State) (b : Bool) : (s.advance b).fcsr = s.fcsr := rfl

@[simp] theorem State.advance_pmp (s : State) (b : Bool) : (s.advance b).pmp = s.pmp := rfl

@[simp] theorem State.advance_triggers (s : State) (b : Bool) : (s.advance b).triggers = s.triggers := rfl

@[simp] theorem State.advance_tlb (s : State) (b : Bool) : (s.advance b).tlb = s.tlb := rfl

@[simp] theorem State.advance_waiting (s : State) (b : Bool) : (s.advance b).waiting = s.waiting := rfl

@[simp] theorem State.advance_mem (s : State) (b : Bool) : (s.advance b).mem = s.mem := rfl

@[simp] theorem State.advance_inputs (s : State) (b : Bool) : (s.advance b).inputs = s.inputs := rfl

@[simp] theorem State.advance_pma (s : State) (b : Bool) : (s.advance b).pma = s.pma := rfl

@[simp] theorem State.advance_draws (s : State) (b : Bool) : (s.advance b).draws = s.draws := rfl

@[simp] theorem State.advance_drawCount (s : State) (b : Bool) : (s.advance b).drawCount = s.drawCount := rfl

@[simp] theorem State.advance_pc (s : State) (b : Bool) : (s.advance b).pc = s.cfg.trunc (s.pc + 4) := rfl

@[simp] theorem State.advance_counters (s : State) (b : Bool) :
    (s.advance b).counters = if b then s.counters.retire else s.counters := rfl

@[simp] theorem State.advance_readReg (s : State) (b : Bool) (r : Reg) :
    (s.advance b).readReg r = s.readReg r := rfl

/-! ## Trap registers -/

@[simp] theorem State.setTrapRegs_cfg (s : State) (x : Priv) (r : TrapRegs) :
    (s.setTrapRegs x r).cfg = s.cfg := by cases x <;> rfl

@[simp] theorem State.setTrapRegs_priv (s : State) (x : Priv) (r : TrapRegs) :
    (s.setTrapRegs x r).priv = s.priv := by cases x <;> rfl

@[simp] theorem State.setTrapRegs_regs (s : State) (x : Priv) (r : TrapRegs) :
    (s.setTrapRegs x r).regs = s.regs := by cases x <;> rfl

@[simp] theorem State.setTrapRegs_pc (s : State) (x : Priv) (r : TrapRegs) :
    (s.setTrapRegs x r).pc = s.pc := by cases x <;> rfl

@[simp] theorem State.setTrapRegs_mstatus (s : State) (x : Priv) (r : TrapRegs) :
    (s.setTrapRegs x r).mstatus = s.mstatus := by cases x <;> rfl

@[simp] theorem State.setTrapRegs_deleg (s : State) (x : Priv) (r : TrapRegs) :
    (s.setTrapRegs x r).deleg = s.deleg := by cases x <;> rfl

@[simp] theorem State.setTrapRegs_mie (s : State) (x : Priv) (r : TrapRegs) :
    (s.setTrapRegs x r).mie = s.mie := by cases x <;> rfl

@[simp] theorem State.setTrapRegs_mipSw (s : State) (x : Priv) (r : TrapRegs) :
    (s.setTrapRegs x r).mipSw = s.mipSw := by cases x <;> rfl

@[simp] theorem State.setTrapRegs_lines (s : State) (x : Priv) (r : TrapRegs) :
    (s.setTrapRegs x r).lines = s.lines := by cases x <;> rfl

@[simp] theorem State.setTrapRegs_counters (s : State) (x : Priv) (r : TrapRegs) :
    (s.setTrapRegs x r).counters = s.counters := by cases x <;> rfl

@[simp] theorem State.setTrapRegs_mtime (s : State) (x : Priv) (r : TrapRegs) :
    (s.setTrapRegs x r).mtime = s.mtime := by cases x <;> rfl

@[simp] theorem State.setTrapRegs_mtimecmp (s : State) (x : Priv) (r : TrapRegs) :
    (s.setTrapRegs x r).mtimecmp = s.mtimecmp := by cases x <;> rfl

@[simp] theorem State.setTrapRegs_satp (s : State) (x : Priv) (r : TrapRegs) :
    (s.setTrapRegs x r).satp = s.satp := by cases x <;> rfl

@[simp] theorem State.setTrapRegs_fcsr (s : State) (x : Priv) (r : TrapRegs) :
    (s.setTrapRegs x r).fcsr = s.fcsr := by cases x <;> rfl

@[simp] theorem State.setTrapRegs_pmp (s : State) (x : Priv) (r : TrapRegs) :
    (s.setTrapRegs x r).pmp = s.pmp := by cases x <;> rfl

@[simp] theorem State.setTrapRegs_triggers (s : State) (x : Priv) (r : TrapRegs) :
    (s.setTrapRegs x r).triggers = s.triggers := by cases x <;> rfl

@[simp] theorem State.setTrapRegs_tlb (s : State) (x : Priv) (r : TrapRegs) :
    (s.setTrapRegs x r).tlb = s.tlb := by cases x <;> rfl

@[simp] theorem State.setTrapRegs_waiting (s : State) (x : Priv) (r : TrapRegs) :
    (s.setTrapRegs x r).waiting = s.waiting := by cases x <;> rfl

@[simp] theorem State.setTrapRegs_mem (s : State) (x : Priv) (r : TrapRegs) :
    (s.setTrapRegs x r).mem = s.mem := by cases x <;> rfl

@[simp] theorem State.setTrapRegs_inputs (s : State) (x : Priv) (r : TrapRegs) :
    (s.setTrapRegs x r).inputs = s.inputs := by cases x <;> rfl

@[simp] theorem State.setTrapRegs_pma (s : State) (x : Priv) (r : TrapRegs) :
    (s.setTrapRegs x r).pma = s.pma := by cases x <;> rfl

@[simp] theorem State.setTrapRegs_draws (s : State) (x : Priv) (r : TrapRegs) :
    (s.setTrapRegs x r).draws = s.draws := by cases x <;> rfl

@[simp] theorem State.setTrapRegs_drawCount (s : State) (x : Priv) (r : TrapRegs) :
    (s.setTrapRegs x r).drawCount = s.drawCount := by cases x <;> rfl

@[simp] theorem State.trapRegs_setTrapRegs_same (s : State) (x : Priv) (r : TrapRegs) :
    (s.setTrapRegs x r).trapRegs x = r := by cases x <;> rfl

theorem State.trapRegs_setTrapRegs_other (s : State) {x y : Priv} (r : TrapRegs) (h : y ≠ x) :
    (s.setTrapRegs x r).trapRegs y = s.trapRegs y := by
  cases x <;> cases y <;> first | rfl | exact absurd rfl h

/-! ## Taking a trap -/

@[simp] theorem State.takeTrap_cfg (s : State) (x : Priv) (i : Bool) (k : Nat) (v : Word) :
    (s.takeTrap x i k v).cfg = s.cfg := by cases x <;> rfl

@[simp] theorem State.takeTrap_regs (s : State) (x : Priv) (i : Bool) (k : Nat) (v : Word) :
    (s.takeTrap x i k v).regs = s.regs := by cases x <;> rfl

@[simp] theorem State.takeTrap_deleg (s : State) (x : Priv) (i : Bool) (k : Nat) (v : Word) :
    (s.takeTrap x i k v).deleg = s.deleg := by cases x <;> rfl

@[simp] theorem State.takeTrap_mie (s : State) (x : Priv) (i : Bool) (k : Nat) (v : Word) :
    (s.takeTrap x i k v).mie = s.mie := by cases x <;> rfl

@[simp] theorem State.takeTrap_mipSw (s : State) (x : Priv) (i : Bool) (k : Nat) (v : Word) :
    (s.takeTrap x i k v).mipSw = s.mipSw := by cases x <;> rfl

@[simp] theorem State.takeTrap_lines (s : State) (x : Priv) (i : Bool) (k : Nat) (v : Word) :
    (s.takeTrap x i k v).lines = s.lines := by cases x <;> rfl

@[simp] theorem State.takeTrap_counters (s : State) (x : Priv) (i : Bool) (k : Nat) (v : Word) :
    (s.takeTrap x i k v).counters = s.counters := by cases x <;> rfl

@[simp] theorem State.takeTrap_mtime (s : State) (x : Priv) (i : Bool) (k : Nat) (v : Word) :
    (s.takeTrap x i k v).mtime = s.mtime := by cases x <;> rfl

@[simp] theorem State.takeTrap_mtimecmp (s : State) (x : Priv) (i : Bool) (k : Nat) (v : Word) :
    (s.takeTrap x i k v).mtimecmp = s.mtimecmp := by cases x <;> rfl

@[simp] theorem State.takeTrap_satp (s : State) (x : Priv) (i : Bool) (k : Nat) (v : Word) :
    (s.takeTrap x i k v).satp = s.satp := by cases x <;> rfl

@[simp] theorem State.takeTrap_fcsr (s : State) (x : Priv) (i : Bool) (k : Nat) (v : Word) :
    (s.takeTrap x i k v).fcsr = s.fcsr := by cases x <;> rfl

@[simp] theorem State.takeTrap_pmp (s : State) (x : Priv) (i : Bool) (k : Nat) (v : Word) :
    (s.takeTrap x i k v).pmp = s.pmp := by cases x <;> rfl

@[simp] theorem State.takeTrap_triggers (s : State) (x : Priv) (i : Bool) (k : Nat) (v : Word) :
    (s.takeTrap x i k v).triggers = s.triggers := by cases x <;> rfl

@[simp] theorem State.takeTrap_tlb (s : State) (x : Priv) (i : Bool) (k : Nat) (v : Word) :
    (s.takeTrap x i k v).tlb = s.tlb := by cases x <;> rfl

@[simp] theorem State.takeTrap_mem (s : State) (x : Priv) (i : Bool) (k : Nat) (v : Word) :
    (s.takeTrap x i k v).mem = s.mem := by cases x <;> rfl

@[simp] theorem State.takeTrap_inputs (s : State) (x : Priv) (i : Bool) (k : Nat) (v : Word) :
    (s.takeTrap x i k v).inputs = s.inputs := by cases x <;> rfl

@[simp] theorem State.takeTrap_pma (s : State) (x : Priv) (i : Bool) (k : Nat) (v : Word) :
    (s.takeTrap x i k v).pma = s.pma := by cases x <;> rfl

@[simp] theorem State.takeTrap_draws (s : State) (x : Priv) (i : Bool) (k : Nat) (v : Word) :
    (s.takeTrap x i k v).draws = s.draws := by cases x <;> rfl

@[simp] theorem State.takeTrap_drawCount (s : State) (x : Priv) (i : Bool) (k : Nat) (v : Word) :
    (s.takeTrap x i k v).drawCount = s.drawCount := by cases x <;> rfl

@[simp] theorem State.takeTrap_mstatus (s : State) (x : Priv) (i : Bool) (k : Nat) (v : Word) :
    (s.takeTrap x i k v).mstatus = s.mstatus.push x s.priv := rfl

@[simp] theorem State.takeTrap_priv (s : State) (x : Priv) (i : Bool) (k : Nat) (v : Word) :
    (s.takeTrap x i k v).priv = x := rfl

@[simp] theorem State.takeTrap_waiting (s : State) (x : Priv) (i : Bool) (k : Nat) (v : Word) :
    (s.takeTrap x i k v).waiting = false := rfl

@[simp] theorem State.takeTrap_pc (s : State) (x : Priv) (i : Bool) (k : Nat) (v : Word) :
    (s.takeTrap x i k v).pc = s.trapVector x i k := rfl

@[simp] theorem State.takeTrap_trapRegs_same (s : State) (x : Priv) (i : Bool) (k : Nat) (v : Word) :
    (s.takeTrap x i k v).trapRegs x =
      { s.trapRegs x with
        epc := s.cfg.alignPc s.pc, cause := causeWord s.cfg i k, tval := s.cfg.trunc v } := by
  cases x <;> rfl

theorem State.takeTrap_trapRegs_other (s : State) {x y : Priv} (i : Bool) (k : Nat) (v : Word) (h : y ≠ x) :
    (s.takeTrap x i k v).trapRegs y = s.trapRegs y := by
  cases x <;> cases y <;> first | rfl | exact absurd rfl h

/-! ## Returning from a trap -/

@[simp] theorem State.trapReturn_cfg (s : State) (x : Priv) : (s.trapReturn x).cfg = s.cfg := rfl

@[simp] theorem State.trapReturn_regs (s : State) (x : Priv) : (s.trapReturn x).regs = s.regs := rfl

@[simp] theorem State.trapReturn_deleg (s : State) (x : Priv) : (s.trapReturn x).deleg = s.deleg := rfl

@[simp] theorem State.trapReturn_mie (s : State) (x : Priv) : (s.trapReturn x).mie = s.mie := rfl

@[simp] theorem State.trapReturn_mipSw (s : State) (x : Priv) : (s.trapReturn x).mipSw = s.mipSw := rfl

@[simp] theorem State.trapReturn_lines (s : State) (x : Priv) : (s.trapReturn x).lines = s.lines := rfl

@[simp] theorem State.trapReturn_mTrap (s : State) (x : Priv) : (s.trapReturn x).mTrap = s.mTrap := rfl

@[simp] theorem State.trapReturn_sTrap (s : State) (x : Priv) : (s.trapReturn x).sTrap = s.sTrap := rfl

@[simp] theorem State.trapReturn_uTrap (s : State) (x : Priv) : (s.trapReturn x).uTrap = s.uTrap := rfl

@[simp] theorem State.trapReturn_mtime (s : State) (x : Priv) : (s.trapReturn x).mtime = s.mtime := rfl

@[simp] theorem State.trapReturn_mtimecmp (s : State) (x : Priv) : (s.trapReturn x).mtimecmp = s.mtimecmp := rfl

@[simp] theorem State.trapReturn_satp (s : State) (x : Priv) : (s.trapReturn x).satp = s.satp := rfl

@[simp] theorem State.trapReturn_fcsr (s : State) (x : Priv) : (s.trapReturn x).fcsr = s.fcsr := rfl

@[simp] theorem State.trapReturn_pmp (s : State) (x : Priv) : (s.trapReturn x).pmp = s.pmp := rfl

@[simp] theorem State.trapReturn_triggers (s : State) (x : Priv) : (s.trapReturn x).triggers = s.triggers := rfl

@[simp] theorem State.trapReturn_tlb (s : State) (x : Priv) : (s.trapReturn x).tlb = s.tlb := rfl

@[simp] theorem State.trapReturn_waiting (s : State) (x : Priv) : (s.trapReturn x).waiting = s.waiting := rfl

@[simp] theorem State.trapReturn_mem (s : State) (x : Priv) : (s.trapReturn x).mem = s.mem := rfl

@[simp] theorem State.trapReturn_inputs (s : State) (x : Priv) : (s.trapReturn x).inputs = s.inputs := rfl

@[simp] theorem State.trapReturn_pma (s : State) (x : Priv) : (s.trapReturn x).pma = s.pma := rfl

@[simp] theorem State.trapReturn_draws (s : State) (x : Priv) : (s.trapReturn x).draws = s.draws := rfl

@[simp] theorem State.trapReturn_drawCount (s : State) (x : Priv) : (s.trapReturn x).drawCount = s.drawCount := rfl

@[simp] theorem State.trapReturn_mstatus (s : State) (x : Priv) : (s.trapReturn x).mstatus = s.mstatus.pop s.cfg x := rfl

@[simp] theorem State.trapReturn_priv (s : State) (x : Priv) : (s.trapReturn x).priv = s.mstatus.previous x := rfl

@[simp] theorem State.trapReturn_pc (s : State) (x : Priv) : (s.trapReturn x).pc = s.cfg.alignPc (s.trapRegs x).epc := rfl

@[simp] theorem State.trapReturn_counters (s : State) (x : Priv) : (s.trapReturn x).counters = s.counters.retire := rfl

/-! ## SFENCE.VMA -/

@[simp] theorem State.sfence_cfg (s : State) (a b : Reg) : (s.sfence a b).cfg = s.cfg := rfl

@[simp] theorem State.sfence_priv (s : State) (a b : Reg) : (s.sfence a b).priv = s.priv := rfl

@[simp] theorem State.sfence_regs (s : State) (a b : Reg) : (s.sfence a b).regs = s.regs := rfl

@[simp] theorem State.sfence_pc (s : State) (a b : Reg) : (s.sfence a b).pc = s.pc := rfl

@[simp] theorem State.sfence_mstatus (s : State) (a b : Reg) : (s.sfence a b).mstatus = s.mstatus := rfl

@[simp] theorem State.sfence_deleg (s : State) (a b : Reg) : (s.sfence a b).deleg = s.deleg := rfl

@[simp] theorem State.sfence_mie (s : State) (a b : Reg) : (s.sfence a b).mie = s.mie := rfl

@[simp] theorem State.sfence_mipSw (s : State) (a b : Reg) : (s.sfence a b).mipSw = s.mipSw := rfl

@[simp] theorem State.sfence_lines (s : State) (a b : Reg) : (s.sfence a b).lines = s.lines := rfl

@[simp] theorem State.sfence_mTrap (s : State) (a b : Reg) : (s.sfence a b).mTrap = s.mTrap := rfl

@[simp] theorem State.sfence_sTrap (s : State) (a b : Reg) : (s.sfence a b).sTrap = s.sTrap := rfl

@[simp] theorem State.sfence_uTrap (s : State) (a b : Reg) : (s.sfence a b).uTrap = s.uTrap := rfl

@[simp] theorem State.sfence_counters (s : State) (a b : Reg) : (s.sfence a b).counters = s.counters := rfl

@[simp] theorem State.sfence_mtime (s : State) (a b : Reg) : (s.sfence a b).mtime = s.mtime := rfl

@[simp] theorem State.sfence_mtimecmp (s : State) (a b : Reg) : (s.sfence a b).mtimecmp = s.mtimecmp := rfl

@[simp] theorem State.sfence_satp (s : State) (a b : Reg) : (s.sfence a b).satp = s.satp := rfl

@[simp] theorem State.sfence_fcsr (s : State) (a b : Reg) : (s.sfence a b).fcsr = s.fcsr := rfl

@[simp] theorem State.sfence_pmp (s : State) (a b : Reg) : (s.sfence a b).pmp = s.pmp := rfl

@[simp] theorem State.sfence_triggers (s : State) (a b : Reg) : (s.sfence a b).triggers = s.triggers := rfl

@[simp] theorem State.sfence_waiting (s : State) (a b : Reg) : (s.sfence a b).waiting = s.waiting := rfl

@[simp] theorem State.sfence_mem (s : State) (a b : Reg) : (s.sfence a b).mem = s.mem := rfl

@[simp] theorem State.sfence_inputs (s : State) (a b : Reg) : (s.sfence a b).inputs = s.inputs := rfl

@[simp] theorem State.sfence_pma (s : State) (a b : Reg) : (s.sfence a b).pma = s.pma := rfl

@[simp] theorem State.sfence_draws (s : State) (a b : Reg) : (s.sfence a b).draws = s.draws := rfl

@[simp] theorem State.sfence_drawCount (s : State) (a b : Reg) : (s.sfence a b).drawCount = s.drawCount := rfl

end Sys2Proof.Machine
end

