-- ==== Sys2Proof/Laws/Csr.lean ====
section
/-! SUPPORT. CSR access (Machine/CsrAccess.lean): when an access is permitted, what a read and a write can
change, and which registers a write leaves alone. The frame of a write is stated through `SameGroup`: the
state that the registers of one group (`Csr.group`) read. -/

namespace Sys2Proof.Machine

/-! ## Checks -/

/-- An access reaches register `r` exactly when every check of R221 to R228 passes. -/
theorem State.csrAccess_some {s : State} {a : CsrAddr} {w : Bool} {r : Csr} :
    s.csrAccess a w = some r ↔
      s.mayAccess a = true ∧ (w = true → csrReadOnly a = false) ∧ debugOnly a = false
        ∧ s.gated a = false ∧ csrAt s.cfg a = some r := by
  unfold State.csrAccess
  cases s.mayAccess a <;> cases w <;> cases csrReadOnly a <;> cases debugOnly a <;> cases s.gated a <;> simp

/-- An access is refused exactly when a check fails or there is no register. -/
theorem State.csrAccess_none {s : State} {a : CsrAddr} {w : Bool} :
    s.csrAccess a w = none ↔
      s.mayAccess a = false ∨ (w = true ∧ csrReadOnly a = true) ∨ debugOnly a = true
        ∨ s.gated a = true ∨ csrAt s.cfg a = none := by
  unfold State.csrAccess
  cases s.mayAccess a <;> cases w <;> cases csrReadOnly a <;> cases debugOnly a <;> cases s.gated a <;> simp

theorem CsrAllowed.access {s : State} {op : CsrOp} {a : CsrAddr} {src : CsrSource} {r : Csr}
    (h : CsrAllowed s op a src) (hr : csrAt s.cfg a = some r) :
    s.csrAccess a (op.writes src) = some r :=
  State.csrAccess_some.mpr
    ⟨by simpa [State.mayAccess, BitVec.le_def] using h.level, h.writable, h.notDebug, h.notGated, hr⟩

/-- The register at an address: the standard one allocated there, or a non-standard one, and the
implementation has it. -/
theorem csrAt_some {c : Config} {a : CsrAddr} {r : Csr} (h : csrAt c a = some r) :
    r.implemented c = true
      ∧ ((r ∈ standardCsrs ∧ r.addr = a.toNat) ∨ (r = .nonStandard a ∧ standardCsrAt a = none)) := by
  unfold csrAt at h
  split at h
  · next q hq =>
    split at h
    · next hi =>
      cases h
      have hm := List.mem_of_find?_eq_some hq
      have hp := List.find?_some hq
      exact ⟨hi, .inl ⟨hm, by simpa using hp⟩⟩
    · cases h
  · next hn =>
    split at h
    · next hi => cases h; exact ⟨hi, .inr ⟨rfl, hn⟩⟩
    · cases h

/-! ## The instruction -/

/-- Each of the six CSR instructions is the one read-modify-write on its parts. -/
theorem exec_csrForm {i : Instr} {f : CsrForm} (h : csrForm i = some f) (s : State) :
    exec i s = .next (s.csrInstr i f.op f.rd f.csr f.src) := by
  cases i <;> simp only [csrForm, Option.some.injEq, reduceCtorEq] at h <;> subst h <;> rfl

/-- A CSR instruction whose access is refused, or whose WLRL field raises, raises an illegal-instruction
exception; otherwise it completes. -/
theorem State.csrInstr_cases (s : State) (i : Instr) (op : CsrOp) (rd : Reg) (a : CsrAddr) (src : CsrSource) :
    (s.csrInstr i op rd a src = s.illegal (encode i)
        ∧ (s.csrAccess a (op.writes src) = none
          ∨ ∃ r, s.csrAccess a (op.writes src) = some r ∧ s.csrUpdate op rd r src = none))
      ∨ ∃ r t, s.csrAccess a (op.writes src) = some r ∧ s.csrUpdate op rd r src = some t
          ∧ s.csrInstr i op rd a src = s.csrComplete t op rd r src := by
  unfold State.csrInstr
  cases ha : s.csrAccess a (op.writes src) with
  | none => exact .inl ⟨rfl, .inl rfl⟩
  | some r =>
    cases hu : s.csrUpdate op rd r src with
    | none => exact .inl ⟨by simp [hu], .inr ⟨r, rfl, hu⟩⟩
    | some t => exact .inr ⟨r, t, rfl, hu, by simp [hu]⟩

/-! ## What a read and a write can change -/

/-- `t` is `s` but for state that CSRs hold. -/
structure CsrFrame (s t : State) : Prop where
  cfg : t.cfg = s.cfg
  priv : t.priv = s.priv
  regs : t.regs = s.regs
  pc : t.pc = s.pc
  lines : t.lines = s.lines
  mtime : t.mtime = s.mtime
  mtimecmp : t.mtimecmp = s.mtimecmp
  tlb : t.tlb = s.tlb
  waiting : t.waiting = s.waiting
  mem : t.mem = s.mem
  pma : t.pma = s.pma
  inputs : t.inputs = s.inputs
  draws : t.draws = s.draws

theorem CsrFrame.refl (s : State) : CsrFrame s s := ⟨rfl, rfl, rfl, rfl, rfl, rfl, rfl, rfl, rfl, rfl, rfl, rfl, rfl⟩

theorem CsrFrame.trans {s t u : State} (h : CsrFrame s t) (g : CsrFrame t u) : CsrFrame s u :=
  ⟨g.cfg.trans h.cfg, g.priv.trans h.priv, g.regs.trans h.regs, g.pc.trans h.pc, g.lines.trans h.lines,
   g.mtime.trans h.mtime, g.mtimecmp.trans h.mtimecmp, g.tlb.trans h.tlb, g.waiting.trans h.waiting,
   g.mem.trans h.mem, g.pma.trans h.pma, g.inputs.trans h.inputs, g.draws.trans h.draws⟩

/-- Two states hold the same in the registers of a group. -/
def SameGroup (s t : State) : CsrGroup → Prop
  | .status => t.mstatus = s.mstatus ∧ t.fcsr = s.fcsr
  | .interrupts => t.mie = s.mie ∧ t.mipSw = s.mipSw ∧ t.deleg.mideleg = s.deleg.mideleg
  | .tvec x => (t.trapRegs x).tvec = (s.trapRegs x).tvec
  | .scratch x => (t.trapRegs x).scratch = (s.trapRegs x).scratch
  | .epc x => (t.trapRegs x).epc = (s.trapRegs x).epc
  | .cause x => (t.trapRegs x).cause = (s.trapRegs x).cause
  | .tval x => (t.trapRegs x).tval = (s.trapRegs x).tval
  | .cycle => t.counters.mcycle = s.counters.mcycle
  | .instret => t.counters.minstret = s.counters.minstret
  | .time => True
  | .hpmCounter n => t.counters.hpmCounter[n] = s.counters.hpmCounter[n]
  | .hpmEvent n => t.counters.hpmEvent[n] = s.counters.hpmEvent[n]
  | .medeleg => t.deleg.medeleg = s.deleg.medeleg
  | .sedeleg => t.deleg.sedeleg = s.deleg.sedeleg
  | .sideleg => t.deleg.sideleg = s.deleg.sideleg
  | .mcounteren => t.counters.mcounteren = s.counters.mcounteren
  | .scounteren => t.counters.scounteren = s.counters.scounteren
  | .satp => t.satp = s.satp
  | .pmp => t.pmp = s.pmp
  | .identity => True
  | .tselect => t.triggers.tselect = s.triggers.tselect
  | .tdata1 => t.triggers.tdata1 = s.triggers.tdata1
  | .tdata2 => t.triggers.tdata2 = s.triggers.tdata2
  | .tdata3 => t.triggers.tdata3 = s.triggers.tdata3
  | .nonStandard => t.drawCount = s.drawCount

theorem SameGroup.refl (s : State) (g : CsrGroup) : SameGroup s s g := by
  cases g <;> simp [SameGroup]

theorem SameGroup.trans {s t u : State} {g : CsrGroup} (h : SameGroup s t g) (k : SameGroup t u g) :
    SameGroup s u g := by
  cases g <;> simp only [SameGroup] at h k ⊢ <;> simp_all

/-- A register reads the same in two states that hold the same in its group, with the same parameters,
timer and signals. -/
theorem readCsr_congr {s t : State} {q : Csr} (hc : t.cfg = s.cfg) (hl : t.lines = s.lines)
    (ht : t.mtime = s.mtime) (hm : t.mtimecmp = s.mtimecmp) (h : SameGroup s t q.group) :
    t.readCsr q = s.readCsr q := by
  cases q <;> simp only [Csr.group, SameGroup] at h <;>
    simp only [State.readCsr, State.mip, State.mipHardware, State.mipExternal, State.mtip,
      State.sVisible, State.hpmCounterValue, State.pmpcfgValue, State.pmpaddrValue, h, hc, hl, ht, hm]

/-! ## Updates of one group -/

theorem SameGroup.of_mstatus_fcsr (s : State) (m : Mstatus) (f : Byte) {g : CsrGroup} (h : g ≠ .status) :
    SameGroup s { s with mstatus := m, fcsr := f } g := by
  cases g <;> first | exact absurd rfl h | simp [SameGroup, State.trapRegs]

theorem SameGroup.of_mie_mipSw (s : State) (a b : Word) {g : CsrGroup} (h : g ≠ .interrupts) :
    SameGroup s { s with mie := a, mipSw := b } g := by
  cases g <;> first | exact absurd rfl h | simp [SameGroup, State.trapRegs]

theorem SameGroup.of_medeleg (s : State) (a : Word) {g : CsrGroup} (h : g ≠ .medeleg) :
    SameGroup s { s with deleg := { s.deleg with medeleg := a } } g := by
  cases g <;> first | exact absurd rfl h | simp [SameGroup, State.trapRegs]

theorem SameGroup.of_mideleg (s : State) (a : Word) {g : CsrGroup} (h : g ≠ .interrupts) :
    SameGroup s { s with deleg := { s.deleg with mideleg := a } } g := by
  cases g <;> first | exact absurd rfl h | simp [SameGroup, State.trapRegs]

theorem SameGroup.of_sedeleg (s : State) (a : Word) {g : CsrGroup} (h : g ≠ .sedeleg) :
    SameGroup s { s with deleg := { s.deleg with sedeleg := a } } g := by
  cases g <;> first | exact absurd rfl h | simp [SameGroup, State.trapRegs]

theorem SameGroup.of_sideleg (s : State) (a : Word) {g : CsrGroup} (h : g ≠ .sideleg) :
    SameGroup s { s with deleg := { s.deleg with sideleg := a } } g := by
  cases g <;> first | exact absurd rfl h | simp [SameGroup, State.trapRegs]

theorem SameGroup.of_mcycle (s : State) (a : BitVec 64) {g : CsrGroup} (h : g ≠ .cycle) :
    SameGroup s { s with counters := { s.counters with mcycle := a } } g := by
  cases g <;> first | exact absurd rfl h | simp [SameGroup, State.trapRegs]

theorem SameGroup.of_minstret (s : State) (a : BitVec 64) {g : CsrGroup} (h : g ≠ .instret) :
    SameGroup s { s with counters := { s.counters with minstret := a } } g := by
  cases g <;> first | exact absurd rfl h | simp [SameGroup, State.trapRegs]

theorem SameGroup.of_mcounteren (s : State) (a : BitVec 32) {g : CsrGroup} (h : g ≠ .mcounteren) :
    SameGroup s { s with counters := { s.counters with mcounteren := a } } g := by
  cases g <;> first | exact absurd rfl h | simp [SameGroup, State.trapRegs]

theorem SameGroup.of_scounteren (s : State) (a : BitVec 32) {g : CsrGroup} (h : g ≠ .scounteren) :
    SameGroup s { s with counters := { s.counters with scounteren := a } } g := by
  cases g <;> first | exact absurd rfl h | simp [SameGroup, State.trapRegs]

theorem SameGroup.of_satp (s : State) (a : Word) {g : CsrGroup} (h : g ≠ .satp) :
    SameGroup s { s with satp := a } g := by
  cases g <;> first | exact absurd rfl h | simp [SameGroup, State.trapRegs]

theorem SameGroup.of_pmp (s : State) (a : Pmp) {g : CsrGroup} (h : g ≠ .pmp) :
    SameGroup s { s with pmp := a } g := by
  cases g <;> first | exact absurd rfl h | simp [SameGroup, State.trapRegs]

theorem SameGroup.of_tselect (s : State) (a : Word) {g : CsrGroup} (h : g ≠ .tselect) :
    SameGroup s { s with triggers := { s.triggers with tselect := a } } g := by
  cases g <;> first | exact absurd rfl h | simp [SameGroup, State.trapRegs]

theorem SameGroup.of_tdata1 (s : State) (a : Word) {g : CsrGroup} (h : g ≠ .tdata1) :
    SameGroup s { s with triggers := { s.triggers with tdata1 := a } } g := by
  cases g <;> first | exact absurd rfl h | simp [SameGroup, State.trapRegs]

theorem SameGroup.of_tdata2 (s : State) (a : Word) {g : CsrGroup} (h : g ≠ .tdata2) :
    SameGroup s { s with triggers := { s.triggers with tdata2 := a } } g := by
  cases g <;> first | exact absurd rfl h | simp [SameGroup, State.trapRegs]

theorem SameGroup.of_tdata3 (s : State) (a : Word) {g : CsrGroup} (h : g ≠ .tdata3) :
    SameGroup s { s with triggers := { s.triggers with tdata3 := a } } g := by
  cases g <;> first | exact absurd rfl h | simp [SameGroup, State.trapRegs]

theorem SameGroup.of_drawCount (s : State) (a : Nat) {g : CsrGroup} (h : g ≠ .nonStandard) :
    SameGroup s { s with drawCount := a } g := by
  cases g <;> first | exact absurd rfl h | simp [SameGroup, State.trapRegs]

theorem SameGroup.of_hpmCounter (s : State) (n : Fin 29) (a : BitVec 64) {g : CsrGroup}
    (h : g ≠ .hpmCounter n) :
    SameGroup s { s with counters := { s.counters with hpmCounter := s.counters.hpmCounter.set n a } } g := by
  cases g with
  | hpmCounter m =>
    have : n.val ≠ m.val := fun e => h (by rw [Fin.ext e])
    simp [SameGroup, Vector.getElem_set_ne, this]
  | _ => simp [SameGroup, State.trapRegs]

theorem SameGroup.of_hpmEvent (s : State) (n : Fin 29) (a : Word) {g : CsrGroup} (h : g ≠ .hpmEvent n) :
    SameGroup s { s with counters := { s.counters with hpmEvent := s.counters.hpmEvent.set n a } } g := by
  cases g with
  | hpmEvent m =>
    have : n.val ≠ m.val := fun e => h (by rw [Fin.ext e])
    simp [SameGroup, Vector.getElem_set_ne, this]
  | _ => simp [SameGroup, State.trapRegs]

/-- A field of the trap registers that an update leaves is the same in every mode. -/
theorem State.setTrapRegs_keeps {α : Type} (s : State) (x y : Priv) {r : TrapRegs} {f : TrapRegs → α}
    {v : α} (hv : f r = v) (hr : v = f (s.trapRegs x)) :
    f ((s.setTrapRegs x r).trapRegs y) = f (s.trapRegs y) := by
  by_cases h : y = x
  · subst h; rw [State.trapRegs_setTrapRegs_same, hv, hr]
  · exact congrArg f (State.trapRegs_setTrapRegs_other s r h)

theorem SameGroup.of_tvec (s : State) (x : Priv) (a : Word) {g : CsrGroup} (h : g ≠ .tvec x) :
    SameGroup s (s.setTrapRegs x { s.trapRegs x with tvec := a }) g := by
  cases g with
  | tvec y => exact congrArg TrapRegs.tvec (State.trapRegs_setTrapRegs_other s _ fun e => h (by rw [e]))
  | scratch y => exact State.setTrapRegs_keeps (f := TrapRegs.scratch) s x y rfl rfl
  | epc y => exact State.setTrapRegs_keeps (f := TrapRegs.epc) s x y rfl rfl
  | cause y => exact State.setTrapRegs_keeps (f := TrapRegs.cause) s x y rfl rfl
  | tval y => exact State.setTrapRegs_keeps (f := TrapRegs.tval) s x y rfl rfl
  | _ => simp [SameGroup]

theorem SameGroup.of_scratch (s : State) (x : Priv) (a : Word) {g : CsrGroup} (h : g ≠ .scratch x) :
    SameGroup s (s.setTrapRegs x { s.trapRegs x with scratch := a }) g := by
  cases g with
  | scratch y => exact congrArg TrapRegs.scratch (State.trapRegs_setTrapRegs_other s _ fun e => h (by rw [e]))
  | tvec y => exact State.setTrapRegs_keeps (f := TrapRegs.tvec) s x y rfl rfl
  | epc y => exact State.setTrapRegs_keeps (f := TrapRegs.epc) s x y rfl rfl
  | cause y => exact State.setTrapRegs_keeps (f := TrapRegs.cause) s x y rfl rfl
  | tval y => exact State.setTrapRegs_keeps (f := TrapRegs.tval) s x y rfl rfl
  | _ => simp [SameGroup]

theorem SameGroup.of_epc (s : State) (x : Priv) (a : Word) {g : CsrGroup} (h : g ≠ .epc x) :
    SameGroup s (s.setTrapRegs x { s.trapRegs x with epc := a }) g := by
  cases g with
  | epc y => exact congrArg TrapRegs.epc (State.trapRegs_setTrapRegs_other s _ fun e => h (by rw [e]))
  | tvec y => exact State.setTrapRegs_keeps (f := TrapRegs.tvec) s x y rfl rfl
  | scratch y => exact State.setTrapRegs_keeps (f := TrapRegs.scratch) s x y rfl rfl
  | cause y => exact State.setTrapRegs_keeps (f := TrapRegs.cause) s x y rfl rfl
  | tval y => exact State.setTrapRegs_keeps (f := TrapRegs.tval) s x y rfl rfl
  | _ => simp [SameGroup]

theorem SameGroup.of_cause (s : State) (x : Priv) (a : Word) {g : CsrGroup} (h : g ≠ .cause x) :
    SameGroup s (s.setTrapRegs x { s.trapRegs x with cause := a }) g := by
  cases g with
  | cause y => exact congrArg TrapRegs.cause (State.trapRegs_setTrapRegs_other s _ fun e => h (by rw [e]))
  | tvec y => exact State.setTrapRegs_keeps (f := TrapRegs.tvec) s x y rfl rfl
  | scratch y => exact State.setTrapRegs_keeps (f := TrapRegs.scratch) s x y rfl rfl
  | epc y => exact State.setTrapRegs_keeps (f := TrapRegs.epc) s x y rfl rfl
  | tval y => exact State.setTrapRegs_keeps (f := TrapRegs.tval) s x y rfl rfl
  | _ => simp [SameGroup]

theorem SameGroup.of_tval (s : State) (x : Priv) (a : Word) {g : CsrGroup} (h : g ≠ .tval x) :
    SameGroup s (s.setTrapRegs x { s.trapRegs x with tval := a }) g := by
  cases g with
  | tval y => exact congrArg TrapRegs.tval (State.trapRegs_setTrapRegs_other s _ fun e => h (by rw [e]))
  | tvec y => exact State.setTrapRegs_keeps (f := TrapRegs.tvec) s x y rfl rfl
  | scratch y => exact State.setTrapRegs_keeps (f := TrapRegs.scratch) s x y rfl rfl
  | epc y => exact State.setTrapRegs_keeps (f := TrapRegs.epc) s x y rfl rfl
  | cause y => exact State.setTrapRegs_keeps (f := TrapRegs.cause) s x y rfl rfl
  | _ => simp [SameGroup]

/-! ## Reading -/

/-- What reading a CSR changes beside giving its value: the draw counter for a non-standard register, `FS`
for floating-point state where any access makes it Dirty, and otherwise nothing. -/
theorem State.afterRead_cases (s : State) (r : Csr) :
    (r.group = .nonStandard ∧ s.afterRead r = { s with drawCount := s.drawCount + 1 })
      ∨ (r.isFloat = true ∧ s.cfg.fsDirty = .onAccess ∧ r.group = .status
          ∧ s.afterRead r = { s with mstatus := { s.mstatus with fs := 3 } })
      ∨ s.afterRead r = s := by
  by_cases h : s.cfg.fsDirty = .onAccess
  · cases r <;> simp [State.afterRead, Csr.isFloat, Csr.group, Mstatus.dirtyFs, h]
  · cases r <;> simp [State.afterRead, Csr.isFloat, Csr.group, Mstatus.dirtyFs, h]

theorem State.afterRead_frame (s : State) (r : Csr) : CsrFrame s (s.afterRead r) := by
  rcases s.afterRead_cases r with ⟨-, h⟩ | ⟨-, -, -, h⟩ | h <;> rw [h]
  · constructor <;> rfl
  · constructor <;> rfl
  · exact CsrFrame.refl s

theorem State.afterRead_sameGroup (s : State) (r : Csr) {g : CsrGroup} (hg : g ≠ r.group) :
    SameGroup s (s.afterRead r) g := by
  rcases s.afterRead_cases r with ⟨hr, h⟩ | ⟨-, -, hr, h⟩ | h <;> rw [h]
  · exact SameGroup.of_drawCount s _ (hr ▸ hg)
  · exact SameGroup.of_mstatus_fcsr s _ s.fcsr (hr ▸ hg)
  · exact SameGroup.refl s g

/-- Reading leaves everything where the register is neither non-standard nor floating-point state that any
access makes Dirty. -/
theorem State.afterRead_eq (s : State) {r : Csr} (hn : r.group ≠ .nonStandard)
    (hf : (r.isFloat && s.cfg.fsDirty == .onAccess) = false) : s.afterRead r = s := by
  rcases s.afterRead_cases r with ⟨hr, -⟩ | ⟨h1, h2, -, -⟩ | h
  · exact absurd hr hn
  · simp [h1, h2] at hf
  · exact h

/-! ## Writing -/

/-- `t` is `s` with new values in the state of one group. -/
def GroupUpdate (s t : State) : CsrGroup → Prop
  | .status => ∃ m f, t = { s with mstatus := m, fcsr := f }
  | .interrupts => ∃ a b c, t = { s with mie := a, mipSw := b, deleg := { s.deleg with mideleg := c } }
  | .tvec x => ∃ a, t = s.setTrapRegs x { s.trapRegs x with tvec := a }
  | .scratch x => ∃ a, t = s.setTrapRegs x { s.trapRegs x with scratch := a }
  | .epc x => ∃ a, t = s.setTrapRegs x { s.trapRegs x with epc := a }
  | .cause x => ∃ a, t = s.setTrapRegs x { s.trapRegs x with cause := a }
  | .tval x => ∃ a, t = s.setTrapRegs x { s.trapRegs x with tval := a }
  | .cycle => ∃ a, t = { s with counters := { s.counters with mcycle := a } }
  | .instret => ∃ a, t = { s with counters := { s.counters with minstret := a } }
  | .time => False
  | .hpmCounter n =>
    ∃ a, t = { s with counters := { s.counters with hpmCounter := s.counters.hpmCounter.set n a } }
  | .hpmEvent n => ∃ a, t = { s with counters := { s.counters with hpmEvent := s.counters.hpmEvent.set n a } }
  | .medeleg => ∃ a, t = { s with deleg := { s.deleg with medeleg := a } }
  | .sedeleg => ∃ a, t = { s with deleg := { s.deleg with sedeleg := a } }
  | .sideleg => ∃ a, t = { s with deleg := { s.deleg with sideleg := a } }
  | .mcounteren => ∃ a, t = { s with counters := { s.counters with mcounteren := a } }
  | .scounteren => ∃ a, t = { s with counters := { s.counters with scounteren := a } }
  | .satp => ∃ a, t = { s with satp := a }
  | .pmp => ∃ a, t = { s with pmp := a }
  | .identity => False
  | .tselect => ∃ a, t = { s with triggers := { s.triggers with tselect := a } }
  | .tdata1 => ∃ a, t = { s with triggers := { s.triggers with tdata1 := a } }
  | .tdata2 => ∃ a, t = { s with triggers := { s.triggers with tdata2 := a } }
  | .tdata3 => ∃ a, t = { s with triggers := { s.triggers with tdata3 := a } }
  | .nonStandard => ∃ a, t = { s with drawCount := a }

/-- Everything a write of a CSR can do: nothing, or an update of the register's own group. -/
theorem State.writeCsr_update {s t : State} {r : Csr} {v : Word} (h : s.writeCsr r v = some t) :
    t = s ∨ GroupUpdate s t r.group := by
  cases r <;> simp only [State.writeCsr, Option.map_eq_some_iff, Option.some.injEq] at h
  case mstatus => obtain ⟨w, -, h⟩ := h; exact .inr ⟨_, s.fcsr, h.symm⟩
  case sstatus => exact .inr ⟨_, s.fcsr, h.symm⟩
  case ustatus => exact .inr ⟨_, s.fcsr, h.symm⟩
  case fflags => exact .inr ⟨_, _, h.symm⟩
  case frm => exact .inr ⟨_, _, h.symm⟩
  case fcsr => exact .inr ⟨_, _, h.symm⟩
  case mie => exact .inr ⟨_, s.mipSw, s.deleg.mideleg, h.symm⟩
  case sie => exact .inr ⟨_, s.mipSw, s.deleg.mideleg, h.symm⟩
  case uie => exact .inr ⟨_, s.mipSw, s.deleg.mideleg, h.symm⟩
  case mip => exact .inr ⟨s.mie, _, s.deleg.mideleg, h.symm⟩
  case sip => exact .inr ⟨s.mie, _, s.deleg.mideleg, h.symm⟩
  case uip => exact .inr ⟨s.mie, _, s.deleg.mideleg, h.symm⟩
  case mideleg => exact .inr ⟨s.mie, s.mipSw, _, h.symm⟩
  case tvec x =>
    unfold State.writeTvec at h
    split at h
    · exact .inl h.symm
    · exact .inr ⟨_, h.symm⟩
  case cause x => obtain ⟨w, -, h⟩ := h; exact .inr ⟨_, h.symm⟩
  case mhpmcounter n =>
    unfold State.writeHpmCounter at h
    split at h
    · exact .inr ⟨_, h.symm⟩
    · exact .inl h.symm
  case mhpmcounterh n =>
    unfold State.writeHpmCounter at h
    split at h
    · exact .inr ⟨_, h.symm⟩
    · exact .inl h.symm
  case mhpmevent n =>
    split at h
    · exact .inr ⟨_, (Option.some.inj h).symm⟩
    · exact .inl (Option.some.inj h).symm
  case pmpaddr n =>
    unfold State.writePmpaddr at h
    split at h
    · exact .inl h.symm
    · exact .inr ⟨_, h.symm⟩
  all_goals first
    | exact .inl h.symm
    | exact .inr ⟨_, h.symm⟩

/-- An update of one group changes only what CSRs hold. -/
theorem GroupUpdate.frame {s t : State} {g : CsrGroup} (h : GroupUpdate s t g) : CsrFrame s t := by
  cases g <;> simp only [GroupUpdate] at h
  case status => obtain ⟨_, _, rfl⟩ := h; constructor <;> rfl
  case interrupts => obtain ⟨_, _, _, rfl⟩ := h; constructor <;> rfl
  case tvec => obtain ⟨_, rfl⟩ := h; constructor <;> simp
  case scratch => obtain ⟨_, rfl⟩ := h; constructor <;> simp
  case epc => obtain ⟨_, rfl⟩ := h; constructor <;> simp
  case cause => obtain ⟨_, rfl⟩ := h; constructor <;> simp
  case tval => obtain ⟨_, rfl⟩ := h; constructor <;> simp
  all_goals (obtain ⟨_, rfl⟩ := h; constructor <;> rfl)

/-- An update of one group changes nothing that a register of another group reads. -/
theorem GroupUpdate.sameGroup {s t : State} {g k : CsrGroup} (h : GroupUpdate s t g) (hk : k ≠ g) :
    SameGroup s t k := by
  cases g <;> simp only [GroupUpdate] at h
  case status => obtain ⟨_, _, rfl⟩ := h; exact SameGroup.of_mstatus_fcsr s _ _ hk
  case interrupts =>
    obtain ⟨a, b, c, rfl⟩ := h
    exact (SameGroup.of_mie_mipSw s a b hk).trans (SameGroup.of_mideleg _ c hk)
  case tvec => obtain ⟨_, rfl⟩ := h; exact SameGroup.of_tvec s _ _ hk
  case scratch => obtain ⟨_, rfl⟩ := h; exact SameGroup.of_scratch s _ _ hk
  case epc => obtain ⟨_, rfl⟩ := h; exact SameGroup.of_epc s _ _ hk
  case cause => obtain ⟨_, rfl⟩ := h; exact SameGroup.of_cause s _ _ hk
  case tval => obtain ⟨_, rfl⟩ := h; exact SameGroup.of_tval s _ _ hk
  case cycle => obtain ⟨_, rfl⟩ := h; exact SameGroup.of_mcycle s _ hk
  case instret => obtain ⟨_, rfl⟩ := h; exact SameGroup.of_minstret s _ hk
  case hpmCounter => obtain ⟨_, rfl⟩ := h; exact SameGroup.of_hpmCounter s _ _ hk
  case hpmEvent => obtain ⟨_, rfl⟩ := h; exact SameGroup.of_hpmEvent s _ _ hk
  case medeleg => obtain ⟨_, rfl⟩ := h; exact SameGroup.of_medeleg s _ hk
  case sedeleg => obtain ⟨_, rfl⟩ := h; exact SameGroup.of_sedeleg s _ hk
  case sideleg => obtain ⟨_, rfl⟩ := h; exact SameGroup.of_sideleg s _ hk
  case mcounteren => obtain ⟨_, rfl⟩ := h; exact SameGroup.of_mcounteren s _ hk
  case scounteren => obtain ⟨_, rfl⟩ := h; exact SameGroup.of_scounteren s _ hk
  case satp => obtain ⟨_, rfl⟩ := h; exact SameGroup.of_satp s _ hk
  case pmp => obtain ⟨_, rfl⟩ := h; exact SameGroup.of_pmp s _ hk
  case tselect => obtain ⟨_, rfl⟩ := h; exact SameGroup.of_tselect s _ hk
  case tdata1 => obtain ⟨_, rfl⟩ := h; exact SameGroup.of_tdata1 s _ hk
  case tdata2 => obtain ⟨_, rfl⟩ := h; exact SameGroup.of_tdata2 s _ hk
  case tdata3 => obtain ⟨_, rfl⟩ := h; exact SameGroup.of_tdata3 s _ hk
  case nonStandard => obtain ⟨_, rfl⟩ := h; exact SameGroup.of_drawCount s _ hk

/-- Writing a CSR changes only what CSRs hold. -/
theorem State.writeCsr_frame {s t : State} {r : Csr} {v : Word} (h : s.writeCsr r v = some t) :
    CsrFrame s t := by
  rcases State.writeCsr_update h with rfl | h
  · exact CsrFrame.refl t
  · exact h.frame

/-- Writing a CSR changes nothing that a register of another group reads. -/
theorem State.writeCsr_sameGroup {s t : State} {r : Csr} {v : Word} (h : s.writeCsr r v = some t)
    {g : CsrGroup} (hg : g ≠ r.group) : SameGroup s t g := by
  rcases State.writeCsr_update h with rfl | h
  · exact SameGroup.refl t g
  · exact h.sameGroup hg

/-! ## The read-modify-write -/

/-- The read and the write of a CSR instruction change only what CSRs hold, and nothing that a register of
another group reads. -/
theorem State.csrUpdate_frame {s t : State} {op : CsrOp} {rd : Reg} {r : Csr} {src : CsrSource}
    (h : s.csrUpdate op rd r src = some t) :
    CsrFrame s t ∧ ∀ g, g ≠ r.group → SameGroup s t g := by
  unfold State.csrUpdate at h
  dsimp only at h
  cases hr : op.reads rd <;> cases hw : op.writes src <;> rw [hr, hw] at h
  · obtain rfl := Option.some.inj h
    exact ⟨CsrFrame.refl s, fun g _ => SameGroup.refl s g⟩
  · exact ⟨State.writeCsr_frame h, fun g hg => State.writeCsr_sameGroup h hg⟩
  · obtain rfl := Option.some.inj h
    exact ⟨s.afterRead_frame r, fun g hg => s.afterRead_sameGroup r hg⟩
  · exact ⟨(s.afterRead_frame r).trans (State.writeCsr_frame h),
      fun g hg => (s.afterRead_sameGroup r hg).trans (State.writeCsr_sameGroup h hg)⟩

/-- The write of a CSR instruction: it acts on the state after the read. -/
theorem State.csrUpdate_write {s t : State} {op : CsrOp} {rd : Reg} {r : Csr} {src : CsrSource}
    (h : s.csrUpdate op rd r src = some t) (hw : op.writes src = true) :
    ∃ u, CsrFrame s u ∧ (∀ g, g ≠ r.group → SameGroup s u g) ∧ (u = s ∨ u = s.afterRead r)
      ∧ u.writeCsr r (op.result (s.rmwValue r) (s.sourceValue src)) = some t := by
  unfold State.csrUpdate at h
  dsimp only at h
  rw [if_pos hw] at h
  split at h
  · exact ⟨_, s.afterRead_frame r, fun g hg => s.afterRead_sameGroup r hg, .inr rfl, h⟩
  · exact ⟨s, CsrFrame.refl s, fun g _ => SameGroup.refl s g, .inl rfl, h⟩

/-- The read and the write of a CSR instruction complete where no WLRL field raises. -/
theorem State.writeCsr_isSome (s : State) (r : Csr) (v : Word) :
    (s.writeCsr r v).isSome = wlrlAccepts s.cfg r v := by
  cases r <;> simp only [State.writeCsr, wlrlAccepts, Option.isSome_map, Option.isSome_some]
  case mstatus =>
    unfold Config.writeMpp
    cases Priv.ofEnc (BitVec.extractLsb' 11 2 (s.cfg.trunc v)) with
    | none => cases s.cfg.wlrlMpp <;> rfl
    | some p => cases hs : s.cfg.supports p <;> cases s.cfg.wlrlMpp <;> simp [hs]
  case cause x =>
    unfold Config.writeCause
    rw [Config.trunc_trunc]
    cases s.cfg.causeLegal (s.cfg.trunc v) <;> cases s.cfg.wlrlCause x <;> simp
  case mhpmevent n => split <;> rfl

end Sys2Proof.Machine
end

