-- ==== Sys2Proof/Laws/Memory.lean ====
section
/-! SUPPORT. Memory (Machine/Memory.lean): a write keeps the canonical form, a read after a write of the
same address gives the byte written, and a write leaves every other address alone; the same for the stores
of Machine/PhysMem.lean. -/

namespace Sys2Proof.Machine

@[simp] theorem Memory.read_write_same (m : Memory) (a : Nat) (b : Byte) :
    (m.write a b).read a = some b := by
  induction m with
  | nil => simp [Memory.write, Memory.read]
  | cons e rest ih =>
    obtain ⟨k, c⟩ := e
    unfold Memory.write
    split
    · simp [Memory.read]
    · split
      · simp [Memory.read]
      · next h1 h2 => simp [Memory.read, Ne.symm h2, ih]

theorem Memory.read_write_other (m : Memory) {a a' : Nat} (b : Byte) (h : a' ≠ a) :
    (m.write a b).read a' = m.read a' := by
  induction m with
  | nil => simp [Memory.write, Memory.read, Ne.symm h]
  | cons e rest ih =>
    obtain ⟨k, c⟩ := e
    unfold Memory.write
    split
    · simp [Memory.read, Ne.symm h]
    · split
      · next h2 => subst h2; simp [Memory.read, Ne.symm h]
      · simp only [Memory.read, ih]

/-- `above` of a list whose entries all lie above a larger address. -/
theorem Memory.above_of_lt {a k : Nat} (h : a < k) (m : Memory) (hm : m.above k = true) :
    m.above a = true := by
  induction m with
  | nil => rfl
  | cons e rest ih =>
    simp only [Memory.above, Bool.and_eq_true, decide_eq_true_eq] at hm ⊢
    exact ⟨Nat.lt_trans h hm.1, ih hm.2⟩

/-- A write keeps a lower bound of the addresses that is also below the address written. -/
theorem Memory.above_write {a k : Nat} (b : Byte) (h : k < a) (m : Memory) (hm : m.above k = true) :
    (m.write a b).above k = true := by
  induction m with
  | nil => simp [Memory.write, Memory.above, h]
  | cons e rest ih =>
    simp only [Memory.above, Bool.and_eq_true, decide_eq_true_eq] at hm
    unfold Memory.write
    split
    · simp [Memory.above, h, hm]
    · split
      · simp [Memory.above, h, hm]
      · simp [Memory.above, hm.1, ih hm.2]

/-- A write keeps the canonical form. -/
theorem Memory.write_wf (m : Memory) (a : Nat) (b : Byte) (hm : m.wf = true) : (m.write a b).wf = true := by
  induction m with
  | nil => simp [Memory.write, Memory.wf, Memory.above]
  | cons e rest ih =>
    obtain ⟨k, c⟩ := e
    simp only [Memory.wf, Bool.and_eq_true] at hm
    unfold Memory.write
    split
    · next h => simp [Memory.wf, Memory.above, h, Memory.above_of_lt h rest hm.1, hm]
    · split
      · next h => subst h; simp [Memory.wf, hm]
      · next h1 h2 =>
        have hk : k < a := by omega
        simp [Memory.wf, Memory.above_write b hk rest hm.1, ih hm.2]

theorem Memory.writeList_wf (bs : List Byte) (m : Memory) (a : Nat) (hm : m.wf = true) :
    (m.writeList a bs).wf = true := by
  induction bs generalizing m a with
  | nil => exact hm
  | cons b bs ih => exact ih _ _ (Memory.write_wf m a b hm)

theorem reset_memory_wf : State.reset.mem.wf = true := rfl

/-! ## Stores -/

/-- What a store of one byte can change: a memory-mapped register, the software-interrupt bit, or the
byte in memory. -/
theorem State.storeByte_cases (s : State) (a : Nat) (b : Byte) :
    (∃ v, s.storeByte a b = { s with mtime := v }) ∨ (∃ v, s.storeByte a b = { s with mtimecmp := v })
      ∨ (∃ v, s.storeByte a b = { s with lines := { s.lines with msip := v } })
      ∨ s.storeByte a b = { s with mem := s.mem.write a b } ∨ s.storeByte a b = s := by
  unfold State.storeByte
  split
  · exact .inl ⟨_, rfl⟩
  · split
    · exact .inr (.inl ⟨_, rfl⟩)
    · split
      · split
        · exact .inr (.inr (.inl ⟨_, rfl⟩))
        · exact .inr (.inr (.inr (.inr rfl)))
      · split
        · exact .inr (.inr (.inr (.inl rfl)))
        · exact .inr (.inr (.inr (.inr rfl)))

/-- A store of one byte changes memory, `mtime`, `mtimecmp` and `MSIP` only, and keeps the canonical form
of memory. -/
theorem State.storeByte_frame (s : State) (a : Nat) (b : Byte) :
    (∃ m t c l, s.storeByte a b =
        { s with mem := m, mtime := t, mtimecmp := c, lines := { s.lines with msip := l } })
      ∧ (s.mem.wf = true → (s.storeByte a b).mem.wf = true) := by
  rcases s.storeByte_cases a b with ⟨v, h⟩ | ⟨v, h⟩ | ⟨v, h⟩ | h | h <;> rw [h]
  · exact ⟨⟨s.mem, v, s.mtimecmp, s.lines.msip, rfl⟩, id⟩
  · exact ⟨⟨s.mem, s.mtime, v, s.lines.msip, rfl⟩, id⟩
  · exact ⟨⟨s.mem, s.mtime, s.mtimecmp, v, rfl⟩, id⟩
  · exact ⟨⟨s.mem.write a b, s.mtime, s.mtimecmp, s.lines.msip, rfl⟩, Memory.write_wf _ _ _⟩
  · exact ⟨⟨s.mem, s.mtime, s.mtimecmp, s.lines.msip, rfl⟩, id⟩

/-- Stores of bytes change memory, `mtime`, `mtimecmp` and `MSIP` only, and keep the canonical form. -/
theorem State.storeBytes_frame (bs : List Byte) (s : State) (a : Nat) :
    (∃ m t c l, s.storeBytes a bs =
        { s with mem := m, mtime := t, mtimecmp := c, lines := { s.lines with msip := l } })
      ∧ (s.mem.wf = true → (s.storeBytes a bs).mem.wf = true) := by
  induction bs generalizing s a with
  | nil => exact ⟨⟨s.mem, s.mtime, s.mtimecmp, s.lines.msip, rfl⟩, id⟩
  | cons b bs ih =>
    obtain ⟨⟨m, t, c, l, h⟩, hw⟩ := s.storeByte_frame a b
    obtain ⟨⟨m', t', c', l', h'⟩, hw'⟩ := ih (s.storeByte a b) (a + 1)
    refine ⟨⟨m', t', c', l', ?_⟩, fun hs => hw' (hw hs)⟩
    rw [State.storeBytes, h', h]

/-- A physical write, where it succeeds, changes memory, `mtime`, `mtimecmp` and `MSIP` only, and keeps
the canonical form. It raises no exception and no fault. -/
theorem State.physWrite_spec (s : State) (a n v : Nat) :
    (∃ b, s.physWrite a n v = .refused (.deviceRegion b)) ∨
      ∃ m t c l, s.physWrite a n v =
          .ok { s with mem := m, mtime := t, mtimecmp := c, lines := { s.lines with msip := l } }
        ∧ (s.mem.wf = true → m.wf = true) := by
  unfold State.physWrite
  split
  · exact .inl ⟨_, rfl⟩
  · obtain ⟨⟨m, t, c, l, h⟩, hw⟩ := State.storeBytes_frame (bytesOf n v) s a
    refine .inr ⟨m, t, c, l, by rw [h], fun hs => ?_⟩
    have := hw hs
    rwa [h] at this

end Sys2Proof.Machine
end

