-- ==== Sys2Proof/Laws/Translation.lean ====
section
/-! SUPPORT. Address translation (Machine/Translation.lean): what a walk, a translation, a fetch can change,
and which exceptions they raise. Each function has one lemma that says so, by cases on its outcome. -/

namespace Sys2Proof.Machine

/-- `t` is `s` but for what a page-table walk can change: memory and the memory-mapped registers, and
those only with hardware update of Accessed and Dirty bits, and the translation cache. -/
structure WalkFrame (s t : State) : Prop where
  rest :
    { t with
        mem := s.mem, mtime := s.mtime, mtimecmp := s.mtimecmp, lines := s.lines, tlb := s.tlb } = s
  wf : s.mem.wf = true → t.mem.wf = true
  /-- The signals of the interrupt controller. -/
  signals : t.lines.meip = s.lines.meip ∧ t.lines.seip = s.lines.seip ∧ t.lines.ueip = s.lines.ueip
  kept : s.cfg.hardwareADUpdate = false →
    t.mem = s.mem ∧ t.mtime = s.mtime ∧ t.mtimecmp = s.mtimecmp ∧ t.lines = s.lines

theorem WalkFrame.refl (s : State) : WalkFrame s s := ⟨rfl, id, ⟨rfl, rfl, rfl⟩, fun _ => ⟨rfl, rfl, rfl, rfl⟩⟩

theorem WalkFrame.of_tlb (s : State) (l : List TlbEntry) : WalkFrame s { s with tlb := l } :=
  ⟨rfl, id, ⟨rfl, rfl, rfl⟩, fun _ => ⟨rfl, rfl, rfl, rfl⟩⟩

/-- What a walk cannot change. -/
theorem WalkFrame.fields {s t : State} (h : WalkFrame s t) :
    t.cfg = s.cfg ∧ t.priv = s.priv ∧ t.regs = s.regs ∧ t.pc = s.pc ∧ t.mstatus = s.mstatus
      ∧ t.deleg = s.deleg ∧ t.mie = s.mie ∧ t.mipSw = s.mipSw ∧ t.mTrap = s.mTrap ∧ t.sTrap = s.sTrap
      ∧ t.uTrap = s.uTrap ∧ t.counters = s.counters ∧ t.satp = s.satp ∧ t.fcsr = s.fcsr ∧ t.pmp = s.pmp
      ∧ t.triggers = s.triggers ∧ t.waiting = s.waiting ∧ t.inputs = s.inputs ∧ t.draws = s.draws
      ∧ t.drawCount = s.drawCount := by
  obtain ⟨h, _, _, _⟩ := h
  rw [← h]
  simp only [and_self]

theorem WalkFrame.trans {s t u : State} (h : WalkFrame s t) (g : WalkFrame t u) : WalkFrame s u where
  rest := by
    have e := g.rest
    have e' := h.rest
    rw [← e] at e'
    exact e'
  wf hs := g.wf (h.wf hs)
  signals := ⟨g.signals.1.trans h.signals.1, g.signals.2.1.trans h.signals.2.1,
    g.signals.2.2.trans h.signals.2.2⟩
  kept hs := by
    have hc := h.fields.1
    obtain ⟨a1, a2, a3, a4⟩ := h.kept hs
    obtain ⟨b1, b2, b3, b4⟩ := g.kept (by rw [hc]; exact hs)
    exact ⟨b1.trans a1, b2.trans a2, b3.trans a3, b4.trans a4⟩

/-- What adding entries to the cache leaves in it. -/
theorem mem_addTlb {e : TlbEntry} (es : List TlbEntry) (tlb : List TlbEntry) :
    e ∈ addTlb tlb es ↔ e ∈ tlb ∨ e ∈ es := by
  induction es generalizing tlb with
  | nil => simp [addTlb]
  | cons x xs ih =>
    rw [addTlb, ih, List.mem_cons]
    split
    · next h =>
      have hx : x ∈ tlb := by simpa using h
      constructor
      · rintro (h | h)
        · exact .inl h
        · exact .inr (.inr h)
      · rintro (h | rfl | h)
        · exact .inl h
        · exact .inl hx
        · exact .inr h
    · rw [List.mem_cons, or_comm (a := e = x), or_assoc]

/-! ## Sequencing -/

theorem Res.bind_ok {α β : Type} {x : Res α} {f : α → Res β} {b : β} :
    x.bind f = .ok b ↔ ∃ a, x = .ok a ∧ f a = .ok b := by
  cases x <;> simp [Res.bind]

theorem Res.bind_exc {α β : Type} {x : Res α} {f : α → Res β} {e : Exception} {v : Word} :
    x.bind f = .exc e v ↔ x = .exc e v ∨ ∃ a, x = .ok a ∧ f a = .exc e v := by
  cases x <;> simp [Res.bind]

/-! ## Physical reads -/

/-- A physical read raises no exception. -/
theorem State.physByte_no_exc (s : State) (a : Nat) (e : Exception) (v : Word) :
    s.physByte a ≠ .exc e v := by
  unfold State.physByte
  split
  · simp
  · split
    · simp
    · split <;> simp

theorem State.physRead_no_exc (n : Nat) (s : State) (a : Nat) (e : Exception) (v : Word) :
    s.physRead a n ≠ .exc e v := by
  induction n generalizing a with
  | zero => simp [State.physRead]
  | succ n ih =>
    intro h
    rw [State.physRead, Res.bind_exc] at h
    rcases h with h | ⟨b, -, h⟩
    · exact State.physByte_no_exc s a _ _ h
    · rw [Res.bind_exc] at h
      rcases h with h | ⟨r, -, h⟩
      · exact ih _ h
      · cases h

/-! ## PMP -/

/-- An access of one part is decided by the lowest-numbered entry that matches any of its bytes (R174). -/
theorem Pmp.deciding_eq (p : Pmp) (c : Config) (pa n : Nat) :
    p.deciding c pa n = (List.range c.pmpCount).find? fun i => p.touches c i pa n := by
  simp [Pmp.deciding, Pmp.decidingParts]

/-! ## The walk -/

/-- Step 2 of R181: the entry is read after its checks, or the fault is of the access's type. -/
theorem State.loadPte_ok {s : State} {sch : Scheme} {acc : Access} {va pte : Word} {a : Nat} :
    s.loadPte sch acc va a = .ok pte ↔
      s.physAllows s.pmp .load .supervisor a (pteSize sch) = true
        ∧ ∃ v, s.physRead a (pteSize sch) = .ok v ∧ pte = BitVec.ofNat 64 v := by
  unfold State.loadPte
  cases s.physAllows s.pmp .load .supervisor a (pteSize sch) with
  | false => simp
  | true =>
    simp only [Bool.not_true, Bool.false_eq_true, if_false, true_and, Res.bind_ok]
    exact exists_congr fun v => and_congr_right fun _ => ⟨fun h => by cases h; rfl, fun h => by rw [h]⟩

theorem State.loadPte_exc {s : State} {sch : Scheme} {acc : Access} {va tval : Word} {a : Nat}
    {e : Exception} (h : s.loadPte sch acc va a = .exc e tval) : tval = va ∧ e = acc.accessFault := by
  unfold State.loadPte at h
  split at h
  · cases h; exact ⟨rfl, rfl⟩
  · rcases Res.bind_exc.mp h with h | ⟨v, -, h⟩
    · exact absurd h (State.physRead_no_exc _ _ _ _ _)
    · cases h

/-- Steps 2 and 3 of R181: the entry is read after its checks, and it is valid; or the fault is of the
access's type. -/
theorem State.readPte_ok {s : State} {sch : Scheme} {acc : Access} {va pte : Word} {a : Nat} :
    s.readPte sch acc va a = .ok pte ↔
      s.physAllows s.pmp .load .supervisor a (pteSize sch) = true
        ∧ (∃ v, s.physRead a (pteSize sch) = .ok v ∧ pte = BitVec.ofNat 64 v)
        ∧ pteInvalid pte = false := by
  unfold State.readPte
  rw [Res.bind_ok]
  constructor
  · rintro ⟨v, hv, h⟩
    split at h
    · cases h
    · next hi => cases h; exact ⟨(State.loadPte_ok.mp hv).1, (State.loadPte_ok.mp hv).2, by simpa using hi⟩
  · rintro ⟨hp, hv, hi⟩
    exact ⟨pte, State.loadPte_ok.mpr ⟨hp, hv⟩, by rw [hi]; rfl⟩

theorem State.readPte_exc {s : State} {sch : Scheme} {acc : Access} {va tval : Word} {a : Nat}
    {e : Exception} (h : s.readPte sch acc va a = .exc e tval) :
    tval = va ∧ (e = acc.pageFault ∨ e = acc.accessFault) := by
  rcases Res.bind_exc.mp h with h | ⟨v, -, h⟩
  · exact ⟨(State.loadPte_exc h).1, .inr (State.loadPte_exc h).2⟩
  · split at h
    · cases h; exact ⟨rfl, .inl rfl⟩
    · cases h

theorem State.walkLeaf_exc {s : State} {sch : Scheme} {acc : Access} {p : Priv} {va tval : Word}
    {level a : Nat} {g : Bool} {pte : Word} {path : List TlbEntry} {e : Exception}
    (h : s.walkLeaf sch acc p va level g pte a path = .exc e tval) :
    tval = va ∧ (e = acc.pageFault ∨ e = acc.accessFault) := by
  unfold State.walkLeaf at h
  split at h
  · cases h; exact ⟨rfl, .inl rfl⟩
  · split at h
    · cases h; exact ⟨rfl, .inl rfl⟩
    · split at h
      · split at h
        · cases h; exact ⟨rfl, .inl rfl⟩
        · split at h
          · cases h; exact ⟨rfl, .inr rfl⟩
          · rcases s.physWrite_spec a (pteSize sch) (setAD pte acc).toNat with ⟨b, hw⟩ | ⟨m, t, c, l, hw, -⟩
            · rw [hw] at h; cases h
            · rw [hw] at h; cases h
      · cases h

/-- Steps 5 to 8 of R181 succeed only with the permissions of R182, an aligned page, and the Accessed and
Dirty bits set, or written by the update of R183. -/
theorem State.walkLeaf_ok {s : State} {sch : Scheme} {acc : Access} {p : Priv} {va : Word}
    {level a : Nat} {g : Bool} {pte : Word} {path : List TlbEntry} {t : Translated}
    (h : s.walkLeaf sch acc p va level g pte a path = .ok t) :
    ptePermitted pte acc p s.mstatus.sum s.mstatus.mxr = true ∧ misalignedSuperpage sch level pte = false
      ∧ t.pa = leafAddress sch level pte va.toNat ∧ t.pmp = s.pmp ∧ WalkFrame s t.state
      ∧ ((needsAD pte acc = false ∧ t.state.mem = s.mem)
        ∨ (needsAD pte acc = true ∧ s.cfg.hardwareADUpdate = true
          ∧ ∃ u, s.physWrite a (pteSize sch) (setAD pte acc).toNat = .ok u ∧ t.state.mem = u.mem)) := by
  unfold State.walkLeaf at h
  split at h
  · cases h
  · next hperm =>
    split at h
    · cases h
    · next hal =>
      refine ⟨by simpa using hperm, by simpa using hal, ?_⟩
      split at h
      · next hn =>
        split at h
        · cases h
        · next hhw =>
          have hhw : s.cfg.hardwareADUpdate = true := by simpa using hhw
          split at h
          · cases h
          · rcases s.physWrite_spec a (pteSize sch) (setAD pte acc).toNat with ⟨b, hw⟩ | ⟨m, tm, c, l, hw, hwf⟩
            · rw [hw] at h; cases h
            · rw [hw] at h
              cases h
              refine ⟨rfl, rfl, ⟨rfl, hwf, ⟨rfl, rfl, rfl⟩, fun hf => ?_⟩, .inr ⟨hn, hhw, _, hw, rfl⟩⟩
              rw [hhw] at hf; cases hf
      · next hn =>
        cases h
        exact ⟨rfl, rfl, WalkFrame.of_tlb _ _, .inl ⟨by simpa using hn, rfl⟩⟩

/-- A walk that succeeds reads a valid entry, and either it is a leaf and the walk ends there, or the walk
goes on in the table it points to. -/
theorem State.walk_ok {s : State} {acc : Access} {sch : Scheme} {p : Priv} {va : Word} {level a : Nat}
    {g : Bool} {path : List TlbEntry} {t : Translated} :
    s.walk sch acc p va level a g path = .ok t ↔
      ∃ pte, s.readPte sch acc va (pteAddress sch va level a) = .ok pte ∧
        ((pteLeaf pte = true ∧ s.walkLeaf sch acc p va level (g || pteG pte) pte
              (pteAddress sch va level a) path = .ok t)
          ∨ (pteLeaf pte = false ∧ ∃ i, level = i + 1 ∧
              s.walk sch acc p va i (ptePpn sch pte * 4096) (g || pteG pte)
                (s.tlbEntryFor sch va.toNat (i + 1) (g || pteG pte) pte :: path) = .ok t)) := by
  rw [State.walk.eq_def, Res.bind_ok]
  apply exists_congr; intro pte
  apply and_congr_right; intro _
  cases pteLeaf pte <;> cases level <;> simp

theorem State.walk_exc_cases {s : State} {acc : Access} {sch : Scheme} {p : Priv} {va tval : Word}
    {level a : Nat} {g : Bool} {path : List TlbEntry} {e : Exception}
    (h : s.walk sch acc p va level a g path = .exc e tval) :
    (tval = va ∧ (e = acc.pageFault ∨ e = acc.accessFault))
      ∨ ∃ i pte, level = i + 1 ∧ s.walk sch acc p va i (ptePpn sch pte * 4096) (g || pteG pte)
          (s.tlbEntryFor sch va.toNat (i + 1) (g || pteG pte) pte :: path) = .exc e tval := by
  rw [State.walk.eq_def, Res.bind_exc] at h
  rcases h with h | ⟨pte, -, h⟩
  · exact .inl (State.readPte_exc h)
  · split at h
    · exact .inl (State.walkLeaf_exc h)
    · cases level with
      | zero => cases h; exact .inl ⟨rfl, .inl rfl⟩
      | succ i => exact .inr ⟨i, pte, rfl, h⟩

theorem State.walk_exc {acc : Access} {sch : Scheme} {p : Priv} {va tval : Word} {e : Exception}
    (level : Nat) {s : State} {a : Nat} {g : Bool} {path : List TlbEntry}
    (h : s.walk sch acc p va level a g path = .exc e tval) :
    tval = va ∧ (e = acc.pageFault ∨ e = acc.accessFault) := by
  induction level generalizing a g path with
  | zero =>
    rcases State.walk_exc_cases h with h | ⟨i, _, hi, _⟩
    · exact h
    · cases hi
  | succ n ih =>
    rcases State.walk_exc_cases h with h | ⟨i, _, hi, h⟩
    · exact h
    · cases hi; exact ih h

/-- A walk changes nothing but what `WalkFrame` says. -/
theorem State.walk_frame {acc : Access} {sch : Scheme} {p : Priv} {va : Word}
    (level : Nat) {s : State} {a : Nat} {g : Bool} {path : List TlbEntry} {t : Translated}
    (h : s.walk sch acc p va level a g path = .ok t) : WalkFrame s t.state ∧ t.pmp = s.pmp := by
  induction level generalizing a g path with
  | zero =>
    obtain ⟨pte, -, ⟨-, h⟩ | ⟨-, i, hi, -⟩⟩ := State.walk_ok.mp h
    · exact ⟨(State.walkLeaf_ok h).2.2.2.2.1, (State.walkLeaf_ok h).2.2.2.1⟩
    · cases hi
  | succ n ih =>
    obtain ⟨pte, -, ⟨-, h⟩ | ⟨-, i, hi, h⟩⟩ := State.walk_ok.mp h
    · exact ⟨(State.walkLeaf_ok h).2.2.2.2.1, (State.walkLeaf_ok h).2.2.2.1⟩
    · cases hi; exact ih h

/-- A translation from a cached entry: the entry is valid, and it is a leaf that gives the address, or the
walk goes on in the table it points to. -/
theorem State.translateCached_ok {s : State} {sch : Scheme} {acc : Access} {p : Priv} {va : Word}
    {e : TlbEntry} {t : Translated} (h : s.translateCached sch acc p va e = .ok t) :
    pteInvalid e.pte = false
      ∧ ((pteLeaf e.pte = true ∧ t.state = s)
        ∨ (pteLeaf e.pte = false ∧ ∃ i, e.level = i + 1
            ∧ s.walk sch acc p va i (ptePpn sch e.pte * 4096) e.global [] = .ok t)) := by
  unfold State.translateCached at h
  cases hi : pteInvalid e.pte
  · refine ⟨rfl, ?_⟩
    rw [hi] at h
    cases hl : pteLeaf e.pte <;> simp only [hl, Bool.false_eq_true, if_false, if_true] at h
    · split at h
      · cases h
      · next i hlev => exact .inr ⟨rfl, i, hlev, h⟩
    · split at h
      · cases h
      · split at h
        · cases h
        · split at h
          · cases h
          · cases h; exact .inl ⟨rfl, rfl⟩
  · rw [hi] at h; cases h

theorem State.translateCached_spec {s : State} {sch : Scheme} {acc : Access} {p : Priv} {va : Word}
    {e : TlbEntry} {t : Translated} (h : s.translateCached sch acc p va e = .ok t) :
    WalkFrame s t.state := by
  obtain ⟨-, ⟨-, hs⟩ | ⟨-, i, -, hw⟩⟩ := State.translateCached_ok h
  · rw [hs]; exact WalkFrame.refl s
  · exact (State.walk_frame _ hw).1

theorem State.translateCached_exc {s : State} {sch : Scheme} {acc : Access} {p : Priv} {va tval : Word}
    {e : TlbEntry} {x : Exception} (h : s.translateCached sch acc p va e = .exc x tval) :
    tval = va ∧ (x = acc.pageFault ∨ x = acc.accessFault) := by
  unfold State.translateCached at h
  repeat' split at h
  case h_2 => exact State.walk_exc _ h
  all_goals (cases h <;> exact ⟨rfl, .inl rfl⟩)

/-- A translation changes nothing but what `WalkFrame` says. -/
theorem State.translate_frame {s : State} {acc : Access} {p : Priv} {va : Word} {t : Translated}
    (h : s.translate acc p va = .ok t) : WalkFrame s t.state := by
  unfold State.translate at h
  split at h
  · cases h; exact WalkFrame.refl s
  · split at h
    · cases h
    · split at h
      · exact State.translateCached_spec h
      · exact (State.walk_frame _ h).1

/-- The exceptions of a translation are the page fault and the access fault of the access's type, with
the virtual address as trap value. -/
theorem State.translate_exc {s : State} {acc : Access} {p : Priv} {va tval : Word} {e : Exception}
    (h : s.translate acc p va = .exc e tval) :
    tval = va ∧ (e = acc.pageFault ∨ e = acc.accessFault) := by
  unfold State.translate at h
  split at h
  · cases h
  · split at h
    · cases h; exact ⟨rfl, .inl rfl⟩
    · split at h
      · exact State.translateCached_exc h
      · exact State.walk_exc _ h

/-- An access address is a translation whose physical address passed PMP and PMA. -/
theorem State.accessAddress_ok {s : State} {acc : Access} {p : Priv} {va : Word} {n : Nat}
    {t : Translated} (h : s.accessAddress acc p va n = .ok t) :
    s.translate acc p va = .ok t ∧ s.physAllows t.pmp acc p t.pa n = true := by
  obtain ⟨t', ht, h⟩ := Res.bind_ok.mp h
  split at h
  · next hp => cases h; exact ⟨ht, hp⟩
  · cases h

/-- The exceptions of an access in one page are those of its type, with the virtual address as trap
value. -/
theorem State.accessAddress_exc {s : State} {acc : Access} {p : Priv} {va tval : Word} {n : Nat}
    {e : Exception} (h : s.accessAddress acc p va n = .exc e tval) :
    tval = va ∧ (e = acc.pageFault ∨ e = acc.accessFault) := by
  rcases Res.bind_exc.mp h with h | ⟨t, -, h⟩
  · exact State.translate_exc h
  · split at h
    · cases h
    · cases h; exact ⟨rfl, .inr rfl⟩

/-- The two parts of an access are translated one after the other, and PMP grants the whole of it under the
settings of each. -/
theorem State.accessParts_ok {s : State} {acc : Access} {p : Priv} {va : Word} {k n : Nat}
    {t u : Translated} (h : s.accessParts acc p va k n = .ok (t, u)) :
    s.translate acc p va = .ok t ∧ t.state.translate acc p (s.nextPart va k) = .ok u
      ∧ t.pmp.allowsParts s.cfg acc p [(t.pa, k), (u.pa, n - k)] = true
      ∧ u.pmp.allowsParts s.cfg acc p [(t.pa, k), (u.pa, n - k)] = true
      ∧ pmaAllows s.pma acc t.pa k n = true ∧ pmaAllows s.pma acc u.pa (n - k) n = true
      ∧ WalkFrame s u.state := by
  obtain ⟨t', ht, h⟩ := Res.bind_ok.mp h
  obtain ⟨u', hu, h⟩ := Res.bind_ok.mp h
  split at h
  · cases h
  · next hp =>
    split at h
    · cases h
    · next h1 =>
      split at h
      · cases h
      · next h2 =>
        cases h
        have hp : t.pmp.allowsParts s.cfg acc p [(t.pa, k), (u.pa, n - k)] = true
            ∧ u.pmp.allowsParts s.cfg acc p [(t.pa, k), (u.pa, n - k)] = true := by simpa using hp
        exact ⟨ht, hu, hp.1, hp.2, by simpa using h1, by simpa using h2,
          (State.translate_frame ht).trans (State.translate_frame hu)⟩

/-- The exceptions of an access in two parts are those of its type, with the address of one of the parts as
trap value (R296). -/
theorem State.accessParts_exc {s : State} {acc : Access} {p : Priv} {va tval : Word} {k n : Nat}
    {e : Exception} (h : s.accessParts acc p va k n = .exc e tval) :
    (tval = va ∨ tval = s.nextPart va k) ∧ (e = acc.pageFault ∨ e = acc.accessFault) := by
  rcases Res.bind_exc.mp h with h | ⟨t, -, h⟩
  · exact ⟨.inl (State.translate_exc h).1, (State.translate_exc h).2⟩
  · rcases Res.bind_exc.mp h with h | ⟨u, -, h⟩
    · exact ⟨.inr (State.translate_exc h).1, (State.translate_exc h).2⟩
    · split at h
      · cases h; exact ⟨.inl rfl, .inr rfl⟩
      · split at h
        · cases h; exact ⟨.inl rfl, .inr rfl⟩
        · split at h
          · cases h; exact ⟨.inr rfl, .inr rfl⟩
          · cases h

/-- A fetch changes nothing but what `WalkFrame` says. -/
theorem State.fetch_frame {s t : State} {w : BitVec 32} (h : s.fetch = .ok (t, w)) : WalkFrame s t := by
  unfold State.fetch at h
  dsimp only at h
  split at h
  · cases h
  · obtain ⟨u, hu, h⟩ := Res.bind_ok.mp h
    obtain ⟨v, -, h⟩ := Res.bind_ok.mp h
    cases h
    exact State.translate_frame (State.accessAddress_ok hu).1

end Sys2Proof.Machine
end

