-- ==== Sys2Proof/Laws/Step.lean ====
section
/-! SUPPORT. What an instruction and a step can do, said once by cases: `exec_cases` for the instructions,
`cycle_cases` and `step_cases` for a step, and `step_preserves`, which derives an invariant of every step
from its parts. -/

namespace Sys2Proof.Machine

/-! ## Instructions -/

/-- Every instruction gives a next state: none stops the machine. -/
theorem exec_next (i : Instr) (s : State) : ∃ t, exec i s = .next t := by
  cases i <;> exact ⟨_, rfl⟩

/-- A CSR instruction that completes: register `r` of its form, with every check passed. -/
structure CsrCompletes (i : Instr) (s t : State) (f : CsrForm) (r : Csr) (u : State) : Prop where
  form : csrForm i = some f
  access : s.csrAccess f.csr (f.op.writes f.src) = some r
  update : s.csrUpdate f.op f.rd r f.src = some u
  result : t = s.csrComplete u f.op f.rd r f.src

/-- Everything an instruction can do: raise an exception, complete as a CSR instruction, return from a
trap, wait, or fence. -/
theorem exec_cases {i : Instr} {s t : State} (h : exec i s = .next t) :
    (∃ e tval, t = s.raise e tval)
      ∨ (∃ f r u, CsrCompletes i s t f r u)
      ∨ (i = .mret ∧ s.priv = .machine ∧ t = s.trapReturn .machine)
      ∨ (i = .sret ∧ s.sretIllegal = false ∧ t = s.trapReturn .supervisor)
      ∨ (i = .uret ∧ s.cfg.n = true ∧ t = s.trapReturn .user)
      ∨ (i = .wfi ∧ s.wfiIllegal = false ∧ t = { s with waiting := s.cfg.wfiWaits }.advance true)
      ∨ (∃ a b, i = .sfenceVma a b ∧ s.sfenceIllegal = false ∧ t = (s.sfence a b).advance true) := by
  cases hf : csrForm i with
  | some f =>
    rw [exec_csrForm hf] at h
    obtain rfl := Host.Outcome.next.inj h
    rcases s.csrInstr_cases i f.op f.rd f.csr f.src with ⟨hi, -⟩ | ⟨r, u, ha, hu, hi⟩
    · exact .inl ⟨_, _, hi⟩
    · exact .inr (.inl ⟨f, r, u, hf, ha, hu, hi⟩)
  | none =>
    cases i <;> simp only [csrForm, reduceCtorEq] at hf
    case ecall => exact .inl ⟨_, _, (Host.Outcome.next.inj h).symm⟩
    case ebreak => exact .inl ⟨_, _, (Host.Outcome.next.inj h).symm⟩
    case mret =>
      have h := Host.Outcome.next.inj h
      cases hc : s.mretIllegal <;> simp only [hc, Bool.false_eq_true, if_false, if_true] at h
      · exact .inr (.inr (.inl ⟨rfl, by simpa [State.mretIllegal] using hc, h.symm⟩))
      · exact .inl ⟨_, _, h.symm⟩
    case sret =>
      have h := Host.Outcome.next.inj h
      cases hc : s.sretIllegal <;> simp only [hc, Bool.false_eq_true, if_false, if_true] at h
      · exact .inr (.inr (.inr (.inl ⟨rfl, rfl, h.symm⟩)))
      · exact .inl ⟨_, _, h.symm⟩
    case uret =>
      have h := Host.Outcome.next.inj h
      cases hc : s.uretIllegal <;> simp only [hc, Bool.false_eq_true, if_false, if_true] at h
      · exact .inr (.inr (.inr (.inr (.inl ⟨rfl, by simpa [State.uretIllegal] using hc, h.symm⟩))))
      · exact .inl ⟨_, _, h.symm⟩
    case wfi =>
      have h := Host.Outcome.next.inj h
      cases hc : s.wfiIllegal <;> simp only [hc, Bool.false_eq_true, if_false, if_true] at h
      · exact .inr (.inr (.inr (.inr (.inr (.inl ⟨rfl, rfl, h.symm⟩)))))
      · exact .inl ⟨_, _, h.symm⟩
    case sfenceVma a b =>
      have h := Host.Outcome.next.inj h
      cases hc : s.sfenceIllegal <;> simp only [hc, Bool.false_eq_true, if_false, if_true] at h
      · exact .inr (.inr (.inr (.inr (.inr (.inr ⟨a, b, rfl, rfl, h.symm⟩)))))
      · exact .inl ⟨_, _, h.symm⟩

/-! ## What arrives -/

/-- `t` is `s` but for what an input can change: the counters of cycles, time and events, the signals,
memory, the timer compare register, the translation cache, and the choices of the boundary. -/
structure InputFrame (s t : State) : Prop where
  cfg : t.cfg = s.cfg
  priv : t.priv = s.priv
  regs : t.regs = s.regs
  pc : t.pc = s.pc
  mstatus : t.mstatus = s.mstatus
  deleg : t.deleg = s.deleg
  mie : t.mie = s.mie
  mipSw : t.mipSw = s.mipSw
  traps : ∀ x, t.trapRegs x = s.trapRegs x
  minstret : t.counters.minstret = s.counters.minstret
  mcounteren : t.counters.mcounteren = s.counters.mcounteren
  scounteren : t.counters.scounteren = s.counters.scounteren
  hpmEvent : t.counters.hpmEvent = s.counters.hpmEvent
  /-- An event counter that moved exists and holds bits it implements. -/
  hpmCounter : ∀ n : Fin 29, t.counters.hpmCounter[n] = s.counters.hpmCounter[n]
    ∨ (s.cfg.hpmExists (n.val + 3) = true
      ∧ t.counters.hpmCounter[n] &&& s.cfg.hpmCounterBits n = t.counters.hpmCounter[n])
  satp : t.satp = s.satp
  fcsr : t.fcsr = s.fcsr
  pmp : t.pmp = s.pmp
  triggers : t.triggers = s.triggers
  waiting : t.waiting = s.waiting
  inputs : t.inputs = s.inputs
  drawCount : t.drawCount = s.drawCount
  wf : s.mem.wf = true → t.mem.wf = true

theorem InputFrame.refl (s : State) : InputFrame s s := by
  constructor
  case hpmCounter => exact fun _ => .inl rfl
  all_goals simp

theorem InputFrame.trans {s t u : State} (h : InputFrame s t) (g : InputFrame t u) : InputFrame s u := by
  constructor
  case traps => intro x; rw [g.traps, h.traps]
  case wf => exact fun hs => g.wf (h.wf hs)
  case hpmCounter =>
    intro n
    rcases g.hpmCounter n with e | e
    · rw [e]; exact h.hpmCounter n
    · rw [h.cfg] at e; exact .inr e
  all_goals simp only [g.cfg, g.priv, g.regs, g.pc, g.mstatus, g.deleg, g.mie, g.mipSw, g.minstret,
    g.mcounteren, g.scounteren, g.hpmEvent, g.satp, g.fcsr, g.pmp, g.triggers, g.waiting, g.inputs, g.drawCount,
    h.cfg, h.priv, h.regs, h.pc, h.mstatus, h.deleg, h.mie, h.mipSw, h.minstret, h.mcounteren,
    h.scounteren, h.hpmEvent, h.satp, h.fcsr, h.pmp, h.triggers, h.waiting, h.inputs, h.drawCount]

theorem WalkFrame.inputFrame {s t : State} (h : WalkFrame s t) : InputFrame s t := by
  obtain ⟨h1, h2, h3, h4, h5, h6, h7, h8, h9, h10, h11, h12, h13, h14, h15, h16, h17, h18, h19, h20⟩ :=
    h.fields
  constructor
  case traps => intro x; cases x <;> assumption
  case wf => exact h.wf
  case hpmCounter => intro n; rw [h12]; exact .inl rfl
  all_goals first | assumption | rw [h12]

theorem storeByte_inputFrame (s : State) (a : Nat) (b : Byte) : InputFrame s (s.storeByte a b) := by
  obtain ⟨⟨m, t, c, l, h⟩, hw⟩ := s.storeByte_frame a b
  constructor
  case wf => exact hw
  case hpmCounter => intro n; rw [h]; exact .inl rfl
  case traps => intro x; rw [h]; cases x <;> rfl
  all_goals rw [h]

theorem storeCells_inputFrame (cells : List Host.Cell) (s : State) : InputFrame s (s.storeCells cells) := by
  induction cells generalizing s with
  | nil => exact InputFrame.refl s
  | cons c rest ih => exact (storeByte_inputFrame s c.1 c.2).trans (ih _)

theorem speculateOne_inputFrame (s : State) (w : SpecWalk) : InputFrame s (s.speculateOne w) := by
  unfold State.speculateOne
  dsimp only
  split
  · next t ht => exact (State.translate_frame ht).inputFrame
  all_goals exact (WalkFrame.of_tlb s _).inputFrame

theorem speculate_inputFrame (l : List SpecWalk) (s : State) : InputFrame s (s.speculateAll l) := by
  induction l generalizing s with
  | nil => exact InputFrame.refl s
  | cons w rest ih => exact (speculateOne_inputFrame s w).trans (ih _)

/-- Counting events changes the event counters only. -/
theorem countEvents_frame (c : Config) (l : List (Fin 29 × BitVec 64)) (k : Counters) :
    (countEvents c k l).mcycle = k.mcycle ∧ (countEvents c k l).minstret = k.minstret
      ∧ (countEvents c k l).hpmEvent = k.hpmEvent ∧ (countEvents c k l).mcounteren = k.mcounteren
      ∧ (countEvents c k l).scounteren = k.scounteren
      ∧ ∀ n : Fin 29, (countEvents c k l).hpmCounter[n] = k.hpmCounter[n]
        ∨ (c.hpmExists (n.val + 3) = true
          ∧ (countEvents c k l).hpmCounter[n] &&& c.hpmCounterBits n = (countEvents c k l).hpmCounter[n]) := by
  induction l generalizing k with
  | nil => exact ⟨rfl, rfl, rfl, rfl, rfl, fun _ => .inl rfl⟩
  | cons p rest ih =>
    unfold countEvents
    split
    · next hp =>
      obtain ⟨h1, h2, h3, h4, h5, h6⟩ := ih
        { k with hpmCounter := k.hpmCounter.set p.1 ((k.hpmCounter[p.1] + p.2) &&& c.hpmCounterBits p.1) }
      refine ⟨h1, h2, h3, h4, h5, fun n => ?_⟩
      rcases h6 n with e | e
      · by_cases hn : n = p.1
        · subst hn
          refine .inr ⟨hp.1, ?_⟩
          rw [e]
          simp [BitVec.and_assoc]
        · refine .inl (e.trans ?_)
          have : p.1.val ≠ n.val := fun h => hn (Fin.ext h.symm)
          simp [this]
      · exact .inr e
    · exact ih _

theorem applyInput_frame (s : State) (i : Input) : InputFrame s (s.applyInput i) := by
  unfold State.applyInput
  refine InputFrame.trans ?_ (speculate_inputFrame i.speculate _)
  refine InputFrame.trans ?_ (storeCells_inputFrame i.writes _)
  obtain ⟨-, h1, h4, h2, h3, h5⟩ :=
    countEvents_frame s.cfg i.hpmTicks { s.counters with mcycle := s.counters.mcycle + i.mcycleTicks }
  constructor
  case traps => intro x; cases x <;> rfl
  case minstret => exact h1
  case mcounteren => exact h2
  case scounteren => exact h3
  case hpmEvent => exact h4
  case hpmCounter => exact h5
  case wf => exact id
  all_goals rfl

/-! ## Steps -/

/-- Everything a boundary can do once its inputs are in: keep waiting, take an interrupt, or run the next
instruction. -/
theorem State.cycle_cases {s t : State} {wake : Bool} (h : s.cycle wake = .next t) :
    (s.resumes wake = false ∧ t = s)
      ∨ (∃ i, { s with waiting := false }.pendingInterrupt = some i
          ∧ t = { s with waiting := false }.takeInterrupt i)
      ∨ ({ s with waiting := false }.pendingInterrupt = none
          ∧ { s with waiting := false }.runNext = .next t) := by
  unfold State.cycle at h
  cases hr : s.resumes wake <;> simp only [hr, Bool.false_eq_true, if_false, if_true] at h
  · exact .inl ⟨rfl, (Host.Outcome.next.inj h).symm⟩
  · split at h
    · next i hi => exact .inr (.inl ⟨i, hi, (Host.Outcome.next.inj h).symm⟩)
    · next hn => exact .inr (.inr ⟨hn, h⟩)

/-- Everything the next instruction can do: raise an exception in the fetch, execute in the state after the
fetch, or be a reserved encoding. -/
theorem State.runNext_cases {s t : State} (h : s.runNext = .next t) :
    (∃ e tval, s.fetch = .exc e tval ∧ t = s.raise e tval)
      ∨ ∃ u w, s.fetch = .ok (u, w) ∧ WalkFrame s u ∧
          ((∃ i, decodeWord w = .instr i ∧ exec i u = .next t)
            ∨ ∃ w', decodeWord w = .reserved w' ∧ t = u.illegal w') := by
  unfold State.runNext at h
  split at h
  · next u w hf =>
    refine .inr ⟨u, w, hf, State.fetch_frame hf, ?_⟩
    unfold State.runDecoded at h
    split at h
    · next i hi => exact .inl ⟨i, hi, h⟩
    · next w' hw => exact .inr ⟨w', hw, (Host.Outcome.next.inj h).symm⟩
    · cases h
    · cases h
  · next e tval hf => exact .inl ⟨e, tval, hf, (Host.Outcome.next.inj h).symm⟩
  · cases h
  · cases h

/-- Everything a step can do: reset the hart, or go through a boundary after its inputs. -/
theorem step_cases {s t : State} (h : step s = .next t) :
    (∃ i rest, s.inputs = i :: rest ∧ i.reset = true ∧ t = { s with inputs := rest }.hartReset)
      ∨ (s.inputs = [] ∧ s.cycle false = .next t)
      ∨ ∃ i rest u, s.inputs = i :: rest ∧ i.reset = false ∧ InputFrame { s with inputs := rest } u
          ∧ u.cycle i.wake = .next t := by
  unfold step State.boundary at h
  split at h
  · next hi => exact .inr (.inl ⟨hi, h⟩)
  · next i rest hi =>
    cases hr : i.reset <;> simp only [hr, Bool.false_eq_true, if_false, if_true] at h
    · exact .inr (.inr ⟨i, rest, _, hi, hr, applyInput_frame _ _, h⟩)
    · exact .inl ⟨i, rest, hi, hr, (Host.Outcome.next.inj h).symm⟩

/-- An invariant of every step, from its parts: resets, inputs, walks, the wake-up, traps and
instructions. -/
theorem step_preserves {P : State → Prop}
    (hreset : ∀ s, P s → P s.hartReset)
    (hdrop : ∀ s rest, P s → P { s with inputs := rest })
    (hinput : ∀ s u, InputFrame s u → P s → P u)
    (hwake : ∀ s, P s → P { s with waiting := false })
    (hraise : ∀ s e tval, P s → P (s.raise e tval))
    (hinterrupt : ∀ s i, P s → P (s.takeInterrupt i))
    (hexec : ∀ i s t, P s → exec i s = .next t → P t)
    {s t : State} (hs : P s) (h : step s = .next t) : P t := by
  have hcycle : ∀ (u : State) (wake : Bool), P u → u.cycle wake = .next t → P t := by
    intro u wake hu hc
    rcases State.cycle_cases hc with ⟨-, rfl⟩ | ⟨i, -, rfl⟩ | ⟨-, hr⟩
    · exact hu
    · exact hinterrupt _ i (hwake u hu)
    · rcases State.runNext_cases hr with ⟨e, tval, -, rfl⟩ | ⟨v, w, -, hf, hd⟩
      · exact hraise _ e tval (hwake u hu)
      · have hv := hinput _ v hf.inputFrame (hwake u hu)
        rcases hd with ⟨i, -, he⟩ | ⟨w', -, rfl⟩
        · exact hexec i v t hv he
        · exact hraise v _ _ hv
  rcases step_cases h with ⟨i, rest, -, -, rfl⟩ | ⟨-, hc⟩ | ⟨i, rest, u, -, -, hu, hc⟩
  · exact hreset _ (hdrop s rest hs)
  · exact hcycle s false hs hc
  · exact hcycle u i.wake (hinput _ u hu (hdrop s rest hs)) hc

end Sys2Proof.Machine
end

