-- ==== Sys2Proof/Laws/Boundary.lean ====
section
/-! SUPPORT. What arrives at a boundary (Machine/Cycle.lean): what stores of bytes leave in memory, in the
memory-mapped registers and in the software-interrupt bit, and what speculative walks can change. -/

namespace Sys2Proof.Machine

/-! ## Stores of one byte -/

theorem registerOffset_none {base : Option Nat} {size a : Nat} :
    registerOffset base size a = none ↔ inWindow base size a = false := by
  cases base <;> simp [registerOffset, inWindow]

theorem registerOffset_some {base : Option Nat} {size a k : Nat} :
    registerOffset base size a = some k ↔ ∃ b, base = some b ∧ k < size ∧ a = b + k := by
  cases base with
  | none => simp [registerOffset]
  | some b =>
    simp only [registerOffset, Option.ite_none_right_eq_some, Option.some.injEq]
    constructor
    · rintro ⟨h, rfl⟩; exact ⟨b, rfl, by omega, by omega⟩
    · rintro ⟨c, rfl, h, rfl⟩; exact ⟨by omega, by omega⟩

/-- A store of a byte to an address of memory is what that address reads as, and no other byte of memory
changes. -/
theorem State.storeByte_mem (s : State) (a x : Nat) (b : Byte) :
    (s.storeByte a b).mem.read x =
      if isMemory s.cfg x = true ∧ a = x then some b else s.mem.read x := by
  unfold State.storeByte isMemory
  have key : ∀ {c : Bool}, (inWindow s.cfg.mtimeAddr 8 a = true ∨ inWindow s.cfg.mtimecmpAddr 8 a = true
      ∨ inWindow s.cfg.msipAddr 4 a = true) → ¬((!inWindow s.cfg.mtimeAddr 8 x
        && !inWindow s.cfg.mtimecmpAddr 8 x && !inWindow s.cfg.msipAddr 4 x && c) = true ∧ a = x) := by
    rintro c h ⟨h', rfl⟩; simp_all
  split
  · next k hk => rw [if_neg (key (.inl (by by_contra h; simp [registerOffset_none.mpr (by simpa using h)] at hk)))]
  · next h1 =>
    split
    · next k hk =>
      rw [if_neg (key (.inr (.inl (by by_contra h; simp [registerOffset_none.mpr (by simpa using h)] at hk))))]
    · next h2 =>
      split
      · next k hk =>
        rw [if_neg (key (.inr (.inr (by by_contra h; simp [registerOffset_none.mpr (by simpa using h)] at hk))))]
        split <;> rfl
      · next h3 =>
        rw [registerOffset_none] at h1 h2 h3
        by_cases hx : a = x
        · subst hx
          simp only [h1, h2, h3, Bool.not_false, Bool.and_self, Bool.true_and, decide_eq_true_eq, and_true]
          split <;> simp
        · simp only [hx, and_false, if_false]
          split
          · exact Memory.read_write_other _ _ (Ne.symm hx)
          · rfl

/-- A store of a byte keeps the parameters. -/
@[simp] theorem State.storeByte_cfg (s : State) (a : Nat) (b : Byte) : (s.storeByte a b).cfg = s.cfg :=
  (storeByte_inputFrame s a b).cfg

/-- A 64-bit register with one byte replaced has that byte, and keeps every other. -/
theorem setByteOf_byte (v : BitVec 64) {j k : Nat} (b : Byte) (hj : j < 8) (hk : k < 8) :
    (setByteOf v j b).extractLsb' (8 * k) 8 = if j = k then b else v.extractLsb' (8 * k) 8 := by
  have hm : ∀ n, (mergeBits (0xFF#64 <<< (8 * j)) v (b.zeroExtend 64 <<< (8 * j))).getLsbD n =
      if 8 * j ≤ n ∧ n < 8 * j + 8 then b.getLsbD (n - 8 * j) else v.getLsbD n := by
    intro n
    have hf : ((0xFF#64 : BitVec 64) <<< (8 * j)).getLsbD n = decide (8 * j ≤ n ∧ n < 8 * j + 8) := by
      rw [BitVec.getLsbD_shiftLeft, show (0xFF#64 : BitVec 64) = lowMask 8 from rfl, lowMask_getLsbD]
      by_cases h1 : 8 * j ≤ n ∧ n < 8 * j + 8
      · have : n < 64 ∧ ¬ n < 8 * j ∧ n - 8 * j < 8 ∧ n - 8 * j < 64 := by omega
        simp [h1, this]
      · have : n < 8 * j ∨ ¬ n - 8 * j < 8 := by omega
        rcases this with h | h <;> simp [h1, h]
    rw [mergeBits_getLsbD, hf]
    by_cases h1 : 8 * j ≤ n ∧ n < 8 * j + 8
    · have : n < 64 ∧ ¬ n < 8 * j ∧ n - 8 * j < 64 := by omega
      simp [h1, this]
    · simp [h1]
  apply BitVec.eq_of_getLsbD_eq
  intro i hi
  rw [BitVec.getLsbD_extractLsb', setByteOf, hm]
  by_cases h : j = k
  · subst h
    have : 8 * j ≤ 8 * j + i ∧ 8 * j + i < 8 * j + 8 := by omega
    simp [hi, this]
  · have : ¬(8 * j ≤ 8 * k + i ∧ 8 * k + i < 8 * j + 8) := by omega
    simp [hi, this, h]

/-- A store to the address of a 64-bit register replaces the byte it is stored to, and keeps every other. -/
theorem registerOffset_byte {base : Option Nat} {a b k : Nat} (v : BitVec 64) (x : Byte) (hb : base = some b)
    (hk : k < 8) :
    BitVec.extractLsb' (8 * k) 8
        (match registerOffset base 8 a with
          | some j => setByteOf v j x
          | none => v) = if a = b + k then x else v.extractLsb' (8 * k) 8 := by
  cases h : registerOffset base 8 a with
  | none =>
    have : a ≠ b + k := fun hn => by rw [registerOffset_some.mpr ⟨b, hb, hk, hn⟩] at h; cases h
    simp [this]
  | some j =>
    obtain ⟨c, hc, hj, rfl⟩ := registerOffset_some.mp h
    rw [hb] at hc; cases hc
    simp [setByteOf_byte _ _ hj hk]

theorem State.storeByte_mtime (s : State) (a : Nat) (x : Byte) :
    (s.storeByte a x).mtime =
      match registerOffset s.cfg.mtimeAddr 8 a with
      | some k => setByteOf s.mtime k x
      | none => s.mtime := by
  unfold State.storeByte
  cases registerOffset s.cfg.mtimeAddr 8 a with
  | some k => rfl
  | none =>
    cases registerOffset s.cfg.mtimecmpAddr 8 a with
    | some k => rfl
    | none =>
      dsimp only
      repeat' split
      all_goals rfl

theorem State.storeByte_mtimecmp (s : State) (a : Nat) (x : Byte) :
    (s.storeByte a x).mtimecmp =
      if inWindow s.cfg.mtimeAddr 8 a then s.mtimecmp
      else
        match registerOffset s.cfg.mtimecmpAddr 8 a with
        | some k => setByteOf s.mtimecmp k x
        | none => s.mtimecmp := by
  unfold State.storeByte
  cases h : registerOffset s.cfg.mtimeAddr 8 a with
  | some k =>
    have : inWindow s.cfg.mtimeAddr 8 a = true := by
      by_contra hn
      rw [registerOffset_none.mpr (by simpa using hn)] at h
      cases h
    rw [if_pos this]
  | none =>
    simp only [registerOffset_none.mp h, Bool.false_eq_true, if_false]
    cases registerOffset s.cfg.mtimecmpAddr 8 a with
    | some k => rfl
    | none =>
      dsimp only
      repeat' split
      all_goals rfl

theorem State.storeByte_msip (s : State) (a : Nat) (x : Byte) :
    (s.storeByte a x).lines.msip =
      if s.cfg.msipAddr = some a ∧ inWindow s.cfg.mtimeAddr 8 a = false
        ∧ inWindow s.cfg.mtimecmpAddr 8 a = false then x.getLsbD 0 else s.lines.msip := by
  unfold State.storeByte
  have win : ∀ {base : Option Nat} {n k : Nat}, registerOffset base n a = some k → inWindow base n a = true := by
    intro base n k h
    by_contra hn
    rw [registerOffset_none.mpr (by simpa using hn)] at h
    cases h
  cases h1 : registerOffset s.cfg.mtimeAddr 8 a with
  | some k => simp [win h1]
  | none =>
    cases h2 : registerOffset s.cfg.mtimecmpAddr 8 a with
    | some k => simp [win h2]
    | none =>
      rw [registerOffset_none.mp h1, registerOffset_none.mp h2]
      cases h3 : registerOffset s.cfg.msipAddr 4 a with
      | some k =>
        obtain ⟨c, hc, -, rfl⟩ := registerOffset_some.mp h3
        cases k <;> simp [hc]
      | none =>
        have : s.cfg.msipAddr ≠ some a := fun h => by
          rw [registerOffset_some.mpr ⟨a, h, by decide, (Nat.add_zero a).symm⟩] at h3
          cases h3
        simp only [this, false_and, if_false]
        split <;> rfl

/-! ## Stores of several bytes -/

theorem storeCells_cons (s : State) (a : Nat) (b : Byte) (rest : List Host.Cell) :
    s.storeCells ((a, b) :: rest) = (s.storeByte a b).storeCells rest := rfl

/-- An address of memory reads as the last byte that others stored there; every other byte of memory stays. -/
theorem State.storeCells_mem (cells : List Host.Cell) (s : State) (x : Nat) :
    (s.storeCells cells).mem.read x =
      if isMemory s.cfg x then (lastStored cells x).or (s.mem.read x) else s.mem.read x := by
  induction cells generalizing s with
  | nil => simp [State.storeCells, lastStored]
  | cons c rest ih =>
    obtain ⟨a, b⟩ := c
    rw [storeCells_cons, ih, State.storeByte_cfg, State.storeByte_mem]
    cases isMemory s.cfg x
    · simp
    · by_cases h : a = x <;> simp [lastStored, h]

theorem State.storeCells_mtime (cells : List Host.Cell) (s : State) :
    (s.cfg.mtimeAddr = none → (s.storeCells cells).mtime = s.mtime)
      ∧ ∀ b k, s.cfg.mtimeAddr = some b → k < 8 → (s.storeCells cells).mtime.extractLsb' (8 * k) 8
          = (lastStored cells (b + k)).getD (s.mtime.extractLsb' (8 * k) 8) := by
  induction cells generalizing s with
  | nil => exact ⟨fun _ => rfl, fun _ _ _ _ => rfl⟩
  | cons c rest ih =>
    obtain ⟨a, x⟩ := c
    obtain ⟨h1, h2⟩ := ih (s.storeByte a x)
    rw [storeCells_cons]
    rw [State.storeByte_cfg, State.storeByte_mtime] at h1 h2
    refine ⟨fun h => (h1 h).trans (by rw [h]; rfl), fun b k hb hk => ?_⟩
    rw [h2 b k hb hk, registerOffset_byte _ _ hb hk]
    by_cases h : a = b + k <;> cases hl : lastStored rest (b + k) <;> simp [lastStored, h, hl]

theorem State.storeCells_mtimecmp (cells : List Host.Cell) (s : State) :
    (s.cfg.mtimecmpAddr = none → (s.storeCells cells).mtimecmp = s.mtimecmp)
      ∧ ∀ b k, s.cfg.mtimecmpAddr = some b → k < 8 → (s.storeCells cells).mtimecmp.extractLsb' (8 * k) 8
          = if inWindow s.cfg.mtimeAddr 8 (b + k) then s.mtimecmp.extractLsb' (8 * k) 8
            else (lastStored cells (b + k)).getD (s.mtimecmp.extractLsb' (8 * k) 8) := by
  induction cells generalizing s with
  | nil => exact ⟨fun _ => rfl, fun _ _ _ _ => by simp [State.storeCells, lastStored]⟩
  | cons c rest ih =>
    obtain ⟨a, x⟩ := c
    obtain ⟨h1, h2⟩ := ih (s.storeByte a x)
    rw [storeCells_cons]
    rw [State.storeByte_cfg, State.storeByte_mtimecmp] at h1 h2
    refine ⟨fun h => (h1 h).trans (by rw [h]; simp [registerOffset]), fun b k hb hk => ?_⟩
    have hs : BitVec.extractLsb' (8 * k) 8
        (if inWindow s.cfg.mtimeAddr 8 a then s.mtimecmp
          else
            match registerOffset s.cfg.mtimecmpAddr 8 a with
            | some j => setByteOf s.mtimecmp j x
            | none => s.mtimecmp)
        = if inWindow s.cfg.mtimeAddr 8 a then s.mtimecmp.extractLsb' (8 * k) 8
          else if a = b + k then x else s.mtimecmp.extractLsb' (8 * k) 8 := by
      split
      · rfl
      · exact registerOffset_byte _ _ hb hk
    rw [h2 b k hb hk, hs]
    by_cases h : a = b + k
    · subst h
      cases inWindow s.cfg.mtimeAddr 8 (b + k) <;> cases hl : lastStored rest (b + k) <;>
        simp [lastStored, hl]
    · cases inWindow s.cfg.mtimeAddr 8 (b + k) <;> cases hl : lastStored rest (b + k) <;>
        simp [lastStored, h, hl]

theorem State.storeCells_msip (cells : List Host.Cell) (s : State) :
    (s.storeCells cells).lines.msip =
      match s.cfg.msipAddr with
      | none => s.lines.msip
      | some b =>
        if inWindow s.cfg.mtimeAddr 8 b || inWindow s.cfg.mtimecmpAddr 8 b then s.lines.msip
        else ((lastStored cells b).map fun x => x.getLsbD 0).getD s.lines.msip := by
  induction cells generalizing s with
  | nil => cases h : s.cfg.msipAddr <;> simp [State.storeCells, lastStored]
  | cons c rest ih =>
    obtain ⟨a, x⟩ := c
    rw [storeCells_cons, ih, State.storeByte_cfg, State.storeByte_msip]
    cases s.cfg.msipAddr with
    | none => simp
    | some b =>
      dsimp only
      by_cases h : b = a
      · subst h
        cases inWindow s.cfg.mtimeAddr 8 b <;> cases inWindow s.cfg.mtimecmpAddr 8 b <;>
          cases hl : lastStored rest b <;> simp [lastStored, hl]
      · have h' : a ≠ b := fun e => h e.symm
        cases inWindow s.cfg.mtimeAddr 8 b <;> cases inWindow s.cfg.mtimecmpAddr 8 b <;>
          cases hl : lastStored rest b <;> simp [lastStored, hl, h, h']

/-! ## Physical reads and writes -/

/-- What `PhysWrite` leaves in memory: its bytes, little-endian, at the addresses of memory it covers, and
every other byte as before (R146). -/
theorem State.storeBytes_mem (n : Nat) (s : State) (a v x : Nat) :
    (s.storeBytes a (bytesOf n v)).mem.read x =
      if isMemory s.cfg x = true ∧ a ≤ x ∧ x < a + n then some (BitVec.ofNat 8 (v / 256 ^ (x - a)))
      else s.mem.read x := by
  induction n generalizing s a v with
  | zero =>
    rw [if_neg (by omega)]
    rfl
  | succ n ih =>
    show ((s.storeByte a (BitVec.ofNat 8 v)).storeBytes (a + 1) (bytesOf n (v / 256))).mem.read x = _
    rw [ih, State.storeByte_cfg, State.storeByte_mem]
    cases isMemory s.cfg x
    · simp
    · by_cases h : a = x
      · subst h
        simp
      · by_cases h' : a + 1 ≤ x ∧ x < a + 1 + n
        · have : a ≤ x ∧ x < a + (n + 1) := by omega
          have e : x - a = x - (a + 1) + 1 := by omega
          simp only [h', this, and_self, if_true]
          rw [e, Nat.pow_succ', Nat.div_div_eq_div_mul]
        · have : ¬(a ≤ x ∧ x < a + (n + 1)) := by omega
          simp only [h, h', this, and_false, if_false]

/-- What `PhysRead` reads: the byte at each address, little-endian (R146). -/
theorem State.physRead_bytes {s : State} (n : Nat) {a v : Nat} (h : s.physRead a n = .ok v) :
    v < 256 ^ n ∧ ∀ j, j < n → s.physByte (a + j) = .ok (BitVec.ofNat 8 (v / 256 ^ j)) := by
  induction n generalizing a v with
  | zero => cases h; exact ⟨by decide, by omega⟩
  | succ n ih =>
    obtain ⟨b, hb, h⟩ := Res.bind_ok.mp h
    obtain ⟨r, hr, h⟩ := Res.bind_ok.mp h
    cases h
    obtain ⟨hlt, hj⟩ := ih hr
    have hb8 := b.isLt
    refine ⟨by rw [Nat.pow_succ']; omega, fun j hjn => ?_⟩
    cases j with
    | zero =>
      rw [Nat.add_zero, hb]
      congr 1
      apply BitVec.eq_of_toNat_eq
      simp
      omega
    | succ j =>
      rw [show a + (j + 1) = a + 1 + j by omega, hj j (by omega), Nat.pow_succ', ← Nat.div_div_eq_div_mul]
      congr 3
      omega

/-- A byte that the hart reads at an address of memory is the byte of memory there. -/
theorem State.physByte_mem {s : State} {a : Nat} {b : Byte} (h : s.physByte a = .ok b)
    (hm : isMemory s.cfg a = true) : s.mem.read a = some b := by
  unfold isMemory at hm
  have hd : s.deviceByte a = none := by
    unfold State.deviceByte
    rw [registerOffset_none.mpr (by simp_all), registerOffset_none.mpr (by simp_all),
      registerOffset_none.mpr (by simp_all)]
  unfold State.physByte at h
  rw [hd] at h
  dsimp only at h
  split at h
  · cases h
  · split at h
    · next hb => cases h; exact hb
    · cases h

/-- Writing back what was read with bit 6 set changes, of memory, that bit of the first byte alone. -/
theorem State.physWrite_accessed {s t : State} {a n v : Nat} {w : Word} (hn : n ≤ 8)
    (hr : s.physRead a n = .ok v) (hw : w = BitVec.ofNat 64 v ||| 0x40)
    (h : s.physWrite a n w.toNat = .ok t) (x : Nat) :
    t.mem.read x = s.mem.read x ∨ ∃ b, s.mem.read x = some b ∧ t.mem.read x = some (b ||| 0x40) := by
  unfold State.physWrite at h
  split at h
  · cases h
  · cases h
    rw [State.storeBytes_mem]
    by_cases hx : isMemory s.cfg x = true ∧ a ≤ x ∧ x < a + n
    · rw [if_pos hx]
      obtain ⟨hlt, hb⟩ := State.physRead_bytes n hr
      obtain ⟨j, hj⟩ : ∃ j, x = a + j := ⟨x - a, by omega⟩
      have hread := State.physByte_mem (hj ▸ hb j (by omega)) (hj ▸ hx.1)
      have hv : v < 2 ^ 64 := by
        have : 256 ^ n ≤ 256 ^ 8 := Nat.pow_le_pow_right (by decide) hn
        have : 256 ^ 8 = 2 ^ 64 := by decide
        omega
      rw [hj] at hread ⊢
      rw [hread, show a + j - a = j by omega]
      have bit : ∀ i, i < 8 → (BitVec.ofNat 8 (w.toNat / 256 ^ j)).getLsbD i
          = (BitVec.ofNat 8 (v / 256 ^ j) ||| (if j = 0 then 0x40 else 0)).getLsbD i := by
        intro i hi
        have e : (256 : Nat) ^ j = 2 ^ (8 * j) := by rw [Nat.pow_mul]
        rw [BitVec.getLsbD_or]
        simp only [BitVec.getLsbD_ofNat, hi, decide_true, Bool.true_and, e, Nat.testBit_div_two_pow]
        have : w.toNat.testBit (i + 8 * j) = (v.testBit (i + 8 * j) || decide (i + 8 * j = 6)) := by
          rw [hw, BitVec.toNat_or, BitVec.toNat_ofNat, Nat.mod_eq_of_lt hv, Nat.testBit_or]
          congr 1
          rw [show (0x40 : Word).toNat = 2 ^ 6 by decide, Nat.testBit_two_pow]
          simp [eq_comm]
        rw [this]
        congr 1
        by_cases h0 : j = 0
        · subst h0
          have : i = 0 ∨ i = 1 ∨ i = 2 ∨ i = 3 ∨ i = 4 ∨ i = 5 ∨ i = 6 ∨ i = 7 := by omega
          rcases this with h | h | h | h | h | h | h | h <;> subst h <;> rfl
        · have : ¬ i + 8 * j = 6 := by omega
          simp [h0, this]
      have heq := BitVec.eq_of_getLsbD_eq bit
      by_cases h0 : j = 0
      · rw [if_pos h0] at heq
        exact .inr ⟨_, rfl, by rw [heq]⟩
      · rw [if_neg h0] at heq
        exact .inl (by rw [heq]; simp)
    · exact .inl (by rw [if_neg hx])

/-! ## Speculative walks -/

theorem pteSize_le (sch : Scheme) : pteSize sch ≤ 8 := by cases sch <;> decide

/-- A walk for a fetch or a load changes, of memory, at most the Accessed bit of the leaf it reads. -/
theorem State.walk_accessed {s : State} {sch : Scheme} {acc : Access} {p : Priv} {va : Word} {t : Translated}
    (hacc : acc ≠ .store) (level : Nat) {a : Nat} {g : Bool} {path : List TlbEntry}
    (h : s.walk sch acc p va level a g path = .ok t) (x : Nat) :
    t.state.mem.read x = s.mem.read x
      ∨ ∃ b, s.mem.read x = some b ∧ t.state.mem.read x = some (b ||| 0x40) := by
  have leaf : ∀ {pte : Word} {level at_ : Nat} {g : Bool} {path : List TlbEntry},
      s.readPte sch acc va at_ = .ok pte → s.walkLeaf sch acc p va level g pte at_ path = .ok t →
      t.state.mem.read x = s.mem.read x
        ∨ ∃ b, s.mem.read x = some b ∧ t.state.mem.read x = some (b ||| 0x40) := by
    intro pte level at_ g path hr hw
    rcases (State.walkLeaf_ok hw).2.2.2.2.2 with ⟨-, hm⟩ | ⟨-, -, u, hu, hm⟩
    · exact .inl (by rw [hm])
    · obtain ⟨-, ⟨v, hv, rfl⟩, -⟩ := State.readPte_ok.mp hr
      rw [hm]
      exact State.physWrite_accessed (pteSize_le sch) hv (by simp [setAD, hacc]) hu x
  induction level generalizing a g path with
  | zero =>
    obtain ⟨pte, hr, ⟨-, hw⟩ | ⟨-, i, hi, -⟩⟩ := State.walk_ok.mp h
    · exact leaf hr hw
    · cases hi
  | succ n ih =>
    obtain ⟨pte, hr, ⟨-, hw⟩ | ⟨-, i, hi, hw⟩⟩ := State.walk_ok.mp h
    · exact leaf hr hw
    · cases hi; exact ih hw

/-- The same of a translation, whichever way it starts. -/
theorem State.translate_accessed {s : State} {acc : Access} {p : Priv} {va : Word} {t : Translated}
    (hacc : acc ≠ .store) (h : s.translate acc p va = .ok t) (x : Nat) :
    t.state.mem.read x = s.mem.read x
      ∨ ∃ b, s.mem.read x = some b ∧ t.state.mem.read x = some (b ||| 0x40) := by
  unfold State.translate at h
  split at h
  · cases h; exact .inl rfl
  · split at h
    · cases h
    · split at h
      · obtain ⟨-, ⟨-, hs⟩ | ⟨-, i, -, hw⟩⟩ := State.translateCached_ok h
        · rw [hs]; exact .inl rfl
        · exact State.walk_accessed hacc _ hw x
      · exact State.walk_accessed hacc _ h x

/-- A speculative walk changes nothing but what `WalkFrame` says, and of memory only Accessed bits. -/
theorem State.speculateOne_spec (s : State) (w : SpecWalk) :
    WalkFrame s (s.speculateOne w) ∧ ∀ x, (s.speculateOne w).mem.read x = s.mem.read x
      ∨ ∃ b, s.mem.read x = some b ∧ (s.speculateOne w).mem.read x = some (b ||| 0x40) := by
  unfold State.speculateOne
  dsimp only
  split
  · next t ht => exact ⟨State.translate_frame ht, State.translate_accessed (by split <;> simp) ht⟩
  all_goals exact ⟨WalkFrame.of_tlb s _, fun _ => .inl rfl⟩

end Sys2Proof.Machine
end

