-- ==== Sys2Proof/Laws/CsrInstr.lean ====
section
/-! SUPPORT. CSR instructions that complete: what `csrComplete` leaves of the state after the write, and what
`CsrWritten` (Reference.lean) gives. -/

namespace Sys2Proof.Machine

/-- The state after `rd` and the program counter are written is that after the CSR write, but for the
registers, the program counter and the retirement counter. -/
theorem State.csrComplete_eq (s t : State) (op : CsrOp) (rd : Reg) (r : Csr) (src : CsrSource) :
    ∃ regs, s.csrComplete t op rd r src =
      { t with
        regs := regs, pc := t.cfg.trunc (t.pc + 4)
        counters := if !(op.writes src && r.isInstret) then t.counters.retire else t.counters } := by
  unfold State.csrComplete
  cases op.reads rd
  · exact ⟨t.regs, rfl⟩
  · refine ⟨(t.writeReg rd (s.readCsr r)).regs, ?_⟩
    unfold State.writeReg
    rw [if_pos rfl]
    split <;> rfl

/-- A CSR outside the retirement counter's group reads as after the CSR write. -/
theorem State.readCsr_csrComplete (s t : State) (op : CsrOp) (rd : Reg) {r q : Csr} (src : CsrSource)
    (h : q.group ≠ .instret ∨ (op.writes src && r.isInstret) = true) :
    (s.csrComplete t op rd r src).readCsr q = t.readCsr q := by
  obtain ⟨regs, he⟩ := s.csrComplete_eq t op rd r src
  rw [he]
  refine readCsr_congr rfl rfl rfl rfl ?_
  rcases h with h | h
  · cases hg : q.group <;> first | exact absurd hg h | skip
    all_goals simp only [SameGroup, State.trapRegs]
    all_goals first | (split <;> simp [Counters.retire]) | simp
  · rw [h]
    cases q.group <;> simp [SameGroup, State.trapRegs]

/-- The old value read by a CSR instruction, as `rd` holds it afterwards. -/
theorem State.csrComplete_readReg {s t : State} (op : CsrOp) (rd : Reg) (r : Csr) (src : CsrSource) (x : Reg)
    (hc : t.cfg = s.cfg) (hr : t.regs = s.regs) :
    (s.csrComplete t op rd r src).readReg x =
      if x = 0 then 0 else if x = rd then s.cfg.trunc (s.readCsr r) else s.readReg x := by
  have hk : ∀ x, t.readReg x = s.readReg x := fun x => by simp only [State.readReg, hc, hr]
  unfold State.csrComplete
  rw [State.advance_readReg]
  by_cases h0 : x = 0
  · subst h0; rw [if_pos rfl]; simp [State.readReg]
  · rw [if_neg h0]
    cases hre : op.reads rd with
    | true =>
      rw [if_pos rfl, State.readReg_writeReg, if_neg h0, hc, hk]
    | false =>
      have hrd : rd = 0 := by
        cases op <;> simp [CsrOp.reads] at hre
        exact hre
      rw [if_neg (by simp), hk, if_neg (by rw [hrd]; exact h0)]

/-- Writing a value is writing its XLEN low bits. -/
theorem State.writeCsr_trunc (s : State) (r : Csr) (v : Word) :
    s.writeCsr r (s.cfg.trunc v) = s.writeCsr r v := by
  unfold State.writeCsr; rw [Config.trunc_trunc]

/-- The next state of a CSR instruction that wrote `v` to `r`: there is a state `w` after the write, and
`t` is `w` but for the integer registers, the program counter and the retirement counter. The write acts on
`s`, or on `s` after the side effect of the read. -/
theorem CsrWritten.inv {s t : State} {r : Csr} {v : Word} (h : CsrWritten s t r v) :
    s.cfg.trunc v = v ∧ r.implemented s.cfg = true ∧
      ∃ u w, (u = s ∨ u = s.afterRead r) ∧ u.cfg = s.cfg ∧ u.writeCsr r v = some w ∧ w.cfg = s.cfg
        ∧ (∀ q : Csr, q.group ≠ .instret ∨ r.isInstret = true → t.readCsr q = w.readCsr q)
        ∧ ∃ regs, t = { w with
            regs := regs, pc := s.cfg.trunc (s.pc + 4)
            counters := if !r.isInstret then w.counters.retire else w.counters } := by
  obtain ⟨i, f, hf, hr, ha, hw, hv, hwl, he⟩ := h
  have hacc := ha.access hr
  rw [exec_csrForm hf] at he
  have he := Host.Outcome.next.inj he
  have hvt : s.cfg.trunc v = v := by rw [hv, Config.trunc_trunc]
  refine ⟨hvt, (csrAt_some hr).1, ?_⟩
  unfold State.csrInstr at he
  rw [hacc] at he
  dsimp only at he
  cases hu : s.csrUpdate f.op f.rd r f.src with
  | none =>
    exfalso
    unfold State.csrUpdate at hu
    dsimp only at hu
    rw [if_pos hw] at hu
    have : ∀ u : State, u.cfg = s.cfg →
        u.writeCsr r (f.op.result (s.rmwValue r) (s.sourceValue f.src)) ≠ none := by
      intro u hc hn
      have := State.writeCsr_isSome u r (f.op.result (s.rmwValue r) (s.sourceValue f.src))
      rw [hn, hc] at this
      have e : wlrlAccepts s.cfg r v
          = wlrlAccepts s.cfg r (f.op.result (s.rmwValue r) (s.sourceValue f.src)) := by
        rw [hv]; cases r <;> simp [wlrlAccepts]
      rw [← e, hwl] at this
      cases this
    split at hu
    · exact this _ (s.afterRead_frame r).cfg hu
    · exact this _ rfl hu
  | some w =>
    rw [hu] at he
    dsimp only at he
    obtain ⟨u, hfr, -, hus, hwr⟩ := State.csrUpdate_write hu hw
    have hwc : w.cfg = s.cfg := ((State.csrUpdate_frame hu).1).cfg
    have hwp : w.pc = s.pc := ((State.csrUpdate_frame hu).1).pc
    refine ⟨u, w, hus, hfr.cfg, ?_, hwc, ?_, ?_⟩
    · rw [hv, ← hfr.cfg, State.writeCsr_trunc]; exact hwr
    · intro q hq
      rw [← he]
      exact State.readCsr_csrComplete s w f.op f.rd f.src (by rw [hw]; simpa using hq)
    · obtain ⟨regs, hx⟩ := s.csrComplete_eq w f.op f.rd r f.src
      refine ⟨regs, ?_⟩
      rw [← he, hx, hw, hwc, hwp]
      simp

end Sys2Proof.Machine
end

