-- ==== Sys2Proof/Laws/Decode.lean ====
section
/-! SUPPORT. The encoder and the decoder (Decode.lean): the fields of an assembled word, the decoder as
conditions on fields, and the four bytes of a word. -/

namespace Sys2Proof

/-! ## Fields of an assembled word -/

@[simp] theorem fieldOpcode_encodeI (imm : BitVec 12) (rs1 : BitVec 5) (f3 : BitVec 3) (rd : Reg) :
    fieldOpcode (encodeI imm rs1 f3 rd) = opSystem := by
  unfold fieldOpcode encodeI
  apply BitVec.eq_of_getLsbD_eq; intro i hi
  simp only [BitVec.getLsbD_extractLsb', BitVec.getLsbD_append, Nat.zero_add, hi, decide_true,
    Bool.true_and, if_true]

@[simp] theorem fieldRd_encodeI (imm : BitVec 12) (rs1 : BitVec 5) (f3 : BitVec 3) (rd : Reg) :
    fieldRd (encodeI imm rs1 f3 rd) = rd := by
  have h : (encodeI imm rs1 f3 rd).extractLsb' 7 5 = regField rd := by
    unfold encodeI
    apply BitVec.eq_of_getLsbD_eq; intro i hi
    have a : ¬ 7 + i < 7 := by omega
    have b : 7 + i - 7 = i := by omega
    simp only [BitVec.getLsbD_extractLsb', BitVec.getLsbD_append, hi, decide_true, Bool.true_and, a, b,
      if_false, if_true]
  unfold fieldRd; rw [h]; rfl

@[simp] theorem fieldFunct3_encodeI (imm : BitVec 12) (rs1 : BitVec 5) (f3 : BitVec 3) (rd : Reg) :
    fieldFunct3 (encodeI imm rs1 f3 rd) = f3 := by
  unfold fieldFunct3 encodeI
  apply BitVec.eq_of_getLsbD_eq; intro i hi
  have a : ¬ 12 + i < 7 := by omega
  have b : ¬ 12 + i - 7 < 5 := by omega
  have c : 12 + i - 7 - 5 = i := by omega
  simp only [BitVec.getLsbD_extractLsb', BitVec.getLsbD_append, hi, decide_true, Bool.true_and, a, b, c,
    if_false, if_true]

@[simp] theorem fieldUimm_encodeI (imm : BitVec 12) (rs1 : BitVec 5) (f3 : BitVec 3) (rd : Reg) :
    fieldUimm (encodeI imm rs1 f3 rd) = rs1 := by
  unfold fieldUimm encodeI
  apply BitVec.eq_of_getLsbD_eq; intro i hi
  have a : ¬ 15 + i < 7 := by omega
  have b : ¬ 15 + i - 7 < 5 := by omega
  have c : ¬ 15 + i - 7 - 5 < 3 := by omega
  have d : 15 + i - 7 - 5 - 3 = i := by omega
  simp only [BitVec.getLsbD_extractLsb', BitVec.getLsbD_append, hi, decide_true, Bool.true_and, a, b, c, d,
    if_false, if_true]

@[simp] theorem fieldCsr_encodeI (imm : BitVec 12) (rs1 : BitVec 5) (f3 : BitVec 3) (rd : Reg) :
    fieldCsr (encodeI imm rs1 f3 rd) = imm := by
  unfold fieldCsr encodeI
  apply BitVec.eq_of_getLsbD_eq; intro i hi
  have a : ¬ 20 + i < 7 := by omega
  have b : ¬ 20 + i - 7 < 5 := by omega
  have c : ¬ 20 + i - 7 - 5 < 3 := by omega
  have d : ¬ 20 + i - 7 - 5 - 3 < 5 := by omega
  have e : 20 + i - 7 - 5 - 3 - 5 = i := by omega
  simp only [BitVec.getLsbD_extractLsb', BitVec.getLsbD_append, hi, decide_true, Bool.true_and, a, b, c, d, e,
    if_false]

/-- The register at `rs1` is the field of `uimm` as a number (R205). -/
theorem fieldRs1_eq (w : BitVec 32) : fieldRs1 w = (fieldUimm w).toFin := rfl

/-- `rs2` is the low five bits of the CSR field (R202, R203). -/
theorem fieldRs2_eq (w : BitVec 32) : fieldRs2 w = ((fieldCsr w).extractLsb' 0 5).toFin := by
  unfold fieldRs2 fieldCsr
  congr 1
  apply BitVec.eq_of_getLsbD_eq; intro i hi
  have h : i < 12 := by omega
  simp [hi, h]

/-- `funct7` is the upper seven bits of the CSR field (R202, R203). -/
theorem fieldFunct7_eq (w : BitVec 32) : fieldFunct7 w = (fieldCsr w).extractLsb' 5 7 := by
  unfold fieldFunct7 fieldCsr
  apply BitVec.eq_of_getLsbD_eq; intro i hi
  have h : 5 + i < 12 := by omega
  have e : 20 + (5 + i) = 25 + i := by omega
  simp [hi, h, e]

/-- The R-type format is the I-type one with `funct7` and `rs2` in the place of the immediate (R202,
R203). -/
theorem encodeR_eq (f7 : BitVec 7) (rs2 rs1 : Reg) (f3 : BitVec 3) (rd : Reg) :
    encodeR f7 rs2 rs1 f3 rd = encodeI (f7 ++ regField rs2) (regField rs1) f3 rd := rfl

theorem append_low (f7 : BitVec 7) (r : BitVec 5) : (f7 ++ r).extractLsb' 0 5 = r := by
  apply BitVec.eq_of_getLsbD_eq; intro i hi
  rw [BitVec.getLsbD_extractLsb', BitVec.getLsbD_append]
  simp only [Nat.zero_add, hi, decide_true, Bool.true_and, if_true]

theorem append_high (f7 : BitVec 7) (r : BitVec 5) : (f7 ++ r).extractLsb' 5 7 = f7 := by
  apply BitVec.eq_of_getLsbD_eq; intro i hi
  have a : ¬ 5 + i < 5 := by omega
  rw [BitVec.getLsbD_extractLsb', BitVec.getLsbD_append]
  simp only [hi, decide_true, Bool.true_and, a, if_false, Nat.add_sub_cancel_left]

theorem append_parts (v : BitVec 12) : v.extractLsb' 5 7 ++ v.extractLsb' 0 5 = v := by
  apply BitVec.eq_of_getLsbD_eq; intro i hi
  rw [BitVec.getLsbD_append]
  by_cases h : i < 5
  · simp [h]
  · have a : i - 5 < 7 := by omega
    have b : 5 + (i - 5) = i := by omega
    simp [h, a, b]

/-- A word is its six I-type fields (R202). -/
theorem word_eq_fieldsI (w : BitVec 32) :
    encodeI (fieldCsr w) (fieldUimm w) (fieldFunct3 w) (fieldRd w) = w ↔ fieldOpcode w = opSystem := by
  unfold encodeI regField fieldCsr fieldUimm fieldFunct3 fieldRd fieldOpcode
  constructor
  · intro h
    rw [← h]
    apply BitVec.eq_of_getLsbD_eq
    intro i hi
    simp only [BitVec.getLsbD_extractLsb', BitVec.getLsbD_append, Nat.zero_add, hi, decide_true, Bool.true_and,
      if_true]
  · intro h
    apply BitVec.eq_of_getLsbD_eq
    intro i hi
    simp only [BitVec.getLsbD_append, ← h, BitVec.getLsbD_extractLsb']
    have hfin : ∀ (n : Nat) (v : BitVec n), BitVec.ofFin v.toFin = v := fun _ _ => rfl
    simp only [hfin, BitVec.getLsbD_extractLsb']
    by_cases h7 : i < 7
    · simp [h7]
    · by_cases h12 : i < 12
      · have : i - 7 < 5 := by omega
        have e : 7 + (i - 7) = i := by omega
        simp [h7, this, e]
      · by_cases h15 : i < 15
        · have a : ¬ (i - 7 < 5) := by omega
          have b : i - 7 - 5 < 3 := by omega
          have e : 12 + (i - 7 - 5) = i := by omega
          simp [h7, a, b, e]
        · by_cases h20 : i < 20
          · have a : ¬ (i - 7 < 5) := by omega
            have b : ¬ (i - 7 - 5 < 3) := by omega
            have d : i - 7 - 5 - 3 < 5 := by omega
            have e : 15 + (i - 7 - 5 - 3) = i := by omega
            simp [h7, a, b, d, e]
          · have a : ¬ (i - 7 < 5) := by omega
            have b : ¬ (i - 7 - 5 < 3) := by omega
            have d : ¬ (i - 7 - 5 - 3 < 5) := by omega
            have e : 20 + (i - 7 - 5 - 3 - 5) = i := by omega
            have f : i - 7 - 5 - 3 - 5 < 12 := by omega
            simp [h7, a, b, d, e, f]

/-! ## Masks (R208) -/

/-- A field on which the mask is all ones is that of the word. -/
theorem extractLsb'_mask {n : Nat} (w m : BitVec 32) (a : Nat) (h : m.extractLsb' a n = BitVec.allOnes n) :
    (w &&& m).extractLsb' a n = w.extractLsb' a n := by
  rw [BitVec.extractLsb'_and, h, BitVec.and_allOnes]

/-- The mask of the CSR instructions fixes the opcode and `funct3` and nothing else (R206, R208). -/
theorem csr_mask_iff (w : BitVec 32) (f3 : BitVec 3) :
    w &&& 0x0000707F = encodeI 0 0 f3 0 ↔ fieldOpcode w = opSystem ∧ fieldFunct3 w = f3 := by
  constructor
  · intro h
    have a : fieldOpcode w = fieldOpcode (w &&& 0x707F) := (extractLsb'_mask w _ 0 (by decide)).symm
    have b : fieldFunct3 w = fieldFunct3 (w &&& 0x707F) := (extractLsb'_mask w _ 12 (by decide)).symm
    rw [a, b, h]; exact ⟨fieldOpcode_encodeI .., fieldFunct3_encodeI ..⟩
  · rintro ⟨ho, h3⟩
    have e := (word_eq_fieldsI w).mpr ho
    apply BitVec.eq_of_getLsbD_eq
    intro i hi
    have hm : ∀ i < 32, (0x0000707F#32).getLsbD i
        = (decide (i < 7) || (decide (12 ≤ i) && decide (i < 15))) := by decide
    rw [BitVec.getLsbD_and]
    rw [show (0x0000707F : BitVec 32).getLsbD i = _ from hm i hi]
    rw [← e, h3]
    unfold encodeI regField
    simp only [BitVec.getLsbD_append]
    by_cases h7 : i < 7
    · simp [h7]
    · by_cases h12 : i < 12
      · have : i - 7 < 5 := by omega
        have n12 : ¬ 12 ≤ i := by omega
        simp [h7, this, n12]
      · have n12 : 12 ≤ i := by omega
        by_cases h15 : i < 15
        · have a : ¬ (i - 7 < 5) := by omega
          have b : i - 7 - 5 < 3 := by omega
          simp [h7, n12, h15, a, b]
        · have a : ¬ (i - 7 < 5) := by omega
          have b : ¬ (i - 7 - 5 < 3) := by omega
          simp [h7, h15, a, b]

/-- The mask of SFENCE.VMA fixes the opcode, `funct3`, `rd` and `funct7` and nothing else (R207, R208). -/
theorem sfence_mask_iff (w : BitVec 32) :
    w &&& 0xFE007FFF = 0x12000073 ↔
      fieldOpcode w = opSystem ∧ fieldFunct3 w = 0 ∧ fieldRd w = 0 ∧ fieldFunct7 w = 0b0001001 := by
  constructor
  · intro h
    have a : fieldOpcode w = fieldOpcode (w &&& 0xFE007FFF) := (extractLsb'_mask w _ 0 (by decide)).symm
    have b : fieldFunct3 w = fieldFunct3 (w &&& 0xFE007FFF) := (extractLsb'_mask w _ 12 (by decide)).symm
    have c : fieldRd w = fieldRd (w &&& 0xFE007FFF) :=
      congrArg BitVec.toFin (extractLsb'_mask w _ 7 (by decide)).symm
    have d : fieldFunct7 w = fieldFunct7 (w &&& 0xFE007FFF) := (extractLsb'_mask w _ 25 (by decide)).symm
    rw [a, b, c, d, h]; decide
  · rintro ⟨ho, h3, hd, h7⟩
    have e := (word_eq_fieldsI w).mpr ho
    apply BitVec.eq_of_getLsbD_eq
    intro i hi
    have hm : ∀ i < 32, (0xFE007FFF#32).getLsbD i = (decide (i < 15) || decide (25 ≤ i)) := by decide
    rw [BitVec.getLsbD_and]
    rw [show (0xFE007FFF : BitVec 32).getLsbD i = _ from hm i hi]
    have hc : fieldCsr w = (0b0001001#7) ++ (fieldCsr w).extractLsb' 0 5 := by
      have := append_parts (fieldCsr w)
      rw [← fieldFunct7_eq, h7] at this
      exact this.symm
    rw [← e, h3, hd, hc]
    have hk : (0x12000073 : BitVec 32) = encodeI (0b0001001#7 ++ 0#5) 0 0 0 := by decide
    rw [hk]
    unfold encodeI regField
    simp only [BitVec.getLsbD_append]
    by_cases l7 : i < 7
    · simp [l7]; omega
    · by_cases h12 : i < 12
      · have : i - 7 < 5 := by omega
        simp [l7, this]
      · by_cases h15 : i < 15
        · have a : ¬ (i - 7 < 5) := by omega
          have b : i - 7 - 5 < 3 := by omega
          simp [l7, a, b]
        · have a : ¬ (i - 7 < 5) := by omega
          have b : ¬ (i - 7 - 5 < 3) := by omega
          by_cases h20 : i < 20
          · have c : i - 7 - 5 - 3 < 5 := by omega
            have n : ¬ 25 ≤ i := by omega
            simp [l7, h15, a, b, c, n]
          · have c : ¬ i - 7 - 5 - 3 < 5 := by omega
            by_cases h25 : i < 25
            · have d : i - 7 - 5 - 3 - 5 < 5 := by omega
              have n : ¬ 25 ≤ i := by omega
              simp [l7, h15, a, b, c, d, n]
            · have d : ¬ i - 7 - 5 - 3 - 5 < 5 := by omega
              have n : 25 ≤ i := by omega
              simp [l7, h15, a, b, c, d, n]

/-! ## Bytes -/

/-- The bytes of a value, read back little-endian, give the value cut to their width (R146). -/
theorem littleEndian_bytesOf (n v : Nat) : littleEndian (bytesOf n v) = v % 2 ^ (8 * n) := by
  induction n generalizing v with
  | zero => simp [bytesOf, littleEndian, Nat.mod_one]
  | succ n ih =>
    have h : 2 ^ (8 * (n + 1)) = 256 * 2 ^ (8 * n) := by rw [Nat.mul_succ, Nat.pow_add]; omega
    rw [bytesOf, littleEndian, ih, h, Nat.mod_mul, BitVec.toNat_ofNat]

theorem bytesOf_length (n v : Nat) : (bytesOf n v).length = n := by
  induction n generalizing v with
  | zero => rfl
  | succ n ih => simp [bytesOf, ih]

/-- Decoding the four bytes of a word is decoding the word (R201). -/
theorem decodeBytes_bytesOf (w : BitVec 32) : decodeBytes (bytesOf 4 w.toNat) = decodeWord w := by
  unfold decodeBytes
  have hl := bytesOf_length 4 w.toNat
  have ht : (bytesOf 4 w.toNat).take 4 = bytesOf 4 w.toNat := List.take_of_length_le (by omega)
  rw [if_neg (by omega), ht, littleEndian_bytesOf]
  congr 1
  apply BitVec.eq_of_toNat_eq
  rw [BitVec.toNat_ofNat]
  omega

end Sys2Proof
end

