-- ==== Sys2Proof/Laws/Legal.lean ====
section
/-! SUPPORT. The values that fields can hold: what each `legal…` function of Machine/Legalize.lean makes is
a value its register can hold. -/

namespace Sys2Proof.Machine

/-! ## `Legalize_f` (R76) -/

/-- The form of `xtvec` is an XLEN-bit value with a supported `MODE` and an aligned `BASE` (R98). -/
theorem tvecHeld_tvecForm (c : Config) (x : Priv) (v : Word) : tvecHeld c (c.tvecForm x v) := by
  have h1 : (1 : Word).getLsbD 1 = false := by decide
  have hb : 32 ≤ c.xlen.bits := c.xlen.bits_ge
  unfold tvecHeld Config.tvecForm
  cases hv : c.tvecVectored x v with
  | true =>
    have hvt : c.vectoredTraps = true := (Bool.and_eq_true_iff.mp hv).1
    refine ⟨?_, ?_, fun _ => hvt⟩
    · rw [if_pos rfl, Config.trunc_or, Config.trunc_clearLow, Config.trunc_trunc]
      congr 1
      apply Word.ext; intro i
      rw [Config.trunc_getLsbD]
      simp only [Bool.and_eq_right_iff_imp]
      intro hi
      simp at hi ⊢
      omega
    · rw [if_pos rfl, BitVec.getLsbD_or, clearLow_getLsbD, h1]; simp
  | false =>
    refine ⟨?_, ?_, ?_⟩
    · rw [if_neg (by simp), Config.trunc_clearLow, Config.trunc_trunc]
    · rw [if_neg (by simp), clearLow_getLsbD]; simp
    · rw [if_neg (by simp), clearLow_getLsbD]; simp

/-- Each bit of the form of `xtvec`: bit 0 says Vectored, bit 1 is zero, `BASE` is as given down to the
alignment of the mode (R98). -/
theorem tvecForm_getLsbD (c : Config) (x : Priv) (v : Word) (k : Nat) :
    (c.tvecForm x v).getLsbD k =
      if k = 0 then c.tvecVectored x v
      else decide (2 ≤ k) && decide ((if c.tvecVectored x v then (c.tvecAlign x).vectored
        else (c.tvecAlign x).direct) ≤ k) && (c.trunc v).getLsbD k := by
  have h1 : ∀ k, (1 : Word).getLsbD k = decide (k = 0) := fun k => by simp
  unfold Config.tvecForm
  cases hv : c.tvecVectored x v
  · simp only [Bool.false_eq_true, if_false, clearLow_getLsbD]
    by_cases h0 : k = 0
    · subst h0; simp
    · simp only [h0, if_false, Nat.max_le]
      by_cases h2 : 2 ≤ k <;> by_cases h3 : (c.tvecAlign x).direct ≤ k <;>
        simp [h2, h3]
  · simp only [if_true, BitVec.getLsbD_or, clearLow_getLsbD, h1]
    by_cases h0 : k = 0
    · subst h0; simp
    · simp only [h0, if_false, Nat.max_le, decide_false, Bool.or_false]
      by_cases h2 : 2 ≤ k <;> by_cases h3 : (c.tvecAlign x).vectored ≤ k <;>
        simp [h2, h3]

/-- A PMP byte of a form that can be held is its own form (R172, R176). -/
theorem pmpByteForm_of_held {c : Config} {b : Byte} (h : pmpByteHeld c b) : c.pmpByteForm b = b := by
  obtain ⟨h5, h6, h1, h2⟩ := h
  have hr : pmpRwxForm b = b := by
    unfold pmpRwxForm
    have hn : (b.getLsbD 1 && !b.getLsbD 0) = false := by
      cases hw : b.getLsbD 1
      · rfl
      · simp [h1 hw]
    rw [hn]
    apply BitVec.eq_of_getLsbD_eq; intro i hi
    have : i = 0 ∨ i = 1 ∨ i = 2 ∨ i = 3 ∨ i = 4 ∨ i = 5 ∨ i = 6 ∨ i = 7 := by omega
    rcases this with rfl | rfl | rfl | rfl | rfl | rfl | rfl | rfl <;> simp_all
  have hn : (c.pmpGrain != 0 && b.extractLsb' 3 2 == 2) = false := by
    by_cases hg : c.pmpGrain = 0
    · simp [hg]
    · have := h2 hg
      rw [Bool.and_eq_false_iff]
      exact .inr (beq_eq_false_iff_ne.mpr this)
  unfold Config.pmpByteForm
  rw [hn, hr]; rfl

theorem pmpRwxForm_held (b : Byte) :
    (pmpRwxForm b).getLsbD 5 = false ∧ (pmpRwxForm b).getLsbD 6 = false
      ∧ ((pmpRwxForm b).getLsbD 1 = true → (pmpRwxForm b).getLsbD 0 = true)
      ∧ ∀ k, k = 3 ∨ k = 4 ∨ k = 7 → (pmpRwxForm b).getLsbD k = b.getLsbD k := by
  unfold pmpRwxForm
  dsimp only
  split
  · generalize (Config.pmpReservedRwx b).getLsbD 0 = x
    generalize (Config.pmpReservedRwx b).getLsbD 1 = y
    generalize (Config.pmpReservedRwx b).getLsbD 2 = z
    refine ⟨?_, ?_, ?_, ?_⟩
    · cases x <;> cases y <;> cases z <;> simp
    · cases x <;> cases y <;> cases z <;> simp
    · cases x <;> cases y <;> cases z <;> simp
    · rintro k (rfl | rfl | rfl) <;> cases x <;> cases y <;> cases z <;> simp
  · next h =>
    refine ⟨by simp, by simp, by simpa using h, ?_⟩
    rintro k (rfl | rfl | rfl) <;> simp

/-- The form of a PMP configuration byte can be held (R172, R176). -/
theorem pmpByteHeld_pmpByteForm (c : Config) (b : Byte) : pmpByteHeld c (c.pmpByteForm b) := by
  obtain ⟨h5, h6, h1, h3⟩ := pmpRwxForm_held b
  unfold Config.pmpByteForm
  split
  · refine ⟨by rw [BitVec.getLsbD_and, h5]; rfl, by rw [BitVec.getLsbD_and, h6]; rfl, by simpa using h1,
      fun _ => ?_⟩
    have : (pmpRwxForm b &&& 0xE7).extractLsb' 3 2 = 0 := by
      apply BitVec.eq_of_getLsbD_eq; intro i hi
      have : i = 0 ∨ i = 1 := by omega
      rcases this with rfl | rfl <;> simp
    rw [this]; decide
  · next h =>
    refine ⟨h5, h6, h1, fun hg => ?_⟩
    have e : (pmpRwxForm b).extractLsb' 3 2 = b.extractLsb' 3 2 := by
      apply BitVec.eq_of_getLsbD_eq; intro i hi
      have : i = 0 ∨ i = 1 := by omega
      rcases this with rfl | rfl
      · simpa using h3 3 (.inl rfl)
      · simpa using h3 4 (.inr (.inl rfl))
    rw [e]
    simpa [hg] using h

/-- The form of `xtvec` is a value of that form. -/
theorem tvecForm_tvecForm (c : Config) (x : Priv) (v : Word) :
    c.tvecForm x (c.tvecForm x v) = c.tvecForm x v := by
  obtain ⟨ht, h1, hv⟩ := tvecHeld_tvecForm c x v
  have hb : (c.tvecForm x v).extractLsb' 0 2 = if (c.tvecForm x v).getLsbD 0 then 1 else 0 := by
    apply BitVec.eq_of_getLsbD_eq; intro i hi
    have : i = 0 ∨ i = 1 := by omega
    rcases this with rfl | rfl <;> cases h0 : (c.tvecForm x v).getLsbD 0 <;> simp_all
  have h0 : (c.tvecForm x v).getLsbD 0 = c.tvecVectored x v := by rw [tvecForm_getLsbD]; simp
  have hvec : c.tvecVectored x (c.tvecForm x v) = c.tvecVectored x v := by
    conv_lhs => unfold Config.tvecVectored
    rw [hb, h0]
    cases hc : c.tvecVectored x v
    · simp
    · simpa using hv (h0.trans hc)
  apply Word.ext; intro k
  rw [tvecForm_getLsbD, hvec, ht, tvecForm_getLsbD]
  by_cases hk : k = 0
  · simp [hk]
  · simp only [hk, if_false]
    cases decide (2 ≤ k) <;>
      cases decide ((if c.tvecVectored x v then (c.tvecAlign x).vectored else (c.tvecAlign x).direct) ≤ k) <;>
      cases (c.trunc v).getLsbD k <;> rfl

end Sys2Proof.Machine

namespace Sys2Proof

open Machine

/-- The form of a field is a value of that form (R76). -/
@[simp] theorem Config.warlForm_warlForm (c : Config) (f : WarlField) (v : Word) :
    c.warlForm f (c.warlForm f v) = c.warlForm f v := by
  cases f
  case tvec x => exact tvecForm_tvecForm c x v
  case pmpcfg i =>
    have e : ((c.pmpByteForm (v.extractLsb' 0 8)).zeroExtend 64).extractLsb' 0 8
        = c.pmpByteForm (v.extractLsb' 0 8) := by
      apply BitVec.eq_of_getLsbD_eq; intro k hk; simp [hk]; omega
    simp only [Config.warlForm, e, pmpByteForm_of_held (pmpByteHeld_pmpByteForm c _)]
  all_goals simp [Config.warlForm, BitVec.and_assoc]

@[simp] theorem Config.warlForm_zero (c : Config) (f : WarlField) : c.warlForm f 0 = 0 := by
  cases f
  case tvec x =>
    apply Word.ext; intro k
    show (c.tvecForm x 0).getLsbD k = _
    rw [tvecForm_getLsbD, Config.trunc_zero]
    simp [Config.tvecVectored]
  case epc =>
    show clearLow 2 (c.trunc 0) = 0
    rw [Config.trunc_zero]; simp [clearLow]
  case hpmevent => exact c.trunc_zero
  case pmpcfg i =>
    have h : pmpByteHeld c 0 := ⟨rfl, rfl, fun h => absurd h (by decide), fun _ h => absurd h (by decide)⟩
    show (c.pmpByteForm 0).zeroExtend 64 = 0
    rw [pmpByteForm_of_held h]; rfl
  all_goals simp [Config.warlForm]

/-- What `Legalize_f` leaves: the value written where the field holds it, otherwise a value of its choices
that the field holds, or zero where it holds none of them. -/
theorem Config.legalize_cases (c : Config) (f : WarlField) (v : Word) :
    c.warlHolds f (c.legalize f v) = true
      ∨ (c.legalize f v = 0 ∧ ∀ w ∈ c.warlChoices f v, c.warlHolds f w = false) := by
  unfold Config.legalize
  split
  · next h => exact .inl h
  · cases h : (c.warlChoices f v).find? (c.warlHolds f) with
    | some w => exact .inl (List.find?_some h)
    | none => exact .inr ⟨rfl, by simpa using h⟩

theorem Config.legalize_of_holds {c : Config} {f : WarlField} {v : Word} (h : c.warlHolds f v = true) :
    c.legalize f v = v := by
  unfold Config.legalize; rw [if_pos h]

theorem Config.warlHolds_form {c : Config} {f : WarlField} {v : Word} (h : c.warlHolds f v = true) :
    c.warlForm f v = v := by
  simpa using (Bool.and_eq_true_iff.mp h).1

/-- What a field takes is of its form (R76). -/
@[simp] theorem Config.warlForm_legalize (c : Config) (f : WarlField) (v : Word) :
    c.warlForm f (c.legalize f v) = c.legalize f v := by
  rcases c.legalize_cases f v with h | ⟨h, -⟩
  · exact Config.warlHolds_form h
  · rw [h, Config.warlForm_zero]

/-- What a field may leave for zero it may leave for any value. -/
theorem Config.warlChoices_zero {c : Config} {f : WarlField} (v : Word) {w : Word}
    (h : w ∈ c.warlChoices f 0) : w ∈ c.warlChoices f v := by
  simp only [Config.warlChoices, List.mem_append, List.mem_map, List.mem_filter, List.mem_cons,
    Bool.and_eq_true, Config.warlForm_zero] at h ⊢
  rcases h with ⟨e, ⟨he, hef, -⟩, rfl⟩ | rfl | ⟨e, he, rfl⟩ | rfl | h
  · exact .inr (.inr (.inl ⟨e, ⟨he, hef⟩, rfl⟩))
  · exact .inr (.inr (.inr (.inl rfl)))
  · exact .inr (.inr (.inl ⟨e, he, rfl⟩))
  · exact .inr (.inr (.inr (.inl rfl)))
  · cases h

/-- A value a field has taken is one it keeps: `Legalize(v) = v` for a legal `v` (R76). -/
@[simp] theorem Config.legalize_legalize (c : Config) (f : WarlField) (v : Word) :
    c.legalize f (c.legalize f v) = c.legalize f v := by
  rcases c.legalize_cases f v with h | ⟨h, hn⟩
  · exact Config.legalize_of_holds h
  · rw [h]
    unfold Config.legalize
    split
    · rfl
    · have hf : (c.warlChoices f 0).find? (c.warlHolds f) = none :=
        List.find?_eq_none.mpr fun w hw => by simp [hn w (Config.warlChoices_zero v hw)]
      rw [hf]; rfl

/-- A value that the spec asks a field to hold is kept (R108). -/
theorem Config.legalize_of_asked {c : Config} {f : WarlField} {v : Word} (ha : c.warlAsked f v = true)
    (hf : c.warlForm f v = v) : c.legalize f v = v :=
  Config.legalize_of_holds (by simp [Config.warlHolds, ha, hf])

/-- Where the parameters make no exception, a field takes the form of what is written. -/
theorem Config.legalize_of_unexcepted {c : Config} {f : WarlField} (h : ∀ e ∈ c.warl, e.field ≠ f)
    (v : Word) : c.legalize f v = c.warlForm f v := by
  have hn : ∀ w, (c.warl.any fun e => e.field == f && e.written == w && e.held != w) = false := by
    intro w
    rw [List.any_eq_false]
    intro e he
    simp [h e he]
  have hc : ∀ p : WarlEntry → Bool, (c.warl.filter fun e => e.field == f && p e) = [] := by
    intro p
    rw [List.filter_eq_nil_iff]
    intro e he
    simp [h e he]
  have hh : ∀ w, c.warlHolds f w = (c.warlForm f w == w) := by
    intro w; simp [Config.warlHolds, hn]
  unfold Config.legalize
  split
  · next hv => exact (Config.warlHolds_form hv).symm
  · unfold Config.warlChoices
    rw [hc fun e => e.written == v]
    simp [hh]

end Sys2Proof

namespace Sys2Proof.Machine

/-- What `xtvec` takes is a value it can hold (R98). -/
theorem tvecHeld_legalize (c : Config) (x : Priv) (v : Word) : tvecHeld c (c.legalize (.tvec x) v) := by
  rw [← c.warlForm_legalize]; exact tvecHeld_tvecForm c x _

/-- What a PMP configuration byte takes can be held (R172, R176). -/
theorem pmpByteHeld_legalPmpByte (c : Config) (i : Fin 16) (b : Byte) :
    pmpByteHeld c (c.legalPmpByte i b) := by
  unfold Config.legalPmpByte
  rw [← c.warlForm_legalize]
  have e : ∀ w : Byte, (w.zeroExtend 64).extractLsb' 0 8 = w := by
    intro w; apply BitVec.eq_of_getLsbD_eq; intro k hk; simp [hk]; omega
  simp only [Config.warlForm, e]
  exact pmpByteHeld_pmpByteForm c _

/-- What a counter enable takes is kept (R76), and has no bit that is hard-wired 0 (R106). -/
theorem legalEnable_spec (c : Config) (v : BitVec 32) :
    c.legalEnable .mcounteren (c.legalEnable .mcounteren v) = c.legalEnable .mcounteren v
      ∧ c.legalEnable .scounteren (c.legalEnable .scounteren v) = c.legalEnable .scounteren v
      ∧ c.legalEnable .mcounteren v &&& c.mcounterenMask = c.legalEnable .mcounteren v
      ∧ c.legalEnable .scounteren v &&& c.scounterenMask = c.legalEnable .scounteren v := by
  have low : ∀ (w : Word) (m : BitVec 32), w &&& m.zeroExtend 64 = w →
      (w.extractLsb' 0 32).zeroExtend 64 = w ∧ w.extractLsb' 0 32 &&& m = w.extractLsb' 0 32 := by
    intro w m h
    constructor
    · apply Word.ext; intro i
      rw [← h]
      by_cases hi : i < 32
      · simp [hi]; intros; omega
      · simp [BitVec.getLsbD_of_ge m i (by omega)]
    · apply BitVec.eq_of_getLsbD_eq; intro i hi
      have := congrArg (BitVec.getLsbD · i) h
      simp at this
      simp only [BitVec.getLsbD_and, BitVec.getLsbD_extractLsb', hi, decide_true, Bool.true_and, Nat.zero_add]
      cases hw : w.getLsbD i
      · rfl
      · simp [(this hw).2]
  have hm := low _ _ (c.warlForm_legalize .mcounteren (v.zeroExtend 64))
  have hs := low _ _ (c.warlForm_legalize .scounteren (v.zeroExtend 64))
  unfold Config.legalEnable
  exact ⟨by rw [hm.1, c.legalize_legalize], by rw [hs.1, c.legalize_legalize], hm.2, hs.2⟩

/-- A byte after its bits 7, 4 and 3 are cleared is off and unlocked, and of a legal form if it was. -/
theorem pmpByteHeld_off {c : Config} {b : Byte} (h : pmpByteHeld c b) :
    pmpByteHeld c (b &&& 0x67) ∧ (b &&& 0x67).extractLsb' 3 2 = 0 ∧ (b &&& 0x67).getLsbD 7 = false := by
  obtain ⟨h5, h6, h1, -⟩ := h
  have hA : (b &&& 0x67).extractLsb' 3 2 = 0 := by
    apply BitVec.eq_of_getLsbD_eq; intro i hi
    have : i = 0 ∨ i = 1 := by omega
    rcases this with rfl | rfl <;> simp
  refine ⟨⟨?_, ?_, ?_, ?_⟩, hA, by simp⟩
  · rw [BitVec.getLsbD_and, h5]; rfl
  · rw [BitVec.getLsbD_and, h6]; rfl
  · simpa using h1
  · intro _; rw [hA]; decide

theorem extract_zeroExtend_byte (b : Byte) : (b.zeroExtend 64).extractLsb' 0 8 = b := by
  apply BitVec.eq_of_getLsbD_eq; intro k hk; simp [hk]; omega

/-- A PMP byte that its field holds is kept (R76). -/
theorem legalPmpByte_of_holds {c : Config} {i : Fin 16} {b : Byte}
    (h : c.warlHolds (.pmpcfg i) (b.zeroExtend 64) = true) : c.legalPmpByte i b = b := by
  unfold Config.legalPmpByte
  rw [Config.legalize_of_holds h, extract_zeroExtend_byte]

/-- What a PMP configuration byte takes is kept (R76). -/
@[simp] theorem legalPmpByte_legalPmpByte (c : Config) (i : Fin 16) (b : Byte) :
    c.legalPmpByte i (c.legalPmpByte i b) = c.legalPmpByte i b := by
  have e : ((c.legalize (.pmpcfg i) (b.zeroExtend 64)).extractLsb' 0 8).zeroExtend 64
      = c.legalize (.pmpcfg i) (b.zeroExtend 64) := by
    rw [← c.warlForm_legalize]
    simp only [Config.warlForm, extract_zeroExtend_byte]
  unfold Config.legalPmpByte
  rw [e, c.legalize_legalize]

/-- A PMP byte always holds zero, OFF and unlocked (D4). -/
theorem warlHolds_pmpcfg_zero (c : Config) (i : Fin 16) : c.warlHolds (.pmpcfg i) 0 = true := by
  simp only [Config.warlHolds, Config.warlAsked, Config.warlForm_zero, beq_self_eq_true, Bool.true_or,
    Bool.and_self]

/-- A reset PMP byte is off, unlocked, of a legal form, and a value that its field keeps (R342, D4). -/
theorem resetPmpByte_held (c : Config) (i : Fin 16) (b : Byte) :
    pmpByteHeld c (resetPmpByte c i b) ∧ c.legalPmpByte i (resetPmpByte c i b) = resetPmpByte c i b
      ∧ (resetPmpByte c i b).extractLsb' 3 2 = 0 ∧ (resetPmpByte c i b).getLsbD 7 = false := by
  obtain ⟨h1, h2, h3⟩ := pmpByteHeld_off (pmpByteHeld_pmpByteForm c b)
  unfold resetPmpByte
  dsimp only
  split
  · next h => exact ⟨h1, legalPmpByte_of_holds h, h2, h3⟩
  · exact ⟨⟨rfl, rfl, fun h => absurd h (by decide), fun _ h => absurd h (by decide)⟩,
      legalPmpByte_of_holds (warlHolds_pmpcfg_zero c i), by decide, rfl⟩

/-! ## Other registers -/

/-- The mode field of a word after the bits of `satp` that exist are kept (R120). -/
theorem satpMode_satpBits (c : Config) (v : Word) : c.satpMode (v &&& c.satpBits) = c.satpMode v := by
  unfold Config.satpMode Config.satpBits
  cases c.xlen with
  | rv32 =>
    dsimp only
    congr 1
    apply BitVec.eq_of_getLsbD_eq; intro i hi
    obtain rfl : i = 0 := by omega
    simp
  | rv64 =>
    dsimp only
    congr 1
    apply BitVec.eq_of_getLsbD_eq; intro i hi
    have : i = 0 ∨ i = 1 ∨ i = 2 ∨ i = 3 := by omega
    rcases this with rfl | rfl | rfl | rfl <;> simp

/-- What `satp` takes: a supported mode and the bits that exist, if it held such a value (R120). -/
theorem legalSatp_held (c : Config) {old : Word} (v : Word)
    (h : c.satpModeSupported (c.satpMode old) = true ∧ old &&& c.satpBits = old) :
    c.satpModeSupported (c.satpMode (c.legalSatp old v)) = true
      ∧ c.legalSatp old v &&& c.satpBits = c.legalSatp old v := by
  unfold Config.legalSatp
  split
  · next hm => exact ⟨by rw [satpMode_satpBits]; exact hm, by rw [BitVec.and_assoc, BitVec.and_self]⟩
  · exact h

/-- `mstatus` is legal once made legal (R89). -/
@[simp] theorem Mstatus.legalize_legalize (c : Config) (m : Mstatus) :
    (m.legalize c).legalize c = m.legalize c := by
  have hl : c.supports c.leastPriv = true := by
    unfold Config.leastPriv Config.supports Config.hasU
    cases c.modes <;> rfl
  unfold Mstatus.legalize
  congr 1
  all_goals first
    | (simp only [← Bool.and_assoc, Bool.and_self]; done)
    | skip
  · dsimp only; by_cases h : c.supports m.mpp = true
    · simp [h]
    · simp [h, hl]
  · dsimp only; split <;> rfl

/-- Trap registers made legal are legal (R98, R108 to R110). -/
theorem TrapRegs.legalize_legal (c : Config) (x : Priv) (r : TrapRegs) : (r.legalize c x).Legal c x where
  tvec := tvecHeld_legalize c x r.tvec
  tvecKept := c.legalize_legalize _ _
  scratch := Config.trunc_trunc c _
  epc := c.warlForm_legalize (.epc x) _
  cause := Config.trunc_trunc c _
  tval := Config.trunc_trunc c _

end Sys2Proof.Machine
end

