-- ==== Sys2Proof/Laws/PerInstr.lean ====
section
/-! SUPPORT. The statement made of every instruction, one lemma for each constructor. -/

namespace Sys2Proof.Laws.MatchesItsRow

/-- The encoding of the instruction matches the row of R208 that has its mnemonic. -/
def Statement (i : Instr) : Prop := ∃ r ∈ opcodeRows, r.mnemonic = i.mnemonic ∧ r.Matches (encode i)

theorem csrrw (rd : Reg) (csr : CsrAddr) (rs1 : Reg) : Statement (.csrrw rd csr rs1) :=
  ⟨⟨"CSRRW", 0x0000707F, 0x00001073⟩, by decide, rfl,
    (csr_mask_iff _ 1).mpr ⟨fieldOpcode_encodeI .., fieldFunct3_encodeI ..⟩⟩

theorem csrrs (rd : Reg) (csr : CsrAddr) (rs1 : Reg) : Statement (.csrrs rd csr rs1) :=
  ⟨⟨"CSRRS", 0x0000707F, 0x00002073⟩, by decide, rfl,
    (csr_mask_iff _ 2).mpr ⟨fieldOpcode_encodeI .., fieldFunct3_encodeI ..⟩⟩

theorem csrrc (rd : Reg) (csr : CsrAddr) (rs1 : Reg) : Statement (.csrrc rd csr rs1) :=
  ⟨⟨"CSRRC", 0x0000707F, 0x00003073⟩, by decide, rfl,
    (csr_mask_iff _ 3).mpr ⟨fieldOpcode_encodeI .., fieldFunct3_encodeI ..⟩⟩

theorem csrrwi (rd : Reg) (csr : CsrAddr) (uimm : BitVec 5) : Statement (.csrrwi rd csr uimm) :=
  ⟨⟨"CSRRWI", 0x0000707F, 0x00005073⟩, by decide, rfl,
    (csr_mask_iff _ 5).mpr ⟨fieldOpcode_encodeI .., fieldFunct3_encodeI ..⟩⟩

theorem csrrsi (rd : Reg) (csr : CsrAddr) (uimm : BitVec 5) : Statement (.csrrsi rd csr uimm) :=
  ⟨⟨"CSRRSI", 0x0000707F, 0x00006073⟩, by decide, rfl,
    (csr_mask_iff _ 6).mpr ⟨fieldOpcode_encodeI .., fieldFunct3_encodeI ..⟩⟩

theorem csrrci (rd : Reg) (csr : CsrAddr) (uimm : BitVec 5) : Statement (.csrrci rd csr uimm) :=
  ⟨⟨"CSRRCI", 0x0000707F, 0x00007073⟩, by decide, rfl,
    (csr_mask_iff _ 7).mpr ⟨fieldOpcode_encodeI .., fieldFunct3_encodeI ..⟩⟩

theorem ecall : Statement .ecall := ⟨⟨"ECALL", 0xFFFFFFFF, 0x00000073⟩, by decide, rfl, by unfold OpcodeRow.Matches; decide⟩

theorem ebreak : Statement .ebreak := ⟨⟨"EBREAK", 0xFFFFFFFF, 0x00100073⟩, by decide, rfl, by unfold OpcodeRow.Matches; decide⟩

theorem uret : Statement .uret := ⟨⟨"URET", 0xFFFFFFFF, 0x00200073⟩, by decide, rfl, by unfold OpcodeRow.Matches; decide⟩

theorem sret : Statement .sret := ⟨⟨"SRET", 0xFFFFFFFF, 0x10200073⟩, by decide, rfl, by unfold OpcodeRow.Matches; decide⟩

theorem mret : Statement .mret := ⟨⟨"MRET", 0xFFFFFFFF, 0x30200073⟩, by decide, rfl, by unfold OpcodeRow.Matches; decide⟩

theorem wfi : Statement .wfi := ⟨⟨"WFI", 0xFFFFFFFF, 0x10500073⟩, by decide, rfl, by unfold OpcodeRow.Matches; decide⟩

theorem sfenceVma (rs1 rs2 : Reg) : Statement (.sfenceVma rs1 rs2) := by
  refine ⟨⟨"SFENCE.VMA", 0xFE007FFF, 0x12000073⟩, by decide, rfl, (sfence_mask_iff _).mpr ?_⟩
  rw [encode, encodeR_eq]
  exact ⟨fieldOpcode_encodeI .., fieldFunct3_encodeI .., fieldRd_encodeI ..,
    by rw [fieldFunct7_eq, fieldCsr_encodeI, append_high]⟩

end Sys2Proof.Laws.MatchesItsRow
end

