-- ==== Sys2Proof/Laws/Trap.lean ====
section
/-! SUPPORT. Trap entry: the address a trap goes to, the fields of the cause word, and the modes that take
traps. -/

namespace Sys2Proof.Machine

theorem clearLow_two (v : Word) : clearLow 2 v = v &&& ~~~3 := rfl

/-- The address of R301, as the machine computes it. -/
theorem State.trapVector_eq (s : State) (x : Priv) (intr : Bool) (code : Nat) :
    s.trapVector x intr code = vectorAddress s.cfg (s.trapRegs x).tvec intr code := by
  unfold State.trapVector vectorAddress
  simp only [clearLow_two, Bool.and_eq_true, beq_iff_eq, and_comm]

theorem Exception.code_lt (e : Exception) : e.code < 16 := by cases e <;> decide

theorem Interrupt.code_lt (i : Interrupt) : i.code < 16 := by cases i <;> decide

/-- The two fields of the cause word (R109). -/
theorem causeWord_fields (c : Config) (intr : Bool) {code : Nat} (h : code < 16) :
    c.causeInterrupt (causeWord c intr code) = intr ∧ c.causeCode (causeWord c intr code) = code := by
  have hb : ∀ k : Fin 16, ∀ b : Bool, ∀ x : XLen,
      ((if b then BitVec.twoPow 64 (x.bits - 1) else 0) ||| BitVec.ofNat 64 k.val).getLsbD (x.bits - 1) = b
        ∧ (((if b then BitVec.twoPow 64 (x.bits - 1) else 0) ||| BitVec.ofNat 64 k.val)
            &&& lowMask (x.bits - 1)).toNat = k.val := by
    intro k b x
    cases b <;> cases x <;> revert k <;> decide
  exact hb ⟨code, h⟩ intr c.xlen

/-- The cause word is an XLEN-bit value. -/
theorem trunc_causeWord (c : Config) (intr : Bool) {code : Nat} (h : code < 16) :
    c.trunc (causeWord c intr code) = causeWord c intr code := by
  have hb : ∀ k : Fin 16, ∀ b : Bool,
      (((if b then BitVec.twoPow 64 31 else 0) ||| BitVec.ofNat 64 k.val) &&& 0xFFFFFFFF : Word)
        = (if b then BitVec.twoPow 64 31 else 0) ||| BitVec.ofNat 64 k.val := by
    intro k b
    cases b <;> revert k <;> decide
  unfold Config.trunc causeWord Config.topBit
  cases c.xlen with
  | rv32 => exact hb ⟨code, h⟩ intr
  | rv64 => rfl

/-- User-level traps need U-mode (R43). -/
theorem hasU_of_n {c : Config} (h : c.n = true) : c.hasU = true := (Bool.and_eq_true_iff.mp h).2

/-- Traps are taken in supported modes (R42, R43). -/
theorem State.exceptionTarget_supported (s : State) (e : Exception) :
    s.cfg.supports (s.exceptionTarget e) = true := by
  unfold State.exceptionTarget
  split
  · rfl
  · split
    · next h =>
      have hs : s.cfg.hasS = true := (Bool.and_eq_true_iff.mp h).1
      split
      · exact hasU_of_n (by simp_all)
      · exact hs
    · split
      · exact hasU_of_n (by simp_all)
      · rfl

/-- Interrupts are taken in supported modes (R42, R43). -/
theorem State.interruptTarget_supported (s : State) (i : Interrupt) :
    s.cfg.supports (s.interruptTarget i) = true := by
  unfold State.interruptTarget Config.hasMdeleg
  cases hs : s.cfg.hasS <;> cases hn : s.cfg.n <;> simp only [Bool.false_or, Bool.true_or, Bool.false_and,
    Bool.true_and, Bool.false_eq_true, if_false, if_true]
  · rfl
  · split
    · exact hasU_of_n hn
    · rfl
  · split
    · exact hs
    · rfl
  · split
    · split
      · exact hasU_of_n hn
      · exact hs
    · rfl

end Sys2Proof.Machine
end

