-- ==== Sys2Proof/Tests/Slice0.lean ====
section
/-! SUPPORT. Tests: words written out from the spec's encodings, ill-formed parameters refused, one or two
small tests per instruction from spec/95_test_vectors.md and the pseudocode of the rules, and for every
statement with hypotheses a concrete case that meets them (`witness_…`). -/

-- One theorem after the other: elaborated all at once, the threads of the many small `decide` proofs below
-- take more memory than a check may use.
set_option Elab.async false

namespace Sys2Proof.Tests

open Sys2Proof.Machine

/-! ## Decoding: the words of R206 and R207, written out field by field -/

theorem test_decode_csrrw :
    decodeWord (0x340#12 ++ 6#5 ++ 0b001#3 ++ 5#5 ++ 0b1110011#7) = .instr (.csrrw 5 0x340 6) := by decide

theorem test_decode_csrrs :
    decodeWord (0xC00#12 ++ 0#5 ++ 0b010#3 ++ 31#5 ++ 0b1110011#7) = .instr (.csrrs 31 0xC00 0) := by decide

theorem test_decode_csrrc :
    decodeWord (0x300#12 ++ 31#5 ++ 0b011#3 ++ 0#5 ++ 0b1110011#7) = .instr (.csrrc 0 0x300 31) := by decide

theorem test_decode_csrrwi :
    decodeWord (0x305#12 ++ 17#5 ++ 0b101#3 ++ 1#5 ++ 0b1110011#7) = .instr (.csrrwi 1 0x305 17) := by decide

theorem test_decode_csrrsi :
    decodeWord (0x304#12 ++ 31#5 ++ 0b110#3 ++ 2#5 ++ 0b1110011#7) = .instr (.csrrsi 2 0x304 31) := by decide

theorem test_decode_csrrci :
    decodeWord (0x344#12 ++ 1#5 ++ 0b111#3 ++ 3#5 ++ 0b1110011#7) = .instr (.csrrci 3 0x344 1) := by decide

theorem test_decode_ecall :
    decodeWord (0#12 ++ 0#5 ++ 0b000#3 ++ 0#5 ++ 0b1110011#7) = .instr .ecall := by decide

theorem test_decode_ebreak :
    decodeWord (1#12 ++ 0#5 ++ 0b000#3 ++ 0#5 ++ 0b1110011#7) = .instr .ebreak := by decide

theorem test_decode_uret :
    decodeWord (0b0000000#7 ++ 0b00010#5 ++ 0#5 ++ 0b000#3 ++ 0#5 ++ 0b1110011#7) = .instr .uret := by decide

theorem test_decode_sret :
    decodeWord (0b0001000#7 ++ 0b00010#5 ++ 0#5 ++ 0b000#3 ++ 0#5 ++ 0b1110011#7) = .instr .sret := by decide

theorem test_decode_mret :
    decodeWord (0b0011000#7 ++ 0b00010#5 ++ 0#5 ++ 0b000#3 ++ 0#5 ++ 0b1110011#7) = .instr .mret := by decide

theorem test_decode_wfi :
    decodeWord (0b0001000#7 ++ 0b00101#5 ++ 0#5 ++ 0b000#3 ++ 0#5 ++ 0b1110011#7) = .instr .wfi := by decide

theorem test_decode_sfenceVma :
    decodeWord (0b0001001#7 ++ 9#5 ++ 8#5 ++ 0b000#3 ++ 0#5 ++ 0b1110011#7) = .instr (.sfenceVma 8 9) := by
  decide

/-- `funct3 = 100` and an SFENCE.VMA with `rd` other than 0 are reserved (R209). -/
theorem test_decode_reserved :
    decodeWord 0x00004073 = .reserved 0x00004073 ∧ decodeWord 0x120000F3 = .reserved 0x120000F3
      ∧ decodeWord 0x00000013 = .notSystem 0x00000013 ∧ decodeBytes [0x73, 0x00, 0x50] = .truncated := by
  decide

/-- The first byte of memory is bits 7:0 (R201). -/
theorem test_decode_bytes : decodeBytes [0x73, 0x00, 0x50, 0x10] = .instr .wfi := by decide

/-! ## Well-formedness: one ill-formed term for each check -/

theorem test_cfg_wellFormed : Config.cfg0.wellFormed = true ∧ Config.cfg64.wellFormed = true := by
  decide +kernel

theorem test_wf_refuses_n : { Config.cfg0 with modes := .m, hasN := true }.wfN = false := by decide

theorem test_wf_refuses_satp :
    { Config.cfg0 with xlen := .rv64 }.wfSatp = false
      ∧ { Config.cfg64 with xlen := .rv32 }.wfSatp = false
      ∧ { Config.cfg64 with satpSv39 := false, satpSv48 := true }.wfSatp = false
      ∧ { Config.cfg0 with modes := .mu }.wfSatp = false := by decide

theorem test_wf_refuses_pmp : { Config.cfg0 with pmpEntries := 17 }.wfPmp = false := by decide

theorem test_wf_refuses_resetVector :
    { Config.cfg0 with resetVector := 0x80000002 }.wfResetVector = false
      ∧ { Config.cfg0 with resetVector := 0x180000000 }.wfResetVector = false := by decide

theorem test_wf_refuses_nonStandard : { Config.cfg0 with nonStandardCsrs := [0x300] }.wfNonStandard = false := by
  decide

theorem test_wf_refuses_absent : { Config.cfg0 with absentCsrs := [0x300] }.wfAbsent = false := by decide

theorem test_wf_refuses_widths :
    { Config.cfg0 with asidLen := 10 }.wfWidths = false ∧ { Config.cfg0 with ppnBits := 23 }.wfWidths = false
      ∧ { Config.cfg64 with asidLen := 17 }.wfWidths = false := by decide

theorem test_wf_refuses_hpm :
    { Config.cfg0 with hpmBits := Vector.replicate 29 65 }.wfHpm = false := by decide +kernel

/-- A field that holds no such value, and a valid address that `mepc` must hold (R76, R108). -/
theorem test_wf_refuses_warl :
    { Config.cfg0 with warl := [⟨.mcounteren, 0, 8⟩] }.wfWarl = false
      ∧ { Config.cfg0 with warl := [⟨.epc .machine, 4, 0⟩] }.wfWarl = false := by decide +kernel

theorem test_wf_refuses_intercept :
    { Config.cfg0 with interceptCsr := [(.machine, 0x300)] }.wfIntercept = false := by decide

/-! ## States for the tests -/

/-- All optional parts that the tests use. -/
def cfgAll : Config :=
  { Config.cfg0 with
    hasN := true, hasF := true, hasPMP := true, hasDebugTriggers := true
    interceptCsr := [(.supervisor, 0x140)], nonStandardCsrs := [0x800] }

/-- The machine after reset, with all of them. -/
def full : State := State.resetWith cfgAll

/-- A state in another mode. -/
def inMode (s : State) (p : Priv) : State := { s with priv := p }

/-- A state with a value in an integer register. -/
def withReg (s : State) (r : Reg) (v : Word) : State := { s with regs := s.regs.set r v }

/-- The state after an instruction, or the state itself where the machine stops. -/
def after (s : State) (i : Instr) : State :=
  match exec i s with
  | .next t => t
  | .fault _ => s
  | .refused _ => s

/-- The state after a step, or the state itself where the machine stops. -/
def stepped (s : State) : State :=
  match step s with
  | .next t => t
  | .fault _ => s
  | .refused _ => s

/-! ## Instructions -/

/-- The old value to `rd`, the new one to the CSR (R230). -/
theorem test_csrrw :
    let t := after (withReg State.reset 6 0xDEADBEEF) (.csrrw 5 0x340 6)
    t.readCsr (.scratch .machine) = 0xDEADBEEF ∧ t.readReg 5 = 0 ∧ t.pc = 0x80000004 := by decide +kernel

/-- `rd` and `rs1` the same: the source is sampled first (R230). -/
theorem test_csrrw_same :
    let t := after (after (withReg State.reset 6 7) (.csrrw 0 0x340 6)) (.csrrw 6 0x340 6)
    t.readReg 6 = 7 ∧ t.readCsr (.scratch .machine) = 7 := by decide +kernel

theorem test_csrrs :
    let t := after (withReg { State.reset with mTrap := { TrapRegs.zero with scratch := 0xF0 } } 6 0x0F) (.csrrs 5 0x340 6)
    t.readCsr (.scratch .machine) = 0xFF ∧ t.readReg 5 = 0xF0 := by decide +kernel

/-- A read of a read-only register through `x0` raises nothing (R236). -/
theorem test_csrrs_reads_readOnly :
    (after (inMode full .machine) (.csrrs 5 0xF14 0)).pc = 0x80000004 := by decide +kernel

theorem test_csrrc :
    let t := after (withReg { State.reset with mTrap := { TrapRegs.zero with scratch := 0xFF } } 6 0x0F) (.csrrc 5 0x340 6)
    t.readCsr (.scratch .machine) = 0xF0 ∧ t.readReg 5 = 0xFF := by decide +kernel

theorem test_csrrwi :
    (after State.reset (.csrrwi 0 0x340 31)).readCsr (.scratch .machine) = 31 := by decide +kernel

theorem test_csrrsi : (after State.reset (.csrrsi 0 0x300 8)).mstatus.mie = true := by decide +kernel

theorem test_csrrci :
    let t := after { State.reset with mTrap := { TrapRegs.zero with scratch := 0x1F } } (.csrrci 5 0x340 3)
    t.readCsr (.scratch .machine) = 0x1C ∧ t.readReg 5 = 0x1F := by decide +kernel

/-- A write to a read-only register is illegal: cause 2, the word in `mtval` (R223, R297). -/
theorem test_csrrwi_readOnly :
    let t := after { State.reset with mTrap := { TrapRegs.zero with tvec := 0x100 } } (.csrrwi 0 0xF14 0)
    t.mTrap.cause = 2 ∧ t.mTrap.tval = 0xF1405073 ∧ t.mTrap.epc = 0x80000000 ∧ t.pc = 0x100 := by
  decide +kernel

theorem test_ecall :
    let t := after (inMode State.reset .user) .ecall
    t.mTrap.cause = 8 ∧ t.priv = .machine ∧ t.mstatus.mpp = .user ∧ t.mTrap.tval = 0 := by decide +kernel

/-- Delegated to S-mode (R299). -/
theorem test_ecall_delegated :
    let t := after { inMode State.reset .user with deleg := { State.reset.deleg with medeleg := 0x100 } } .ecall
    t.sTrap.cause = 8 ∧ t.priv = .supervisor ∧ t.mstatus.spp = false ∧ t.mTrap.cause = 0 := by decide +kernel

theorem test_ebreak :
    let t := after State.reset .ebreak
    t.mTrap.cause = 3 ∧ t.mTrap.epc = 0x80000000 ∧ t.counters.minstret = 0 := by decide +kernel

theorem test_mret :
    let t := after
      { State.reset with
        mstatus := { State.reset.mstatus with mpie := true, mpp := .supervisor }
        mTrap := { TrapRegs.zero with epc := 0x2000 } } .mret
    t.priv = .supervisor ∧ t.pc = 0x2000 ∧ t.mstatus.mie = true ∧ t.mstatus.mpie = true ∧ t.mstatus.mpp = .user := by
  decide +kernel

theorem test_sret :
    let t := after
      { inMode State.reset .supervisor with
        mstatus := { State.reset.mstatus with spp := true }
        sTrap := { TrapRegs.zero with epc := 0x3000 } } .sret
    t.priv = .supervisor ∧ t.pc = 0x3000 ∧ t.mstatus.spp = false ∧ t.mstatus.spie = true := by decide +kernel

/-- Under `TSR` (R96). -/
theorem test_sret_tsr :
    (after { inMode State.reset .supervisor with mstatus := { State.reset.mstatus with tsr := true } } .sret).mTrap.cause
      = 2 := by decide +kernel

theorem test_uret :
    (after State.reset .uret).mTrap.cause = 2
      ∧ (after { full with mstatus := { full.mstatus with upie := true } } .uret).mstatus.uie = true := by
  decide +kernel

theorem test_wfi :
    (after State.reset .wfi).waiting = true ∧ (after (inMode State.reset .user) .wfi).mTrap.cause = 2 := by
  decide +kernel

/-- An entry for the page 5 of address space 1, as a walk leaves it. -/
def entry (asid : Nat) (global : Bool) : TlbEntry :=
  { asid := asid, global := global, level := 0, vpn := 5, pte := 0xCF, pmp := State.reset.pmp }

/-- `rs2` other than `x0` keeps the global entries and those of other address spaces (R257). -/
theorem test_sfenceVma :
    (after (withReg { State.reset with tlb := [entry 1 false, entry 1 true, entry 2 false] } 9 1) (.sfenceVma 0 9)).tlb
      = [entry 1 true, entry 2 false] := by decide +kernel

/-- `rs1` restricts it to the page of the address (R257). -/
theorem test_sfenceVma_address :
    (after (withReg { State.reset with tlb := [entry 1 false] } 8 0x5FFC) (.sfenceVma 8 0)).tlb = []
      ∧ (after (withReg { State.reset with tlb := [entry 1 false] } 8 0x6000) (.sfenceVma 8 0)).tlb
          = [entry 1 false] := by decide +kernel

/-! ## Steps -/

/-- The first step after reset runs the word placed there (R146). -/
theorem test_step_runs_word :
    (stepped (State.reset.withFetchWord 32 0x10500073)).waiting = true
      ∧ (stepped (State.reset.withFetchWord 32 0x10500073)).pc = 0x80000004 := by decide +kernel

/-- A timer interrupt is taken before the instruction, vectored (R301). -/
theorem test_step_interrupt :
    let t := stepped
      { State.reset with
        mtimecmp := 0, mie := 0x80, mstatus := { State.reset.mstatus with mie := true }
        mTrap := { TrapRegs.zero with tvec := 0x1001 } }
    t.pc = 0x101C ∧ t.mTrap.cause = 0x80000007 ∧ t.mstatus.mie = false ∧ t.mstatus.mpie = true := by
  decide +kernel

/-- Nothing has written memory: the fetch faults (D8). -/
theorem test_step_unwritten : step State.reset = .fault (.unwrittenMemory 0x80000000) := by rfl

/-- A walk of Sv32 from a root table at 0x80001000, with a superpage for 0x00000000 (R181). -/
def paged : State :=
  { inMode State.reset .supervisor with
    satp := 0x80080001
    pc := 0x00002000
    mem := (State.reset.mem.writeList 0x80001000 (bytesOf 4 0x200000CF)).writeList 0x80002000 (bytesOf 4 0x10500073) }

/-- Whether a translation gives the physical address. -/
def translatesTo (s : State) (acc : Access) (p : Priv) (va : Word) (pa : Nat) : Bool :=
  match s.translate acc p va with
  | .ok t => t.pa == pa
  | .exc _ _ => false
  | .fault _ => false
  | .refused _ => false

/-- Whether an access raises the exception with the trap value. -/
def raisesWith {α : Type} (r : Res α) (e : Exception) (tval : Word) : Bool :=
  match r with
  | .ok _ => false
  | .exc x v => x == e && v == tval
  | .fault _ => false
  | .refused _ => false

/-- The fetch goes through the page table (R181). -/
theorem test_step_translated : (stepped paged).pc = 0x2004 ∧ (stepped paged).waiting = true := by decide +kernel

/-- An invalid entry raises an instruction page fault (R181 step 3). -/
theorem test_step_page_fault :
    let t := stepped { paged with pc := 0x00402000, mem := paged.mem.writeList 0x80001004 (bytesOf 4 0) }
    t.mTrap.cause = 12 ∧ t.mTrap.tval = 0x00402000 := by decide +kernel

/-- A misaligned load over the end of a page gives its four bytes where such loads are permitted (R13,
R147). -/
theorem test_load_crosses_page :
    let s := State.resetWith { Config.cfg0 with misalignedTraps := false }
    (match { s with mem := s.mem.writeList 0xFFD [0x11, 0x22, 0x33, 0x44] }.memRead 0xFFD 4 with
     | .ok (_, v) => v
     | .exc _ _ => 0
     | .fault _ => 0
     | .refused _ => 0) = 0x44332211 := by decide +kernel

/-- A speculative walk as a fetch sets Accessed on an execute-only leaf, one as a load does not (R183). -/
theorem test_speculate_execute_only :
    let s := { paged with
      cfg := { Config.cfg0 with hardwareADUpdate := true }
      mem := paged.mem.writeList 0x80001000 (bytesOf 4 0x20000009) }
    (s.speculateOne ⟨.supervisor, true, 0x2000⟩).mem.read 0x80001000 = some 0x49
      ∧ (s.speculateOne ⟨.supervisor, false, 0x2000⟩).mem.read 0x80001000 = some 0x09 := by decide +kernel

/-- An entry that was not valid when a walk read it may be used after memory holds a valid one (R155, R186):
the page fault of the old entry. -/
theorem test_old_invalid_entry :
    let s := { paged with mem := paged.mem.writeList 0x80001004 (bytesOf 4 0) }.speculateOne
      ⟨.supervisor, false, 0x402000⟩
    let t := { s with
      mem := s.mem.writeList 0x80001004 (bytesOf 4 0x200000CF)
      draws := { Draws.none with cached := some 0 } }
    raisesWith (t.translate .load .supervisor 0x402000) .loadPageFault 0x402000 = true := by decide +kernel

/-- With hardware update an old leaf with A = 0 still gives the page fault that comes before the update: no
execute permission for a fetch (R181 step 5, R186); a load, which would set A, walks the new entry. -/
theorem test_old_leaf_without_permission :
    let s := { paged with
      cfg := { Config.cfg0 with hardwareADUpdate := true }
      tlb := [{ asid := 0, global := false, level := 1, vpn := 0, pte := 0x20000003, pmp := paged.pmp }]
      draws := { Draws.none with cached := some 0 } }
    raisesWith (s.translate .fetch .supervisor 0x2ABC) .instrPageFault 0x2ABC = true
      ∧ translatesTo s .load .supervisor 0x2ABC 0x80002ABC = true := by decide +kernel

/-- A load over the end of a page whose deciding PMP entry matches only its first two bytes fails as a whole,
with the address of the access as trap value (R174, U50). -/
theorem test_pmp_matches_part :
    let c := { Config.cfg0 with misalignedTraps := false, hasPMP := true }
    let s := { State.resetWith c with pmp :=
      { entryCfg := (Vector.replicate 16 0).set 0 0x89, entryAddr := (Vector.replicate 16 0).set 0 0x400 } }
    raisesWith (s.memRead 0xFFE 4) .loadAccessFault 0xFFE = true
      ∧ raisesWith (s.memRead 0xFFC 4) .loadAccessFault 0xFFC = false := by decide +kernel

/-- A walk that meets a table nothing has written caches the pointer above it (R186). -/
theorem test_speculate_unwritten :
    let s := { paged with mem := paged.mem.writeList 0x80001004 (bytesOf 4 0x30000001) }
    (s.speculateOne ⟨.supervisor, false, 0x402000⟩).tlb
      = [{ asid := 0, global := false, level := 1, vpn := 1, pte := 0x30000001, pmp := s.pmp }] := by decide +kernel

/-- The attributes of two regions that meet at 0x1002 (R171). -/
def twoRegions (second : PmaRegion) : List PmaRegion :=
  [{ Config.flatMemory with size := 0x1002 }, { second with base := 0x1002, size := 0x1000 }]

/-- An access over two regions passes where both permit it and fails where one is read-only, or does not
support its width (R171). -/
theorem test_pma_two_regions :
    pmaAllows (twoRegions Config.flatMemory) .store 0x1000 4 4 = true
      ∧ pmaAllows (twoRegions { Config.flatMemory with writable := false }) .store 0x1000 4 4 = false
      ∧ pmaAllows (twoRegions { Config.flatMemory with widths := [1, 2] }) .store 0x1000 4 4 = false := by
  decide +kernel

/-- The platform takes all attributes away: the next fetch raises an instruction access fault (R171). -/
theorem test_boundary_attributes :
    let i : Input :=
      { reset := false, mcycleTicks := 0, mtimeTicks := 0, hpmTicks := [], meip := false, seip := false, ueip := false
        pma := some [], writes := [], wake := false, draws := Draws.none, speculate := [] }
    (stepped { State.reset with inputs := [i] }).mTrap.cause = 1 := by decide +kernel

/-- A write that runs on from `MSIP` into the rest of an I/O region is refused there, and nothing is stored. -/
theorem test_physWrite_over_device :
    let s := { State.resetWith { Config.cfg0 with msipAddr := some 0x2000000 } with
      pma := [{ Config.flatMemory with kind := .io }] }
    s.physWrite 0x2000000 8 1 = .refused (.deviceRegion 0x2000004)
      ∧ s.physWrite 0x2000000 4 1 = .ok { s with lines := { s.lines with msip := true } } := ⟨by rfl, by rfl⟩

/-- A reset leaves only bytes that the field holds (R342): this one turns 0x07 into 0. -/
theorem test_reset_legalizes :
    let s := State.resetWith { cfgAll with warl := [⟨.pmpcfg 0, 0x07, 0⟩] }
    let t := { s with pmp := { s.pmp with entryCfg := (s.pmp.entryCfg.set 0 0x1F).set 1 0x1F } }.hartReset
    t.pmp.entryCfg[0] = 0 ∧ t.pmp.entryCfg[1] = 0x07 := by decide +kernel

/-- `Legalize_f` is the parameters': a `mtvec` that replaces one written value, a counter enable that drops a
value (R76). -/
theorem test_warl_parameters :
    let s := State.resetWith
      { Config.cfg0 with warl := [⟨.tvec .machine, 0x40, 0x80⟩, ⟨.mcounteren, 5, 1⟩] }
    (after (withReg s 1 0x40) (.csrrw 0 0x305 1)).readCsr (.tvec .machine) = 0x80
      ∧ (after (withReg s 1 0x44) (.csrrw 0 0x305 1)).readCsr (.tvec .machine) = 0x44
      ∧ (after (withReg s 1 5) (.csrrw 0 0x306 1)).readCsr .mcounteren = 1 := by decide +kernel

/-- A granularity of 32 bytes: with TOR or OFF the three low bits of `pmpaddr` read 0, with NAPOT the two low
bits read 1, and NA4 is not held (R176). -/
theorem test_pmp_granularity :
    let s := State.resetWith { cfgAll with pmpGrain := 3 }
    (after (withReg s 1 0xF) (.csrrw 0 0x3B0 1)).readCsr (.pmpaddr 0) = 0x8
      ∧ (after (after (withReg s 1 0x18) (.csrrw 0 0x3A0 1)) (.csrrwi 0 0x3B0 8)).readCsr (.pmpaddr 0) = 0xB
      ∧ (after (withReg s 1 0x10) (.csrrw 0 0x3A0 1)).readCsr (.pmpcfg 0) = 0 := by decide +kernel

/-! ## Witnesses: encoding and steps -/

theorem witness_EncodeInvertsDecode : decodeWord 0x300472F3 = .instr (.csrrci 5 0x300 8) := by decide

theorem witness_DecoderIsMatchMaskTable :
    (⟨"WFI", 0xFFFFFFFF, 0x10500073⟩ : OpcodeRow) ∈ opcodeRows ∧ (⟨"MRET", 0xFFFFFFFF, 0x30200073⟩ : OpcodeRow) ∈ opcodeRows := by
  decide

/-- Whether the fetch gives the word. -/
def fetches (s : State) (w : BitVec 32) : Bool :=
  match s.fetch with
  | .ok (_, x) => x == w
  | .exc _ _ => false
  | .fault _ => false
  | .refused _ => false

theorem fetch_of_fetches {s : State} {w : BitVec 32} (h : fetches s w = true) : ∃ t, s.fetch = .ok (t, w) := by
  unfold fetches at h
  split at h
  · next t x hx => exact ⟨t, by rw [hx, beq_iff_eq.mp h]⟩
  all_goals cases h

/-- Whether the fetch raises the exception. -/
def fetchRaises (s : State) (e : Exception) (tval : Word) : Bool :=
  match s.fetch with
  | .ok _ => false
  | .exc x v => x == e && v == tval
  | .fault _ => false
  | .refused _ => false

theorem exc_of_fetchRaises {s : State} {e : Exception} {tval : Word} (h : fetchRaises s e tval = true) :
    s.fetch = .exc e tval := by
  unfold fetchRaises at h
  split at h
  case h_2 x v hx =>
    simp only [Bool.and_eq_true, beq_iff_eq] at h
    rw [hx, h.1, h.2]
  all_goals cases h

/-- A machine at reset whose next word is `w`. -/
def fetching (w : Nat) : State := State.reset.withFetchWord 32 w

theorem witness_ReservedWordsRaiseIllegal :
    (fetching 0x10400073).Running ∧ (∃ t, (fetching 0x10400073).fetch = .ok (t, 0x10400073))
      ∧ (0x10400073 : BitVec 32).extractLsb' 0 7 = 0b1110011 ∧ ∀ r ∈ opcodeRows, ¬ r.value = 0x10400073 &&& r.mask :=
  ⟨⟨by decide +kernel, by decide +kernel, by decide +kernel⟩, fetch_of_fetches (by decide +kernel), by decide,
    by decide⟩

theorem witness_ReservedWordsRaiseIllegal_other :
    (fetching 0x00000013).Running ∧ (∃ t, (fetching 0x00000013).fetch = .ok (t, 0x00000013))
      ∧ (0x00000013 : BitVec 32).extractLsb' 0 7 ≠ 0b1110011 :=
  ⟨⟨by decide +kernel, by decide +kernel, by decide +kernel⟩, fetch_of_fetches (by decide +kernel), by decide⟩

theorem witness_StepRunsDecodedInstruction :
    (fetching 0x00000073).Running ∧ (∃ t, (fetching 0x00000073).fetch = .ok (t, 0x00000073))
      ∧ decodeWord 0x00000073 = .instr .ecall :=
  ⟨⟨by decide +kernel, by decide +kernel, by decide +kernel⟩, fetch_of_fetches (by decide +kernel), by decide⟩

/-- U-mode with PMP and no entry on: the fetch is refused (R174). -/
theorem witness_StepRunsDecodedInstruction_exception :
    (inMode full .user).Running ∧ (inMode full .user).fetch = .exc .instrAccessFault 0x80000000 :=
  ⟨⟨by decide +kernel, by decide +kernel, by decide +kernel⟩, exc_of_fetchRaises (by decide +kernel)⟩

/-- What arrives at a boundary: ticks, the external interrupt, and stores to memory, the top byte of
`mtimecmp` and `MSIP`. -/
def arriving : Input :=
  { reset := false, mcycleTicks := 5, mtimeTicks := 7, hpmTicks := [], meip := true, seip := false, ueip := false
    pma := none, writes := [(0x80003000, 0x12), (0x80003000, 0xAB), (0x2004007, 0x7F), (0x2000000, 0x1)], wake := false
    draws := Draws.none, speculate := [] }

/-- More is to arrive: no step runs this instruction at once, and `runNext` does (after the boundary). -/
theorem witness_StepRunsDecodedInstruction_arriving :
    ¬ { fetching 0x00000073 with inputs := [arriving] }.Running
      ∧ ∃ t, { fetching 0x00000073 with inputs := [arriving] }.fetch = .ok (t, 0x00000073) :=
  ⟨fun h => List.cons_ne_nil _ _ h.inputs, fetch_of_fetches (by decide +kernel)⟩

theorem witness_StepRunsInstructionAtPc :
    let s := fetching 0x10500073
    s.Running ∧ s.activeScheme s.priv = none ∧ s.cfg.alignPc s.pc = s.pc
      ∧ s.physAllows s.pmp .fetch s.priv (s.pc.toNat % 2 ^ s.cfg.physBits) 4 = true
      ∧ (∀ k, k < 4 → s.deviceByte (s.pc.toNat % 2 ^ s.cfg.physBits + k) = none
          ∧ isIo s.pma (s.pc.toNat % 2 ^ s.cfg.physBits + k) = false)
      ∧ s.mem.read (s.pc.toNat % 2 ^ s.cfg.physBits) = some 0x73
      ∧ s.mem.read (s.pc.toNat % 2 ^ s.cfg.physBits + 1) = some 0x00
      ∧ s.mem.read (s.pc.toNat % 2 ^ s.cfg.physBits + 2) = some 0x50
      ∧ s.mem.read (s.pc.toNat % 2 ^ s.cfg.physBits + 3) = some 0x10
      ∧ decodeWord ((0x10 : Byte) ++ (0x50 : Byte) ++ (0x00 : Byte) ++ (0x73 : Byte)) = .instr .wfi :=
  ⟨⟨by decide +kernel, by decide +kernel, by decide +kernel⟩, by decide +kernel, by decide +kernel,
    by decide +kernel, by decide +kernel, by decide +kernel, by decide +kernel, by decide +kernel,
    by decide +kernel, by decide⟩

/-- A fetch through the page table of `paged`. -/
theorem witness_StepRunsInstructionAtPc_translated :
    ∃ t, paged.accessAddress .fetch paged.priv (paged.cfg.trunc paged.pc) 4 = .ok t
      ∧ (paged.cfg.trunc paged.pc).extractLsb' 0 2 = 0 ∧ t.pa = 0x80002000
      ∧ (∀ k, k < 4 → t.state.deviceByte (t.pa + k) = none ∧ isIo t.state.pma (t.pa + k) = false)
      ∧ t.state.mem.read t.pa = some 0x73 ∧ t.state.mem.read (t.pa + 1) = some 0x00
      ∧ t.state.mem.read (t.pa + 2) = some 0x50 ∧ t.state.mem.read (t.pa + 3) = some 0x10 :=
  ⟨_, by rfl, by decide +kernel, by decide +kernel, by decide +kernel, by decide +kernel, by decide +kernel,
    by decide +kernel, by decide +kernel⟩

/-- The three exceptions of a fetch (R290): an entry that is not valid, a page table in no region, and a program
counter in no legal state. -/
theorem witness_StepRunsInstructionAtPc_exceptions :
    fetchRaises { paged with pc := 0x00402000, mem := paged.mem.writeList 0x80001004 (bytesOf 4 0) }
        .instrPageFault 0x00402000 = true
      ∧ fetchRaises { paged with pma := [] } .instrAccessFault 0x2000 = true
      ∧ fetchRaises { paged with pc := 0x2002 } .instrAddrMisaligned 0x2002 = true := by decide +kernel

/-- `PhysRead` reads the lowest address as the lowest byte, in memory and in `mtime` (R146). -/
theorem test_physRead_little_endian :
    let s := State.resetWith { Config.cfg0 with mtimeAddr := some 0x200 }
    ({ s with mem := s.mem.writeList 0x100 [0x11, 0x22] }.physRead 0x100 2 = .ok 0x2211)
      ∧ ({ s with mtime := 0x3344 }.physRead 0x200 2 = .ok 0x3344) := ⟨by rfl, by rfl⟩

/-- The last byte of each memory-mapped register, and the one after `MSIP` (R103, R311). -/
theorem witness_StepRunsInstructionAtPc_registers :
    let c := { Config.cfg0 with mtimeAddr := some 0x3000000, mtimecmpAddr := some 0x2004000, msipAddr := some 0x2000000 }
    let s := { State.resetWith c with mtime := 0xAB00000000000000 }
    s.deviceByte (0x3000000 + 7) = some 0xAB ∧ inWindow c.mtimeAddr 8 (0x2004000 + 7) = false
      ∧ s.deviceByte (0x2004000 + 7) = some 0xFF ∧ inWindow c.mtimecmpAddr 8 (0x2000000 + 3) = false
      ∧ s.deviceByte (0x2000000 + 3) = some 0 ∧ s.deviceByte (0x2000000 + 4) = none := by decide +kernel

/-! ## Witnesses: CSR instructions -/

/-- Every hypothesis of a CSR instruction that completes on register `r`. -/
def completes (s : State) (i : Instr) (r : Csr) : Bool :=
  match csrForm i with
  | none => false
  | some f =>
    csrAt s.cfg f.csr == some r && s.csrAccess f.csr (f.op.writes f.src) == some r
      && (!f.op.writes f.src || wlrlAccepts s.cfg r (f.op.result (s.rmwValue r) (s.sourceValue f.src)))

theorem witness_of_completes {s : State} {i : Instr} {r : Csr} (h : completes s i r = true) :
    ∃ f, csrForm i = some f ∧ csrAt s.cfg f.csr = some r ∧ CsrAllowed s f.op f.csr f.src
      ∧ (f.op.writes f.src = true →
        wlrlAccepts s.cfg r (f.op.result (s.rmwValue r) (s.sourceValue f.src)) = true) := by
  unfold completes at h
  split at h
  · cases h
  · next f hf =>
    simp only [Bool.and_eq_true, beq_iff_eq] at h
    obtain ⟨⟨h1, h2⟩, h3⟩ := h
    obtain ⟨a, b, c, d, -⟩ := State.csrAccess_some.mp h2
    refine ⟨f, hf, h1, ⟨?_, by rw [h1]; rfl, b, c, d⟩, fun hw => ?_⟩
    · simpa [State.mayAccess, BitVec.le_def] using a
    · rw [hw] at h3; simpa using h3

/-- The six CSR instructions complete on `mscratch`; the forms with a zero source complete on a read-only
register too. -/
theorem witness_CsrInstructionsComplete :
    (∀ i ∈ [Instr.csrrw 5 0x340 6, .csrrs 5 0x340 6, .csrrc 5 0x340 6, .csrrwi 5 0x340 31, .csrrsi 5 0x340 31,
        .csrrci 5 0x340 31], completes full i (.scratch .machine) = true)
      ∧ ∀ i ∈ [Instr.csrrs 5 0xF14 0, .csrrc 5 0xF14 0, .csrrsi 5 0xF14 0, .csrrci 5 0xF14 0],
          completes full i .mhartid = true := by decide +kernel

/-- A write of each register that shares a group with others completes, and a read of one. -/
theorem witness_CsrInstructionsComplete_groups :
    ∀ q ∈ [((0x304 : CsrAddr), Csr.mie), (0x104, .sie), (0x004, .uie), (0x344, .mip), (0x144, .sip), (0x044, .uip),
        (0x303, .mideleg), (0x300, .mstatus), (0x100, .sstatus), (0x000, .ustatus)],
      completes full (.csrrw 5 q.1 0) q.2 = true ∧ completes full (.csrrs 5 q.1 0) q.2 = true := by decide +kernel

/-- A write of `mie` leaves the pending bits, one of `mip` the enables. -/
theorem test_interrupt_registers_apart :
    let s := withReg { full with mie := 0x888, mipSw := 0x222 } 1 0
    (after s (.csrrw 0 0x304 1)).mipSw = 0x222 ∧ (after s (.csrrw 0 0x344 1)).mie = 0x888 := by decide +kernel

/-- The last address of the S-mode range, from U-mode, and the first of the M-mode range, from S-mode. -/
theorem witness_CsrNeedsPrivilege :
    (inMode full .user).priv.enc.toNat < ((0x1FF : CsrAddr).extractLsb' 8 2).toNat
      ∧ (inMode full .supervisor).priv.enc.toNat < ((0x300 : CsrAddr).extractLsb' 8 2).toNat := by decide

/-- No register at the first address after the triggers and in a range of the implementation; the table's
ends; an upper half, and an odd PMP configuration register, on RV32 only. -/
theorem witness_CsrMustExist :
    csrAt full.cfg 0x7A4 = none ∧ csrAt full.cfg 0x801 = none ∧ csrAt full.cfg 0x800 = some (.nonStandard 0x800)
      ∧ csrAt full.cfg 0xB03 = some (.mhpmcounter 0) ∧ csrAt full.cfg 0xB1F = some (.mhpmcounter 28)
      ∧ csrAt full.cfg 0xB01 = none ∧ csrAt full.cfg 0xB20 = none
      ∧ csrAt full.cfg 0xC80 = some .cycleh ∧ csrAt Config.cfg64 0xC80 = none
      ∧ csrAt full.cfg 0x3A1 = some (.pmpcfg 1) ∧ csrAt { cfgAll with xlen := .rv64 } 0x3A1 = none
      ∧ csrAt full.cfg 0x3BF = some (.pmpaddr 15) ∧ csrAt { cfgAll with pmpEntries := 15 } 0x3BF = none := by
  decide +kernel

theorem witness_CsrReadOnlyRefusesWrites :
    (0xC00 : CsrAddr).extractLsb' 10 2 = 0b11 ∧ (0xFFF : CsrAddr).extractLsb' 10 2 = 0b11
      ∧ CsrOp.write.writes (.reg 0) = true ∧ CsrOp.set.writes (.imm 1) = true := by decide

theorem witness_CsrInterceptionRaises :
    (inMode full .supervisor).priv ≠ .machine
      ∧ ((inMode full .supervisor).priv, (0x140 : CsrAddr)) ∈ (inMode full .supervisor).cfg.interceptCsr := by
  decide

theorem witness_CsrDebugRangesRaise :
    State.reset.cfg.hasDebugTriggers = false ∧ full.cfg.hasDebugTriggers = true
      ∧ (0x7A4 ≤ (0x7A4 : CsrAddr).toNat ∧ (0x7A4 : CsrAddr).toNat ≤ 0x7AF)
      ∧ (0x7A0 ≤ (0x7A0 : CsrAddr).toNat ∧ (0x7A0 : CsrAddr).toNat ≤ 0x7BF)
      ∧ (0x7B0 ≤ (0x7B0 : CsrAddr).toNat ∧ (0x7B0 : CsrAddr).toNat ≤ 0x7BF)
      ∧ (0x7B0 ≤ (0x7BF : CsrAddr).toNat ∧ (0x7BF : CsrAddr).toNat ≤ 0x7BF) := by decide

/-- Each gate of R228 at the ends of its range; `mscratch` has no gate. -/
theorem witness_CsrStandardGates :
    standardGate (inMode full .supervisor) 0xC00 ∧ standardGate (inMode full .user) 0xC1F
      ∧ standardGate (inMode full .user) 0xC80 ∧ standardGate (inMode full .supervisor) 0xC9F
      ∧ standardGate { inMode full .supervisor with mstatus := { full.mstatus with tvm := true } } 0x180
      ∧ standardGate full 0x001 ∧ standardGate full 0x003 ∧ ¬ standardGate full 0x340 ∧ full.priv = .machine := by
  refine ⟨.inl ⟨by decide, .inl ⟨rfl, rfl⟩⟩, .inl ⟨by decide, .inr (.inl ⟨rfl, rfl, .inl rfl⟩)⟩,
    .inl ⟨by decide, .inr (.inl ⟨rfl, rfl, .inr rfl⟩)⟩, .inl ⟨by decide, .inl ⟨rfl, rfl⟩⟩,
    .inr (.inl ⟨rfl, rfl, rfl⟩), .inr (.inr ⟨.inl rfl, rfl⟩), .inr (.inr ⟨.inr (.inr rfl), rfl⟩), ?_, rfl⟩
  rintro (⟨h, -⟩ | ⟨h, -⟩ | ⟨h, -⟩)
  · revert h; decide
  · revert h; decide
  · revert h; decide

/-! ## Witnesses: writes that land -/

theorem unexcepted {c : Config} {f : WarlField} (h : c.warl = []) : Unexcepted c f := by
  intro e he
  rw [h] at he
  cases he

/-- Every hypothesis of `CsrWritten` on the state before. -/
def attempts (s : State) (i : Instr) (r : Csr) (v : Word) : Bool :=
  completes s i r &&
    (match csrForm i with
     | none => false
     | some f => f.op.writes f.src && v == s.cfg.trunc (f.op.result (s.rmwValue r) (s.sourceValue f.src))
         && wlrlAccepts s.cfg r v)

theorem written_of_attempts {s : State} {i : Instr} {r : Csr} {v : Word} (h : attempts s i r v = true) :
    ∃ t, CsrWritten s t r v := by
  unfold attempts at h
  obtain ⟨hc, h⟩ := Bool.and_eq_true_iff.mp h
  obtain ⟨f, hf, hr, ha, -⟩ := witness_of_completes hc
  rw [hf] at h
  simp only [Bool.and_eq_true, beq_iff_eq] at h
  obtain ⟨t, ht⟩ := exec_next i s
  exact ⟨t, i, f, hf, hr, ha, h.1.1, h.1.2, h.2, ht⟩

/-- A full machine with `v` in `x1`. -/
def fullWith (v : Word) : State := withReg full 1 v

/-- A machine whose WLRL fields raise. -/
def raising : State :=
  withReg (State.resetWith { cfgAll with wlrlMpp := .raise, wlrlMcause := .raise }) 1 0x1000

/-- `mcause` with the reserved code 10, `MPP` with the reserved level 2: both policies. -/
theorem witness_WlrlFields :
    (∃ t, CsrWritten (fullWith 10) t (.cause .machine) 10)
      ∧ (∃ t, CsrWritten (fullWith 0x8000000B) t (.cause .machine) 0x8000000B)
      ∧ full.cfg.causeLegal 0x8000000B = true
      ∧ (∃ t, CsrWritten (fullWith 0x1000) t .mstatus 0x1000)
      ∧ (∃ t, CsrWritten (fullWith 0x800) t .mstatus 0x800)
      ∧ Priv.ofEnc ((0x800 : Word).extractLsb' 11 2) = some .supervisor ∧ full.cfg.supports .supervisor = true
      ∧ csrAt raising.cfg 0x300 = some .mstatus
      ∧ wlrlAccepts raising.cfg .mstatus (CsrOp.write.result (raising.rmwValue .mstatus) (raising.sourceValue (.reg 1)))
          = false :=
  ⟨written_of_attempts (i := .csrrw 0 0x342 1) (by decide +kernel),
    written_of_attempts (i := .csrrw 0 0x342 1) (by decide +kernel), by decide +kernel,
    written_of_attempts (i := .csrrw 0 0x300 1) (by decide +kernel),
    written_of_attempts (i := .csrrw 0 0x300 1) (by decide +kernel), by decide, by decide, by decide +kernel,
    by decide +kernel⟩

theorem witness_TrapRegistersHoldWhatIsWritten :
    (∃ t, CsrWritten (fullWith 0xFFFFFFFF) t (.scratch .machine) 0xFFFFFFFF)
      ∧ (∃ t, CsrWritten (fullWith 0xFFFFFFFF) t (.tval .supervisor) 0xFFFFFFFF)
      ∧ (∃ t, CsrWritten (fullWith 0xFFFFFFFF) t (.epc .user) 0xFFFFFFFF)
      ∧ ValidAddress full.cfg (0xFFFFFFFF &&& ~~~3) ∧ Unexcepted full.cfg (.epc .user)
      ∧ (∃ t, CsrWritten (withReg (State.resetWith Config.cfg64) 1 0xFFFFFFC000000000) t (.epc .machine)
          0xFFFFFFC000000000)
      ∧ ValidAddress Config.cfg64 0xFFFFFFC000000000 ∧ ¬ ValidAddress Config.cfg64 0x0100000000000000 :=
  ⟨written_of_attempts (i := .csrrw 0 0x340 1) (by decide +kernel),
    written_of_attempts (i := .csrrw 0 0x143 1) (by decide +kernel),
    written_of_attempts (i := .csrrw 0 0x041 1) (by decide +kernel), .inl rfl, unexcepted rfl,
    written_of_attempts (i := .csrrw 0 0x341 1) (by decide +kernel),
    .inr (.inr (.inl ⟨by decide, .inl rfl, by decide⟩)), by
      rintro (h | h | ⟨-, -, h⟩ | ⟨-, h, -⟩) <;> revert h <;> decide⟩

/-- A machine with a hard-wired `mtvec`. -/
def hardwired : State := State.resetWith { cfgAll with mtvecHardwired := some 0x100 }

/-- `MODE` 0, 1 and the unsupported 3; a hard-wired `mtvec`. -/
theorem witness_TvecHoldsLegalValues :
    (∃ t, CsrWritten (fullWith 0x1000) t (.tvec .machine) 0x1000)
      ∧ (∃ t, CsrWritten (fullWith 0x1001) t (.tvec .supervisor) 0x1001)
      ∧ (∃ t, CsrWritten (fullWith 0x1003) t (.tvec .machine) 0x1003)
      ∧ (∃ t, CsrWritten hardwired t (.tvec .machine) 31) ∧ hardwired.cfg.mtvecHardwired.isSome = true
      ∧ (0x1000 : Word).extractLsb' 0 2 = 0 ∧ (0x1001 : Word).extractLsb' 0 2 = 1
      ∧ Unexcepted full.cfg (.tvec .machine)
      ∧ (after (fullWith 0x1001) (.csrrw 0 0x105 1)).readCsr (.tvec .supervisor) = 0x1001 :=
  ⟨written_of_attempts (i := .csrrw 0 0x305 1) (by decide +kernel),
    written_of_attempts (i := .csrrw 0 0x105 1) (by decide +kernel),
    written_of_attempts (i := .csrrw 0 0x305 1) (by decide +kernel),
    written_of_attempts (i := .csrrwi 0 0x305 31) (by decide +kernel), rfl, by decide, by decide,
    unexcepted rfl, by decide +kernel⟩

theorem witness_DelegationRegistersHoldLegalBits :
    (∃ t, CsrWritten (fullWith 0xFFFFFFFF) t .medeleg 0xFFFFFFFF)
      ∧ (∃ t, CsrWritten (fullWith 0xFFFFFFFF) t .mideleg 0xFFFFFFFF)
      ∧ (∃ t, CsrWritten (fullWith 0xFFFFFFFF) t .sedeleg 0xFFFFFFFF)
      ∧ (∃ t, CsrWritten (fullWith 0xFFFFFFFF) t .sideleg 0xFFFFFFFF)
      ∧ (∀ f ∈ [WarlField.medeleg, .mideleg, .sedeleg, .sideleg], Unexcepted full.cfg f) :=
  ⟨written_of_attempts (i := .csrrw 0 0x302 1) (by decide +kernel),
    written_of_attempts (i := .csrrw 0 0x303 1) (by decide +kernel),
    written_of_attempts (i := .csrrw 0 0x102 1) (by decide +kernel),
    written_of_attempts (i := .csrrw 0 0x103 1) (by decide +kernel), fun _ _ => unexcepted rfl⟩

/-- Sv32, and `MODE` 1 of RV64, which is reserved. -/
theorem witness_SatpKeepsSupportedModes :
    (∃ t, CsrWritten (fullWith 0xFFFFFFFF) t .satp 0xFFFFFFFF)
      ∧ full.cfg.satpModeSupported (full.cfg.satpMode 0xFFFFFFFF) = true
      ∧ (∃ t, CsrWritten (withReg (State.resetWith Config.cfg64) 1 0x1000000000000000) t .satp 0x1000000000000000)
      ∧ Config.cfg64.satpModeSupported (Config.cfg64.satpMode 0x1000000000000000) = false :=
  ⟨written_of_attempts (i := .csrrw 0 0x180 1) (by decide +kernel), by decide +kernel,
    written_of_attempts (i := .csrrw 0 0x180 1) (by decide +kernel), by decide +kernel⟩

/-- All bits on RV32 and on RV64, and `MPP` with the supported level 1. -/
theorem witness_MstatusFieldsAfterWrite :
    (∃ t, CsrWritten (fullWith 0xFFFFFFFF) t .mstatus 0xFFFFFFFF)
      ∧ (∃ t, CsrWritten (withReg (State.resetWith Config.cfg64) 1 0xFFFFFFFFFFFFFFFF) t .mstatus
          0xFFFFFFFFFFFFFFFF)
      ∧ Config.cfg64.xlen = .rv64 ∧ full.cfg.xlen = .rv32
      ∧ (∃ t, CsrWritten (fullWith 0x800) t .mstatus 0x800)
      ∧ Priv.ofEnc ((0x800 : Word).extractLsb' 11 2) = some .supervisor ∧ full.cfg.supports .supervisor = true :=
  ⟨written_of_attempts (i := .csrrw 0 0x300 1) (by decide +kernel),
    written_of_attempts (i := .csrrw 0 0x300 1) (by decide +kernel), rfl, rfl,
    written_of_attempts (i := .csrrw 0 0x300 1) (by decide +kernel), by decide, by decide⟩

theorem witness_SstatusIsViewOfMstatus : ∃ t, CsrWritten (fullWith 0xFFFFFFFF) t .sstatus 0xFFFFFFFF :=
  written_of_attempts (i := .csrrw 0 0x100 1) (by decide +kernel)

/-- A legal machine with user-level traps and floating-point state, on RV64. -/
def legal64 : State := State.resetWith { Config.cfg64 with hasN := true, hasF := true }

theorem legal64_legal : legal64.Legal := by
  have trap : ∀ x, (legal64.trapRegs x).Legal legal64.cfg x := by
    intro x
    cases x <;> exact ⟨⟨by decide +kernel, by decide +kernel, by decide +kernel⟩, by decide +kernel,
      by decide +kernel, by decide +kernel, by decide +kernel, by decide +kernel⟩
  constructor
  case traps => exact trap
  case mtvec => intro v h; cases h
  case pmpCfg =>
    intro i
    refine ⟨?_, ?_, ?_, ?_⟩ <;> revert i <;> decide +kernel
  all_goals decide +kernel

/-- The same with all bits of `x1` set. -/
def legal64Ones : State := withReg legal64 1 0xFFFFFFFFFFFFFFFF

theorem legal64Ones_legal : legal64Ones.Legal :=
  { legal64_legal with regs := by decide +kernel, traps := legal64_legal.traps }

theorem witness_SipAndSieAreViews :
    legal64Ones.Legal ∧ (∃ t, CsrWritten legal64Ones t .sip 0xFFFFFFFFFFFFFFFF)
      ∧ ∃ t, CsrWritten legal64Ones t .sie 0xFFFFFFFFFFFFFFFF :=
  ⟨legal64Ones_legal, written_of_attempts (i := .csrrw 0 0x144 1) (by decide +kernel),
    written_of_attempts (i := .csrrw 0 0x104 1) (by decide +kernel)⟩

theorem witness_UserRegistersAreViews :
    legal64Ones.Legal ∧ legal64Ones.cfg.n = true ∧ (∃ t, CsrWritten legal64Ones t .ustatus 0xFFFFFFFFFFFFFFFF)
      ∧ (∃ t, CsrWritten legal64Ones t .uie 0xFFFFFFFFFFFFFFFF) ∧ ∃ t, CsrWritten legal64Ones t .uip 0xFFFFFFFFFFFFFFFF :=
  ⟨legal64Ones_legal, rfl, written_of_attempts (i := .csrrw 0 0x000 1) (by decide +kernel),
    written_of_attempts (i := .csrrw 0 0x004 1) (by decide +kernel),
    written_of_attempts (i := .csrrw 0 0x044 1) (by decide +kernel)⟩

/-- The controller's signals high with the software bits clear, and every interrupt delegated: a set of bit 0
through each register latches neither signal. -/
theorem witness_MipSoftwareInjection :
    let s := { legal64Ones with
      mipSw := 0, lines := { legal64Ones.lines with seip := true, ueip := true } }
    s.priv = .machine ∧ (1 : Reg) ≠ 0 ∧ (31 : Reg) ≠ 0 ∧ s.Legal
      ∧ (s.readCsr .mip).getLsbD 9 = true ∧ (s.readCsr .mip).getLsbD 8 = true
      ∧ (∀ p ∈ [(Instr.csrrsi 5 0x344 1, Csr.mip), (.csrrci 5 0x344 1, .mip), (.csrrs 5 0x144 1, .sip),
          (.csrrsi 5 0x144 1, .sip), (.csrrsi 5 0x044 1, .uip)], completes s p.1 p.2 = true)
      ∧ (after s (.csrrsi 5 0x144 1)).mipSw.getLsbD 8 = false
      ∧ (after s (.csrrsi 5 0x344 1)).mipSw.extractLsb' 8 2 = 0 :=
  ⟨by decide, by decide, by decide, { legal64Ones_legal with traps := legal64Ones_legal.traps, mipSw := by decide },
    by decide +kernel, by decide +kernel, by decide +kernel, by decide +kernel, by decide +kernel⟩

theorem witness_MipHardwareBits :
    legal64Ones.Legal ∧ (∃ t, CsrWritten legal64Ones t .mip 0xFFFFFFFFFFFFFFFF)
      ∧ ∃ t, CsrWritten legal64Ones t .mie 0xFFFFFFFFFFFFFFFF :=
  ⟨legal64Ones_legal, written_of_attempts (i := .csrrw 0 0x344 1) (by decide +kernel),
    written_of_attempts (i := .csrrw 0 0x304 1) (by decide +kernel)⟩

/-- A machine with the event counters 3 and 31, of 40 bits, and all bits of `x1` set. -/
def counting : State :=
  withReg
    (State.resetWith
      { cfgAll with hpmImplemented := 0x80000008, hpmBits := Vector.replicate 29 40, mcounterenMask := 0x80000009 })
    1 0xFFFFFFFF

theorem witness_CountersHoldWhatIsWritten_events :
    counting.cfg.hpmExists ((0 : Fin 29).val + 3) = true ∧ counting.cfg.hpmExists ((28 : Fin 29).val + 3) = true
      ∧ (∃ t, CsrWritten counting t (.mhpmcounter 0) 0xFFFFFFFF)
      ∧ (∃ t, CsrWritten counting t (.mhpmcounterh 28) 0xFFFFFFFF)
      ∧ (after counting (.csrrw 0 0xB9F 1)).readCsr (.mhpmcounterh 28) = 0xFF
      ∧ (∃ t, CsrWritten counting t (.mhpmevent 28) 0xFFFFFFFF) ∧ Unexcepted counting.cfg (.hpmevent 28)
      ∧ (after counting (.csrrw 0 0x33F 1)).readCsr (.mhpmevent 28) = 0xFFFFFFFF
      ∧ (∃ t, CsrWritten counting t .mcounteren 0xFFFFFFFF) ∧ (∃ t, CsrWritten counting t .scounteren 0xFFFFFFFF)
      ∧ Unexcepted counting.cfg .mcounteren ∧ Unexcepted counting.cfg .scounteren
      ∧ (after counting (.csrrw 0 0x306 1)).readCsr .mcounteren = 0x80000009
      ∧ (∃ w, CsrWritten (withReg counting 1 0x80000009) w .mcounteren 0x80000009)
      ∧ (after counting (.csrrw 0 0x106 1)).readCsr .scounteren = 7
      ∧ ∃ w, CsrWritten (withReg counting 1 7) w .scounteren 7 :=
  ⟨by decide, by decide, written_of_attempts (i := .csrrw 0 0xB03 1) (by decide +kernel),
    written_of_attempts (i := .csrrw 0 0xB9F 1) (by decide +kernel), by decide +kernel,
    written_of_attempts (i := .csrrw 0 0x33F 1) (by decide +kernel), unexcepted rfl, by decide +kernel,
    written_of_attempts (i := .csrrw 0 0x306 1) (by decide +kernel),
    written_of_attempts (i := .csrrw 0 0x106 1) (by decide +kernel), unexcepted rfl,
    unexcepted rfl, by decide +kernel, written_of_attempts (i := .csrrw 0 0x306 1) (by decide +kernel),
    by decide +kernel, written_of_attempts (i := .csrrw 0 0x106 1) (by decide +kernel)⟩

theorem witness_CountersHoldWhatIsWritten :
    full.cfg.xlen = .rv32
      ∧ (∃ t, CsrWritten (fullWith 0xFFFFFFFF) t .minstret 0xFFFFFFFF)
      ∧ (∃ t, CsrWritten (fullWith 0xFFFFFFFF) t .minstreth 0xFFFFFFFF)
      ∧ (∃ t, CsrWritten (fullWith 0xFFFFFFFF) t .mcycle 0xFFFFFFFF)
      ∧ (∃ t, CsrWritten (fullWith 0xFFFFFFFF) t .mcycleh 0xFFFFFFFF) :=
  ⟨rfl, written_of_attempts (i := .csrrw 0 0xB02 1) (by decide +kernel),
    written_of_attempts (i := .csrrw 0 0xB82 1) (by decide +kernel),
    written_of_attempts (i := .csrrw 0 0xB00 1) (by decide +kernel),
    written_of_attempts (i := .csrrw 0 0xB80 1) (by decide +kernel)⟩

/-- Floating-point state on and Clean, all bits of `x1` set. -/
def floating : State :=
  { fullWith 0xFFFFFFFF with mstatus := { (fullWith 0).mstatus with fs := 2 } }

theorem witness_FloatingPointCsrs :
    (∃ t, CsrWritten floating t .fflags 0xFFFFFFFF) ∧ (∃ t, CsrWritten floating t .frm 0xFFFFFFFF)
      ∧ (∃ t, CsrWritten floating t .fcsr 0xFFFFFFFF)
      ∧ (after floating (.csrrw 0 0x003 1)).readCsr .fcsr ≠ floating.readCsr .fcsr :=
  ⟨written_of_attempts (i := .csrrw 0 0x001 1) (by decide +kernel),
    written_of_attempts (i := .csrrw 0 0x002 1) (by decide +kernel),
    written_of_attempts (i := .csrrw 0 0x003 1) (by decide +kernel), by decide +kernel⟩

/-- `misa`, the counters and selectors 3 and 31, both widths, `misa` implemented or not. -/
theorem witness_FixedRegistersIgnoreWrites :
    (∃ t, CsrWritten (fullWith 0xFFFFFFFF) t .misa 0xFFFFFFFF)
      ∧ full.cfg.hpmExists ((0 : Fin 29).val + 3) = false ∧ full.cfg.hpmExists ((28 : Fin 29).val + 3) = false
      ∧ (∃ t, CsrWritten (fullWith 0xFFFFFFFF) t (.mhpmcounter 0) 0xFFFFFFFF)
      ∧ (∃ t, CsrWritten (fullWith 0xFFFFFFFF) t (.mhpmcounterh 28) 0xFFFFFFFF)
      ∧ (∃ t, CsrWritten (fullWith 0xFFFFFFFF) t (.mhpmevent 28) 0xFFFFFFFF)
      ∧ (full.cfg.misaImplemented = true ∧ full.cfg.xlen = .rv32)
      ∧ (legal64.cfg.misaImplemented = true ∧ legal64.cfg.xlen = .rv64)
      ∧ (State.resetWith { Config.cfg0 with misaImplemented := false }).cfg.misaImplemented = false :=
  ⟨written_of_attempts (i := .csrrw 0 0x301 1) (by decide +kernel), by decide, by decide,
    written_of_attempts (i := .csrrw 0 0xB03 1) (by decide +kernel),
    written_of_attempts (i := .csrrw 0 0xB9F 1) (by decide +kernel),
    written_of_attempts (i := .csrrw 0 0x33F 1) (by decide +kernel), by decide, by decide, rfl⟩

/-- The letters I, S and U of CFG0 on RV32 and of CFG64, with `MXL` (R81, R82). -/
theorem test_misa :
    State.reset.readCsr .misa = 0x40140100
      ∧ (State.resetWith Config.cfg64).readCsr .misa = 0x8000000000140100 := by decide +kernel

/-! ## Witnesses: traps -/

/-- A machine-timer interrupt pending and enabled, a supervisor one as well. -/
def interrupted : State :=
  { full with mtimecmp := 0, mie := 0x8A, mipSw := 0x2, mstatus := { full.mstatus with mie := true } }

theorem interruptEnabled_machineTimer : InterruptEnabled interrupted .machineTimer :=
  ⟨by decide +kernel, by decide +kernel, .inr ⟨by decide +kernel, by decide +kernel⟩⟩

theorem interruptEnabled_supervisorSoftware : InterruptEnabled interrupted .supervisorSoftware :=
  ⟨by decide +kernel, by decide +kernel, .inr ⟨by decide +kernel, by decide +kernel⟩⟩

theorem witness_NoTrapLowersPrivilege : interrupted.pendingInterrupt = some .machineTimer := by decide +kernel

theorem witness_InterruptPriority :
    interrupted.pendingInterrupt = some .machineTimer ∧ InterruptEnabled interrupted .supervisorSoftware :=
  ⟨by decide +kernel, interruptEnabled_supervisorSoftware⟩

/-- A waiting machine with `mtimecmp` and `MSIP` mapped, at which `arriving` is to arrive. -/
def awaiting : State :=
  { State.resetWith { Config.cfg0 with mtimecmpAddr := some 0x2004000, msipAddr := some 0x2000000 } with
    waiting := true, inputs := [arriving] }

/-- The stores land, the last to an address wins, time and cycles advance and the signals are taken, while the
hart goes on waiting (R103, R256, R311, R312, R320, R345). -/
theorem test_boundary_arrivals :
    (stepped awaiting).mem.read 0x80003000 = some 0xAB ∧ (stepped awaiting).mtimecmp = 0x7FFFFFFFFFFFFFFF
      ∧ (stepped awaiting).mtime = 7 ∧ (stepped awaiting).counters.mcycle = 5
      ∧ (stepped awaiting).lines = { msip := true, meip := true, seip := false, ueip := false }
      ∧ (stepped awaiting).waiting = true := by decide +kernel

/-- An interrupt that arrives is taken at that boundary (R292). -/
theorem test_boundary_interrupt :
    let s := { awaiting with mie := 0x800, mstatus := { awaiting.mstatus with mie := true } }
    (stepped s).mTrap.cause = 0x8000000B ∧ (stepped s).waiting = false := by decide +kernel

theorem witness_InterruptTakenExactlyWhenEnabled :
    (interrupted.noReset = true ∧ AtBoundary interrupted interrupted false
        ∧ InterruptEnabled interrupted .machineTimer)
      ∧ awaiting.noReset = true
      ∧ full.noReset = true ∧ AtBoundary full full false ∧ (∀ i, ¬ InterruptEnabled full i)
      ∧ full.waiting = false := by
  refine ⟨⟨rfl, ⟨rfl, rfl⟩, interruptEnabled_machineTimer⟩, rfl, rfl, ⟨rfl, rfl⟩, ?_, rfl⟩
  rintro i ⟨h, -, -⟩
  cases i <;> revert h <;> decide +kernel

/-- A machine without S-mode and without user-level traps. -/
theorem witness_WithoutDelegationTrapsGoToMachineMode :
    let s := State.resetWith { Config.cfg0 with modes := .mu }
    s.cfg.hasS = false ∧ s.cfg.n = false := by decide

theorem witness_WaitingHartResumes :
    { full with waiting := true }.waiting = true ∧ { full with waiting := true }.mip &&& full.mie = 0
      ∧ interrupted.mip &&& interrupted.mie ≠ 0
      ∧ awaiting.noReset = true ∧ awaiting.waiting = true ∧ { full with waiting := true }.noReset = true := by
  decide +kernel

theorem witness_EcallRaises :
    (inMode full .user).priv = .user ∧ (inMode full .supervisor).priv = .supervisor ∧ full.priv = .machine := by
  decide

theorem witness_MretReturns : full.priv = .machine ∧ (inMode full .supervisor).priv ≠ .machine := by decide

/-- SRET in M-mode and in S-mode; under `TSR`; in U-mode; without S-mode. -/
theorem witness_SretReturns :
    (full.cfg.hasS = true ∧ full.priv ≠ .user ∧ ¬(full.priv = .supervisor ∧ full.mstatus.tsr = true))
      ∧ ((inMode full .supervisor).priv ≠ .user ∧ full.mstatus.tsr = false)
      ∧ { inMode full .supervisor with mstatus := { full.mstatus with tsr := true } }.mstatus.tsr = true
      ∧ (inMode full .user).priv = .user
      ∧ (State.resetWith { Config.cfg0 with modes := .mu }).cfg.hasS = false := by decide

theorem witness_UretReturns : full.cfg.n = true ∧ State.reset.cfg.n = false := by decide

/-- WFI in M-mode; in S-mode within its bound; in U-mode; under `TW` past its bound. -/
theorem witness_WfiCompletesOrRaises :
    let waits := { inMode full .supervisor with mstatus := { full.mstatus with tw := true } }
    let late := { waits with draws := { Draws.none with twTimeout := true } }
    full.priv = .machine ∧ (waits.mstatus.tw = true ∧ waits.draws.twTimeout = false ∧ waits.priv = .supervisor)
      ∧ ((inMode full .user).priv = .user ∧ full.cfg.wfiInU = false)
      ∧ (late.priv ≠ .machine ∧ late.mstatus.tw = true ∧ late.draws.twTimeout = true) := by decide

/-- SFENCE.VMA in M-mode; under `TVM`; in U-mode; without S-mode. An entry that `x8, x9` selects and one
that `x9` keeps. -/
theorem witness_SfenceVmaDropsSelectedEntries :
    let s := { withReg (withReg full 8 0x5FFC) 9 1 with tlb := [entry 1 false, entry 1 true] }
    (s.cfg.hasS = true ∧ s.priv ≠ .user ∧ ¬(s.priv = .supervisor ∧ s.mstatus.tvm = true))
      ∧ (after s (.sfenceVma 8 9)).tlb = [entry 1 true]
      ∧ { inMode full .supervisor with mstatus := { full.mstatus with tvm := true } }.mstatus.tvm = true
      ∧ (inMode full .user).priv = .user
      ∧ (State.resetWith { Config.cfg0 with modes := .mu }).cfg.hasS = false := by decide +kernel

/-- A trap into M-mode, S-mode and U-mode of a legal machine. -/
theorem witness_TrapThenReturnRestores :
    legal64.Legal
      ∧ Trapped legal64 (legal64.takeTrap .machine false 3 0) .machine false 3 0
      ∧ Trapped legal64 (legal64.takeTrap .supervisor true 5 0) .supervisor true 5 0
      ∧ Trapped legal64 (legal64.takeTrap .user false 8 0) .user false 8 0
      ∧ legal64.priv.enc.toNat ≤ Priv.machine.enc.toNat ∧ legal64.cfg.hasS = true
      ∧ legal64.mstatus.tsr = false ∧ legal64.cfg.n = true := by
  refine ⟨legal64_legal, ?_, ?_, ?_, by decide, by decide, by decide, by decide⟩
  all_goals
    constructor
    case otherModes => intro y hy; cases y <;> first | exact absurd rfl hy | rfl
    case otherEnables => intro y hy; cases y <;> first | exact absurd rfl hy | exact ⟨rfl, rfl⟩
    case mem => exact fun _ => rfl
    all_goals decide +kernel

/-! ## Witnesses: memory protection and translation -/

/-- A machine in M-mode that fences, with Sv32 selected. -/
def fencing : State := { full with satp := 0x80080001, tlb := [entry 0 false] }

theorem witness_AfterFullFenceTranslationsWalk :
    (∃ t, exec (.sfenceVma 0 0) fencing = .next t)
      ∧ (fencing.cfg.hasS = true ∧ fencing.priv ≠ .user ∧ ¬(fencing.priv = .supervisor ∧ fencing.mstatus.tvm = true))
      ∧ (after fencing (.sfenceVma 0 0)).activeScheme .user = some .sv32 ∧ canonical .sv32 0x5FFC = true :=
  ⟨exec_next _ _, by decide, by decide +kernel, rfl⟩

/-- One entry of each kind of match at the ends of its range: TOR to 0x1000, NA4 at 0x1000, NAPOT over
0x2000 to 0x2FFF. -/
def pmpKinds : Pmp :=
  { entryCfg := (((Vector.replicate 16 0).set 0 0x89).set 1 0x12).set 2 0x1F
    entryAddr := (((Vector.replicate 16 0).set 0 0x400).set 1 0x400).set 2 0x9FF }

theorem witness_PmpCheckFollowsMatchedEntry :
    pmpKinds.allows cfgAll .load .user 0xFFC 4 = true ∧ pmpKinds.allows cfgAll .store .machine 0xFFC 4 = false
      ∧ pmpKinds.allows cfgAll .load .user 0xFFE 4 = false ∧ pmpKinds.allows cfgAll .store .user 0x1000 4 = true
      ∧ pmpKinds.allows cfgAll .fetch .user 0x2FFC 4 = true ∧ pmpKinds.allows cfgAll .load .user 0x3000 4 = false
      ∧ pmpKinds.allows cfgAll .load .machine 0x3000 4 = true
      ∧ pmpKinds.allowsParts cfgAll .load .user [(0xFFE, 2), (0x1000, 2)] = false
      ∧ pmpKinds.allowsParts cfgAll .load .user [(0xFFE, 2), (0x0, 2)] = true := by decide +kernel

/-- Entries 0 and 3 of `pmpcfg0` on RV32, entry 15 of `pmpcfg2` on RV64, the first and the last address. -/
theorem witness_PmpCheckFollowsMatchedEntry_writes :
    let s64 := withReg (State.resetWith { cfgAll with xlen := .rv64, satpSv32 := false }) 1 0xFFFFFFFFFFFFFFFF
    (∃ t, CsrWritten (fullWith 0x9F00001F) t (.pmpcfg 0) 0x9F00001F)
      ∧ pmpBit full.pmp 0 7 = false ∧ pmpBit full.pmp 3 7 = false ∧ Unexcepted full.cfg (.pmpcfg 3)
      ∧ pmpByteHeld full.cfg ((0x9F00001F : Word).extractLsb' 24 8)
      ∧ (after (fullWith 0x9F00001F) (.csrrw 0 0x3A0 1)).pmp.entryCfg[3] = 0x9F
      ∧ (∃ t, CsrWritten s64 t (.pmpcfg 2) 0xFFFFFFFFFFFFFFFF) ∧ s64.cfg.pmpCount = 16
      ∧ (∃ t, CsrWritten s64 t (.pmpaddr 0) 0xFFFFFFFFFFFFFFFF)
      ∧ (∃ t, CsrWritten s64 t (.pmpaddr 15) 0xFFFFFFFFFFFFFFFF)
      ∧ (after s64 (.csrrw 0 0x3BF 1)).readCsr (.pmpaddr 15) = 0x003FFFFFFFFFFFFF :=
  ⟨written_of_attempts (i := .csrrw 0 0x3A0 1) (by decide +kernel), by decide +kernel, by decide +kernel,
    unexcepted rfl, ⟨by decide, by decide, by decide, by decide⟩, by decide +kernel,
    written_of_attempts (i := .csrrw 0 0x3A2 1) (by decide +kernel), by decide,
    written_of_attempts (i := .csrrw 0 0x3B0 1) (by decide +kernel),
    written_of_attempts (i := .csrrw 0 0x3BF 1) (by decide +kernel), by decide +kernel⟩

/-- Entry 1 locked, with top-of-range matching. -/
def locked : State :=
  let m := full.withFetchWord 32 0x10500073
  { m with pmp :=
    { entryCfg := (Vector.replicate 16 0).set 1 0x8D
      entryAddr := ((Vector.replicate 16 0).set 0 0x1000).set 1 0x20002000 } }

/-- Writes of the registers of a locked entry and of the address below it, and an entry that `pmpcfg0` does not
hold on RV32. -/
theorem witness_PmpCheckFollowsMatchedEntry_frame :
    (∃ t, CsrWritten locked t (.pmpaddr 1) 0) ∧ pmpBit locked.pmp 1 7 = true
      ∧ (∃ t, CsrWritten locked t (.pmpaddr 0) 0) ∧ 1 < locked.cfg.pmpCount
      ∧ pmpBit locked.pmp 1 4 = false ∧ pmpBit locked.pmp 1 3 = true
      ∧ (∃ t, CsrWritten locked t (.pmpcfg 0) 0) ∧ locked.cfg.xlen = .rv32
      ∧ ¬(4 * (0 : Fin 4).val ≤ (4 : Fin 16).val ∧ (4 : Fin 16).val < 4 * (0 : Fin 4).val + 4) :=
  ⟨written_of_attempts (i := .csrrw 0 0x3B1 0) (by decide +kernel), by decide +kernel,
    written_of_attempts (i := .csrrw 0 0x3B0 0) (by decide +kernel), by decide, by decide, by decide,
    written_of_attempts (i := .csrrw 0 0x3A0 0) (by decide +kernel), rfl, by decide⟩

/-- Whether the machine goes on. -/
def goesOn (s : State) : Bool :=
  match step s with
  | .next _ => true
  | .fault _ => false
  | .refused _ => false

theorem next_of_goesOn {s : State} (h : goesOn s = true) : ∃ t, step s = .next t := by
  unfold goesOn at h
  split at h
  · next t ht => exact ⟨t, ht⟩
  all_goals cases h

theorem witness_LockedPmpEntriesStayUntilReset :
    locked.noReset = true ∧ (∃ t, step locked = .next t) ∧ (1 : Fin 16).val < locked.cfg.pmpCount
      ∧ pmpBit locked.pmp (1 : Fin 16).val 7 = true ∧ (0 : Fin 16).val + 1 = (1 : Fin 16).val
      ∧ pmpBit locked.pmp (1 : Fin 16).val 4 = false ∧ pmpBit locked.pmp (1 : Fin 16).val 3 = true
      ∧ locked.pmp.deciding locked.cfg 0x4000 4 = some 1
      ∧ locked.pmp.allows locked.cfg .load .machine 0x4000 4 = true :=
  ⟨rfl, next_of_goesOn (by decide +kernel), by decide, by decide, rfl, by decide, by decide, by decide +kernel,
    by decide +kernel⟩

theorem witness_UntranslatedAccess :
    full.priv = .machine ∧ (State.resetWith { Config.cfg0 with modes := .mu }).cfg.hasS = false
      ∧ full.cfg.satpMode full.satp = 0
      ∧ { full with mstatus := { full.mstatus with mprv := true } }.mstatus.mprv = true := by decide

/-- Each MODE that selects a scheme, one that is reserved, and an address past the range of Sv39 that is
canonical for Sv48 (R120, R184, R185). -/
theorem witness_UntranslatedAccess_schemes :
    paged.cfg.xlen = .rv32 ∧ paged.satp.getLsbD 31 = true ∧ paged.activeScheme .user = some .sv32
      ∧ (let s := fun m : Word => { State.resetWith Config.cfg64 with satp := m <<< 60 }
        (s 8).cfg.xlen = .rv64 ∧ (s 8).activeScheme .supervisor = some .sv39
          ∧ (s 9).activeScheme .supervisor = some .sv48 ∧ (s 10).activeScheme .supervisor = none)
      ∧ canonical .sv39 0x4000000000 = false ∧ canonical .sv48 0x4000000000 = true := by decide +kernel

/-- Where no draw names a cached entry none serves. -/
theorem none_serves {s : State} {sch : Scheme} {acc : Access} {p : Priv} {va : Nat} (h : s.draws.cached = none)
    (e : TlbEntry) : ¬ CachedServes s sch acc p va e := by
  rintro ⟨⟨k, hk, -⟩, -⟩
  rw [h] at hk
  cases hk

theorem witness_TranslationIsThePageTableWalk :
    paged.activeScheme .supervisor = some .sv32 ∧ WalkStartsAt paged .sv32 .store .supervisor 0x2ABC 1 0x80001000
      ∧ translatesTo paged .fetch .supervisor 0x2ABC 0x80002ABC = true ∧ canonical .sv32 0x2ABC = true :=
  ⟨by decide +kernel, ⟨false, .inl ⟨none_serves rfl, rfl, by decide +kernel, rfl⟩⟩, by decide +kernel, by decide⟩

/-- The superpage entry of `paged`: valid, readable, writable, executable, accessed, dirty. -/
theorem witness_TranslationIsThePageTableWalk_leaf :
    LeafReached paged .sv32 0x2ABC 1 0x80001000 1 0x80001000 0x200000CF
      ∧ LeafReady paged .sv32 .store .supervisor 1 0x200000CF :=
  ⟨.leaf 1 0x80001000 0x200000CF ⟨by decide +kernel, ⟨0x200000CF, by rfl, rfl⟩, by decide, .inl (by decide)⟩
    (.inl (by decide)), ⟨by decide, .inl (by decide)⟩, by decide, by decide, fun _ => by decide⟩

/-- `paged` with hardware updates and a superpage whose Accessed and Dirty bits are clear. -/
def updating : State :=
  { paged with
    cfg := { Config.cfg0 with hardwareADUpdate := true }
    mem := paged.mem.writeList 0x80001000 (bytesOf 4 0x2000000F) }

/-- A store through it sets both bits (R183). -/
theorem witness_TranslationIsThePageTableWalk_update :
    updating.activeScheme .supervisor = some .sv32
      ∧ WalkStartsAt updating .sv32 .store .supervisor 0x2ABC 1 0x80001000
      ∧ LeafReached updating .sv32 0x2ABC 1 0x80001000 1 0x80001000 0x2000000F
      ∧ updating.cfg.hardwareADUpdate = true ∧ ¬ LeafPageFaults updating .sv32 .store .supervisor 1 0x2000000F
      ∧ updating.physAllows updating.pmp .store .supervisor 0x80001000 4 = true
      ∧ pmaAtomic updating.pma 0x80001000 4 = true
      ∧ ∃ t, updating.translate .store .supervisor 0x2ABC = .ok t ∧ t.state.mem.read 0x80001000 = some 0xCF := by
  refine ⟨by decide +kernel, ⟨false, .inl ⟨none_serves rfl, rfl, by decide +kernel, rfl⟩⟩,
    .leaf 1 0x80001000 0x2000000F ⟨by decide +kernel, ⟨0x2000000F, by rfl, rfl⟩, by decide, .inl (by decide)⟩
      (.inl (by decide)), rfl, ?_, by decide +kernel, by decide +kernel, ⟨_, by rfl, by decide +kernel⟩⟩
  rintro (h | h | h)
  · exact h ⟨by decide, .inl (by decide)⟩
  · exact h (by decide)
  · exact absurd h.1 (by decide)

/-- What that store leaves in the cache: the updated leaf, in address space 0, for the first 4 MiB; a walk that
meets an entry of the reserved encoding with `G` set caches it as one that is not global (R186). -/
theorem test_cache_gains :
    (match updating.translate .store .supervisor 0x2ABC with
     | .ok t => t.state.tlb
     | .exc _ _ => []
     | .fault _ => []
     | .refused _ => [])
        = [{ asid := 0, global := false, level := 1, vpn := 0, pte := 0x200000CF, pmp := updating.pmp }]
      ∧ ({ paged with mem := paged.mem.writeList 0x80001004 (bytesOf 4 0x25) }.speculateOne
          ⟨.supervisor, false, 0x402000⟩).tlb
        = [{ asid := 0, global := false, level := 1, vpn := 1, pte := 0x25, pmp := paged.pmp }] := by decide +kernel

/-- The machine of above with a page-table entry of level 1 in its cache, for the first 4 MiB, and a draw that
uses it. -/
def cachedPaged (pte : Word) : State :=
  { paged with
    tlb := [{ asid := 0, global := false, level := 1, vpn := 0, pte := pte, pmp := paged.pmp }]
    mem := paged.mem.writeList 0x80001008 (bytesOf 4 0x200008CF)
    draws := { Draws.none with cached := some 0 } }

theorem cachedPaged_serves {acc : Access} (pte : Word) :
    CachedServes (cachedPaged pte) .sv32 acc .supervisor 0x2ABC
      { asid := 0, global := false, level := 1, vpn := 0, pte := pte, pmp := paged.pmp } :=
  ⟨⟨0, rfl, rfl⟩, (by decide +kernel : 0 = 0x2ABC / 2 ^ (12 + 1 * vpnBits .sv32)), .inr (.inl (by decide +kernel : 0 = presentAsid paged)), fun h => by cases h.1⟩

/-- An old superpage at 0xC0000000 is used, and an old pointer to the table at 0x80001000. -/
theorem witness_TranslationIsThePageTableWalk_cached :
    (PteValid 0x300000CF ∧ PteLeaf 0x300000CF
        ∧ LeafReady (cachedPaged 0x300000CF) .sv32 .store .supervisor 1 0x300000CF
        ∧ translatesTo (cachedPaged 0x300000CF) .store .supervisor 0x2ABC 0xC0002ABC = true)
      ∧ WalkStartsAt (cachedPaged 0x20000401) .sv32 .store .supervisor 0x2ABC 0 0x80001000
      ∧ LeafReached (cachedPaged 0x20000401) .sv32 0x2ABC 0 0x80001000 0 0x80001008 0x200008CF
      ∧ LeafReady (cachedPaged 0x20000401) .sv32 .store .supervisor 0 0x200008CF
      ∧ translatesTo (cachedPaged 0x20000401) .store .supervisor 0x2ABC 0x80002ABC = true := by
  refine ⟨⟨⟨by decide, .inl (by decide)⟩, .inl (by decide),
      ⟨⟨by decide, .inl (by decide)⟩, by decide, by decide, fun _ => by decide⟩, by decide +kernel⟩,
    ⟨_, .inr ⟨_, cachedPaged_serves _, ⟨by decide, .inr (by decide)⟩, by simp [PteLeaf]; decide, rfl, rfl, rfl⟩⟩,
    .leaf 0 0x80001000 0x200008CF ⟨by decide +kernel, ⟨0x200008CF, by rfl, rfl⟩, by decide, .inl (by decide)⟩
      (.inl (by decide)),
    ⟨⟨by decide, .inl (by decide)⟩, by decide, by decide, fun _ => by decide⟩, by decide +kernel⟩

/-- An unmapped page, whose entry is not valid; a page table, and a page, that no region holds. -/
theorem witness_TranslationFaultsAreOfTheAccessType :
    let s := { paged with mem := paged.mem.writeList 0x80001004 (bytesOf 4 0) }
    let t := { paged with pma := [] }
    let u := { paged with pma := [{ Config.flatMemory with size := 0x80002000 }] }
    s.activeScheme .supervisor = some .sv32
      ∧ WalkStartsAt s .sv32 .store .supervisor 0x00402000 1 (s.cfg.satpPpn s.satp * 4096)
      ∧ s.accessAddress .store .supervisor 0x00402000 4 = .exc .storePageFault 0x00402000
      ∧ WalkPageFaults s .sv32 .store .supervisor 0x00402000 1 (s.cfg.satpPpn s.satp * 4096)
      ∧ t.translate .store .supervisor 0x2000 = .exc .storeAccessFault 0x2000
      ∧ translatesTo u .store .supervisor 0x2000 0x80002000 = true
      ∧ u.accessAddress .store .supervisor 0x2000 4 = .exc .storeAccessFault 0x2000
      ∧ CachedPageFaults (cachedPaged 0) .sv32 .store .supervisor 0x2ABC :=
  ⟨rfl, ⟨false, .inl ⟨none_serves rfl, rfl, rfl, rfl⟩⟩, rfl, by unfold WalkPageFaults; exact ⟨0, ⟨by decide +kernel, 0, rfl, rfl⟩, .inl (by decide)⟩, rfl,
    by decide +kernel, rfl, ⟨_, cachedPaged_serves 0, .inl fun h => absurd h.1 (by decide)⟩⟩

/-! ## Witnesses: the whole machine -/

theorem witness_InstructionsStoreNothing : ∃ t, exec (.csrrw 5 0x340 6) full = .next t := exec_next _ _

/-- One that raises, one that retires, one that writes the counter. -/
theorem witness_MinstretCountsRetiredInstructions :
    (after full .ebreak).counters.minstret = 0 ∧ (after full .mret).counters.minstret = 1
      ∧ (after full (.csrrwi 0 0xB02 5)).counters.minstret = 5 := by decide +kernel

theorem witness_PrivilegeRisesOnlyByTrap :
    (∃ t, exec .ecall (inMode full .user) = .next t)
      ∧ (inMode full .user).priv.enc.toNat < (after (inMode full .user) .ecall).priv.enc.toNat :=
  ⟨exec_next _ _, by decide +kernel⟩

/-- U-mode with user-level traps writes `uscratch`. -/
def userWrites : State :=
  inMode ((State.resetWith { Config.cfg0 with hasN := true }).withFetchWord 32 0x040FD073) .user

theorem witness_UserModeCannotChangePrivilegedState :
    userWrites.Running ∧ userWrites.priv = .user ∧ (∃ t, step userWrites = .next t)
      ∧ (stepped userWrites).priv = .user ∧ (stepped userWrites).uTrap.scratch = 31 :=
  ⟨⟨by decide +kernel, by decide +kernel, by decide +kernel⟩, rfl, next_of_goesOn (by decide +kernel),
    by decide +kernel, by decide +kernel⟩

/-- The legal machine of above with memory written takes a step. -/
theorem witness_StepKeepsLegalStates :
    (legal64.withFetchWord 32 0x30200073).Legal ∧ ∃ t, step (legal64.withFetchWord 32 0x30200073) = .next t :=
  ⟨{ legal64_legal with traps := legal64_legal.traps, mem := by decide +kernel }, next_of_goesOn (by decide +kernel)⟩

theorem witness_HartResetGivesLegalState : paged.mem.wf = true := by decide +kernel

/-- A boundary at which the hart is reset. -/
def resetInput : Input :=
  { reset := true, mcycleTicks := 0, mtimeTicks := 0, hpmTicks := [], meip := false, seip := false, ueip := false
    pma := none, writes := [], wake := false, draws := Draws.none, speculate := [] }

theorem witness_ResetValues :
    { paged with inputs := [resetInput] }.inputs = resetInput :: [] ∧ resetInput.reset = true := by decide

theorem witness_StepKeepsParameters : ∃ t, step (fetching 0x00000073) = .next t :=
  next_of_goesOn (by decide +kernel)

end Sys2Proof.Tests
end

section
/-! Family 00, scope: what a fetch reads and raises, what a step runs, and the parameters that no step
changes. -/

namespace Sys2Proof.Machine

/-! ## Bytes at physical addresses -/

theorem State.deviceByte_mtime (s : State) {b k : Nat} (hb : s.cfg.mtimeAddr = some b) (hk : k < 8) :
    s.deviceByte (b + k) = some (s.mtime.extractLsb' (8 * k) 8) := by
  have hw : registerOffset s.cfg.mtimeAddr 8 (b + k) = some k := registerOffset_some.mpr ⟨b, hb, hk, rfl⟩
  simp only [State.deviceByte, hw, byteOf]

theorem State.deviceByte_mtimecmp (s : State) {b k : Nat} (hb : s.cfg.mtimecmpAddr = some b) (hk : k < 8)
    (ht : inWindow s.cfg.mtimeAddr 8 (b + k) = false) :
    s.deviceByte (b + k) = some (s.mtimecmp.extractLsb' (8 * k) 8) := by
  have hw : registerOffset s.cfg.mtimecmpAddr 8 (b + k) = some k := registerOffset_some.mpr ⟨b, hb, hk, rfl⟩
  simp only [State.deviceByte, registerOffset_none.mpr ht, hw, byteOf]

theorem State.deviceByte_msip (s : State) {b k : Nat} (hb : s.cfg.msipAddr = some b) (hk : k < 4)
    (ht : inWindow s.cfg.mtimeAddr 8 (b + k) = false) (hc : inWindow s.cfg.mtimecmpAddr 8 (b + k) = false) :
    s.deviceByte (b + k) = some (if k = 0 ∧ s.lines.msip = true then 1 else 0) := by
  have hw : registerOffset s.cfg.msipAddr 4 (b + k) = some k := registerOffset_some.mpr ⟨b, hb, hk, rfl⟩
  simp only [State.deviceByte, registerOffset_none.mpr ht, registerOffset_none.mpr hc, hw]

theorem State.deviceByte_outside (s : State) {a : Nat} (ht : inWindow s.cfg.mtimeAddr 8 a = false)
    (hc : inWindow s.cfg.mtimecmpAddr 8 a = false) (hm : inWindow s.cfg.msipAddr 4 a = false) :
    s.deviceByte a = none := by
  simp only [State.deviceByte, registerOffset_none.mpr ht, registerOffset_none.mpr hc,
    registerOffset_none.mpr hm]

/-- The byte at an address is that of a memory-mapped register, or outside I/O regions that of memory. -/
theorem State.physByte_ok_iff {s : State} {a : Nat} {b : Byte} :
    s.physByte a = .ok b ↔
      s.deviceByte a = some b
        ∨ (s.deviceByte a = none ∧ isIo s.pma a = false ∧ s.mem.read a = some b) := by
  unfold State.physByte
  cases s.deviceByte a with
  | some d => simp
  | none => cases isIo s.pma a <;> cases s.mem.read a <;> simp

/-- A physical read of bytes that are all there gives their little-endian value (R146). -/
theorem State.physRead_littleEndian {s : State} (bs : List Byte) {a : Nat}
    (h : ∀ k (hk : k < bs.length), s.physByte (a + k) = .ok bs[k]) :
    s.physRead a bs.length = .ok (littleEndian bs) := by
  induction bs generalizing a with
  | nil => rfl
  | cons b bs ih =>
    have hfirst : s.physByte a = .ok b := h 0 (Nat.zero_lt_succ _)
    have hrest : s.physRead (a + 1) bs.length = .ok (littleEndian bs) :=
      ih fun k hk => by
        rw [Nat.add_assoc, Nat.add_comm 1 k]
        exact h (k + 1) (Nat.succ_lt_succ hk)
    rw [List.length_cons, State.physRead, hfirst, Res.bind, hrest]
    rfl

theorem getElem_bytesOf (n v k : Nat) (hk : k < (bytesOf n v).length) :
    (bytesOf n v)[k] = BitVec.ofNat 8 (v / 2 ^ (8 * k)) := by
  induction n generalizing v k with
  | zero => exact absurd hk (Nat.not_lt_zero k)
  | succ n ih =>
    cases k with
    | zero => simp [bytesOf]
    | succ k =>
      have hpow : 2 ^ (8 * (k + 1)) = 256 * 2 ^ (8 * k) := by rw [Nat.mul_succ, Nat.pow_add]; omega
      simp only [bytesOf, List.getElem_cons_succ, ih, hpow, Nat.div_div_eq_div_mul]

/-- `PhysRead(a, n)` gives `v` exactly if the byte at each address is that of `v` (R13, R146). -/
theorem State.physRead_ok_iff {s : State} {a n v : Nat} :
    s.physRead a n = .ok v ↔
      v < 2 ^ (8 * n) ∧ ∀ k, k < n → s.physByte (a + k) = .ok (BitVec.ofNat 8 (v / 2 ^ (8 * k))) := by
  have hpow : ∀ k, 256 ^ k = 2 ^ (8 * k) := fun k => (Nat.pow_mul 2 8 k).symm
  constructor
  · intro h
    simpa only [hpow] using State.physRead_bytes n h
  · rintro ⟨hv, hb⟩
    have hr := State.physRead_littleEndian (s := s) (a := a) (bytesOf n v) fun k hk => by
      rw [getElem_bytesOf]
      exact hb k (bytesOf_length n v ▸ hk)
    rwa [bytesOf_length, littleEndian_bytesOf, Nat.mod_eq_of_lt hv] at hr

theorem toNat_append_byte {n : Nat} (v : BitVec n) (b : Byte) : (v ++ b).toNat = 256 * v.toNat + b.toNat := by
  rw [BitVec.toNat_append, ← Nat.shiftLeft_add_eq_or_of_lt b.isLt, Nat.shiftLeft_eq, Nat.mul_comm]

/-- Four bytes, the first in bits 7:0, as the word of a fetch (R201). -/
theorem ofNat_littleEndian_four (b0 b1 b2 b3 : Byte) :
    BitVec.ofNat 32 (littleEndian [b0, b1, b2, b3]) = b3 ++ b2 ++ b1 ++ b0 := by
  apply BitVec.eq_of_toNat_eq
  simp only [littleEndian, BitVec.toNat_ofNat, toNat_append_byte]
  omega

/-! ## Fetch -/

/-- A fetch whose address is aligned and passes its checks takes the four bytes there. -/
theorem State.fetch_of_bytes {s : State} {t : Translated} {b0 b1 b2 b3 : Byte}
    (hal : (s.cfg.trunc s.pc).extractLsb' 0 2 = 0)
    (ha : s.accessAddress .fetch s.priv (s.cfg.trunc s.pc) 4 = .ok t)
    (hm : ∀ k, k < 4 → t.state.deviceByte (t.pa + k) = none ∧ isIo t.state.pma (t.pa + k) = false)
    (h0 : t.state.mem.read t.pa = some b0) (h1 : t.state.mem.read (t.pa + 1) = some b1)
    (h2 : t.state.mem.read (t.pa + 2) = some b2) (h3 : t.state.mem.read (t.pa + 3) = some b3) :
    s.fetch = .ok (t.state, b3 ++ b2 ++ b1 ++ b0) := by
  have hbyte : ∀ {k b}, k < 4 → t.state.mem.read (t.pa + k) = some b → t.state.physByte (t.pa + k) = .ok b :=
    fun hk hb => State.physByte_ok_iff.mpr (.inr ⟨(hm _ hk).1, (hm _ hk).2, hb⟩)
  have hread : t.state.physRead t.pa 4 = .ok (littleEndian [b0, b1, b2, b3]) :=
    State.physRead_littleEndian [b0, b1, b2, b3] fun k hk => by
      match k with
      | 0 => exact hbyte (by decide) h0
      | 1 => exact hbyte (by decide) h1
      | 2 => exact hbyte (by decide) h2
      | 3 => exact hbyte (by decide) h3
  simp [State.fetch, hal, ha, hread, Res.bind, ofNat_littleEndian_four]

/-- A fetch raises what alignment raises, or what its translation and its checks raise. -/
theorem State.fetch_exc_iff {s : State} {e : Exception} {tval : Word} :
    s.fetch = .exc e tval ↔
      ((s.cfg.trunc s.pc).extractLsb' 0 2 ≠ 0 ∧ e = .instrAddrMisaligned ∧ tval = s.cfg.trunc s.pc)
        ∨ ((s.cfg.trunc s.pc).extractLsb' 0 2 = 0
            ∧ s.accessAddress .fetch s.priv (s.cfg.trunc s.pc) 4 = .exc e tval) := by
  unfold State.fetch
  by_cases hal : (s.cfg.trunc s.pc).extractLsb' 0 2 = 0
  · have hread : ∀ t : Translated, ((t.state.physRead t.pa 4).bind fun w =>
        .ok (t.state, BitVec.ofNat 32 w)) ≠ .exc e tval := by
      intro t h
      rcases Res.bind_exc.mp h with h | ⟨w, -, h⟩
      · exact State.physRead_no_exc _ _ _ _ _ h
      · cases h
    simp [hal, Res.bind_exc, hread]
  · simp only [hal, bne_iff_ne, ne_eq, not_false_eq_true, if_true, Res.exc.injEq, true_and, false_and,
      or_false]
    exact and_congr eq_comm eq_comm

/-- An untranslated access is made at the address itself, cut to the physical address space (R177). -/
theorem State.accessAddress_bare {s : State} {acc : Access} {p : Priv} {va : Word} {n : Nat}
    (hb : s.activeScheme p = none) (hp : s.physAllows s.pmp acc p (s.bareAddress va) n = true) :
    s.accessAddress acc p va n = .ok ⟨s, s.bareAddress va, s.pmp⟩ := by
  simp only [State.accessAddress, State.translate, hb, Res.bind, hp, if_true]

/-- What `alignPc` keeps is an XLEN-bit value with bits 1:0 zero (R23). -/
theorem aligned_of_alignPc_eq {c : Config} {v : Word} (h : c.alignPc v = v) :
    c.trunc v = v ∧ v.extractLsb' 0 2 = 0 := by
  constructor
  · rw [← h, Config.trunc_alignPc]
  · apply BitVec.eq_of_getLsbD_eq
    intro i hi
    have hlow : ¬ 2 ≤ i := Nat.not_le.mpr hi
    rw [← h, BitVec.getLsbD_extractLsb', Nat.zero_add, Config.alignPc_getLsbD]
    simp [hlow]

/-! ## What a step runs -/

/-- A hart that does not wait and has no interrupt to take runs the next instruction (R292). -/
theorem State.cycle_of_runs {s : State} (wake : Bool) (hwait : s.waiting = false)
    (hint : s.pendingInterrupt = none) : s.cycle wake = s.runNext := by
  have hs : { s with waiting := false } = s := by rw [← hwait]
  have hr : s.resumes wake = true := by simp [State.resumes, hwait]
  unfold State.cycle
  rw [if_pos hr, hs, hint]

/-- A step at which nothing arrives is the next instruction, where neither waiting nor an interrupt precedes. -/
theorem State.Running.step_eq {s : State} (h : s.Running) : step s = s.runNext := by
  unfold step State.boundary
  rw [h.inputs]
  exact State.cycle_of_runs false h.waiting h.interrupt

theorem State.runNext_of_instr {s t : State} {w : BitVec 32} {i : Instr} (hf : s.fetch = .ok (t, w))
    (hd : decodeWord w = .instr i) : s.runNext = exec i t := by
  simp only [State.runNext, hf, hd, State.runDecoded]

theorem State.runNext_of_exc {s : State} {e : Exception} {tval : Word} (hf : s.fetch = .exc e tval) :
    s.runNext = .next (s.raise e tval) := by
  simp only [State.runNext, hf]

/-- What `runNext` does is the step of a running hart. -/
theorem State.runNext_and_step {s : State} {o : Host.Outcome State Fault Refusal} (h : s.runNext = o) :
    s.runNext = o ∧ (s.Running → step s = o) :=
  ⟨h, fun hr => hr.step_eq.trans h⟩

/-! ## Trap entry -/

theorem Mstatus.push_enables_self (m : Mstatus) (x y : Priv) :
    (m.push x y).pie x = m.ie x ∧ (m.push x y).ie x = false := by
  cases x <;> exact ⟨rfl, rfl⟩

theorem Mstatus.push_enables_other (m : Mstatus) {x z : Priv} (y : Priv) (h : z ≠ x) :
    (m.push x y).pie z = m.pie z ∧ (m.push x y).ie z = m.ie z := by
  revert h
  cases x <;> cases z <;> simp [Mstatus.push, Mstatus.pie, Mstatus.ie]

/-- Trap entry is `trap` of R300, for every cause that R290 and R291 name. -/
theorem State.takeTrap_trapped (s : State) (x : Priv) (intr : Bool) {code : Nat} (tval : Word)
    (hcode : code < 16) : Trapped s (s.takeTrap x intr code tval) x intr code tval where
  epc := by rw [State.takeTrap_trapRegs_same, ← clearLow_two]; rfl
  causeInterrupt := by rw [State.takeTrap_trapRegs_same]; exact (causeWord_fields s.cfg intr hcode).1
  causeCode := by rw [State.takeTrap_trapRegs_same]; exact (causeWord_fields s.cfg intr hcode).2
  tval := by rw [State.takeTrap_trapRegs_same]
  tvec := by rw [State.takeTrap_trapRegs_same]
  scratch := by rw [State.takeTrap_trapRegs_same]
  otherModes _ hy := State.takeTrap_trapRegs_other s intr code tval hy
  previousEnable := (Mstatus.push_enables_self s.mstatus x s.priv).1
  enable := (Mstatus.push_enables_self s.mstatus x s.priv).2
  otherEnables _ hy := Mstatus.push_enables_other s.mstatus s.priv hy
  previousMode := by cases x <;> exact ⟨rfl, rfl⟩
  otherFields := by cases x <;> exact ⟨rfl, rfl, rfl, rfl, rfl, rfl, rfl⟩
  priv := rfl
  waiting := rfl
  pc := State.trapVector_eq s x intr code
  mem _ := by rw [State.takeTrap_mem]
  rest := by cases x <;> rfl

theorem State.raise_trapped (s : State) (e : Exception) (tval : Word) :
    Trapped s (s.raise e tval) (s.exceptionTarget e) false e.code tval :=
  s.takeTrap_trapped _ false tval e.code_lt

/-! ## The parameters -/

/-- No instruction changes the parameters. -/
theorem exec_cfg {i : Instr} {s t : State} (h : exec i s = .next t) : t.cfg = s.cfg := by
  rcases exec_cases h with ⟨e, tval, rfl⟩ | ⟨f, r, u, hc⟩ | ⟨-, -, rfl⟩ | ⟨-, -, rfl⟩ | ⟨-, -, rfl⟩
    | ⟨-, -, rfl⟩ | ⟨a, b, -, -, rfl⟩
  case inr.inl =>
    obtain ⟨regs, he⟩ := s.csrComplete_eq u f.op f.rd r f.src
    rw [hc.result, he]
    exact (State.csrUpdate_frame hc.update).1.cfg
  case inl => exact State.takeTrap_cfg s _ false e.code tval
  all_goals rfl

/-! ## The statements -/

/-- Settles O7: a fetch is its translation, then `PhysRead` of four bytes; where nothing translates, the address
is the aligned program counter, cut to the physical address space. -/
theorem stepRunsInstructionAtPc : Obligations.StepRunsInstructionAtPc := by
  refine ⟨?bare, fun s t b0 b1 b2 b3 => State.fetch_of_bytes, fun s e tval => ⟨State.fetch_exc_iff, ?faults⟩,
    ⟨rfl, rfl, rfl, rfl, rfl⟩, ?read, fun s => ⟨fun _ _ => s.deviceByte_mtime,
      fun _ _ => s.deviceByte_mtimecmp, fun _ _ => s.deviceByte_msip, fun _ => s.deviceByte_outside⟩⟩
  case bare =>
    intro s i b0 b1 b2 b3 hb hpc hp hm h0 h1 h2 h3 hd
    obtain ⟨htrunc, hlow⟩ := aligned_of_alignPc_eq hpc
    have hpa : s.bareAddress s.pc = s.pc.toNat % 2 ^ s.cfg.physBits := by rw [State.bareAddress, htrunc]
    rw [← hpa] at hp hm h0 h1 h2 h3
    have haddr := State.accessAddress_bare hb hp
    have hfetch : s.fetch = .ok (s, b3 ++ b2 ++ b1 ++ b0) :=
      State.fetch_of_bytes (by rw [htrunc, hlow]) (by rw [htrunc]; exact haddr) hm h0 h1 h2 h3
    exact State.runNext_and_step (State.runNext_of_instr hfetch hd)
  case faults =>
    intro hf hal
    rcases State.fetch_exc_iff.mp hf with ⟨hmis, -, -⟩ | ⟨-, ha⟩
    · exact absurd hal hmis
    · exact State.accessAddress_exc ha
  case read =>
    intro s a n v
    simp only [State.physRead_ok_iff, State.physByte_ok_iff]

/-- Settles O60, by `step_preserves`: each part of a step leaves the parameters alone. -/
theorem stepKeepsParameters : Obligations.StepKeepsParameters := by
  intro s t h
  exact step_preserves (P := fun u => u.cfg = s.cfg)
    (hreset := fun _ hu => hu)
    (hdrop := fun _ _ hu => hu)
    (hinput := fun _ _ hf hu => hf.cfg.trans hu)
    (hwake := fun _ hu => hu)
    (hraise := fun u e tval hu => (State.takeTrap_cfg u _ _ _ tval).trans hu)
    (hinterrupt := fun u _ hu => (State.takeTrap_cfg u _ _ _ _).trans hu)
    (hexec := fun _ _ _ hu he => (exec_cfg he).trans hu)
    rfl h

/-- Settles O6: `runNext` by the outcome of the fetch, and `State.raise_trapped` for its exceptions. -/
theorem stepRunsDecodedInstruction : Obligations.StepRunsDecodedInstruction := by
  refine ⟨fun s hr => hr.step_eq, fun s t w i hf hd =>
    State.runNext_and_step (State.runNext_of_instr hf hd), fun s e tval hf => ?_⟩
  obtain ⟨hnext, hstep⟩ := State.runNext_and_step (State.runNext_of_exc hf)
  exact ⟨s.raise e tval, hnext, hstep, s.raise_trapped e tval⟩

end Sys2Proof.Machine
end

section
/-! Family 10, state: the registers keep legal values, U-mode changes no privileged state, WLRL fields and the
user-level counters. -/

namespace Sys2Proof.Machine

/-! ## Legal values -/

theorem toNat_mod_four_iff (v : Word) : v.toNat % 4 = 0 ↔ v.extractLsb' 0 2 = 0 := by
  rw [← BitVec.toNat_inj]; simp

/-- A multiple of four added to an aligned address leaves it aligned (R23, R301). -/
theorem alignPc_add_of_aligned {c : Config} {v : Word} (h : c.alignPc v = v) (k : Nat) :
    c.alignPc (c.trunc (v + BitVec.ofNat 64 (4 * k))) = c.trunc (v + BitVec.ofNat 64 (4 * k)) := by
  have hv : v.toNat % 4 = 0 := (toNat_mod_four_iff v).mpr (aligned_of_alignPc_eq h).2
  have hlow : (v + BitVec.ofNat 64 (4 * k)).extractLsb' 0 2 = 0 := by
    rw [← toNat_mod_four_iff, BitVec.toNat_add, BitVec.toNat_ofNat]
    omega
  apply Word.ext; intro i
  simp only [Config.alignPc_getLsbD, Config.trunc_getLsbD]
  by_cases hi : 2 ≤ i
  · simp [hi]
  · have hb := congrArg (BitVec.getLsbD · i) hlow
    simp only [BitVec.getLsbD_extractLsb', Nat.not_le.mp hi, decide_true, Bool.true_and, Nat.zero_add] at hb
    rw [hb]; simp

/-- A merge on bits of `m` into a word of bits of `m` is a word of bits of `m`. -/
theorem mergeBits_and_of_le {mask m old : Word} (v : Word) (hm : mask &&& m = mask) (ho : old &&& m = old) :
    mergeBits mask old v &&& m = mergeBits mask old v := by
  have hnew : (v &&& mask) &&& m = v &&& mask := by rw [BitVec.and_assoc, hm]
  have hold : (old &&& ~~~mask) &&& m = old &&& ~~~mask := by
    rw [BitVec.and_assoc, BitVec.and_comm _ m, ← BitVec.and_assoc, ho]
  rw [mergeBits, BitVec.and_or_distrib_right, hold, hnew]

theorem sVisible_and_mipWritable (c : Config) (d : Word) : c.sVisible d &&& c.mipWritable = c.sVisible d := by
  rw [Config.sVisible, BitVec.and_comm, ← BitVec.and_assoc, BitVec.and_self]

theorem mipWritable_and_intMask (c : Config) : c.mipWritable &&& c.intMask = c.mipWritable := by
  rw [Config.mipWritable, BitVec.and_assoc, BitVec.and_self]

theorem sVisible_and_intMask (c : Config) (d : Word) : c.sVisible d &&& c.intMask = c.sVisible d := by
  rw [← sVisible_and_mipWritable, BitVec.and_assoc, mipWritable_and_intMask]

theorem uVisible_and_intMask (c : Config) : c.uVisible &&& c.intMask = c.uVisible := by
  rw [Config.uVisible, BitVec.and_assoc, BitVec.and_self]

theorem sipWritable_and_mipWritable (c : Config) (d : Word) :
    c.sipWritable d &&& c.mipWritable = c.sipWritable d := by
  rw [Config.sipWritable, BitVec.and_assoc, sVisible_and_mipWritable]

theorem uipWritable_and_mipWritable (c : Config) : c.uipWritable &&& c.mipWritable = c.uipWritable := by
  have h : (0x001 : Word) &&& 0x333 = 0x001 := by decide
  calc (0x001 &&& c.intMask) &&& (0x333 &&& c.intMask)
    _ = (0x001 &&& 0x333) &&& (c.intMask &&& c.intMask) := by ac_rfl
    _ = 0x001 &&& c.intMask := by rw [h, BitVec.and_self]

/-- What `xcause` takes is an XLEN-bit value (R109). -/
theorem trunc_of_writeCause {c : Config} {x : Priv} {v w : Word} (h : c.writeCause x v = some w) :
    c.trunc w = w := by
  unfold Config.writeCause at h
  split at h
  · obtain rfl := Option.some.inj h
    exact c.trunc_trunc v
  · cases hp : c.wlrlCause x <;> simp only [hp, Option.some.injEq, reduceCtorEq] at h
    subst h
    apply Word.ext; intro i
    rw [Config.trunc_getLsbD, mergeBits_getLsbD, lowMask_getLsbD, Config.trunc_getLsbD]
    by_cases hi : i < c.xlen.bits
    · simp [hi]
    · have : ¬ i < c.topBit := by unfold Config.topBit; omega
      simp [hi, this]

theorem hasU_of_hasS {c : Config} (h : c.hasS = true) : c.hasU = true := by
  unfold Config.hasS at h
  unfold Config.hasU
  cases hm : c.modes <;> simp_all

theorem leastPriv_supported (c : Config) : c.supports c.leastPriv = true := by
  cases hu : c.hasU <;> simp [Config.leastPriv, Config.supports, hu]

theorem coercePriv_supported (c : Config) (v : BitVec 2) : c.supports (c.coercePriv v) = true := by
  unfold Config.coercePriv
  split
  · split
    · assumption
    · exact leastPriv_supported c
  · exact leastPriv_supported c

/-- What a write of `MPP` leaves: the mode written where it is supported, otherwise a supported mode that the
implementation's pattern gives (R74, D17). -/
theorem writeMpp_cases {c : Config} {v : BitVec 2} {p : Priv} (h : c.writeMpp v = some p) :
    (Priv.ofEnc v = some p ∧ c.supports p = true) ∨ p = c.coercePriv (Config.wlrlMppPattern v) := by
  unfold Config.writeMpp at h
  cases hpol : c.wlrlMpp <;> cases hv : Priv.ofEnc v <;> simp only [hpol, hv, reduceCtorEq] at h
  case raise.some q =>
    split at h
    · next hs => exact .inl (Option.some.inj h ▸ ⟨rfl, hs⟩)
    · cases h
  case store.none => exact .inr (Option.some.inj h).symm
  case store.some q =>
    split at h
    · next hs => exact .inl (Option.some.inj h ▸ ⟨rfl, hs⟩)
    · exact .inr (Option.some.inj h).symm

/-- What `MPP` takes is a supported mode (R89, D17). -/
theorem supports_of_writeMpp {c : Config} {v : BitVec 2} {p : Priv} (h : c.writeMpp v = some p) :
    c.supports p = true := by
  rcases writeMpp_cases h with ⟨-, hp⟩ | rfl
  · exact hp
  · exact coercePriv_supported c _

theorem writeMpp_of_supported {c : Config} {v : BitVec 2} {p : Priv} (hv : Priv.ofEnc v = some p)
    (hp : c.supports p = true) : c.writeMpp v = some p := by
  simp only [Config.writeMpp, hv, hp, if_true]

theorem writeCause_of_legal {c : Config} {x : Priv} {v : Word} (hv : c.trunc v = v)
    (hl : c.causeLegal v = true) : c.writeCause x v = some v := by
  simp only [Config.writeCause, hv, hl, if_true]

/-- `satp` holds zero: Bare, which is always supported (R120). -/
theorem satp_zero_held (c : Config) :
    c.satpModeSupported (c.satpMode 0) = true ∧ 0 &&& c.satpBits = 0 := by
  cases hx : c.xlen <;> simp [Config.satpModeSupported, Config.satpMode, hx]

/-! ## Legal fields of `mstatus` -/

/-- The fields of `mstatus` are legal: those of absent modes are zero, and `MPP` is a supported mode (R87, R89). -/
theorem Mstatus.legalize_eq_iff {c : Config} {m : Mstatus} : m.legalize c = m ↔
    ((m.uie = true → c.n = true) ∧ (m.upie = true → c.n = true))
      ∧ ((m.sie = true → c.hasS = true) ∧ (m.spie = true → c.hasS = true) ∧ (m.spp = true → c.hasS = true)
        ∧ (m.sum = true → c.hasS = true) ∧ (m.mxr = true → c.hasS = true) ∧ (m.tvm = true → c.hasS = true)
        ∧ (m.tsr = true → c.hasS = true))
      ∧ ((m.mprv = true → c.hasU = true) ∧ (m.tw = true → c.hasU = true))
      ∧ c.supports m.mpp = true ∧ (fsWritable c = false → m.fs = 0) := by
  have hmpp : (if c.supports m.mpp = true then m.mpp else c.leastPriv) = m.mpp ↔ c.supports m.mpp = true := by
    split
    · next h => simp [h]
    · next h => exact iff_of_false (fun e => h (e ▸ leastPriv_supported c)) h
  have hfs : (if fsWritable c = true then m.fs else 0) = m.fs ↔ (fsWritable c = false → m.fs = 0) := by
    cases fsWritable c <;>
      simp only [Bool.false_eq_true, if_false, if_true, eq_comm, forall_const, false_imp_iff]
  obtain ⟨⟩ := m
  simp only [Mstatus.legalize, Mstatus.mk.injEq, hmpp, hfs, Bool.and_eq_right_iff_imp]
  tauto

section
variable {c : Config} {m : Mstatus} (h : m.legalize c = m)
include h

theorem Mstatus.push_legal {x y : Priv} (hx : c.supports x = true) (hy : c.supports y = true) :
    (m.push x y).legalize c = m.push x y := by
  have hs : x = .supervisor → c.hasS = true := by rintro rfl; exact hx
  rw [Mstatus.legalize_eq_iff] at h ⊢
  cases x <;> simp_all [Mstatus.push]

theorem Mstatus.pop_legal {x : Priv} (hx : trapRegsExist c x = true) :
    (m.pop c x).legalize c = m.pop c x := by
  rw [Mstatus.legalize_eq_iff] at h ⊢
  cases x <;> simp_all [Mstatus.pop, trapRegsExist, leastPriv_supported]

/-- A return from a trap goes to a supported mode (R253 to R255). -/
theorem Mstatus.previous_supported {x : Priv} (hx : trapRegsExist c x = true) :
    c.supports (m.previous x) = true := by
  cases x with
  | machine =>
    obtain ⟨-, -, -, hmpp, -⟩ := Mstatus.legalize_eq_iff.mp h
    exact hmpp
  | supervisor =>
    have hs : c.hasS = true := hx
    cases hp : m.spp <;> simp [Mstatus.previous, Config.supports, hp, hs, hasU_of_hasS hs]
  | user => exact hasU_of_n hx

theorem Mstatus.dirtyFs_legal {b : Bool} (hb : b = true → fsWritable c = true) :
    (m.dirtyFs b).legalize c = m.dirtyFs b := by
  rw [Mstatus.legalize_eq_iff] at h ⊢
  cases b <;> simp_all [Mstatus.dirtyFs]

theorem Mstatus.writeU_legal (v : Word) : (m.writeU c v).legalize c = m.writeU c v := by
  rw [Mstatus.legalize_eq_iff] at h ⊢
  simp_all [Mstatus.writeU]

theorem Mstatus.writeS_legal (v : Word) : (m.writeS c v).legalize c = m.writeS c v := by
  have hu := Mstatus.writeU_legal h v
  rw [Mstatus.legalize_eq_iff] at hu ⊢
  simp_all [Mstatus.writeS]

theorem Mstatus.writeM_legal (v : Word) {p : Priv} (hp : c.supports p = true) :
    (m.writeM c v p).legalize c = m.writeM c v p := by
  have hs := Mstatus.writeS_legal h v
  rw [Mstatus.legalize_eq_iff] at hs ⊢
  simp_all [Mstatus.writeM]

end

/-- What holds of every element of a vector and of a new value holds after an element takes that value. -/
theorem forall_getElem_set {α : Type} {n : Nat} {P : Fin n → α → Prop} {v : Vector α n} {i : Fin n} {a : α}
    (ha : P i a) (hv : ∀ k : Fin n, P k v[k]) (k : Fin n) : P k (v.set i a)[k] := by
  by_cases hk : k = i
  · subst hk; simpa using ha
  · have hne : i.val ≠ k.val := fun e => hk (Fin.ext e.symm)
    simpa [Vector.getElem_set_ne, hne] using hv k

/-! ## Legal states: updates of one register

An update that touches no trap register restates `traps`, since `State.trapRegs` does not reduce for a mode that
is not known. -/

/-- A reset leads to a legal state (R341, R342). -/
theorem State.hartReset_legal {s : State} (hm : s.mem.wf = true) : s.hartReset.Legal := by
  obtain ⟨hmode, hbits⟩ := legalSatp_held s.cfg (s.cfg.trunc s.satp) (satp_zero_held s.cfg)
  obtain ⟨hmkept, -, hmmask, -⟩ := legalEnable_spec s.cfg s.counters.mcounteren
  obtain ⟨-, hskept, -, hsmask⟩ := legalEnable_spec s.cfg s.counters.scounteren
  have hpmp : ∀ i : Fin 16, pmpByteHeld s.cfg (resetPmpByte s.cfg i s.pmp.entryCfg[i])
      ∧ s.cfg.legalPmpByte i (resetPmpByte s.cfg i s.pmp.entryCfg[i])
        = resetPmpByte s.cfg i s.pmp.entryCfg[i] := fun i =>
    have ⟨hheld, hkept, _, _⟩ := resetPmpByte_held s.cfg i s.pmp.entryCfg[i]
    ⟨hheld, hkept⟩
  constructor
  case priv => rfl
  case mstatus =>
    have hl := Mstatus.legalize_legalize s.cfg s.mstatus
    rw [Mstatus.legalize_eq_iff] at hl ⊢
    simp_all [State.hartReset]
  case pc => exact Config.alignPc_alignPc _ _
  case regs => simp [State.hartReset]
  case traps =>
    intro x
    cases x with
    | machine =>
      exact { TrapRegs.legalize_legal s.cfg .machine s.mTrap with
        tvec := tvecHeld_legalize _ _ _, tvecKept := Config.legalize_legalize _ _ _, cause := Config.trunc_zero _ }
    | supervisor => exact TrapRegs.legalize_legal _ _ _
    | user => exact TrapRegs.legalize_legal _ _ _
  case mtvec =>
    intro v hv
    have hv : s.cfg.mtvecHardwired = some v := hv
    simp [State.hartReset, hv]
  case medeleg => exact Config.warlForm_legalize _ .medeleg _
  case mideleg => exact Config.warlForm_legalize _ .mideleg _
  case sedeleg => exact Config.warlForm_legalize _ .sedeleg _
  case sideleg => exact Config.warlForm_legalize _ .sideleg _
  case delegKept => simp [State.hartReset]
  case mie => simp [State.hartReset, BitVec.and_assoc]
  case mipSw => simp [State.hartReset, BitVec.and_assoc]
  case satpMode => exact hmode
  case satpBits => exact hbits
  case pmpCfg => intro i; simpa [State.hartReset] using (hpmp i).1
  case pmpKept => intro i; simpa [State.hartReset] using (hpmp i).2
  case pmpAddr => simp [State.hartReset]
  case mcounteren => exact hmmask
  case scounteren => exact hsmask
  case enablesKept => exact ⟨hmkept, hskept⟩
  case hpmCounter =>
    intro n
    cases hn : s.cfg.hpmExists (n.val + 3) <;> simp [State.hartReset, hn, BitVec.and_assoc]
  case hpmEvent =>
    intro n
    cases hn : s.cfg.hpmExists (n.val + 3) <;> simp [State.hartReset, hn]
  case triggers => simp [State.hartReset]
  case mem => exact hm

/-- What an input or a walk can change stays legal. -/
theorem InputFrame.legal {s t : State} (f : InputFrame s t) (h : s.Legal) : t.Legal := by
  have hm : t.mTrap = s.mTrap := f.traps .machine
  have hmem := f.wf h.mem
  have hcounter : ∀ n : Fin 29, t.counters.hpmCounter[n] =
      if s.cfg.hpmExists (n.val + 3) then t.counters.hpmCounter[n] &&& s.cfg.hpmCounterBits n else 0 := by
    intro n
    rcases f.hpmCounter n with e | ⟨he, e⟩
    · rw [e]; exact h.hpmCounter n
    · rw [if_pos he, e]
  cases h
  constructor
  case mem => exact hmem
  all_goals
    simp only [f.cfg, f.priv, f.mstatus, f.pc, f.regs, f.traps, hm, f.deleg, f.mie, f.mipSw, f.satp,
      f.pmp, f.mcounteren, f.scounteren, f.hpmEvent, f.triggers]
    assumption

section
variable {s : State} (h : s.Legal)
include h

/-- Legal trap registers of one mode, a hard-wired `mtvec` at its value (R98). -/
theorem State.Legal.setTrapRegs {x : Priv} {r : TrapRegs} (hr : r.Legal s.cfg x)
    (hm : x = .machine → s.cfg.mtvecHardwired.isSome = true → r.tvec = s.mTrap.tvec) :
    (s.setTrapRegs x r).Legal := by
  have traps : ∀ y, ((s.setTrapRegs x r).trapRegs y).Legal s.cfg y := by
    intro y
    by_cases hy : y = x
    · subst hy; rw [State.trapRegs_setTrapRegs_same]; exact hr
    · rw [State.trapRegs_setTrapRegs_other s r hy]; exact h.traps y
  cases x with
  | machine =>
    exact { h with
      traps := traps
      mtvec := fun v hv => (hm rfl (by
        have hv : s.cfg.mtvecHardwired = some v := hv
        rw [hv]; rfl)).trans (h.mtvec v hv) }
  | supervisor => exact { h with traps := traps }
  | user => exact { h with traps := traps }

theorem State.Legal.writeReg (r : Reg) (v : Word) : (s.writeReg r v).Legal := by
  unfold State.writeReg
  split
  · exact h
  · exact { h with
      traps := h.traps
      regs := forall_getElem_set (P := fun _ a => s.cfg.trunc a = a) (Config.trunc_trunc _ _) h.regs }

theorem State.Legal.retireTo {a : Word} (ha : s.cfg.alignPc a = a) (b : Bool) : (s.retireTo a b).Legal := by
  cases b <;> exact { h with pc := ha, traps := h.traps }

theorem State.Legal.advance (b : Bool) : (s.advance b).Legal :=
  h.retireTo (alignPc_add_of_aligned h.pc 1) b

/-- New values of the control state that `mstatus`, the mode, the program counter and the wait flag hold. -/
theorem State.Legal.control {p : Priv} {m : Mstatus} {a : Word} (hp : s.cfg.supports p = true)
    (hm : m.legalize s.cfg = m) (ha : s.cfg.alignPc a = a) (w : Bool) :
    { s with mstatus := m, priv := p, waiting := w, pc := a }.Legal :=
  { h with priv := hp, mstatus := hm, pc := ha, traps := h.traps }

end

/-- A trap goes to an aligned address (R98, R301). -/
theorem State.trapVector_aligned (s : State) (x : Priv) (intr : Bool) (code : Nat) :
    s.cfg.alignPc (s.trapVector x intr code) = s.trapVector x intr code := by
  have hbase : s.cfg.alignPc (s.cfg.alignPc (s.trapRegs x).tvec) = s.cfg.alignPc (s.trapRegs x).tvec :=
    Config.alignPc_alignPc _ _
  unfold State.trapVector
  dsimp only
  split
  · exact alignPc_add_of_aligned hbase code
  · exact hbase

section
variable {s : State} (h : s.Legal)
include h

/-- Trap entry into a supported mode, for a cause that R290 or R291 names (R300). -/
theorem State.Legal.takeTrap {x : Priv} (hx : s.cfg.supports x = true) (intr : Bool) {code : Nat}
    (hcode : code < 16) (tval : Word) : (s.takeTrap x intr code tval).Legal := by
  have ht := h.setTrapRegs (x := x) (r := { s.trapRegs x with
      epc := s.cfg.alignPc s.pc, cause := causeWord s.cfg intr code, tval := s.cfg.trunc tval })
    { h.traps x with
      epc := Config.alignPc_alignPc _ _, cause := trunc_causeWord _ _ hcode, tval := Config.trunc_trunc _ _ }
    (by rintro rfl _; rfl)
  exact ht.control (by simpa using hx) (by simpa using Mstatus.push_legal h.mstatus hx h.priv)
    (by simpa using s.trapVector_aligned x intr code) false

theorem State.Legal.raise (e : Exception) (tval : Word) : (s.raise e tval).Legal :=
  h.takeTrap (s.exceptionTarget_supported e) false e.code_lt tval

theorem State.Legal.takeInterrupt (i : Interrupt) : (s.takeInterrupt i).Legal :=
  h.takeTrap (s.interruptTarget_supported i) true i.code_lt 0

theorem State.Legal.trapReturn {x : Priv} (hx : trapRegsExist s.cfg x = true) : (s.trapReturn x).Legal := by
  have hc := h.control (Mstatus.previous_supported h.mstatus hx) (Mstatus.pop_legal h.mstatus hx) h.pc s.waiting
  exact hc.retireTo (Config.alignPc_alignPc _ _) true

end

/-! ## Legal states: CSR instructions -/

/-- The two parts of a CSR instruction: the state after the read, and a write of the register there, or none. -/
theorem State.csrUpdate_cases {s t : State} {op : CsrOp} {rd : Reg} {r : Csr} {src : CsrSource}
    (h : s.csrUpdate op rd r src = some t) :
    ∃ u, (u = s ∨ u = s.afterRead r) ∧ (t = u ∨ ∃ v, u.writeCsr r v = some t) := by
  unfold State.csrUpdate at h
  dsimp only at h
  refine ⟨if op.reads rd then s.afterRead r else s, by split <;> simp, ?_⟩
  split at h
  · exact .inr ⟨_, h⟩
  · exact .inl (Option.some.inj h).symm

section
variable {s : State} (h : s.Legal)
include h

/-- An event counter that exists takes the bits it implements (R104). -/
theorem State.Legal.setHpmCounter {n : Fin 29} (hn : s.cfg.hpmExists (n.val + 3) = true) (v : BitVec 64) :
    { s with counters := { s.counters with
        hpmCounter := s.counters.hpmCounter.set n (v &&& s.cfg.hpmCounterBits n) } }.Legal :=
  { h with
    traps := h.traps
    hpmCounter := forall_getElem_set
      (P := fun k a => a = if s.cfg.hpmExists (k.val + 3) then a &&& s.cfg.hpmCounterBits k else 0)
      (by rw [if_pos hn, BitVec.and_assoc, BitVec.and_self]) h.hpmCounter }

theorem State.Legal.writeHpmCounter (n : Fin 29) (v : BitVec 64) : (s.writeHpmCounter n v).Legal := by
  unfold State.writeHpmCounter
  split
  · next hn => exact h.setHpmCounter hn v
  · exact h

theorem State.Legal.writeHpmEvent {n : Fin 29} (hn : s.cfg.hpmExists (n.val + 3) = true) (v : Word) :
    { s with counters := { s.counters with
        hpmEvent := s.counters.hpmEvent.set n (s.cfg.legalize (.hpmevent n) v) } }.Legal :=
  { h with
    traps := h.traps
    hpmEvent := forall_getElem_set
      (P := fun k a => a = if s.cfg.hpmExists (k.val + 3) then s.cfg.legalize (.hpmevent k) a else 0)
      (by rw [if_pos hn, Config.legalize_legalize]) h.hpmEvent }

theorem State.Legal.setEntryCfg {b : Vector Byte 16} (hb : ∀ i : Fin 16, pmpByteHeld s.cfg b[i])
    (hk : ∀ i : Fin 16, s.cfg.legalPmpByte i b[i] = b[i]) :
    { s with pmp := { s.pmp with entryCfg := b } }.Legal :=
  { h with traps := h.traps, pmpCfg := hb, pmpKept := hk }

theorem State.Legal.writePmpcfg (k : Fin 4) (v : Word) : (s.writePmpcfg k v).Legal := by
  refine h.setEntryCfg (fun i => ?_) (fun i => ?_) <;> simp only [Fin.getElem_fin, Vector.getElem_ofFn] <;> split
  · exact pmpByteHeld_legalPmpByte _ _ _
  · exact h.pmpCfg i
  · exact legalPmpByte_legalPmpByte _ _ _
  · exact h.pmpKept i

theorem State.Legal.writePmpaddr (n : Fin 16) (v : Word) : (s.writePmpaddr n v).Legal := by
  unfold State.writePmpaddr
  split
  · exact h
  · exact { h with
      traps := h.traps
      pmpAddr := forall_getElem_set (P := fun _ a => s.cfg.legalPmpAddr a = a)
        (Config.legalPmpAddr_legalPmpAddr _ _) h.pmpAddr }

/-- `xtvec` takes a value its field holds; a hard-wired `mtvec` keeps its own (R98). -/
theorem State.Legal.writeTvec (x : Priv) (v : Word) : (s.writeTvec x v).Legal := by
  unfold State.writeTvec
  split
  · exact h
  · next hx =>
    exact h.setTrapRegs
      { h.traps x with tvec := tvecHeld_legalize _ _ _, tvecKept := Config.legalize_legalize _ _ _ }
      fun hm hs => absurd ⟨hm, hs⟩ hx

/-- Floating-point state becomes Dirty only where `FS` is writable (R97). -/
theorem State.Legal.writeFcsr (hf : s.cfg.hasF = true) (v : Byte) : (s.writeFcsr v).Legal :=
  { h with traps := h.traps, mstatus := Mstatus.dirtyFs_legal h.mstatus fun _ => by simp [fsWritable, hf] }

/-- A write of a register that exists leaves a legal value in it (R237). -/
theorem State.Legal.writeCsr {t : State} {r : Csr} {v : Word} (hr : r.implemented s.cfg = true)
    (hw : s.writeCsr r v = some t) : t.Legal := by
  cases r <;> simp only [State.writeCsr, Option.map_eq_some_iff, Option.some.injEq] at hw
  case mstatus =>
    obtain ⟨p, hp, rfl⟩ := hw
    exact { h with traps := h.traps, mstatus := Mstatus.writeM_legal h.mstatus _ (supports_of_writeMpp hp) }
  case cause x =>
    obtain ⟨w, hc, rfl⟩ := hw
    exact h.setTrapRegs { h.traps x with cause := trunc_of_writeCause hc } (by rintro rfl _; rfl)
  case mhpmevent n =>
    split at hw
    · next hn => exact Option.some.inj hw ▸ h.writeHpmEvent hn _
    · exact Option.some.inj hw ▸ h
  all_goals subst hw
  case sstatus => exact { h with traps := h.traps, mstatus := Mstatus.writeS_legal h.mstatus _ }
  case ustatus => exact { h with traps := h.traps, mstatus := Mstatus.writeU_legal h.mstatus _ }
  case mie => exact { h with traps := h.traps, mie := by rw [BitVec.and_assoc, BitVec.and_self] }
  case sie => exact { h with traps := h.traps, mie := mergeBits_and_of_le _ (sVisible_and_intMask _ _) h.mie }
  case uie => exact { h with traps := h.traps, mie := mergeBits_and_of_le _ (uVisible_and_intMask _) h.mie }
  case mip => exact { h with traps := h.traps, mipSw := by rw [BitVec.and_assoc, BitVec.and_self] }
  case sip =>
    exact { h with traps := h.traps, mipSw := mergeBits_and_of_le _ (sipWritable_and_mipWritable _ _) h.mipSw }
  case uip =>
    exact { h with traps := h.traps, mipSw := mergeBits_and_of_le _ (uipWritable_and_mipWritable _) h.mipSw }
  case tvec x => exact h.writeTvec x _
  case scratch x => exact h.setTrapRegs { h.traps x with scratch := Config.trunc_trunc _ _ } (by rintro rfl _; rfl)
  case epc x =>
    exact h.setTrapRegs { h.traps x with epc := Config.warlForm_legalize _ (.epc x) _ } (by rintro rfl _; rfl)
  case tval x => exact h.setTrapRegs { h.traps x with tval := Config.trunc_trunc _ _ } (by rintro rfl _; rfl)
  case fflags => exact h.writeFcsr hr _
  case frm => exact h.writeFcsr hr _
  case fcsr => exact h.writeFcsr hr _
  case medeleg =>
    exact { h with
      traps := h.traps, medeleg := Config.warlForm_legalize _ .medeleg _
      delegKept := ⟨Config.legalize_legalize _ _ _, h.delegKept.2⟩ }
  case mideleg =>
    obtain ⟨hm, -, hs, hu⟩ := h.delegKept
    exact { h with
      traps := h.traps, mideleg := Config.warlForm_legalize _ .mideleg _
      delegKept := ⟨hm, Config.legalize_legalize _ _ _, hs, hu⟩ }
  case sedeleg =>
    obtain ⟨hm, hi, -, hu⟩ := h.delegKept
    exact { h with
      traps := h.traps, sedeleg := Config.warlForm_legalize _ .sedeleg _
      delegKept := ⟨hm, hi, Config.legalize_legalize _ _ _, hu⟩ }
  case sideleg =>
    obtain ⟨hm, hi, hs, -⟩ := h.delegKept
    exact { h with
      traps := h.traps, sideleg := Config.warlForm_legalize _ .sideleg _
      delegKept := ⟨hm, hi, hs, Config.legalize_legalize _ _ _⟩ }
  case mcounteren =>
    obtain ⟨hkept, -, hmask, -⟩ := legalEnable_spec s.cfg ((s.cfg.trunc v).extractLsb' 0 32)
    exact { h with traps := h.traps, mcounteren := hmask, enablesKept := ⟨hkept, h.enablesKept.2⟩ }
  case scounteren =>
    obtain ⟨-, hkept, -, hmask⟩ := legalEnable_spec s.cfg ((s.cfg.trunc v).extractLsb' 0 32)
    exact { h with traps := h.traps, scounteren := hmask, enablesKept := ⟨h.enablesKept.1, hkept⟩ }
  case satp =>
    obtain ⟨hmode, hbits⟩ := legalSatp_held s.cfg (s.cfg.trunc v) ⟨h.satpMode, h.satpBits⟩
    exact { h with traps := h.traps, satpMode := hmode, satpBits := hbits }
  case mhpmcounter n => exact h.writeHpmCounter n _
  case mhpmcounterh n => exact h.writeHpmCounter n _
  case pmpcfg k => exact h.writePmpcfg k _
  case pmpaddr n => exact h.writePmpaddr n _
  case tselect => exact { h with traps := h.traps, triggers := ⟨Config.trunc_trunc _ _, h.triggers.2⟩ }
  case tdata1 =>
    obtain ⟨hs, -, h2, h3⟩ := h.triggers
    exact { h with traps := h.traps, triggers := ⟨hs, Config.trunc_trunc _ _, h2, h3⟩ }
  case tdata2 =>
    obtain ⟨hs, h1, -, h3⟩ := h.triggers
    exact { h with traps := h.traps, triggers := ⟨hs, h1, Config.trunc_trunc _ _, h3⟩ }
  case tdata3 =>
    obtain ⟨hs, h1, h2, -⟩ := h.triggers
    exact { h with traps := h.traps, triggers := ⟨hs, h1, h2, Config.trunc_trunc _ _⟩ }
  all_goals exact { h with traps := h.traps }

theorem State.Legal.afterRead {r : Csr} (hr : r.implemented s.cfg = true) : (s.afterRead r).Legal := by
  rcases s.afterRead_cases r with ⟨-, e⟩ | ⟨hf, -, -, e⟩ | e <;> rw [e]
  · exact { h with traps := h.traps }
  · have hF : s.cfg.hasF = true := by cases r <;> simp_all [Csr.isFloat, Csr.implemented]
    exact { h with
      traps := h.traps
      mstatus := Mstatus.dirtyFs_legal (b := true) h.mstatus fun _ => by simp [fsWritable, hF] }
  · exact h

theorem State.Legal.csrUpdate {t : State} {op : CsrOp} {rd : Reg} {r : Csr} {src : CsrSource}
    (hr : r.implemented s.cfg = true) (hu : s.csrUpdate op rd r src = some t) : t.Legal := by
  obtain ⟨u, hu, ht⟩ := State.csrUpdate_cases hu
  have hread : u.Legal ∧ r.implemented u.cfg = true := by
    rcases hu with rfl | rfl
    · exact ⟨h, hr⟩
    · exact ⟨h.afterRead hr, (s.afterRead_frame r).cfg ▸ hr⟩
  rcases ht with rfl | ⟨v, hw⟩
  · exact hread.1
  · exact hread.1.writeCsr hread.2 hw

end

theorem State.Legal.csrComplete {s t : State} (ht : t.Legal) (op : CsrOp) (rd : Reg) (r : Csr) (src : CsrSource) :
    (s.csrComplete t op rd r src).Legal := by
  unfold State.csrComplete
  split
  · exact (ht.writeReg rd _).advance _
  · exact ht.advance _

/-- Every instruction keeps a legal state legal. -/
theorem State.Legal.exec {s t : State} (h : s.Legal) {i : Instr} (he : exec i s = .next t) : t.Legal := by
  rcases exec_cases he with ⟨e, tval, rfl⟩ | ⟨f, r, u, hc⟩ | ⟨-, -, rfl⟩ | ⟨-, hs, rfl⟩ | ⟨-, hn, rfl⟩
    | ⟨-, -, rfl⟩ | ⟨a, b, -, -, rfl⟩
  · exact h.raise e tval
  · obtain ⟨-, -, -, -, hr⟩ := State.csrAccess_some.mp hc.access
    exact hc.result ▸ (h.csrUpdate (csrAt_some hr).1 hc.update).csrComplete _ _ _ _
  · exact h.trapReturn rfl
  · exact h.trapReturn (by simp_all [State.sretIllegal, trapRegsExist])
  · exact h.trapReturn hn
  · exact (h.control h.priv h.mstatus h.pc _).advance true
  · exact State.Legal.advance (s := s.sfence a b) { h with traps := h.traps } true

/-- Settles O56, by `step_preserves`: each part of a step keeps a legal state legal. -/
theorem stepKeepsLegalStates : Obligations.StepKeepsLegalStates := by
  intro s t hs h
  exact step_preserves (P := State.Legal)
    (hreset := fun _ hu => State.hartReset_legal hu.mem)
    (hdrop := fun _ _ hu => { hu with traps := hu.traps })
    (hinput := fun _ _ hf hu => hf.legal hu)
    (hwake := fun _ hu => { hu with traps := hu.traps })
    (hraise := fun _ e tval hu => hu.raise e tval)
    (hinterrupt := fun _ i hu => hu.takeInterrupt i)
    (hexec := fun _ _ _ hu he => hu.exec he)
    hs h

/-! ## What an instruction in U-mode may change -/

/-- `t` differs from `s` in nothing but what an instruction that starts and ends in U-mode may change: the
integer registers, the program counter, the U-mode trap registers, the floating-point state with `FS`, the U bits
of the status and interrupt registers, the retirement counter, the wait flag and the draws. -/
structure UserFrame (s t : State) : Prop where
  mstatus : { t.mstatus with uie := s.mstatus.uie, upie := s.mstatus.upie, fs := s.mstatus.fs } = s.mstatus
  mie : t.mie &&& ~~~0x111 = s.mie &&& ~~~0x111
  mipSw : t.mipSw &&& ~~~0x111 = s.mipSw &&& ~~~0x111
  counters : { t.counters with minstret := s.counters.minstret } = s.counters
  rest :
    { t with
        regs := s.regs, pc := s.pc, uTrap := s.uTrap, fcsr := s.fcsr, mstatus := s.mstatus, mie := s.mie,
        mipSw := s.mipSw, counters := s.counters, waiting := s.waiting, drawCount := s.drawCount } = s

theorem UserFrame.refl (s : State) : UserFrame s s := ⟨rfl, rfl, rfl, rfl, rfl⟩

theorem UserFrame.trans {s t u : State} (h : UserFrame s t) (g : UserFrame t u) : UserFrame s u where
  mstatus := by
    have e := h.mstatus
    rw [← g.mstatus] at e
    exact e
  mie := g.mie.trans h.mie
  mipSw := g.mipSw.trans h.mipSw
  counters := by
    have e := h.counters
    rw [← g.counters] at e
    exact e
  rest := by
    have e := h.rest
    rw [← g.rest] at e
    exact e

/-- The registers that U-mode may access, those whose address has `csr[9:8] = 0` (R26, R33 to R35). -/
inductive UserCsr : Csr → Prop
  | ustatus : UserCsr .ustatus
  | uie : UserCsr .uie
  | uip : UserCsr .uip
  | tvec : UserCsr (.tvec .user)
  | scratch : UserCsr (.scratch .user)
  | epc : UserCsr (.epc .user)
  | cause : UserCsr (.cause .user)
  | tval : UserCsr (.tval .user)
  | fflags : UserCsr .fflags
  | frm : UserCsr .frm
  | fcsr : UserCsr .fcsr
  | cycle : UserCsr .cycle
  | time : UserCsr .time
  | instret : UserCsr .instret
  | hpmcounter (n : Fin 29) : UserCsr (.hpmcounter n)
  | cycleh : UserCsr .cycleh
  | timeh : UserCsr .timeh
  | instreth : UserCsr .instreth
  | hpmcounterh (n : Fin 29) : UserCsr (.hpmcounterh n)
  | nonStandard (a : CsrAddr) : UserCsr (.nonStandard a)

/-- The tables give addresses with `csr[9:8] = 0` to the user-level registers alone (R33 to R39). -/
theorem userCsr_of_addr {r : Csr} (h : r.addr / 256 % 4 = 0) : UserCsr r := by
  have hblock : ∀ {x : Priv} {k : Nat}, k < 256 → (trapBlock x + k) / 256 % 4 = 0 → x = .user := by
    intro x k hk hx
    cases x with
    | user => rfl
    | supervisor => simp only [trapBlock] at hx; omega
    | machine => simp only [trapBlock] at hx; omega
  cases r
  case tvec x => obtain rfl := hblock (by decide) h; constructor
  case scratch x => obtain rfl := hblock (by decide) h; constructor
  case epc x => obtain rfl := hblock (by decide) h; constructor
  case cause x => obtain rfl := hblock (by decide) h; constructor
  case tval x => obtain rfl := hblock (by decide) h; constructor
  all_goals first
    | constructor
    | simp only [Csr.addr] at h; omega

/-- What U-mode reaches by a CSR instruction is a user-level register (R221). -/
theorem userCsr_of_access {s : State} {a : CsrAddr} {w : Bool} {r : Csr} (hu : s.priv = .user)
    (h : s.csrAccess a w = some r) : UserCsr r := by
  obtain ⟨hm, -, -, -, hr⟩ := State.csrAccess_some.mp h
  have hlevel : a.toNat / 256 % 4 = 0 := by
    simpa [State.mayAccess, hu, Priv.enc, csrLevel, BitVec.le_def, Nat.shiftRight_eq_div_pow] using hm
  rcases (csrAt_some hr).2 with ⟨-, e⟩ | ⟨rfl, -⟩
  · exact userCsr_of_addr (e ▸ hlevel)
  · exact .nonStandard a

/-- A merge leaves the bits outside its mask. -/
theorem mergeBits_keeps {mask old : Word} (v : Word) {m : Word} (h : mask &&& m = 0) :
    mergeBits mask old v &&& m = old &&& m := by
  apply Word.ext; intro i
  have hi : (mask &&& m).getLsbD i = false := by rw [h]; simp
  rw [BitVec.getLsbD_and] at hi
  rw [BitVec.getLsbD_and, BitVec.getLsbD_and, mergeBits_getLsbD]
  cases hm : mask.getLsbD i <;> simp_all

/-- A write of a user-level register changes U-mode state alone (R122, R123). -/
theorem State.writeCsr_user {s t : State} {r : Csr} {v : Word} (hr : UserCsr r)
    (h : s.writeCsr r v = some t) : UserFrame s t := by
  have hmask : ∀ w m : Word, w &&& 0x111 = w → w &&& m &&& ~~~0x111 = 0 := by
    intro w m hw
    rw [← hw, BitVec.and_assoc, BitVec.and_comm m, BitVec.and_assoc, ← BitVec.and_assoc 0x111]
    simp
  have huie : s.cfg.uVisible &&& ~~~0x111 = 0 := hmask _ _ (by decide)
  have huip : s.cfg.uipWritable &&& ~~~0x111 = 0 := hmask _ _ (by decide)
  have hdirty : ∀ b, { s.mstatus.dirtyFs b with
      uie := s.mstatus.uie, upie := s.mstatus.upie, fs := s.mstatus.fs } = s.mstatus := by
    intro b; cases b <;> rfl
  cases hr <;> simp only [State.writeCsr, Option.map_eq_some_iff, Option.some.injEq] at h
  case cause =>
    obtain ⟨w, -, rfl⟩ := h
    exact ⟨rfl, rfl, rfl, rfl, rfl⟩
  all_goals subst h
  case uie => exact ⟨rfl, mergeBits_keeps _ huie, rfl, rfl, rfl⟩
  case uip => exact ⟨rfl, rfl, mergeBits_keeps _ huip, rfl, rfl⟩
  case fflags => exact ⟨hdirty _, rfl, rfl, rfl, rfl⟩
  case frm => exact ⟨hdirty _, rfl, rfl, rfl, rfl⟩
  case fcsr => exact ⟨hdirty _, rfl, rfl, rfl, rfl⟩
  all_goals exact ⟨rfl, rfl, rfl, rfl, rfl⟩

theorem State.afterRead_user (s : State) (r : Csr) : UserFrame s (s.afterRead r) := by
  rcases s.afterRead_cases r with ⟨-, e⟩ | ⟨-, -, -, e⟩ | e <;> rw [e] <;> exact ⟨rfl, rfl, rfl, rfl, rfl⟩

theorem State.csrComplete_user (s t : State) (op : CsrOp) (rd : Reg) (r : Csr) (src : CsrSource) :
    UserFrame t (s.csrComplete t op rd r src) := by
  obtain ⟨regs, he⟩ := s.csrComplete_eq t op rd r src
  rw [he]
  refine ⟨rfl, rfl, rfl, ?_, rfl⟩
  dsimp only
  split <;> rfl

theorem State.csrUpdate_user {s t : State} {op : CsrOp} {rd : Reg} {r : Csr} {src : CsrSource}
    (hr : UserCsr r) (h : s.csrUpdate op rd r src = some t) : UserFrame s t := by
  obtain ⟨u, hu, ht⟩ := State.csrUpdate_cases h
  have hread : UserFrame s u := by
    rcases hu with rfl | rfl
    · exact UserFrame.refl u
    · exact s.afterRead_user r
  rcases ht with rfl | ⟨v, hw⟩
  · exact hread
  · exact hread.trans (State.writeCsr_user hr hw)

/-- A trap from U-mode into U-mode changes U-mode state alone (R300). -/
theorem State.takeTrap_user {s : State} {x : Priv} (hs : s.priv = .user) (hx : x = .user) (intr : Bool) (code : Nat)
    (tval : Word) : UserFrame s (s.takeTrap x intr code tval) := by
  cases s
  cases hs
  cases hx
  exact ⟨rfl, rfl, rfl, rfl, rfl⟩

/-- URET leads from U-mode to U-mode and changes U-mode state alone (R255). -/
theorem State.uret_user {s : State} (hs : s.priv = .user) : UserFrame s (s.trapReturn .user) := by
  cases s
  cases hs
  exact ⟨rfl, rfl, rfl, rfl, rfl⟩

/-- An instruction that starts and ends in U-mode changes U-mode state alone: it raises in U-mode, accesses a
user-level register, returns by URET or waits. -/
theorem exec_user {i : Instr} {s t : State} (hs : s.priv = .user) (ht : t.priv = .user)
    (h : exec i s = .next t) : UserFrame s t := by
  rcases exec_cases h with ⟨e, tval, rfl⟩ | ⟨f, r, u, hc⟩ | ⟨-, hm, -⟩ | ⟨-, hl, -⟩ | ⟨-, -, rfl⟩
    | ⟨-, -, rfl⟩ | ⟨a, b, -, hl, -⟩
  · exact State.takeTrap_user hs ht _ _ _
  · exact hc.result ▸ (State.csrUpdate_user (userCsr_of_access hs hc.access) hc.update).trans
      (s.csrComplete_user u _ _ _ _)
  · rw [hs] at hm; cases hm
  · simp [State.sretIllegal, hs] at hl
  · exact State.uret_user hs
  · exact ⟨rfl, rfl, rfl, rfl, rfl⟩
  · simp [State.sfenceIllegal, hs] at hl

/-- A fetch that is not translated changes nothing (R177). -/
theorem State.fetch_bare {s t : State} {w : BitVec 32} (hb : s.activeScheme s.priv = none)
    (h : s.fetch = .ok (t, w)) : t = s := by
  unfold State.fetch at h
  dsimp only at h
  split at h
  · cases h
  · obtain ⟨u, hu, h⟩ := Res.bind_ok.mp h
    obtain ⟨v, -, h⟩ := Res.bind_ok.mp h
    have htr := (State.accessAddress_ok hu).1
    simp only [State.translate, hb, Res.ok.injEq] at htr
    cases h
    rw [← htr]

/-- A fetch, or none, that leads to `v`, and then an instruction in U-mode. -/
theorem UserFrame.onlyUserStateChanged {s v t : State} (hw : WalkFrame s v) (hu : UserFrame v t)
    (hv : ∀ u, ((∃ w, s.fetch = .ok (u, w)) ∨ ((∀ v w, s.fetch ≠ .ok (v, w)) ∧ u = s)) → u = v)
    (hb : s.activeScheme s.priv = none → v = s) : OnlyUserStateChanged s t := by
  obtain ⟨-, -, hregs, hpc, hmstatus, -, hmie, hmipSw, -, -, huTrap, hcounters, -, hfcsr, -, -, hwaiting, -, -,
    hdraws⟩ := hw.fields
  have hmem : t.mem = v.mem ∧ t.mtime = v.mtime ∧ t.mtimecmp = v.mtimecmp ∧ t.lines = v.lines := by
    have e := hu.rest
    rw [← e]
    simp
  obtain ⟨hmem, hmtime, hmtimecmp, hlines⟩ := hmem
  exact {
    mstatus := by rw [← hmstatus]; exact hu.mstatus
    mie := by rw [← hmie]; exact hu.mie
    mipSw := by rw [← hmipSw]; exact hu.mipSw
    counters := by rw [← hcounters]; exact hu.counters
    memory := fun u h => by
      rw [hv u h]; exact ⟨fun a => by rw [hmem], hmtime, hmtimecmp, hlines⟩
    untouched := fun h => by
      rw [hmem, hmtime, hmtimecmp, hlines]
      rcases h with h | h
      · obtain ⟨kmem, kmtime, kmtimecmp, klines⟩ := hw.kept h
        exact ⟨fun a => by rw [kmem], kmtime, kmtimecmp, klines⟩
      · rw [hb h]; simp
    signals := by rw [hlines]; exact hw.signals
    rest := by
      have e := hw.rest
      rw [← hu.rest] at e
      simp only [hregs, hpc, hmstatus, hmie, hmipSw, huTrap, hcounters, hfcsr, hwaiting, hdraws] at e
      exact e }

/-- Settles O55: the fetch changes what `WalkFrame` says, and what then runs in U-mode what `UserFrame` says. -/
theorem userModeCannotChangePrivilegedState : Obligations.UserModeCannotChangePrivilegedState := by
  intro s t hrun hs hstep ht
  rw [hrun.step_eq] at hstep
  rcases State.runNext_cases hstep with ⟨e, tval, hf, rfl⟩ | ⟨v, w, hf, hw, hd⟩
  · refine UserFrame.onlyUserStateChanged (WalkFrame.refl s) (State.takeTrap_user hs ht _ _ _) ?_ fun _ => rfl
    rintro u (⟨w, h⟩ | ⟨-, h⟩)
    · rw [hf] at h; cases h
    · exact h
  · obtain ⟨-, hpriv, -⟩ := hw.fields
    have hp : v.priv = .user := hpriv.trans hs
    have hu : UserFrame v t := by
      rcases hd with ⟨i, -, he⟩ | ⟨w', -, rfl⟩
      · exact exec_user hp ht he
      · exact State.takeTrap_user hp ht _ _ _
    refine hu.onlyUserStateChanged hw ?_ fun hb => State.fetch_bare hb hf
    rintro u (⟨w', h⟩ | ⟨h, -⟩)
    · rw [hf] at h; cases h; rfl
    · exact absurd hf (h v w)

/-! ## WLRL fields -/

/-- A CSR instruction that attempts to write an unsupported value to a WLRL field whose policy is to raise
raises, whether or not its access is permitted (R74, D17). -/
theorem raisesIllegal_of_not_wlrlAccepts {s : State} {i : Instr} {f : CsrForm} {r : Csr}
    (hf : csrForm i = some f) (hr : csrAt s.cfg f.csr = some r) (hw : f.op.writes f.src = true)
    (hv : wlrlAccepts s.cfg r (f.op.result (s.rmwValue r) (s.sourceValue f.src)) = false) :
    RaisesIllegal i s := by
  rcases s.csrInstr_cases i f.op f.rd f.csr f.src with ⟨hi, -⟩ | ⟨q, t, ha, hu, -⟩
  · exact ⟨s.illegal (encode i), by rw [exec_csrForm hf, hi], s.raise_trapped _ _⟩
  · obtain ⟨-, -, -, -, hq⟩ := State.csrAccess_some.mp ha
    obtain rfl : r = q := Option.some.inj (hr.symm.trans hq)
    obtain ⟨u, hframe, -, -, hwrite⟩ := State.csrUpdate_write hu hw
    have hsome := State.writeCsr_isSome u r (f.op.result (s.rmwValue r) (s.sourceValue f.src))
    rw [hwrite, hframe.cfg, hv] at hsome
    cases hsome

/-- `xcause` reads what the write left in it, a value that depends on the written one and the parameters. -/
theorem CsrWritten.readCsr_cause {s t : State} {x : Priv} {v : Word} (h : CsrWritten s t (.cause x) v) :
    ∃ w, s.cfg.writeCause x v = some w ∧ t.readCsr (.cause x) = w := by
  obtain ⟨hv, -, u, w, -, hcfg, hwrite, -, hread, -⟩ := h.inv
  obtain ⟨c, hc, rfl⟩ := Option.map_eq_some_iff.mp hwrite
  rw [hcfg, hv] at hc
  refine ⟨c, hc, ?_⟩
  rw [hread (.cause x) (.inl (by simp [Csr.group]))]
  simp only [State.readCsr, State.setTrapRegs_cfg, State.trapRegs_setTrapRegs_same, hcfg, trunc_of_writeCause hc]

/-- `MPP` holds what the write left in it, a mode that depends on the written value and the parameters. -/
theorem CsrWritten.mpp {s t : State} {v : Word} (h : CsrWritten s t .mstatus v) :
    s.cfg.writeMpp (v.extractLsb' 11 2) = some t.mstatus.mpp := by
  obtain ⟨hv, -, u, w, -, hcfg, hwrite, -, -, regs, rfl⟩ := h.inv
  obtain ⟨p, hp, rfl⟩ := Option.map_eq_some_iff.mp hwrite
  rw [hcfg, hv] at hp
  exact hp

/-- Settles O16: `Config.writeCause` and `Config.writeMpp` take the written value and the parameters alone. -/
theorem wlrlFields : Obligations.WlrlFields := by
  refine ⟨fun s i f r => raisesIllegal_of_not_wlrlAccepts, ?cause, ?mpp⟩
  case cause =>
    intro s t s' t' x v h h' hcfg
    obtain ⟨w, hw, hread⟩ := h.readCsr_cause
    obtain ⟨w', hw', hread'⟩ := h'.readCsr_cause
    refine ⟨?_, fun hl => ?_⟩
    · rw [hread, hread']
      rw [hcfg, hw'] at hw
      exact (Option.some.inj hw).symm
    · rw [writeCause_of_legal h.inv.1 hl] at hw
      exact hread.trans (Option.some.inj hw).symm
  case mpp =>
    intro s t s' t' v h h' hcfg
    refine ⟨?_, supports_of_writeMpp h.mpp, fun p hp hs => ?_⟩
    · have hsame := h'.mpp
      rw [← hcfg, h.mpp] at hsame
      exact Option.some.inj hsame
    · have hw := h.mpp
      rw [writeMpp_of_supported hp hs] at hw
      exact (Option.some.inj hw).symm

/-! ## Counters -/

/-- Settles O28: each pair of counters is one field of the state, read through the same function. -/
theorem userCountersShadowMachineCounters : Obligations.UserCountersShadowMachineCounters :=
  fun _ _ => ⟨rfl, rfl, rfl, rfl, rfl, rfl, rfl, rfl⟩

end Sys2Proof.Machine
end

section
/-! Family 11, CSR fields: what each register holds after a write, the views of `mstatus`, `mip` and `mie`, the
counters, the fixed registers, and when an access is translated. -/

namespace Sys2Proof.Machine

/-! ## A write that completes -/

section
variable {s t w : State} {r q : Csr} {v : Word} (h : CsrWritten s t r v)
include h

/-- A write whose read has no side effect leaves what the register's own write makes of the state: every register
reads so, the retirement counter only where it is the one written, and nothing differs but the integer registers, the
program counter and the counters. -/
theorem CsrWritten.lands (hr : s.afterRead r = s) (hw : s.writeCsr r v = some w) :
    (∀ q : Csr, q.group ≠ .instret ∨ r.isInstret = true → t.readCsr q = w.readCsr q)
      ∧ ∃ regs pc counters, t = { w with regs := regs, pc := pc, counters := counters } := by
  obtain ⟨-, -, u, w', hu, -, hw', -, hread, regs, ht⟩ := h.inv
  obtain rfl : u = s := by rcases hu with rfl | rfl; exacts [rfl, hr]
  obtain rfl : w = w' := Option.some.inj (hw.symm.trans hw')
  exact ⟨hread, regs, _, _, ht⟩

theorem CsrWritten.eq_write (hr : s.afterRead r = s) (hw : s.writeCsr r v = some w) :
    ∃ regs pc counters, t = { w with regs := regs, pc := pc, counters := counters } :=
  (h.lands hr hw).2

theorem CsrWritten.reads (hr : s.afterRead r = s) (hw : s.writeCsr r v = some w)
    (hq : (q.group != .instret || r.isInstret) = true) : t.readCsr q = w.readCsr q :=
  (h.lands hr hw).1 q (by simpa using hq)

/-- What is written is an XLEN-bit value. -/
theorem CsrWritten.trunc_eq : s.cfg.trunc v = v := h.inv.1

end

/-! ## Trap registers -/

section
variable {s t : State} {x : Priv} {v : Word}

theorem CsrWritten.readCsr_scratch (h : CsrWritten s t (.scratch x) v) : t.readCsr (.scratch x) = v :=
  (h.reads rfl rfl rfl).trans (by simp [State.readCsr, h.trunc_eq])

theorem CsrWritten.readCsr_tval (h : CsrWritten s t (.tval x) v) : t.readCsr (.tval x) = v :=
  (h.reads rfl rfl rfl).trans (by simp [State.readCsr, h.trunc_eq])

theorem CsrWritten.alignPc_eq {r : Csr} (h : CsrWritten s t r v) : s.cfg.alignPc v = v &&& ~~~3 := by
  rw [Config.alignPc, h.trunc_eq, clearLow_two]

theorem CsrWritten.alignPc_and {r : Csr} (h : CsrWritten s t r v) :
    s.cfg.alignPc (v &&& ~~~3) = v &&& ~~~3 := by
  rw [← h.alignPc_eq, Config.alignPc_alignPc]

/-- `xepc` takes the aligned value, where its field holds that (R108, R116). -/
theorem CsrWritten.readCsr_epc (h : CsrWritten s t (.epc x) v) :
    t.readCsr (.epc x) = s.cfg.legalize (.epc x) (v &&& ~~~3) := by
  have hkept : ∀ a, s.cfg.alignPc (s.cfg.legalize (.epc x) a) = s.cfg.legalize (.epc x) a :=
    s.cfg.warlForm_legalize (.epc x)
  refine (h.reads rfl rfl rfl).trans ?_
  simp only [State.readCsr, State.setTrapRegs_cfg, State.trapRegs_setTrapRegs_same, h.trunc_eq, h.alignPc_eq, hkept]

end

/-- The address test of the statement implies that of the model (R108). -/
theorem validAddress_of_ValidAddress {c : Config} {v : Word} (hv : c.trunc v = v) (h : ValidAddress c v) :
    c.validAddress v = true := by
  cases hx : c.xlen with
  | rv32 =>
    have hlow : v.toNat ≤ 0xFFFFFFFF := by
      rw [← hv, Config.trunc, hx]
      exact Nat.and_le_right
    have hphys : v.toNat < 2 ^ c.physBits := by
      rw [Config.physBits, hx]
      exact Nat.lt_of_le_of_lt hlow (by decide)
    simp [Config.validAddress, hphys]
  | rv64 =>
    rcases h with h32 | hlt | ⟨hs, hmode, hcanon⟩ | ⟨hs, hmode, hcanon⟩
    · rw [hx] at h32; cases h32
    · have hphys : v.toNat < 2 ^ c.physBits := by rw [Config.physBits, hx]; exact hlt
      simp [Config.validAddress, hphys]
    · simp [Config.validAddress, Config.supportsScheme, canonical, hs, hmode, hcanon]
    · simp [Config.validAddress, Config.supportsScheme, canonical, hs, hmode, hcanon]

/-- Settles O17: `xepc` takes the aligned value, which its form keeps and a valid address asks for. -/
theorem trapRegistersHoldWhatIsWritten : Obligations.TrapRegistersHoldWhatIsWritten := by
  refine ⟨fun s t x v => ⟨CsrWritten.readCsr_scratch, CsrWritten.readCsr_tval, ?asked, ?unexcepted⟩, ?low⟩
  case asked =>
    intro h hvalid
    have htrunc : s.cfg.trunc (v &&& ~~~3) = v &&& ~~~3 := by rw [Config.trunc_and, h.trunc_eq]
    exact h.readCsr_epc.trans
      (Config.legalize_of_asked (validAddress_of_ValidAddress htrunc hvalid) h.alignPc_and)
  case unexcepted =>
    intro h hnone
    exact h.readCsr_epc.trans ((Config.legalize_of_unexcepted hnone _).trans h.alignPc_and)
  case low => exact fun s x => (aligned_of_alignPc_eq (s.cfg.alignPc_alignPc _)).2

/-! ## `xtvec` -/

section
variable {s t : State} {x : Priv} {v : Word}

/-- A hard-wired `mtvec` ignores the write (R98). -/
theorem CsrWritten.readCsr_tvec_hardwired (h : CsrWritten s t (.tvec x) v)
    (hx : x = .machine ∧ s.cfg.mtvecHardwired.isSome = true) : t.readCsr (.tvec x) = s.readCsr (.tvec x) :=
  h.reads rfl (by simp only [State.writeCsr, State.writeTvec, if_pos hx]) rfl

theorem CsrWritten.readCsr_tvec (h : CsrWritten s t (.tvec x) v)
    (hx : ¬(x = .machine ∧ s.cfg.mtvecHardwired.isSome = true)) :
    t.readCsr (.tvec x) = s.cfg.legalize (.tvec x) v := by
  refine (h.reads rfl (by simp only [State.writeCsr, State.writeTvec, if_neg hx]; rfl) rfl).trans ?_
  obtain ⟨htrunc, -, -⟩ := tvecHeld_legalize s.cfg x v
  simp only [State.readCsr, State.setTrapRegs_cfg, State.trapRegs_setTrapRegs_same, h.trunc_eq, htrunc]

end

/-- A value of the form of `xtvec` is Vectored where its bit 0 is set, and each bit below the alignment of its
mode is zero (R98). -/
theorem getLsbD_of_tvecForm_eq {c : Config} {x : Priv} {a : Word} (ha : c.tvecForm x a = a) :
    c.tvecVectored x a = a.getLsbD 0 ∧ ∀ k, 2 ≤ k →
      k < (if a.getLsbD 0 then (c.tvecAlign x).vectored else (c.tvecAlign x).direct) → a.getLsbD k = false := by
  have hvec : c.tvecVectored x a = a.getLsbD 0 := by
    conv_rhs => rw [← ha, tvecForm_getLsbD]
    simp
  refine ⟨hvec, fun k hk hlt => ?_⟩
  rw [← ha, tvecForm_getLsbD, hvec, if_neg (by omega)]
  simp only [decide_eq_false (Nat.not_le.mpr hlt), Bool.and_false, Bool.false_and]

/-- What the form of `xtvec` makes of a value written: a supported `MODE` stays, and `BASE` is as written down to
the alignment of the mode that is left (R98). -/
theorem tvecForm_fields {c : Config} {x : Priv} {v : Word} (hv : c.trunc v = v) :
    (v.extractLsb' 0 2 = 0 → (c.tvecForm x v).getLsbD 0 = false)
      ∧ (v.extractLsb' 0 2 = 1 → (c.tvecForm x v).getLsbD 0 = c.vectoredTraps)
      ∧ ∀ k, 2 ≤ k → (c.tvecForm x v).getLsbD k =
          (v.getLsbD k && decide ((if (c.tvecForm x v).getLsbD 0
            then (c.tvecAlign x).vectored else (c.tvecAlign x).direct) ≤ k)) := by
  have hmode : (c.tvecForm x v).getLsbD 0 = c.tvecVectored x v := by rw [tvecForm_getLsbD, if_pos rfl]
  refine ⟨fun h0 => ?_, fun h1 => ?_, fun k hk => ?_⟩
  · rw [hmode, Config.tvecVectored, h0]; simp
  · rw [hmode, Config.tvecVectored, h1]; simp
  · rw [hmode, tvecForm_getLsbD, if_neg (by omega), hv, decide_eq_true hk, Bool.true_and, Bool.and_comm]

/-- Settles O18: what `xtvec` takes is of the form of R98, which `tvecForm_getLsbD` gives bit by bit, and is kept
(`Config.legalize_legalize`). -/
theorem tvecHoldsLegalValues : Obligations.TvecHoldsLegalValues := by
  refine fun s t x v h => ⟨h.readCsr_tvec_hardwired, fun hx => ?_⟩
  rw [h.readCsr_tvec hx]
  obtain ⟨-, hbit, hvec⟩ := tvecHeld_legalize s.cfg x v
  obtain ⟨-, hbase⟩ := getLsbD_of_tvecForm_eq (s.cfg.warlForm_legalize (.tvec x) v)
  refine ⟨hbit, hvec, hbase, ?kept, fun hnone => ?written⟩
  case kept =>
    intro u w hw hcfg
    rw [hw.readCsr_tvec (hcfg ▸ hx), hcfg, Config.legalize_legalize]
  case written =>
    rw [Config.legalize_of_unexcepted hnone]
    exact tvecForm_fields h.trunc_eq

/-! ## Delegation registers -/

/-- A field whose form is a mask holds bits of the mask, and where the parameters make no exception all of them that
are written (R76). -/
theorem legalize_of_mask {c : Config} {f : WarlField} {m v : Word} (hf : ∀ a, c.warlForm f a = a &&& m)
    (hv : c.trunc v = v) :
    c.trunc (c.legalize f v) &&& m = c.trunc (c.legalize f v)
      ∧ (Unexcepted c f → c.trunc (c.legalize f v) = v &&& m) := by
  constructor
  · rw [← Config.trunc_and, ← hf, Config.warlForm_legalize]
  · intro hnone
    rw [Config.legalize_of_unexcepted hnone, hf, Config.trunc_and, hv]

theorem medelegBits_getLsbD_eleven (c : Config) : c.medelegBits.getLsbD 11 = false := by
  cases hu : c.hasU <;> cases hs : c.hasS <;> simp [Config.medelegBits, hu, hs]

theorem sedelegBits_extractLsb' (c : Config) : c.sedelegBits.extractLsb' 9 3 = 0 := by
  apply BitVec.eq_of_getLsbD_eq
  intro i hi
  have hbits : i = 0 ∨ i = 1 ∨ i = 2 := by omega
  cases hu : c.hasU <;> rcases hbits with rfl | rfl | rfl <;> simp [Config.sedelegBits, hu]

section
variable {s t : State} {v : Word}

theorem CsrWritten.readCsr_medeleg (h : CsrWritten s t .medeleg v) :
    t.readCsr .medeleg = s.cfg.trunc (s.cfg.legalize .medeleg v) :=
  (h.reads rfl rfl rfl).trans (by simp only [State.readCsr, h.trunc_eq])

theorem CsrWritten.readCsr_mideleg (h : CsrWritten s t .mideleg v) :
    t.readCsr .mideleg = s.cfg.trunc (s.cfg.legalize .mideleg v) :=
  (h.reads rfl rfl rfl).trans (by simp only [State.readCsr, h.trunc_eq])

theorem CsrWritten.readCsr_sedeleg (h : CsrWritten s t .sedeleg v) :
    t.readCsr .sedeleg = s.cfg.trunc (s.cfg.legalize .sedeleg v) :=
  (h.reads rfl rfl rfl).trans (by simp only [State.readCsr, h.trunc_eq])

theorem CsrWritten.readCsr_sideleg (h : CsrWritten s t .sideleg v) :
    t.readCsr .sideleg = s.cfg.trunc (s.cfg.legalize .sideleg v) :=
  (h.reads rfl rfl rfl).trans (by simp only [State.readCsr, h.trunc_eq])

end

/-- Settles O19: the form of each delegation register is a mask (`legalize_of_mask`). -/
theorem delegationRegistersHoldLegalBits : Obligations.DelegationRegistersHoldLegalBits := by
  refine fun s t v => ⟨fun h => ?medeleg, fun h => ?mideleg, fun h => ?sedeleg, fun h => ?sideleg⟩
  case medeleg =>
    obtain ⟨hmask, hall⟩ := legalize_of_mask (f := .medeleg) (fun _ => rfl) h.trunc_eq
    rw [h.readCsr_medeleg]
    refine ⟨hmask, ?_, hall⟩
    rw [← hmask, BitVec.getLsbD_and, medelegBits_getLsbD_eleven, Bool.and_false]
  case mideleg =>
    rw [h.readCsr_mideleg]
    exact legalize_of_mask (fun _ => rfl) h.trunc_eq
  case sedeleg =>
    obtain ⟨hmask, hall⟩ := legalize_of_mask (f := .sedeleg) (fun _ => rfl) h.trunc_eq
    rw [h.readCsr_sedeleg]
    refine ⟨hmask, ?_, hall⟩
    rw [← hmask, BitVec.extractLsb'_and, sedelegBits_extractLsb']
    exact BitVec.and_zero
  case sideleg =>
    rw [h.readCsr_sideleg]
    exact legalize_of_mask (fun _ => rfl) h.trunc_eq

/-! ## `satp` -/

/-- `satp` takes what `Legalize_satp` makes of the value (R120). -/
theorem CsrWritten.satp_eq {s t : State} {v : Word} (h : CsrWritten s t .satp v) :
    t.satp = s.cfg.legalSatp s.satp v ∧ t.readCsr .satp = s.cfg.trunc t.satp := by
  obtain ⟨_, _, _, rfl⟩ := h.eq_write rfl rfl
  exact ⟨by rw [h.trunc_eq], rfl⟩

/-- Settles O20, by the two branches of `Config.legalSatp`. -/
theorem satpKeepsSupportedModes : Obligations.SatpKeepsSupportedModes := by
  intro s t v h
  obtain ⟨hsatp, hread⟩ := h.satp_eq
  rw [hread, hsatp, Config.legalSatp]
  constructor <;> intro hmode
  · rw [hmode, if_neg Bool.false_ne_true]
  · rw [if_pos hmode, Config.trunc_and, h.trunc_eq]
    exact ⟨rfl, satpMode_satpBits _ _⟩

/-! ## Bits of masks and of two-bit fields -/

/-- The bits of a constant. -/
theorem getLsbD_eq_contains {n : Nat} {w : BitVec n} {l : List Nat}
    (hw : ∀ k : Fin n, w.getLsbD k = l.contains k.val) (hl : ∀ k ∈ l, k < n) (k : Nat) :
    w.getLsbD k = l.contains k := by
  by_cases hk : k < n
  · exact hw ⟨k, hk⟩
  · rw [BitVec.getLsbD_of_ge w k (Nat.le_of_not_lt hk), eq_comm, List.contains_eq_mem]
    exact decide_eq_false fun hmem => hk (hl k hmem)

/-- The interrupts of the modes that exist (R100, R101). -/
theorem intMask_getLsbD (c : Config) (k : Nat) : c.intMask.getLsbD k =
    ([3, 7, 11].contains k || (c.hasS && [1, 5, 9].contains k) || (c.n && [0, 4, 8].contains k)) := by
  have hm := getLsbD_eq_contains (w := (0x888 : Word)) (l := [3, 7, 11]) (by decide) (by decide) k
  have hs := getLsbD_eq_contains (w := (0x222 : Word)) (l := [1, 5, 9]) (by decide) (by decide) k
  have hu := getLsbD_eq_contains (w := (0x111 : Word)) (l := [0, 4, 8]) (by decide) (by decide) k
  rw [Config.intMask, BitVec.getLsbD_or, BitVec.getLsbD_or, hm, ← hs, ← hu]
  cases c.hasS <;> cases c.n <;> simp

theorem extractLsb'_two_eq_iff {v : Word} {a : Nat} {w : BitVec 2} :
    v.extractLsb' a 2 = w ↔ v.getLsbD a = w.getLsbD 0 ∧ v.getLsbD (a + 1) = w.getLsbD 1 := by
  constructor
  · rintro rfl; simp
  · rintro ⟨h0, h1⟩
    apply BitVec.eq_of_getLsbD_eq
    intro i hi
    have hbits : i = 0 ∨ i = 1 := by omega
    rcases hbits with rfl | rfl <;> simp [h0, h1]

/-! ## Bits of `mstatus` -/

/-- The bit of `mstatus` at `k`, `SD` left out (R87). -/
def Mstatus.bit (c : Config) (m : Mstatus) : Nat → Bool
  | 0 => m.uie
  | 1 => m.sie
  | 3 => m.mie
  | 4 => m.upie
  | 5 => m.spie
  | 7 => m.mpie
  | 8 => m.spp
  | 11 => m.mpp.enc.getLsbD 0
  | 12 => m.mpp.enc.getLsbD 1
  | 13 => m.fs.getLsbD 0
  | 14 => m.fs.getLsbD 1
  | 17 => m.mprv
  | 18 => m.sum
  | 19 => m.mxr
  | 20 => m.tvm
  | 21 => m.tw
  | 22 => m.tsr
  | 33 => c.xlen == .rv64 && c.hasU
  | 35 => c.xlen == .rv64 && c.hasS
  | _ => false

theorem Mstatus.bit_of_ge {c : Config} {m : Mstatus} {k : Nat} (hk : 36 ≤ k) : m.bit c k = false := by
  obtain ⟨j, rfl⟩ := Nat.exists_eq_add_of_le' hk
  rfl

/-- Every bit of `mstatus` as it is read. -/
theorem Mstatus.toWord_getLsbD (c : Config) (m : Mstatus) (k : Nat) :
    (m.toWord c).getLsbD k = (m.bit c k || (c.topBit == k && m.sd)) := by
  rw [Mstatus.toWord, wordOfBits_getLsbD]
  by_cases hk : k < 36
  · interval_cases k <;> simp [Mstatus.bit]
  · have hne : ∀ j, j < 36 → (j == k) = false := fun j hj => by simp; omega
    have htop : c.topBit < 64 := by have := c.xlen.bits_le; have := c.xlen.bits_ge; unfold Config.topBit; omega
    rw [Mstatus.bit_of_ge (Nat.le_of_not_lt hk)]
    by_cases ht : c.topBit = k
    · simp [hne, ht, ht ▸ htop]
    · simp [hne, ht]

/-- Every bit but `SD`. -/
theorem Mstatus.toWord_getLsbD_of_ne {c : Config} {m : Mstatus} {k : Nat} (hk : k ≠ c.topBit) :
    (m.toWord c).getLsbD k = m.bit c k := by
  rw [Mstatus.toWord_getLsbD, beq_eq_false_iff_ne.mpr hk.symm, Bool.false_and, Bool.or_false]

theorem ne_topBit_of_lt (c : Config) {k : Nat} (hk : k < 31) : k ≠ c.topBit := by
  have := c.xlen.bits_ge
  rw [Config.topBit]
  omega

theorem Mstatus.toWord_getLsbD_of_lt {c : Config} {m : Mstatus} {k : Nat} (hk : k < 31) :
    (m.toWord c).getLsbD k = m.bit c k :=
  Mstatus.toWord_getLsbD_of_ne (ne_topBit_of_lt c hk)

/-- A write of `ustatus` changes `UIE` and `UPIE` (R122). -/
theorem Mstatus.bit_writeU (c : Config) (m : Mstatus) (v : Word) (k : Nat) :
    (m.writeU c v).bit c k = if [0, 4].contains k then c.n && v.getLsbD k else m.bit c k := by
  unfold Mstatus.bit
  split <;> simp_all [Mstatus.writeU]

/-- A write of `sstatus` changes the supervisor fields, `FS`, and those of `ustatus` (R112). -/
theorem Mstatus.bit_writeS (c : Config) (m : Mstatus) (v : Word) (k : Nat) :
    (m.writeS c v).bit c k =
      if [1, 5, 8, 18, 19].contains k then c.hasS && v.getLsbD k
      else if [13, 14].contains k then fsWritable c && v.getLsbD k
      else (m.writeU c v).bit c k := by
  unfold Mstatus.bit
  cases hfs : fsWritable c <;> split <;> simp_all [Mstatus.writeS]

/-- A write of `sstatus` leaves the bits that it does not show (R112). -/
theorem Mstatus.bit_writeS_of_hidden (c : Config) (m : Mstatus) (v : Word) {k : Nat}
    (hk : k ∉ [0, 1, 4, 5, 8, 13, 14, 15, 16, 18, 19]) : (m.writeS c v).bit c k = m.bit c k := by
  simp only [List.mem_cons, List.not_mem_nil, not_or] at hk
  simp [Mstatus.bit_writeS, Mstatus.bit_writeU, hk]

theorem Mstatus.bit_topBit (c : Config) (m : Mstatus) : m.bit c c.topBit = false := by
  cases hx : c.xlen <;> simp [Config.topBit, hx, XLen.bits, Mstatus.bit]

theorem Mstatus.toWord_fs (c : Config) (m : Mstatus) : (m.toWord c).extractLsb' 13 2 = m.fs :=
  extractLsb'_two_eq_iff.mpr
    ⟨Mstatus.toWord_getLsbD_of_lt (by decide), Mstatus.toWord_getLsbD_of_lt (by decide)⟩

theorem Mstatus.toWord_mpp (c : Config) (m : Mstatus) : (m.toWord c).extractLsb' 11 2 = m.mpp.enc :=
  extractLsb'_two_eq_iff.mpr
    ⟨Mstatus.toWord_getLsbD_of_lt (by decide), Mstatus.toWord_getLsbD_of_lt (by decide)⟩

/-- The upper half on RV64: `UXL` and `SXL`, and nothing else below `SD` (R90, D15). -/
theorem Mstatus.toWord_rv64 {c : Config} (m : Mstatus) (hx : c.xlen = .rv64) :
    (m.toWord c).extractLsb' 32 2 = (if c.hasU then 2 else 0)
      ∧ (m.toWord c).extractLsb' 34 2 = (if c.hasS then 2 else 0)
      ∧ (m.toWord c).getLsbD 31 = false ∧ (m.toWord c).extractLsb' 36 27 = 0 := by
  have hbit : ∀ k, k ≠ 63 → (m.toWord c).getLsbD k = m.bit c k := fun k hk => by
    exact Mstatus.toWord_getLsbD_of_ne (by simpa [Config.topBit, hx, XLen.bits] using hk)
  refine ⟨extractLsb'_two_eq_iff.mpr ?_, extractLsb'_two_eq_iff.mpr ?_, hbit 31 (by decide), ?_⟩
  · rw [hbit 32 (by decide), hbit 33 (by decide)]
    cases hu : c.hasU <;> simp [Mstatus.bit, hx, hu]
  · rw [hbit 34 (by decide), hbit 35 (by decide)]
    cases hs : c.hasS <;> simp [Mstatus.bit, hx, hs]
  · apply BitVec.eq_of_getLsbD_eq
    intro i hi
    rw [BitVec.getLsbD_extractLsb', hbit _ (by omega), Mstatus.bit_of_ge (by omega)]
    simp

/-- `mstatus` has 32 bits on RV32. -/
theorem Mstatus.toWord_rv32 {c : Config} (m : Mstatus) (hx : c.xlen = .rv32) :
    (m.toWord c).extractLsb' 32 32 = 0 := by
  apply BitVec.eq_of_getLsbD_eq
  intro i hi
  have hne : 32 + i ≠ c.topBit := by simp only [Config.topBit, hx, XLen.bits]; omega
  have hbit : m.bit c (32 + i) = false := by
    by_cases hk : i < 4
    · interval_cases i <;> simp [Mstatus.bit, hx]
    · exact Mstatus.bit_of_ge (by omega)
  rw [BitVec.getLsbD_extractLsb', Mstatus.toWord_getLsbD_of_ne hne, hbit]
  simp

/-- `SD` is set exactly when `FS` is Dirty (R97). -/
theorem Mstatus.toWord_sd_iff (c : Config) (m : Mstatus) :
    (m.toWord c).getLsbD (c.xlen.bits - 1) = true ↔ (m.toWord c).extractLsb' 13 2 = 3 := by
  have htop : (m.toWord c).getLsbD (c.xlen.bits - 1) = m.sd := by
    rw [Mstatus.toWord_getLsbD, ← Config.topBit, Mstatus.bit_topBit]; simp
  rw [htop, Mstatus.toWord_fs, Mstatus.sd, beq_iff_eq]

theorem Priv.enc_of_ofEnc {e : BitVec 2} {p : Priv} (h : Priv.ofEnc e = some p) : p.enc = e := by
  revert h; cases p <;> revert e <;> decide

theorem writeMpp_of_ofEnc {c : Config} {e : BitVec 2} {p q : Priv} (h : c.writeMpp e = some q)
    (hp : Priv.ofEnc e = some p) (hs : c.supports p = true) : q = p := by
  rw [writeMpp_of_supported hp hs] at h
  exact (Option.some.inj h).symm

/-! ## Writes of `mstatus` and its views -/

section
variable {s t : State} {v : Word}

theorem CsrWritten.mstatus_of_mstatus (h : CsrWritten s t .mstatus v) :
    t.mstatus = s.mstatus.writeM s.cfg v t.mstatus.mpp ∧ t.cfg = s.cfg := by
  obtain ⟨p, hp⟩ := Option.isSome_iff_exists.mp (by rw [h.mpp]; rfl : (s.cfg.writeMpp (v.extractLsb' 11 2)).isSome)
  obtain ⟨_, _, _, rfl⟩ := h.eq_write rfl (by simp only [State.writeCsr, h.trunc_eq, hp]; rfl)
  exact ⟨rfl, rfl⟩

theorem CsrWritten.mstatus_of_sstatus (h : CsrWritten s t .sstatus v) :
    t.mstatus = s.mstatus.writeS s.cfg v ∧ t.cfg = s.cfg := by
  obtain ⟨_, _, _, rfl⟩ := h.eq_write rfl rfl
  exact ⟨by rw [h.trunc_eq], rfl⟩

theorem CsrWritten.mstatus_of_ustatus (h : CsrWritten s t .ustatus v) :
    t.mstatus = s.mstatus.writeU s.cfg v ∧ t.cfg = s.cfg := by
  obtain ⟨_, _, _, rfl⟩ := h.eq_write rfl rfl
  exact ⟨by rw [h.trunc_eq], rfl⟩

end

/-- Settles O21: each clause is about one field of `mstatus` (`Mstatus.bit`). -/
theorem mstatusFieldsAfterWrite : Obligations.MstatusFieldsAfterWrite := by
  intro s t v h
  obtain ⟨hm, hcfg⟩ := h.mstatus_of_mstatus
  have hread : t.readCsr .mstatus = t.mstatus.toWord s.cfg := by rw [← hcfg]; rfl
  have hbit : ∀ k, k < 31 →
      (t.readCsr .mstatus).getLsbD k = (s.mstatus.writeM s.cfg v t.mstatus.mpp).bit s.cfg k := fun k hk => by
    rw [hread, Mstatus.toWord_getLsbD_of_lt hk, ← hm]
  refine ⟨?machine, ?supervisor, ?user, ?userTraps, ?float, ?reserved, ?mppKept, ?mppLegal, ?rv64, ?rv32, ?sd⟩
  case machine => intro k hk; fin_cases hk <;> exact hbit _ (by decide)
  case supervisor => intro k hk; fin_cases hk <;> exact hbit _ (by decide)
  case user => intro k hk; fin_cases hk <;> exact hbit _ (by decide)
  case userTraps => intro k hk; fin_cases hk <;> exact hbit _ (by decide)
  case float =>
    intro k hk
    fin_cases hk
    · exact (hbit 13 (by decide)).trans (Mstatus.bit_writeS s.cfg s.mstatus v 13)
    · exact (hbit 14 (by decide)).trans (Mstatus.bit_writeS s.cfg s.mstatus v 14)
  case reserved => intro k hk; fin_cases hk <;> exact hbit _ (by decide)
  case mppKept =>
    intro p hp hs
    rw [hread, Mstatus.toWord_mpp, writeMpp_of_ofEnc h.mpp hp hs, Priv.enc_of_ofEnc hp]
  case mppLegal => exact ⟨t.mstatus.mpp, supports_of_writeMpp h.mpp, by rw [hread, Mstatus.toWord_mpp]⟩
  case rv64 => rw [hread]; exact Mstatus.toWord_rv64 _
  case rv32 => rw [hread]; exact Mstatus.toWord_rv32 _
  case sd => rw [hread]; exact Mstatus.toWord_sd_iff _ _

/-- Each bit of `sstatus` is that of `mstatus` where R112 lists it. -/
theorem sstatusMask_getLsbD (c : Config) (k : Nat) : (sstatusMask c).getLsbD k = (sstatusBits c).contains k := by
  cases hx : c.xlen with
  | rv32 =>
    have hw : sstatusMask c = 0x800DE133 := by rw [sstatusMask, Config.topBit, hx]; decide
    rw [hw, sstatusBits, hx]
    exact getLsbD_eq_contains (by decide) (by decide) k
  | rv64 =>
    have hw : sstatusMask c = 0x80000003000DE133 := by rw [sstatusMask, Config.topBit, hx]; decide
    rw [hw, sstatusBits, hx]
    exact getLsbD_eq_contains (by decide) (by decide) k

/-- Settles O22: the mask of `sstatus` is its list of bits, and `Mstatus.writeS` leaves the others. -/
theorem sstatusIsViewOfMstatus : Obligations.SstatusIsViewOfMstatus := by
  constructor
  · intro s k
    show (s.mstatus.toWord s.cfg &&& sstatusMask s.cfg).getLsbD k = _
    rw [BitVec.getLsbD_and, sstatusMask_getLsbD, Bool.and_comm]; rfl
  · intro s t v h
    obtain ⟨hm, hcfg⟩ := h.mstatus_of_sstatus
    have hs : s.cfg.hasS = true := h.inv.2.1
    have hread : t.readCsr .mstatus = (s.mstatus.writeS s.cfg v).toWord s.cfg := by rw [← hm, ← hcfg]; rfl
    have hbit : ∀ k, k ≠ s.cfg.topBit → (t.readCsr .mstatus).getLsbD k = (s.mstatus.writeS s.cfg v).bit s.cfg k :=
      fun k hk => by rw [hread, Mstatus.toWord_getLsbD_of_ne hk]
    refine ⟨?hidden, ?supervisor, ?user, ?float, ?fixed, ?sd⟩
    case hidden =>
      intro k hk
      have hk' : k ∉ sstatusBits s.cfg := by simpa using hk
      simp only [sstatusBits, List.mem_append, not_or] at hk'
      obtain ⟨⟨hshown, -⟩, htop⟩ := hk'
      have htop : k ≠ s.cfg.topBit := by simpa [Config.topBit] using htop
      rw [hbit k htop, Mstatus.bit_writeS_of_hidden _ _ _ hshown]
      exact (Mstatus.toWord_getLsbD_of_ne htop).symm
    case supervisor =>
      have hand : ∀ k, (s.cfg.hasS && v.getLsbD k) = v.getLsbD k := by simp [hs]
      intro k hk
      fin_cases hk <;> exact (hbit _ (ne_topBit_of_lt _ (by decide))).trans (hand _)
    case user => intro k hk; fin_cases hk <;> exact hbit _ (ne_topBit_of_lt _ (by decide))
    case float =>
      intro k hk
      fin_cases hk
      · exact (hbit 13 (ne_topBit_of_lt _ (by decide))).trans (Mstatus.bit_writeS s.cfg s.mstatus v 13)
      · exact (hbit 14 (ne_topBit_of_lt _ (by decide))).trans (Mstatus.bit_writeS s.cfg s.mstatus v 14)
    case fixed =>
      intro k hk
      have htop : k ≠ s.cfg.topBit := by
        rw [Config.topBit]
        cases s.cfg.xlen <;> fin_cases hk <;> decide
      refine (hbit k htop).trans (Eq.trans ?_ (Mstatus.toWord_getLsbD_of_ne htop).symm)
      fin_cases hk <;> rfl
    case sd => rw [hread]; exact Mstatus.toWord_sd_iff _ _

/-! ## Bits of the interrupt registers -/

/-- The bits of `mip` that software writes: those of the modes that exist (R101, R102). -/
theorem mipWritable_getLsbD (c : Config) (k : Nat) : c.mipWritable.getLsbD k =
    (supervisorInterruptBits.contains k && c.intMask.getLsbD k) := by
  rw [Config.mipWritable, BitVec.getLsbD_and,
    getLsbD_eq_contains (w := (0x333 : Word)) (l := supervisorInterruptBits) (by decide) (by decide)]

/-- The bits of `sip` and `sie`: those that S-mode sees, of the modes that exist (R114). -/
theorem sVisible_getLsbD (s : State) (k : Nat) :
    s.sVisible.getLsbD k = (seenBySupervisor s k && s.cfg.intMask.getLsbD k) := by
  have hk : supervisorInterruptBits.contains k = true → k < 64 := by
    intro h
    have : ∀ k ∈ supervisorInterruptBits, k < 64 := by decide
    exact this k (by simpa using h)
  rw [State.sVisible, Config.sVisible, BitVec.getLsbD_and, mipWritable_getLsbD, seenBySupervisor]
  cases hc : supervisorInterruptBits.contains k
  · simp
  · cases s.cfg.maskByMideleg
    · rw [if_neg Bool.false_ne_true, BitVec.getLsbD_allOnes, decide_eq_true (hk hc)]
      simp
    · simp [Bool.and_comm]

/-- The bits of `uip` and `uie` (R122). -/
theorem uVisible_getLsbD (c : Config) (k : Nat) :
    c.uVisible.getLsbD k = (userInterruptBits.contains k && c.intMask.getLsbD k) := by
  rw [Config.uVisible, BitVec.getLsbD_and,
    getLsbD_eq_contains (w := (0x111 : Word)) (l := userInterruptBits) (by decide) (by decide)]

/-- Through `sip` software writes `USIP`, `SSIP` and `UEIP` where S-mode sees them (R114). -/
theorem sipWritable_getLsbD (s : State) (k : Nat) : (s.cfg.sipWritable s.deleg.mideleg).getLsbD k =
    (seenBySupervisor s k && [0, 1, 8].contains k && s.cfg.intMask.getLsbD k) := by
  have hv := sVisible_getLsbD s k
  rw [State.sVisible] at hv
  rw [Config.sipWritable, BitVec.getLsbD_and, hv,
    getLsbD_eq_contains (w := (0x103 : Word)) (l := [0, 1, 8]) (by decide) (by decide), ← Bool.and_assoc,
    Bool.and_comm (List.contains _ _)]

/-- Through `uip` software writes `USIP` (log entry 9). -/
theorem uipWritable_getLsbD (c : Config) (k : Nat) :
    c.uipWritable.getLsbD k = ([0].contains k && c.intMask.getLsbD k) := by
  rw [Config.uipWritable, BitVec.getLsbD_and,
    getLsbD_eq_contains (w := (0x001 : Word)) (l := [0]) (by decide) (by decide)]

/-- The read-only bits of `mip` and the signals that `SEIP` and `UEIP` are combined with (R101, R102). -/
def State.mipSignal (s : State) : Nat → Bool
  | 3 => s.lines.msip
  | 7 => s.mtip
  | 8 => s.lines.ueip
  | 9 => s.lines.seip
  | 11 => s.lines.meip
  | _ => false

theorem mipHardware_getLsbD (s : State) (k : Nat) :
    s.mipHardware.getLsbD k = ([3, 7, 11].contains k && s.mipSignal k) := by
  rw [State.mipHardware, wordOfBits_getLsbD]
  unfold State.mipSignal
  split
  case h_6 h3 h7 _ _ h11 => simp [Ne.symm h3, Ne.symm h7, Ne.symm h11]
  all_goals simp

theorem mipExternal_getLsbD (s : State) (k : Nat) :
    s.mipExternal.getLsbD k = ([8, 9].contains k && s.mipSignal k) := by
  rw [State.mipExternal, wordOfBits_getLsbD]
  unfold State.mipSignal
  split
  case h_6 _ _ h8 h9 _ => simp [Ne.symm h8, Ne.symm h9]
  all_goals simp

/-- Every bit of `mip` as it is read: the software bit or the signal, of the modes that exist (R101, R102). -/
theorem mip_getLsbD (s : State) (k : Nat) :
    s.mip.getLsbD k = ((s.mipSw.getLsbD k || s.mipSignal k) && s.cfg.intMask.getLsbD k) := by
  rw [State.mip, BitVec.getLsbD_and, BitVec.getLsbD_or, BitVec.getLsbD_or, mipHardware_getLsbD,
    mipExternal_getLsbD]
  congr 1
  unfold State.mipSignal
  split <;> simp_all

/-- A set or clear of `mip` takes the software bits and the read-only bits alone as the old value (R102). -/
theorem mipRmw_getLsbD (s : State) (k : Nat) : s.mipRmw.getLsbD k =
    ((s.mipSw.getLsbD k || ([3, 7, 11].contains k && s.mipSignal k)) && s.cfg.intMask.getLsbD k) := by
  rw [State.mipRmw, BitVec.getLsbD_and, BitVec.getLsbD_or, mipHardware_getLsbD]

/-- In a legal state software bits stand only where software writes them (R101). -/
theorem State.Legal.mipSw_getLsbD {s : State} (h : s.Legal) (k : Nat) :
    s.mipSw.getLsbD k = (s.mipSw.getLsbD k && (supervisorInterruptBits.contains k && s.cfg.intMask.getLsbD k)) := by
  rw [← mipWritable_getLsbD, ← BitVec.getLsbD_and, h.mipSw]

/-- In a legal state `mie` has bits of the modes that exist alone (R100). -/
theorem State.Legal.mie_getLsbD {s : State} (h : s.Legal) (k : Nat) :
    s.mie.getLsbD k = (s.mie.getLsbD k && s.cfg.intMask.getLsbD k) := by
  rw [← BitVec.getLsbD_and, h.mie]

/-! ## Writes of the interrupt registers -/

section
variable {s t : State} {v : Word}

theorem CsrWritten.mie_of_mie (h : CsrWritten s t .mie v) : t.mie = v &&& s.cfg.intMask := by
  obtain ⟨_, _, _, rfl⟩ := h.eq_write rfl rfl
  rw [h.trunc_eq]

theorem CsrWritten.mie_of_sie (h : CsrWritten s t .sie v) :
    t.mie = mergeBits s.sVisible s.mie v ∧ t.mipSw = s.mipSw := by
  obtain ⟨_, _, _, rfl⟩ := h.eq_write rfl rfl
  exact ⟨by rw [h.trunc_eq], rfl⟩

theorem CsrWritten.mie_of_uie (h : CsrWritten s t .uie v) : t.mie = mergeBits s.cfg.uVisible s.mie v := by
  obtain ⟨_, _, _, rfl⟩ := h.eq_write rfl rfl
  rw [h.trunc_eq]

theorem CsrWritten.mipSw_of_mip (h : CsrWritten s t .mip v) :
    t.mipSw = v &&& s.cfg.mipWritable ∧ t.cfg = s.cfg ∧ t.mipSignal = s.mipSignal := by
  obtain ⟨_, _, _, rfl⟩ := h.eq_write rfl rfl
  exact ⟨by rw [h.trunc_eq], rfl, rfl⟩

theorem CsrWritten.mipSw_of_sip (h : CsrWritten s t .sip v) :
    t.mipSw = mergeBits (s.cfg.sipWritable s.deleg.mideleg) s.mipSw v ∧ t.mie = s.mie := by
  obtain ⟨_, _, _, rfl⟩ := h.eq_write rfl rfl
  exact ⟨by rw [h.trunc_eq], rfl⟩

theorem CsrWritten.mipSw_of_uip (h : CsrWritten s t .uip v) :
    t.mipSw = mergeBits s.cfg.uipWritable s.mipSw v ∧ t.mie = s.mie := by
  obtain ⟨_, _, _, rfl⟩ := h.eq_write rfl rfl
  exact ⟨by rw [h.trunc_eq], rfl⟩

end

/-- Settles O23: a merge changes the bits of its mask, and each mask is known bit by bit. -/
theorem sipAndSieAreViews : Obligations.SipAndSieAreViews := by
  intro s hlegal
  refine ⟨fun k => ⟨?sip, ?sie⟩, fun t v h => ?writeSip, fun t v h => ?writeSie⟩
  case sip =>
    show (s.mip &&& s.sVisible).getLsbD k = (_ && s.mip.getLsbD k)
    rw [BitVec.getLsbD_and, sVisible_getLsbD, mip_getLsbD]
    cases s.cfg.intMask.getLsbD k <;> simp [Bool.and_comm]
  case sie =>
    show (s.mie &&& s.sVisible).getLsbD k = (_ && s.mie.getLsbD k)
    rw [BitVec.getLsbD_and, sVisible_getLsbD, hlegal.mie_getLsbD]
    cases s.cfg.intMask.getLsbD k <;> simp [Bool.and_comm]
  case writeSip =>
    obtain ⟨hsw, hmie⟩ := h.mipSw_of_sip
    exact ⟨hmie, fun k => by rw [hsw, mergeBits_getLsbD, sipWritable_getLsbD]⟩
  case writeSie =>
    obtain ⟨hmie, hsw⟩ := h.mie_of_sie
    exact ⟨hsw, fun k => by rw [hmie, mergeBits_getLsbD, sVisible_getLsbD]⟩

/-- Settles O24, as O23; with N every bit that the user-level registers show exists. -/
theorem userRegistersAreViews : Obligations.UserRegistersAreViews := by
  intro s hlegal hn
  have hmask : ∀ k, userInterruptBits.contains k = true → s.cfg.intMask.getLsbD k = true := by
    intro k hk
    have hk : [0, 4, 8].contains k = true := hk
    rw [intMask_getLsbD, hn, hk, Bool.and_self, Bool.or_true]
  have hvis : ∀ k, s.cfg.uVisible.getLsbD k = userInterruptBits.contains k := by
    intro k
    rw [uVisible_getLsbD, Bool.and_eq_left_iff_imp]
    exact hmask k
  refine ⟨fun k => ⟨?ustatus, ?uie, ?uip⟩, fun t v h k => ?writeUstatus, fun t v h k => ?writeUie,
    fun t v h => ?writeUip⟩
  case ustatus =>
    show (s.mstatus.toWord s.cfg &&& ustatusMask).getLsbD k = _
    rw [BitVec.getLsbD_and, getLsbD_eq_contains (w := ustatusMask) (l := [0, 4]) (by decide) (by decide),
      Bool.and_comm]
    rfl
  case uie =>
    show (s.mie &&& s.cfg.uVisible).getLsbD k = (_ && s.mie.getLsbD k)
    rw [BitVec.getLsbD_and, hvis, Bool.and_comm]
  case uip =>
    show (s.mip &&& s.cfg.uVisible).getLsbD k = (_ && s.mip.getLsbD k)
    rw [BitVec.getLsbD_and, hvis, Bool.and_comm]
  case writeUstatus =>
    obtain ⟨hm, hcfg⟩ := h.mstatus_of_ustatus
    show (t.mstatus.toWord t.cfg).getLsbD k = if _ then _ else (s.mstatus.toWord s.cfg).getLsbD k
    rw [hm, hcfg, Mstatus.toWord_getLsbD, Mstatus.toWord_getLsbD, Mstatus.bit_writeU, hn, Bool.true_and]
    split
    · next hk =>
      have htop : k ≠ s.cfg.topBit := ne_topBit_of_lt _ (by simp at hk; omega)
      rw [beq_eq_false_iff_ne.mpr htop.symm, Bool.false_and, Bool.or_false]
    · rfl
  case writeUie =>
    show t.mie.getLsbD k = if _ then _ else s.mie.getLsbD k
    rw [h.mie_of_uie, mergeBits_getLsbD, hvis]
  case writeUip =>
    obtain ⟨hsw, hmie⟩ := h.mipSw_of_uip
    refine ⟨hmie, fun k => ?_⟩
    rw [hsw, mergeBits_getLsbD, uipWritable_getLsbD]
    by_cases hk : k = 0
    · subst hk
      rw [hmask 0 (by decide)]; rfl
    · simp [hk]

/-- Settles O26: of the bits 3, 7 and 11 of `mip` none is software-writable, so each reads its signal. -/
theorem mipHardwareBits : Obligations.MipHardwareBits := by
  have hmachine : ∀ (c : Config), ∀ k ∈ [3, 7, 11], c.intMask.getLsbD k = true := by
    intro c k hk
    rw [intMask_getLsbD, List.contains_eq_mem, decide_eq_true hk, Bool.true_or, Bool.true_or]
  have hreadOnly : ∀ s : State, ∀ k ∈ [3, 7, 11], s.mipSw &&& s.cfg.mipWritable = s.mipSw →
      (s.readCsr .mip).getLsbD k = s.mipSignal k := by
    intro s k hk hsw
    have hzero : s.mipSw.getLsbD k = false := by
      rw [← hsw, BitVec.getLsbD_and, mipWritable_getLsbD]
      fin_cases hk <;> simp [supervisorInterruptBits]
    show s.mip.getLsbD k = _
    rw [mip_getLsbD, hzero, hmachine _ k hk, Bool.false_or, Bool.and_true]
  refine ⟨fun s hlegal => ⟨?mtip, ?msip, ?meip⟩, fun s t v hlegal h => ?writeMip, fun s t v h => ?writeMie⟩
  case mtip =>
    rw [hreadOnly s 7 (by decide) hlegal.mipSw]
    show decide (s.mtimecmp ≤ s.mtime) = true ↔ _
    rw [decide_eq_true_iff, BitVec.le_def]
  case msip => exact hreadOnly s 3 (by decide) hlegal.mipSw
  case meip => exact hreadOnly s 11 (by decide) hlegal.mipSw
  case writeMip =>
    obtain ⟨hsw, hcfg, hsignal⟩ := h.mipSw_of_mip
    have hkept : t.mipSw &&& t.cfg.mipWritable = t.mipSw := by rw [hsw, hcfg, BitVec.and_assoc, BitVec.and_self]
    have hwritten : ∀ k, supervisorInterruptBits.contains k = true → s.mipSignal k = false →
        (t.readCsr .mip).getLsbD k = (s.cfg.intMask.getLsbD k && v.getLsbD k) := by
      intro k hk hsig
      show t.mip.getLsbD k = _
      rw [mip_getLsbD, hsw, hcfg, hsignal, hsig, BitVec.getLsbD_and, mipWritable_getLsbD, hk]
      cases s.cfg.intMask.getLsbD k <;> simp
    refine ⟨fun k hk => ?_, fun k hk => ?_, fun k hk => ?_⟩
    · rw [hreadOnly t k hk hkept, hreadOnly s k hk hlegal.mipSw, hsignal]
    · fin_cases hk <;> (rw [hwritten _ (by decide) rfl, intMask_getLsbD]; simp)
    · fin_cases hk <;> (rw [hwritten _ (by decide) rfl, intMask_getLsbD]; simp)
  case writeMie =>
    have hbit : ∀ k, (t.readCsr .mie).getLsbD k = (v.getLsbD k && s.cfg.intMask.getLsbD k) := fun k => by
      show t.mie.getLsbD k = _
      rw [h.mie_of_mie, BitVec.getLsbD_and]
    refine ⟨fun k hk => ?_, fun k hk => ?_, fun k hk => ?_, fun k hk => ?_⟩
    · rw [hbit, hmachine _ k hk, Bool.and_true]
    · fin_cases hk <;> (rw [hbit, intMask_getLsbD]; simp [Bool.and_comm])
    · fin_cases hk <;> (rw [hbit, intMask_getLsbD]; simp [Bool.and_comm])
    · have hnone : k ∉ [3, 7, 11] ∧ k ∉ [1, 5, 9] ∧ k ∉ [0, 4, 8] := by simp; omega
      obtain ⟨hm, hs, hu⟩ := hnone
      simp only [hbit, intMask_getLsbD, List.contains_eq_mem, decide_eq_false hm, decide_eq_false hs,
        decide_eq_false hu, Bool.and_false, Bool.or_false]

/-! ## Sets and clears of the pending bits -/

theorem CsrOp.result_getLsbD {op : CsrOp} (hop : op ≠ .write) (old x : Word) {k : Nat} (hk : k < 64) :
    (op.result old x).getLsbD k =
      if op = .set then old.getLsbD k || x.getLsbD k else old.getLsbD k && !x.getLsbD k := by
  cases op with
  | write => exact absurd rfl hop
  | set => simp only [CsrOp.result, BitVec.getLsbD_or, if_true]
  | clear =>
    simp only [CsrOp.result, BitVec.getLsbD_and, BitVec.getLsbD_not, hk, decide_true, Bool.true_and, reduceCtorEq,
      if_false]

theorem trunc_getLsbD_of_lt (c : Config) (v : Word) {k : Nat} (hk : k < 32) :
    (c.trunc v).getLsbD k = v.getLsbD k := by
  have := c.xlen.bits_ge
  rw [Config.trunc_getLsbD, decide_eq_true (by omega), Bool.true_and]

/-- A CSR instruction whose access is permitted, whose read has no side effect and whose write raises nothing
completes: the pending bits are those of the write, and `rd` takes the old value (R230 to R235). -/
theorem exec_completes {s w : State} {i : Instr} {f : CsrForm} {r : Csr} (hf : csrForm i = some f)
    (hacc : s.csrAccess f.csr (f.op.writes f.src) = some r) (hwr : f.op.writes f.src = true)
    (hr : s.afterRead r = s)
    (hw : s.writeCsr r (f.op.result (s.rmwValue r) (s.sourceValue f.src)) = some w) :
    ∃ t, exec i s = .next t ∧ t.mipSw = w.mipSw ∧ (f.rd ≠ 0 → t.readReg f.rd = s.cfg.trunc (s.readCsr r)) := by
  have hupd : s.csrUpdate f.op f.rd r f.src = some w := by
    simp only [State.csrUpdate, hr, ite_self, if_pos hwr, hw]
  have hexec : s.csrInstr i f.op f.rd f.csr f.src = s.csrComplete w f.op f.rd r f.src := by
    simp only [State.csrInstr, hacc, hupd]
  have hframe := State.writeCsr_frame hw
  refine ⟨s.csrComplete w f.op f.rd r f.src, by rw [exec_csrForm hf, hexec], ?_, fun hrd => ?_⟩
  · obtain ⟨regs, he⟩ := s.csrComplete_eq w f.op f.rd r f.src
    rw [he]
  · rw [State.csrComplete_readReg _ _ _ _ _ hframe.cfg hframe.regs, if_neg hrd, if_pos rfl]

/-- M-mode may access `mip` (R221 to R228). -/
theorem csrAccess_mip {s : State} (hs : s.priv = .machine) (b : Bool) : s.csrAccess 0x344 b = some .mip := by
  have hat : standardCsrAt 0x344 = some .mip := by decide
  refine State.csrAccess_some.mpr ⟨?_, fun _ => by decide, by decide, ?_, ?_⟩
  · rw [State.mayAccess, hs]; decide
  · simp [State.gated, State.intercepted, State.counterGate, State.tvmGate, State.fsGate, isUserCounter, hs]
  · rw [csrAt, hat]; rfl

/-- The two pending bits that software and the interrupt controller share: `SEIP` at 9 and `UEIP` at 8 (R102). -/
theorem intMask_external (c : Config) {k : Nat} (hk : k ∈ [8, 9]) :
    c.intMask.getLsbD k = if k = 9 then c.hasS else c.n := by
  rw [intMask_getLsbD]
  fin_cases hk <;> simp

section
variable {s : State} {k : Nat} (hk : k ∈ [8, 9])
include hk

/-- The old value of a set or clear of `mip` has the software bits alone at `SEIP` and `UEIP` (R102). -/
theorem mipRmw_external : s.mipRmw.getLsbD k = (s.mipSw.getLsbD k && s.cfg.intMask.getLsbD k) := by
  rw [mipRmw_getLsbD]
  fin_cases hk <;> simp

theorem external_lt : k < 32 := by fin_cases hk <;> decide

/-- What a set or clear makes of these bits, under a mask that the old value is under. -/
theorem CsrOp.result_masked {op : CsrOp} (hop : op ≠ .write) {old : Word} (x : Word) {a m : Bool}
    (hold : old.getLsbD k = (a && m)) :
    (m && (op.result old x).getLsbD k) = (m && if op = .set then a || x.getLsbD k else a && !x.getLsbD k) := by
  have := external_lt hk
  rw [CsrOp.result_getLsbD hop _ _ (by omega), hold]
  cases m <;> simp

theorem injectable_mip (s : State) : injectable s .mip k = s.cfg.intMask.getLsbD k := by
  rw [intMask_external _ hk]
  rfl

theorem injectable_sip (s : State) : injectable s .sip k = (k == 8 && seenBySupervisor s k && s.cfg.n) := by
  have hne : (Csr.sip == Csr.mip) = false := rfl
  fin_cases hk <;> simp [injectable, hne]

end

section
variable {s : State} {i : Instr} {f : CsrForm} (hf : csrForm i = some f) (hwr : f.op.writes f.src = true)
include hf hwr

/-- A write, set or clear of `mip` leaves the software bits of the modes that exist as it makes them (R101, R102). -/
theorem exec_mip (hacc : s.csrAccess f.csr (f.op.writes f.src) = some .mip) :
    ∃ t, exec i s = .next t ∧ (f.rd ≠ 0 → t.readReg f.rd = s.cfg.trunc (s.readCsr .mip))
      ∧ ∀ k ∈ [8, 9], t.mipSw.getLsbD k =
          (s.cfg.intMask.getLsbD k && (f.op.result s.mipRmw (s.sourceValue f.src)).getLsbD k) := by
  obtain ⟨t, ht, hsw, hrd⟩ := exec_completes hf hacc hwr rfl rfl
  refine ⟨t, ht, hrd, fun k hk => ?_⟩
  have hshown : supervisorInterruptBits.contains k = true := by fin_cases hk <;> decide
  rw [hsw, BitVec.getLsbD_and, trunc_getLsbD_of_lt _ _ (external_lt hk), mipWritable_getLsbD, hshown, Bool.true_and,
    Bool.and_comm]
  rfl

/-- Through `sip` software writes `UEIP` alone of the two, where S-mode sees it (R114). -/
theorem exec_sip (hacc : s.csrAccess f.csr (f.op.writes f.src) = some .sip) :
    ∃ t, exec i s = .next t ∧ (f.rd ≠ 0 → t.readReg f.rd = s.cfg.trunc (s.readCsr .sip))
      ∧ ∀ k ∈ [8, 9], t.mipSw.getLsbD k =
          if injectable s .sip k then (f.op.result (s.mipRmw &&& s.sVisible) (s.sourceValue f.src)).getLsbD k
          else s.mipSw.getLsbD k := by
  obtain ⟨t, ht, hsw, hrd⟩ := exec_completes hf hacc hwr rfl rfl
  refine ⟨t, ht, hrd, fun k hk => ?_⟩
  have hmask : (s.cfg.sipWritable s.deleg.mideleg).getLsbD k = injectable s .sip k := by
    rw [sipWritable_getLsbD, intMask_external _ hk, injectable_sip hk]
    fin_cases hk <;> simp
  rw [hsw, mergeBits_getLsbD, trunc_getLsbD_of_lt _ _ (external_lt hk), hmask]
  rfl

/-- Through `uip` software writes neither (log entry 9). -/
theorem exec_uip (hacc : s.csrAccess f.csr (f.op.writes f.src) = some .uip) :
    ∃ t, exec i s = .next t ∧ (f.rd ≠ 0 → t.readReg f.rd = s.cfg.trunc (s.readCsr .uip))
      ∧ ∀ k ∈ [8, 9], t.mipSw.getLsbD k = s.mipSw.getLsbD k := by
  obtain ⟨t, ht, hsw, hrd⟩ := exec_completes hf hacc hwr rfl rfl
  refine ⟨t, ht, hrd, fun k hk => ?_⟩
  have hmask : s.cfg.uipWritable.getLsbD k = false := by
    rw [uipWritable_getLsbD]
    fin_cases hk <;> rfl
  rw [hsw, mergeBits_getLsbD, hmask, if_neg Bool.false_ne_true]

end

/-- Settles O25: the statement of `mip` in M-mode, and that of each register wherever its access is permitted. -/
theorem mipSoftwareInjection : Obligations.MipSoftwareInjection := by
  have hS : ∀ c : Config, c.intMask.getLsbD 9 = c.hasS := fun c => intMask_external c (by decide)
  have hN : ∀ c : Config, c.intMask.getLsbD 8 = c.n := fun c => intMask_external c (by decide)
  refine ⟨fun s hs => ⟨?read9, ?read8, fun rd rs1 => ?csrrw, fun rd rs1 hrs1 => ⟨?csrrs, ?csrrc⟩⟩, ?modify⟩
  case read9 => exact (mip_getLsbD s 9).trans (by rw [hS, Bool.and_comm]; rfl)
  case read8 => exact (mip_getLsbD s 8).trans (by rw [hN, Bool.and_comm]; rfl)
  case csrrw =>
    obtain ⟨t, ht, hrd, hbit⟩ := exec_mip (i := .csrrw rd 0x344 rs1) rfl rfl (csrAccess_mip hs _)
    exact ⟨t, ht, hS s.cfg ▸ hbit 9 (by decide), hN s.cfg ▸ hbit 8 (by decide), hrd⟩
  case csrrs =>
    have hwr : CsrOp.set.writes (.reg rs1) = true := by simp [CsrOp.writes, CsrSource.isZero, hrs1]
    obtain ⟨t, ht, hrd, hbit⟩ := exec_mip (i := .csrrs rd 0x344 rs1) rfl hwr (csrAccess_mip hs _)
    have hset : ∀ k ∈ [8, 9], t.mipSw.getLsbD k =
        (s.cfg.intMask.getLsbD k && (s.mipSw.getLsbD k || (s.readReg rs1).getLsbD k)) := fun k hk =>
      (hbit k hk).trans (CsrOp.result_masked hk (op := .set) (by decide) _ (mipRmw_external hk))
    exact ⟨t, ht, hS s.cfg ▸ hset 9 (by decide), hN s.cfg ▸ hset 8 (by decide), hrd⟩
  case csrrc =>
    have hwr : CsrOp.clear.writes (.reg rs1) = true := by simp [CsrOp.writes, CsrSource.isZero, hrs1]
    obtain ⟨t, ht, hrd, hbit⟩ := exec_mip (i := .csrrc rd 0x344 rs1) rfl hwr (csrAccess_mip hs _)
    have hclear : ∀ k ∈ [8, 9], t.mipSw.getLsbD k =
        (s.cfg.intMask.getLsbD k && (s.mipSw.getLsbD k && !(s.readReg rs1).getLsbD k)) := fun k hk =>
      (hbit k hk).trans (CsrOp.result_masked hk (op := .clear) (by decide) _ (mipRmw_external hk))
    exact ⟨t, ht, hS s.cfg ▸ hclear 9 (by decide), hN s.cfg ▸ hclear 8 (by decide), hrd⟩
  case modify =>
    intro s i f r hlegal hf hr hints hallow hop hwr
    have hacc := hallow.access hr
    rcases hints with rfl | rfl | rfl
    · obtain ⟨t, ht, hrd, hbit⟩ := exec_mip hf hwr hacc
      refine ⟨t, ht, hrd, fun k hk => ?_⟩
      have hsw := hlegal.mipSw_getLsbD k
      rw [hbit k hk, CsrOp.result_masked hk hop _ (mipRmw_external hk), injectable_mip hk]
      cases hm : s.cfg.intMask.getLsbD k
      · rw [hm, Bool.and_false, Bool.and_false] at hsw
        rw [hsw]; rfl
      · rw [Bool.true_and, if_pos rfl]
    · obtain ⟨t, ht, hrd, hbit⟩ := exec_sip hf hwr hacc
      refine ⟨t, ht, hrd, fun k hk => ?_⟩
      rw [hbit k hk]
      split
      · next hinj =>
        have hm : (s.cfg.intMask.getLsbD k && s.sVisible.getLsbD k) = true := by
          rw [injectable_sip hk] at hinj
          rw [sVisible_getLsbD, intMask_external _ hk]
          fin_cases hk <;> simp_all
        have hold : (s.mipRmw &&& s.sVisible).getLsbD k =
            (s.mipSw.getLsbD k && (s.cfg.intMask.getLsbD k && s.sVisible.getLsbD k)) := by
          rw [BitVec.getLsbD_and, mipRmw_external hk, Bool.and_assoc]
        simpa [hm] using CsrOp.result_masked hk hop (s.sourceValue f.src) hold
      · rfl
    · obtain ⟨t, ht, hrd, hbit⟩ := exec_uip hf hwr hacc
      exact ⟨t, ht, hrd, fun k hk => (hbit k hk).trans rfl⟩

/-! ## Halves of a counter -/

/-- A write of the low half of a counter: bits 31:0 on RV32, all of them on RV64 (R104). -/
theorem setCounterLow_getLsbD (c : Config) (old v : Word) (k : Nat) :
    (setCounterLow c old v).getLsbD k = if k < c.xlen.bits then v.getLsbD k else old.getLsbD k := by
  have hmask : (0xFFFFFFFF : Word) = lowMask 32 := rfl
  unfold setCounterLow
  cases c.xlen with
  | rv32 =>
    show (mergeBits 0xFFFFFFFF old v).getLsbD k = if k < 32 then v.getLsbD k else old.getLsbD k
    rw [hmask, mergeBits_getLsbD, lowMask_getLsbD]
    simp only [decide_eq_true_eq]
    exact if_congr ⟨And.left, fun h => ⟨h, by omega⟩⟩ rfl rfl
  | rv64 =>
    show v.getLsbD k = if k < 64 then v.getLsbD k else old.getLsbD k
    split
    · rfl
    · next hk => rw [BitVec.getLsbD_of_ge v k (Nat.le_of_not_lt hk), BitVec.getLsbD_of_ge old k (Nat.le_of_not_lt hk)]

/-- A write of the high half of a counter: bits 63:32 (R104). -/
theorem setCounterHigh_getLsbD (old v : Word) (k : Nat) :
    (setCounterHigh old v).getLsbD k = if k < 32 then old.getLsbD k else decide (k < 64) && v.getLsbD (k - 32) := by
  have hmask : ∀ k, (0xFFFFFFFF00000000 : Word).getLsbD k = decide (32 ≤ k ∧ k < 64) := by
    intro k
    have h : (0xFFFFFFFF00000000 : Word) = clearLow 32 (lowMask 64) := by decide
    rw [h, clearLow_getLsbD, lowMask_getLsbD]
    by_cases h1 : k < 64 <;> simp [h1]
  rw [setCounterHigh, mergeBits_getLsbD, hmask, BitVec.getLsbD_shiftLeft]
  by_cases hlow : k < 32
  · simp [hlow]
  · by_cases hk : k < 64
    · simp [hlow, hk, Nat.le_of_not_lt hlow]
    · simp [hlow, hk, BitVec.getLsbD_of_ge old k (Nat.le_of_not_lt hk)]

theorem counterHigh_getLsbD (v : Word) (k : Nat) : (counterHigh v).getLsbD k = v.getLsbD (32 + k) :=
  BitVec.getLsbD_ushiftRight ..

section
variable {c : Config} {v : Word} (hv : c.trunc v = v)
include hv

theorem counterLow_setCounterLow (old : Word) : counterLow c (setCounterLow c old v) = v := by
  apply Word.ext; intro k
  rw [counterLow, ← hv, Config.trunc_getLsbD, setCounterLow_getLsbD, Config.trunc_getLsbD]
  by_cases hk : k < c.xlen.bits <;> simp [hk]

variable (hx : c.xlen = .rv32)
include hx

theorem counterHigh_setCounterHigh (old : Word) : counterHigh (setCounterHigh old v) = v := by
  apply Word.ext; intro k
  rw [counterHigh_getLsbD, setCounterHigh_getLsbD, ← hv, Config.trunc_getLsbD, Config.trunc_getLsbD, hx]
  have hhigh : ¬ 32 + k < 32 := by omega
  by_cases hk : k < 32
  · have hlt : 32 + k < 64 := by omega
    simp [hhigh, hk, hlt, XLen.bits]
  · simp [hhigh, hk, XLen.bits]

omit hv

theorem counterHigh_setCounterLow (old : Word) : counterHigh (setCounterLow c old v) = counterHigh old := by
  apply Word.ext; intro k
  rw [counterHigh_getLsbD, counterHigh_getLsbD, setCounterLow_getLsbD, hx, if_neg (by simp [XLen.bits])]

theorem counterLow_setCounterHigh (old : Word) : counterLow c (setCounterHigh old v) = counterLow c old := by
  apply Word.ext; intro k
  rw [counterLow, counterLow, Config.trunc_getLsbD, Config.trunc_getLsbD, setCounterHigh_getLsbD, hx]
  by_cases hk : k < 32 <;> simp [hk, XLen.bits]

end

/-- The halves of a counter under a mask (R104). -/
theorem counterHigh_and (v m : Word) : counterHigh (v &&& m) = counterHigh v &&& counterHigh m :=
  BitVec.ushiftRight_and_distrib ..

theorem counterLow_and (c : Config) (v m : Word) : counterLow c (v &&& m) = counterLow c v &&& m :=
  c.trunc_and v m

/-! ## Writes of the counters -/

section
variable {s t : State} {v : Word}

theorem CsrWritten.readCsr_minstret (h : CsrWritten s t .minstret v) :
    t.readCsr .minstret = v ∧ (s.cfg.xlen = .rv32 → t.readCsr .minstreth = s.readCsr .minstreth) := by
  refine ⟨(h.reads rfl rfl rfl).trans ?_, fun hx => (h.reads rfl rfl rfl).trans ?_⟩
  · exact (counterLow_setCounterLow (s.cfg.trunc_trunc v) _).trans h.trunc_eq
  · exact counterHigh_setCounterLow hx _

theorem CsrWritten.readCsr_minstreth (h : CsrWritten s t .minstreth v) :
    t.readCsr .minstreth = v ∧ t.readCsr .minstret = s.readCsr .minstret := by
  have hx : s.cfg.xlen = .rv32 := by simpa [Csr.implemented, isRv32] using h.inv.2.1
  refine ⟨(h.reads rfl rfl rfl).trans ?_, (h.reads rfl rfl rfl).trans ?_⟩
  · exact (counterHigh_setCounterHigh (s.cfg.trunc_trunc v) hx _).trans h.trunc_eq
  · exact counterLow_setCounterHigh hx _

theorem CsrWritten.readCsr_mcycle (h : CsrWritten s t .mcycle v) :
    t.readCsr .mcycle = v ∧ (s.cfg.xlen = .rv32 → t.readCsr .mcycleh = s.readCsr .mcycleh) := by
  refine ⟨(h.reads rfl rfl rfl).trans ?_, fun hx => (h.reads rfl rfl rfl).trans ?_⟩
  · exact (counterLow_setCounterLow (s.cfg.trunc_trunc v) _).trans h.trunc_eq
  · exact counterHigh_setCounterLow hx _

theorem CsrWritten.readCsr_mcycleh (h : CsrWritten s t .mcycleh v) :
    t.readCsr .mcycleh = v ∧ t.readCsr .mcycle = s.readCsr .mcycle := by
  have hx : s.cfg.xlen = .rv32 := by simpa [Csr.implemented, isRv32] using h.inv.2.1
  refine ⟨(h.reads rfl rfl rfl).trans ?_, (h.reads rfl rfl rfl).trans ?_⟩
  · exact (counterHigh_setCounterHigh (s.cfg.trunc_trunc v) hx _).trans h.trunc_eq
  · exact counterLow_setCounterHigh hx _

/-- What is in an event counter that exists, after it takes a value (R104). -/
theorem hpmCounterValue_writeHpmCounter {n : Fin 29} (hn : s.cfg.hpmExists (n.val + 3) = true) (x : Word) :
    (s.writeHpmCounter n x).hpmCounterValue n = x &&& s.cfg.hpmCounterBits n := by
  simp [State.writeHpmCounter, State.hpmCounterValue, hn, BitVec.and_assoc]

theorem writeHpmCounter_cfg (n : Fin 29) (x : Word) : (s.writeHpmCounter n x).cfg = s.cfg := by
  unfold State.writeHpmCounter; split <;> rfl

theorem hpmCounterValue_and (s : State) (n : Fin 29) :
    s.hpmCounterValue n &&& s.cfg.hpmCounterBits n = s.hpmCounterValue n := by
  unfold State.hpmCounterValue
  split
  · rw [BitVec.and_assoc, BitVec.and_self]
  · exact BitVec.zero_and

theorem CsrWritten.readCsr_mhpmcounter {n : Fin 29} (hn : s.cfg.hpmExists (n.val + 3) = true)
    (h : CsrWritten s t (.mhpmcounter n) v) :
    t.readCsr (.mhpmcounter n) = v &&& s.cfg.hpmCounterBits n
      ∧ (s.cfg.xlen = .rv32 → t.readCsr (.mhpmcounterh n) = s.readCsr (.mhpmcounterh n)) := by
  refine ⟨(h.reads rfl rfl rfl).trans ?_, fun hx => (h.reads rfl rfl rfl).trans ?_⟩
  · rw [State.readCsr, hpmCounterValue_writeHpmCounter hn, writeHpmCounter_cfg, h.trunc_eq, counterLow_and,
      counterLow_setCounterLow h.trunc_eq]
  · rw [State.readCsr, hpmCounterValue_writeHpmCounter hn, counterHigh_and, counterHigh_setCounterLow hx,
      ← counterHigh_and, hpmCounterValue_and]
    rfl

theorem CsrWritten.readCsr_mhpmcounterh {n : Fin 29} (hn : s.cfg.hpmExists (n.val + 3) = true)
    (h : CsrWritten s t (.mhpmcounterh n) v) :
    t.readCsr (.mhpmcounterh n) = v &&& (s.cfg.hpmCounterBits n >>> 32)
      ∧ t.readCsr (.mhpmcounter n) = s.readCsr (.mhpmcounter n) := by
  have hx : s.cfg.xlen = .rv32 := by simpa [Csr.implemented, isRv32] using h.inv.2.1
  refine ⟨(h.reads rfl rfl rfl).trans ?_, (h.reads rfl rfl rfl).trans ?_⟩
  · rw [State.readCsr, hpmCounterValue_writeHpmCounter hn, h.trunc_eq, counterHigh_and,
      counterHigh_setCounterHigh h.trunc_eq hx]
    rfl
  · rw [State.readCsr, hpmCounterValue_writeHpmCounter hn, writeHpmCounter_cfg, counterLow_and,
      counterLow_setCounterHigh hx, ← counterLow_and, hpmCounterValue_and]
    rfl

theorem CsrWritten.readCsr_mhpmevent {n : Fin 29} (hn : s.cfg.hpmExists (n.val + 3) = true)
    (h : CsrWritten s t (.mhpmevent n) v) : t.readCsr (.mhpmevent n) = s.cfg.legalize (.hpmevent n) v := by
  have hkept : s.cfg.trunc (s.cfg.legalize (.hpmevent n) v) = s.cfg.legalize (.hpmevent n) v :=
    s.cfg.warlForm_legalize (.hpmevent n) v
  refine (h.reads rfl (by simp only [State.writeCsr, hn, if_true]; rfl) rfl).trans ?_
  simp [State.readCsr, hn, h.trunc_eq, hkept]

/-! ## Counter enables -/

/-- A word with bits of a 32-bit mask alone is its low half. -/
theorem zeroExtend_extractLsb'_of_and {w : Word} {m : BitVec 32} (h : w &&& m.zeroExtend 64 = w) :
    (w.extractLsb' 0 32).zeroExtend 64 = w := by
  apply Word.ext; intro i
  rw [← h]
  by_cases hi : i < 32
  · have hlt : i < 64 := by omega
    simp [hi, hlt]
  · simp [hi, BitVec.getLsbD_of_ge m i (Nat.le_of_not_lt hi)]

theorem zeroExtend_extractLsb'_and (w : Word) (m : BitVec 32) :
    (w.extractLsb' 0 32).zeroExtend 64 &&& m.zeroExtend 64 = w &&& m.zeroExtend 64 := by
  apply Word.ext; intro i
  by_cases hi : i < 32
  · have hlt : i < 64 := by omega
    simp [hi, hlt]
  · simp [hi, BitVec.getLsbD_of_ge m i (Nat.le_of_not_lt hi)]

/-- What a counter enable holds after a write of `v`, read as a word: a value that writing it again keeps, with no
bit that is hard-wired 0, and all others as written where the parameters make no exception (R76, R106). -/
theorem legalEnable_read {c : Config} {f : WarlField} {m : BitVec 32} (hf : ∀ a, c.warlForm f a = a &&& m.zeroExtend 64)
    (v : Word) :
    (c.legalEnable f (v.extractLsb' 0 32)).zeroExtend 64 &&& m.zeroExtend 64
        = (c.legalEnable f (v.extractLsb' 0 32)).zeroExtend 64
      ∧ (c.legalEnable f (((c.legalEnable f (v.extractLsb' 0 32)).zeroExtend 64).extractLsb' 0 32)).zeroExtend 64
        = (c.legalEnable f (v.extractLsb' 0 32)).zeroExtend 64
      ∧ (Unexcepted c f → (c.legalEnable f (v.extractLsb' 0 32)).zeroExtend 64 = v &&& m.zeroExtend 64) := by
  have hmask : ∀ a, c.legalize f a &&& m.zeroExtend 64 = c.legalize f a := fun a => by
    rw [← hf, c.warlForm_legalize]
  have hlow : ∀ a, ((c.legalize f a).extractLsb' 0 32).zeroExtend 64 = c.legalize f a := fun a =>
    zeroExtend_extractLsb'_of_and (hmask a)
  simp only [Config.legalEnable, hlow, hmask, c.legalize_legalize, true_and]
  intro hnone
  rw [Config.legalize_of_unexcepted hnone, hf, zeroExtend_extractLsb'_and]

theorem CsrWritten.readCsr_mcounteren (h : CsrWritten s t .mcounteren v) :
    t.readCsr .mcounteren = (s.cfg.legalEnable .mcounteren (v.extractLsb' 0 32)).zeroExtend 64 :=
  (h.reads rfl rfl rfl).trans (by simp only [State.readCsr, h.trunc_eq])

theorem CsrWritten.readCsr_scounteren (h : CsrWritten s t .scounteren v) :
    t.readCsr .scounteren = (s.cfg.legalEnable .scounteren (v.extractLsb' 0 32)).zeroExtend 64 :=
  (h.reads rfl rfl rfl).trans (by simp only [State.readCsr, h.trunc_eq])

end

/-- Settles O27: a half written reads back and leaves the other, under the mask of an event counter; selectors and
enables keep what they take (`Config.legalize_legalize`). -/
theorem countersHoldWhatIsWritten : Obligations.CountersHoldWhatIsWritten := by
  refine ⟨fun s t v => ?fixed, fun s t v n hn => ?events, fun s t v => ?enables⟩
  case fixed =>
    exact ⟨CsrWritten.readCsr_minstret, CsrWritten.readCsr_minstreth, CsrWritten.readCsr_mcycle,
      CsrWritten.readCsr_mcycleh⟩
  case events =>
    refine ⟨CsrWritten.readCsr_mhpmcounter hn, CsrWritten.readCsr_mhpmcounterh hn, fun h => ?_⟩
    rw [h.readCsr_mhpmevent hn]
    refine ⟨fun u w hw hcfg => ?_, fun hnone => ?_⟩
    · rw [hw.readCsr_mhpmevent (hcfg ▸ hn), hcfg, Config.legalize_legalize]
    · rw [Config.legalize_of_unexcepted hnone]
      exact h.trunc_eq
  case enables =>
    constructor <;> intro h
    · obtain ⟨hmask, hkept, hall⟩ := legalEnable_read (c := s.cfg) (f := .mcounteren) (fun _ => rfl) v
      rw [h.readCsr_mcounteren]
      exact ⟨hmask, fun u w hw hcfg => by rw [hw.readCsr_mcounteren, hcfg, hkept], hall⟩
    · obtain ⟨hmask, hkept, hall⟩ := legalEnable_read (c := s.cfg) (f := .scounteren) (fun _ => rfl) v
      rw [h.readCsr_scounteren]
      exact ⟨hmask, fun u w hw hcfg => by rw [hw.readCsr_scounteren, hcfg, hkept], hall⟩

/-! ## Floating-point state -/

theorem afterRead_fcsr (s : State) (r : Csr) : (s.afterRead r).fcsr = s.fcsr := by
  rcases s.afterRead_cases r with ⟨-, e⟩ | ⟨-, -, -, e⟩ | e <;> rw [e]

/-- A write that makes `fcsr` take `b`: the state after it holds `b`, and `FS` is Dirty if that is a change (R97). -/
theorem CsrWritten.fcsr_eq {s t : State} {r : Csr} {v : Word} {b : Byte} (h : CsrWritten s t r v)
    (hw : ∀ u : State, u.cfg = s.cfg → u.fcsr = s.fcsr → u.writeCsr r v = some (u.writeFcsr b)) :
    t.fcsr = b ∧ (b ≠ s.fcsr → t.mstatus.fs = 3) := by
  obtain ⟨-, -, u, w, hu, hcfg, hwrite, -, -, regs, rfl⟩ := h.inv
  have hf : u.fcsr = s.fcsr := by
    rcases hu with rfl | rfl
    · rfl
    · exact afterRead_fcsr s r
  obtain rfl := Option.some.inj ((hw u hcfg hf).symm.trans hwrite)
  refine ⟨rfl, fun hne => ?_⟩
  have hdirty : (u.cfg.fsDirty != .onChange || b != u.fcsr) = true := by rw [hf]; simp [hne]
  simp [State.writeFcsr, Mstatus.dirtyFs, hdirty]

/-- The fields of `fcsr` as a word (R123). -/
theorem fcsr_fields (b : Byte) :
    (b &&& 0x1F).zeroExtend 64 = b.zeroExtend 64 &&& (0x1F : Word)
      ∧ (b >>> 5).zeroExtend 64 = (b.zeroExtend 64 >>> 5) &&& (0x7 : Word)
      ∧ b.zeroExtend 64 &&& (0xFF : Word) = b.zeroExtend 64 := by
  revert b; decide

section
variable {s t : State} {v : Word}

theorem CsrWritten.fcsr_of_fflags (h : CsrWritten s t .fflags v) :
    t.fcsr = (s.fcsr &&& 0xE0) ||| (v.extractLsb' 0 8 &&& 0x1F) ∧ (t.fcsr ≠ s.fcsr → t.mstatus.fs = 3) := by
  obtain ⟨hf, hfs⟩ := h.fcsr_eq fun u hcfg hf => by rw [State.writeCsr, hcfg, h.trunc_eq, hf]
  exact ⟨hf, hf ▸ hfs⟩

theorem CsrWritten.fcsr_of_frm (h : CsrWritten s t .frm v) :
    t.fcsr = (s.fcsr &&& 0x1F) ||| (v.extractLsb' 0 8 <<< 5) ∧ (t.fcsr ≠ s.fcsr → t.mstatus.fs = 3) := by
  obtain ⟨hf, hfs⟩ := h.fcsr_eq fun u hcfg hf => by rw [State.writeCsr, hcfg, h.trunc_eq, hf]
  exact ⟨hf, hf ▸ hfs⟩

theorem CsrWritten.fcsr_of_fcsr (h : CsrWritten s t .fcsr v) :
    t.fcsr = v.extractLsb' 0 8 ∧ (t.fcsr ≠ s.fcsr → t.mstatus.fs = 3) := by
  obtain ⟨hf, hfs⟩ := h.fcsr_eq fun u hcfg hf => by rw [State.writeCsr, hcfg, h.trunc_eq]
  exact ⟨hf, hf ▸ hfs⟩

end

/-- The low byte of a word written. -/
theorem zeroExtend_low_byte (v : Word) : (v.extractLsb' 0 8).zeroExtend 64 = v &&& 0xFF := by
  apply Word.ext; intro i
  have hmask : (0xFF : Word) = lowMask 8 := rfl
  rw [BitVec.getLsbD_and, hmask, lowMask_getLsbD]
  by_cases hi : i < 8
  · have hlt : i < 64 := by omega
    simp [hi, hlt]
  · simp [hi]

theorem zeroExtend_low_five (v : Word) : (v.extractLsb' 0 8 &&& 0x1F).zeroExtend 64 = v &&& 0x1F := by
  rw [(fcsr_fields _).1, zeroExtend_low_byte, BitVec.and_assoc]
  rfl

/-- The parts of `fcsr` after a write of `fflags` (R123). -/
theorem fields_of_fflags (f x : Byte) :
    ((f &&& 0xE0) ||| (x &&& 0x1F)) &&& 0x1F = x &&& 0x1F
      ∧ ((f &&& 0xE0) ||| (x &&& 0x1F)) >>> 5 = f >>> 5 := by
  have hkept : ∀ f : Byte, (f &&& 0xE0) &&& 0x1F = 0 ∧ (f &&& 0xE0) >>> 5 = f >>> 5 := by decide
  have hnew : ∀ x : Byte, (x &&& 0x1F) &&& 0x1F = x &&& 0x1F ∧ (x &&& 0x1F) >>> 5 = 0 := by decide
  rw [BitVec.and_or_distrib_right, BitVec.ushiftRight_or_distrib, (hkept f).1, (hkept f).2, (hnew x).1, (hnew x).2]
  exact ⟨BitVec.zero_or, BitVec.or_zero⟩

/-- The parts of `fcsr` after a write of `frm` (R123). -/
theorem fields_of_frm {f x b : Byte} (hb : b = (f &&& 0x1F) ||| (x <<< 5)) :
    (b >>> 5).zeroExtend 64 = x.zeroExtend 64 &&& (0x7 : Word) ∧ b &&& 0x1F = f &&& 0x1F := by
  have hkept : ∀ f : Byte, (f &&& 0x1F) >>> 5 = 0 ∧ (f &&& 0x1F) &&& 0x1F = f &&& 0x1F := by decide
  have hnew : ∀ x : Byte, ((x <<< 5) >>> 5).zeroExtend 64 = x.zeroExtend 64 &&& (0x7 : Word)
      ∧ (x <<< 5) &&& 0x1F = 0 := by decide
  have hb : b = (f &&& (0x1F : Byte)) ||| (x <<< 5) := hb
  have hshift : b >>> 5 = (x <<< 5) >>> 5 := by
    rw [hb, BitVec.ushiftRight_or_distrib, (hkept f).1]
    exact BitVec.zero_or
  have hlow : b &&& 0x1F = f &&& 0x1F := by
    rw [hb, BitVec.and_or_distrib_right, (hkept f).2, (hnew x).2]
    exact BitVec.or_zero
  exact ⟨hshift ▸ (hnew x).1, hlow⟩

/-- Settles O29: each register reads a part of the byte `fcsr`, and a write that changes the byte makes `FS` Dirty under
every policy (`CsrWritten.fcsr_eq`). -/
theorem floatingPointCsrs : Obligations.FloatingPointCsrs := by
  refine ⟨fun s => fcsr_fields s.fcsr, fun s t v => ⟨fun h => ?_, fun h => ?_, fun h => ?_, fun r hr h hne => ?_⟩⟩
  · obtain ⟨hf, -⟩ := h.fcsr_of_fflags
    obtain ⟨hflags, hrm⟩ := fields_of_fflags s.fcsr (v.extractLsb' 0 8)
    simp only [State.readCsr, hf, hflags, hrm, zeroExtend_low_five, and_self]
  · obtain ⟨hf, -⟩ := h.fcsr_of_frm
    obtain ⟨hrm, hflags⟩ := fields_of_frm hf
    simp only [State.readCsr, hflags, hrm, zeroExtend_low_byte, BitVec.and_assoc]
    exact ⟨rfl, trivial⟩
  · obtain ⟨hf, -⟩ := h.fcsr_of_fcsr
    obtain ⟨-, hrm, -⟩ := fcsr_fields (v.extractLsb' 0 8)
    rw [zeroExtend_low_byte, BitVec.ushiftRight_and_distrib, BitVec.and_assoc] at hrm
    simp only [State.readCsr, hf, zeroExtend_low_byte, zeroExtend_low_five, hrm]
    exact ⟨trivial, trivial, rfl⟩
  · have hchange : t.fcsr ≠ s.fcsr := fun e => hne (by simp only [State.readCsr, e])
    have hdirty : t.mstatus.fs = 3 := by
      fin_cases hr
      · exact h.fcsr_of_fflags.2 hchange
      · exact h.fcsr_of_frm.2 hchange
      · exact h.fcsr_of_fcsr.2 hchange
    exact (Mstatus.toWord_fs t.cfg t.mstatus).trans hdirty

/-! ## `misa` and the registers that ignore writes -/

/-- The bit of `misa` that a nonzero `MXL` sets: 1 in bits 31:30 on RV32, 2 in bits 63:62 on RV64 (R81). -/
def mxlBit (c : Config) : Nat :=
  match c.xlen with
  | .rv32 => 30
  | .rv64 => 63

/-- The letters of `misa` that no other parameter fixes (R82). -/
def openLetters : List Nat := [0, 1, 3, 6, 9, 11, 12, 15, 16, 19, 21, 23]

/-- The letters F, I, N, S, U, with what the parameters say of each (R82). -/
def fixedLetters (c : Config) : List (Nat × Bool) :=
  [(5, c.hasF), (8, true), (13, c.n), (18, c.hasS), (20, c.hasU)]

theorem mxlBit_eq (c : Config) : mxlBit c = 30 ∨ mxlBit c = 63 := by
  unfold mxlBit; cases c.xlen <;> simp

/-- Every bit of an implemented `misa`: `MXL`, the implementation's letters, the letters of the parameters. -/
theorem misa_getLsbD {c : Config} (hm : c.misaImplemented = true) {k : Nat} (hk : k < 64) :
    c.misa.getLsbD k =
      (k == mxlBit c
        || (openLetters.contains k && c.misaLetters.getLsbD k)
        || (fixedLetters c).any fun p => p.1 == k && p.2) := by
  have hletters : ((c.misaLetters &&& 0xA99A4B).zeroExtend 64).getLsbD k =
      (openLetters.contains k && c.misaLetters.getLsbD k) := by
    rw [BitVec.zeroExtend_eq_setWidth, BitVec.getLsbD_setWidth, BitVec.getLsbD_and, decide_eq_true hk,
      getLsbD_eq_contains (w := (0xA99A4B : BitVec 26)) (l := openLetters) (by decide)
        (by decide), Bool.true_and, Bool.and_comm]
  rw [Config.misa, if_pos hm, BitVec.getLsbD_or, BitVec.getLsbD_or, hletters, wordOfBits_getLsbD,
    decide_eq_true hk, Bool.true_and]
  congr 2
  unfold mxlBit
  cases c.xlen with
  | rv32 =>
    exact (getLsbD_eq_contains (w := (0x40000000 : Word)) (l := [30]) (by decide) (by decide) k).trans
      (by simp [beq_eq_decide])
  | rv64 =>
    exact (getLsbD_eq_contains (w := (0x8000000000000000 : Word)) (l := [63]) (by decide) (by decide) k).trans
      (by simp [beq_eq_decide])

/-- The letters of `misa` (R82). -/
theorem misa_getLsbD_low {c : Config} (hm : c.misaImplemented = true) {k : Nat} (hk : k < 30) :
    c.misa.getLsbD k =
      ((openLetters.contains k && c.misaLetters.getLsbD k)
        || (fixedLetters c).any fun p => p.1 == k && p.2) := by
  have hmxl : (k == mxlBit c) = false := by
    rw [beq_eq_false_iff_ne]
    rcases mxlBit_eq c with h | h <;> omega
  rw [misa_getLsbD hm (by omega), hmxl, Bool.false_or]

/-- Above the letters only `MXL` is set (R81). -/
theorem misa_getLsbD_high {c : Config} (hm : c.misaImplemented = true) {k : Nat} (hlow : 24 ≤ k) (hk : k < 64) :
    c.misa.getLsbD k = (k == mxlBit c) := by
  have hletter : k ∉ openLetters := by simp [openLetters]; omega
  have hparam : ((fixedLetters c).any fun p => p.1 == k && p.2)
      = false := by
    have hne : ∀ j, j < 24 → (j == k) = false := fun j hj => by simp; omega
    simp [fixedLetters, hne]
  rw [misa_getLsbD hm hk, List.contains_eq_mem, decide_eq_false hletter, hparam, Bool.false_and, Bool.or_false,
    Bool.or_false]

theorem misa_extractLsb'_zero {c : Config} (hm : c.misaImplemented = true) {a n : Nat} (hlow : 24 ≤ a)
    (hhigh : a + n ≤ 64) (hmxl : mxlBit c < a ∨ a + n ≤ mxlBit c) : c.misa.extractLsb' a n = 0 := by
  apply BitVec.eq_of_getLsbD_eq
  intro i hi
  rw [BitVec.getLsbD_extractLsb', misa_getLsbD_high hm (by omega) (by omega), beq_eq_false_iff_ne.mpr (by omega)]
  simp

/-- What `misa` reads on each XLEN, above its letters (R81). -/
theorem misa_mxl {c : Config} (hm : c.misaImplemented = true) :
    (c.xlen = .rv32 → c.misa.extractLsb' 30 2 = 1 ∧ c.misa.extractLsb' 26 4 = 0 ∧ c.misa.extractLsb' 32 32 = 0)
      ∧ (c.xlen = .rv64 → c.misa.extractLsb' 62 2 = 2 ∧ c.misa.extractLsb' 26 36 = 0) := by
  constructor <;> intro hx
  · have hb : mxlBit c = 30 := by rw [mxlBit, hx]
    refine ⟨extractLsb'_two_eq_iff.mpr ⟨?_, ?_⟩, misa_extractLsb'_zero hm (by decide) (by decide) (by omega),
      misa_extractLsb'_zero hm (by decide) (by decide) (by omega)⟩ <;>
      rw [misa_getLsbD_high hm (by decide) (by decide), hb] <;> decide
  · have hb : mxlBit c = 63 := by rw [mxlBit, hx]
    refine ⟨extractLsb'_two_eq_iff.mpr ⟨?_, ?_⟩, misa_extractLsb'_zero hm (by decide) (by decide) (by omega)⟩ <;>
      rw [misa_getLsbD_high hm (by decide) (by decide), hb] <;> decide

/-- Settles O30: `misa` is a function of the parameters, known bit by bit (`misa_getLsbD`). -/
theorem fixedRegistersIgnoreWrites : Obligations.FixedRegistersIgnoreWrites := by
  refine ⟨fun s t v n => ⟨?misa, fun hn => ⟨?counter, ?counterh, ?event⟩⟩,
    fun s => ⟨rfl, rfl, rfl, rfl⟩, fun s => ⟨?absent, fun hm => ?letters⟩⟩
  case misa => exact fun h => h.reads rfl rfl rfl
  case counter =>
    intro h
    refine (h.reads rfl rfl rfl).trans ?_
    simp only [State.readCsr, State.writeHpmCounter, State.hpmCounterValue, hn, Bool.false_eq_true, if_false]
    exact s.cfg.trunc_zero
  case counterh =>
    intro h
    refine (h.reads rfl rfl rfl).trans ?_
    simp [State.readCsr, State.writeHpmCounter, State.hpmCounterValue, hn, counterHigh]
  case event =>
    intro h
    refine (h.reads rfl (by simp only [State.writeCsr, hn]; rfl) rfl).trans ?_
    simp [State.readCsr, hn]
  case absent =>
    intro hm
    simp [State.readCsr, Config.misa, hm]
  case letters =>
    have hlow : ∀ k, k < 30 → (s.readCsr .misa).getLsbD k = _ := fun k hk => misa_getLsbD_low hm hk
    obtain ⟨h32, h64⟩ := misa_mxl hm
    have hu : s.cfg.hasU = true ↔ s.cfg.modes ≠ .m := by simp [Config.hasU]
    refine ⟨h32, h64, (hlow 5 (by decide)).trans (by simp [openLetters, fixedLetters]),
      (hlow 8 (by decide)).trans (by simp [fixedLetters]), ?n, ?s, ?u, fun k hk => ?clear, fun k hk => ?given⟩
    case n =>
      rw [hlow 13 (by decide), ← hu, ← Bool.and_eq_true_iff]
      simp [openLetters, fixedLetters, Config.n]
    case s =>
      rw [hlow 18 (by decide)]
      simp [openLetters, fixedLetters, Config.hasS]
    case u =>
      rw [hlow 20 (by decide), ← hu]
      simp [openLetters, fixedLetters]
    case clear =>
      fin_cases hk <;> exact (hlow _ (by decide)).trans (by simp [openLetters, fixedLetters])
    case given =>
      fin_cases hk <;> exact (hlow _ (by decide)).trans (by simp [openLetters, fixedLetters])

/-! ## Address translation -/

theorem schemeOfMode_zero (c : Config) : c.schemeOfMode 0 = none := by
  cases hx : c.xlen <;> simp [Config.schemeOfMode, hx]

/-- M-mode, no S-mode and Bare leave an access untranslated (R177). -/
theorem activeScheme_none {s : State} {p : Priv}
    (h : p = .machine ∨ s.cfg.hasS = false ∨ s.cfg.satpMode s.satp = 0) : s.activeScheme p = none := by
  unfold State.activeScheme
  split
  · rfl
  · next hne =>
    rcases h with h | h | h
    · exact absurd (.inl h) hne
    · exact absurd (.inr h) hne
    · rw [h, schemeOfMode_zero]

/-- The scheme that `satp.MODE` selects (R120, R177). -/
theorem activeScheme_eq (s : State) (p : Priv) : s.activeScheme p =
    if p = .machine ∨ s.cfg.modes ≠ .msu then none
    else if s.cfg.xlen = .rv32 then (if s.satp.getLsbD 31 = true then some .sv32 else none)
    else if s.satp.extractLsb' 60 4 = 8 then some .sv39
    else if s.satp.extractLsb' 60 4 = 9 then some .sv48
    else none := by
  have hS : s.cfg.hasS = false ↔ s.cfg.modes ≠ .msu := by simp [Config.hasS]
  have hmode : s.cfg.schemeOfMode (s.cfg.satpMode s.satp) =
      if s.cfg.xlen = .rv32 then (if s.satp.getLsbD 31 = true then some .sv32 else none)
      else if s.satp.extractLsb' 60 4 = 8 then some .sv39
      else if s.satp.extractLsb' 60 4 = 9 then some .sv48
      else none := by
    cases hx : s.cfg.xlen with
    | rv32 =>
      have hbit : (s.satp.extractLsb' 31 1).toNat = 1 ↔ s.satp.getLsbD 31 = true := by
        have hone : ∀ b : BitVec 1, b.toNat = 1 ↔ b.getLsbD 0 = true := by decide
        rw [hone, BitVec.getLsbD_extractLsb']
        rfl
      simp only [Config.schemeOfMode, Config.satpMode, hx, if_true, hbit]
    | rv64 =>
      simp only [Config.schemeOfMode, Config.satpMode, hx, reduceCtorEq, if_false, ← BitVec.toNat_inj]
      rfl
  simp only [State.activeScheme, hS, hmode]

/-- A field of a word as arithmetic takes it. -/
theorem div_mod_eq_extractLsb' (v : Word) (a n : Nat) :
    v.toNat / 2 ^ a % 2 ^ n = (v.extractLsb' a n).toNat := by
  rw [BitVec.extractLsb'_toNat, Nat.shiftRight_eq_div_pow]

/-- An address equals its low `n` bits sign-extended where the upper bits equal the top one (R181). -/
theorem signExtend_extractLsb'_eq_iff {n : Nat} (hn : 0 < n) (v : Word) :
    (v.extractLsb' 0 n).signExtend 64 = v ↔ ∀ k, n ≤ k → k < 64 → v.getLsbD k = v.getLsbD (n - 1) := by
  have hbit : ∀ k, k < 64 → ((v.extractLsb' 0 n).signExtend 64).getLsbD k =
      if k < n then v.getLsbD k else v.getLsbD (n - 1) := by
    intro k hk
    rw [BitVec.getLsbD_signExtend, BitVec.msb_eq_getLsbD_last, BitVec.getLsbD_extractLsb', BitVec.getLsbD_extractLsb']
    split <;> simp [*]
  constructor
  · intro h k hk hlt
    have := hbit k hlt
    rwa [h, if_neg (Nat.not_lt.mpr hk)] at this
  · intro h
    apply BitVec.eq_of_getLsbD_eq
    intro k hk
    rw [hbit k hk]
    split
    · rfl
    · next hlt => exact (h k (Nat.le_of_not_lt hlt) hk).symm

/-- Settles O49: the fields of addresses are quotients and remainders (`div_mod_eq_extractLsb'`), those of entries are
as defined. -/
theorem untranslatedAccess : Obligations.UntranslatedAccess := by
  refine ⟨fun s acc p va h => ?bare, fun s => ⟨rfl, fun acc hacc => ?mprv⟩, fun s => ⟨?phys, ?mode, ?ppn, ?active⟩,
    ⟨rfl, rfl, rfl, rfl, rfl, rfl, rfl, rfl, rfl⟩, fun va => ?fields,
    fun pte => ⟨rfl, rfl, rfl, rfl, rfl, rfl, rfl, rfl, rfl, rfl, rfl⟩⟩
  case bare => simp only [State.translate, activeScheme_none h, State.bareAddress]
  case mprv => rw [State.effPriv, if_neg hacc]
  case phys => cases hx : s.cfg.xlen <;> simp [Config.physBits, hx]
  case mode => cases hx : s.cfg.xlen <;> simp [Config.satpMode, hx]
  case ppn => cases hx : s.cfg.xlen <;> simp [Config.satpPpn, hx]
  case active => exact activeScheme_eq s
  case fields =>
    have hfield : ∀ sch i, vpnField sch va.toNat i = (va.extractLsb' (pageShift sch i) (vpnBits sch)).toNat :=
      fun sch i => div_mod_eq_extractLsb' va _ _
    refine ⟨hfield _ _, hfield _ _, ?_, hfield _ _, rfl, ?_, ?_⟩
    · intro sch hsch
      fin_cases hsch <;> exact ⟨hfield _ _, hfield _ _, hfield _ _⟩
    · exact beq_iff_eq.trans (signExtend_extractLsb'_eq_iff (by decide) va)
    · exact beq_iff_eq.trans (signExtend_extractLsb'_eq_iff (by decide) va)

end Sys2Proof.Machine
end

section
/-! Family 20, memory: what PMP and the physical memory attributes grant (R171, R174), the page-table walk and the
translation cache (R181, R186), and that no instruction stores (R149). -/

namespace Sys2Proof.Machine

/-! ## PMP: the bytes an entry matches -/

theorem trailingOnes_spec (fuel : Nat) {v : Nat} (hv : v < 2 ^ fuel) :
    v % 2 ^ (trailingOnes fuel v + 1) = 2 ^ trailingOnes fuel v - 1 := by
  induction fuel generalizing v with
  | zero =>
    obtain rfl : v = 0 := Nat.lt_one_iff.mp hv
    rfl
  | succ fuel ih =>
    rw [trailingOnes]
    split
    · next hodd =>
      have hhalf := ih (v := v / 2) (by rw [Nat.pow_succ] at hv; omega)
      rw [Nat.add_comm 1, Nat.pow_succ' (n := _ + 1), Nat.mod_mul, hhalf, hodd, Nat.pow_succ]
      have := Nat.two_pow_pos (trailingOnes fuel (v / 2))
      omega
    · next heven => simpa using heven

/-- The low ones of a number and the zero above them say where that zero is. -/
theorem eq_of_mod_two_pow_eq {v t t' : Nat} (h : v % 2 ^ (t + 1) = 2 ^ t - 1)
    (h' : v % 2 ^ (t' + 1) = 2 ^ t' - 1) : t = t' := by
  have hbit : ∀ {t j}, v % 2 ^ (t + 1) = 2 ^ t - 1 → j ≤ t → v.testBit j = decide (j < t) := by
    intro t j ht hj
    have := congrArg (Nat.testBit · j) ht
    simpa [Nat.testBit_mod_two_pow, Nat.testBit_two_pow_sub_one, Nat.lt_succ_of_le hj] using this
  rcases Nat.lt_trichotomy t t' with hlt | heq | hlt
  · have := (hbit h le_rfl).symm.trans (hbit h' hlt.le)
    simp [hlt] at this
  · exact heq
  · have := (hbit h' le_rfl).symm.trans (hbit h hlt.le)
    simp [hlt] at this

theorem toNat_clearLow (n : Nat) (v : Word) : (clearLow n v).toNat = v.toNat / 2 ^ n * 2 ^ n := by
  apply Nat.eq_of_testBit_eq
  intro j
  rw [BitVec.testBit_toNat, clearLow_getLsbD, Nat.testBit_mul_two_pow, Nat.testBit_div_two_pow]
  by_cases hj : n ≤ j
  · simp [hj, Nat.sub_add_cancel hj, BitVec.testBit_toNat]
  · simp [hj]

theorem Pmp.boundary_eq_pmpWord (p : Pmp) (c : Config) (i : Nat) : p.boundary c i = pmpWord p c i :=
  toNat_clearLow _ _

/-- Byte addresses whose word address agrees with `m` above its low `n + 1` bits are one NAPOT region (R173). -/
theorem div_four_div_eq_iff (a n m : Nat) :
    a / 4 / 2 ^ (n + 1) = m / 2 ^ (n + 1)
      ↔ 4 * (m / 2 ^ (n + 1) * 2 ^ (n + 1)) ≤ a ∧ a < 4 * (m / 2 ^ (n + 1) * 2 ^ (n + 1)) + 2 ^ (n + 3) := by
  have hpow : 2 ^ (n + 3) = 4 * 2 ^ (n + 1) := by rw [Nat.pow_succ 2 (n + 2), Nat.pow_succ 2 (n + 1)]; omega
  rw [Nat.div_eq_iff (Nat.two_pow_pos _), hpow]
  have := Nat.two_pow_pos (n + 1)
  omega

/-- The bytes an entry matches are those of its range (R173). -/
theorem pmpMatchesByte_iff {p : Pmp} {c : Config} {i a : Nat} :
    pmpMatchesByte p c i a ↔ ∃ lo hi, p.range c i = some (lo, hi) ∧ lo ≤ a ∧ a < hi := by
  have hmode := ((p.entryCfg[i]?.getD 0).extractLsb' 3 2).isLt
  unfold pmpMatchesByte Pmp.range
  simp only [Pmp.boundary_eq_pmpWord]
  generalize ((p.entryCfg[i]?.getD 0).extractLsb' 3 2).toNat = mode at hmode
  match mode, hmode with
  | 0, _ => simp
  | 1, _ => simp; split <;> omega
  | 2, _ => simp; omega
  | 3, _ =>
    have hones : p.napot c i % 2 ^ (trailingOnes 64 (p.napot c i) + 1) = 2 ^ trailingOnes 64 (p.napot c i) - 1 :=
      trailingOnes_spec 64 (BitVec.isLt _)
    constructor
    · rintro ⟨t, _, rfl, ht, ha⟩
      obtain rfl := eq_of_mod_two_pow_eq ht hones
      exact ⟨_, _, rfl, (div_four_div_eq_iff ..).mp ha⟩
    · rintro ⟨lo, hi, hrange, hlo, hhi⟩
      cases hrange
      exact ⟨_, _, rfl, hones, (div_four_div_eq_iff ..).mpr ⟨hlo, hhi⟩⟩

theorem Pmp.touches_iff {p : Pmp} {c : Config} {i pa n : Nat} :
    p.touches c i pa n = true ↔ ∃ a, (pa ≤ a ∧ a < pa + n) ∧ pmpMatchesByte p c i a := by
  simp only [pmpMatchesByte_iff, Pmp.touches]
  cases p.range c i with
  | none => simp
  | some r =>
    obtain ⟨lo, hi⟩ := r
    simp only [decide_eq_true_eq]
    constructor
    · intro h
      exact ⟨max lo pa, by omega, lo, hi, rfl, by omega, by omega⟩
    · rintro ⟨a, ha, _, _, hr, hlo, hhi⟩
      cases hr
      omega

theorem Pmp.covers_iff {p : Pmp} {c : Config} {i pa n : Nat} (hn : 0 < n) :
    p.covers c i pa n = true ↔ ∀ a, pa ≤ a ∧ a < pa + n → pmpMatchesByte p c i a := by
  simp only [pmpMatchesByte_iff, Pmp.covers]
  cases p.range c i with
  | none => simpa using ⟨pa, le_rfl, by omega⟩
  | some r =>
    obtain ⟨lo, hi⟩ := r
    simp only [Bool.and_eq_true, decide_eq_true_eq]
    constructor
    · rintro ⟨hlo, hhi⟩ a ha
      exact ⟨lo, hi, rfl, by omega, by omega⟩
    · intro h
      obtain ⟨_, _, hr, hlo, -⟩ := h pa (by omega)
      cases hr
      obtain ⟨_, _, hr, -, hhi⟩ := h (pa + n - 1) (by omega)
      cases hr
      omega

/-! ## PMP: the deciding entry -/

theorem Pmp.any_touches_iff {p : Pmp} {c : Config} {i : Nat} {parts : List (Nat × Nat)} :
    (parts.any fun q => p.touches c i q.1 q.2) = true ↔ ∃ a, InParts parts a ∧ pmpMatchesByte p c i a := by
  simp only [List.any_eq_true, Pmp.touches_iff, InParts]
  constructor
  · rintro ⟨q, hq, a, ha, hm⟩
    exact ⟨a, ⟨q, hq, ha⟩, hm⟩
  · rintro ⟨a, ⟨q, hq, ha⟩, hm⟩
    exact ⟨q, hq, a, ha, hm⟩

theorem Pmp.all_covers_iff {p : Pmp} {c : Config} {i : Nat} {parts : List (Nat × Nat)}
    (hpos : ∀ q ∈ parts, 0 < q.2) :
    (parts.all fun q => p.covers c i q.1 q.2) = true ↔ ∀ a, InParts parts a → pmpMatchesByte p c i a := by
  rw [List.all_eq_true]
  constructor
  · rintro h a ⟨q, hq, ha⟩
    exact (Pmp.covers_iff (hpos q hq)).mp (h q hq) a ha
  · intro h q hq
    exact (Pmp.covers_iff (hpos q hq)).mpr fun a ha => h a ⟨q, hq, ha⟩

/-- No entry before the `n`th matches a byte of the access. -/
def NoneMatches (p : Pmp) (c : Config) (parts : List (Nat × Nat)) (n : Nat) : Prop :=
  ∀ j, j < n → ∀ a, InParts parts a → ¬ pmpMatchesByte p c j a

theorem noneMatches_iff {p : Pmp} {c : Config} {parts : List (Nat × Nat)} {n : Nat} :
    NoneMatches p c parts n ↔ ∀ j, j < n → (parts.any fun q => p.touches c j q.1 q.2) = false := by
  simp only [NoneMatches, ← Bool.not_eq_true, Pmp.any_touches_iff, not_exists, not_and]

theorem Pmp.decidingParts_some {p : Pmp} {c : Config} {parts : List (Nat × Nat)} {i : Nat} :
    p.decidingParts c parts = some i ↔
      i < c.pmpCount ∧ (∃ a, InParts parts a ∧ pmpMatchesByte p c i a) ∧ NoneMatches p c parts i := by
  rw [Pmp.decidingParts, List.find?_range_eq_some, Pmp.any_touches_iff, noneMatches_iff]
  simp only [List.mem_range, Bool.not_eq_true']
  tauto

theorem Pmp.decidingParts_none {p : Pmp} {c : Config} {parts : List (Nat × Nat)} :
    p.decidingParts c parts = none ↔ NoneMatches p c parts c.pmpCount := by
  simp only [Pmp.decidingParts, List.find?_range_eq_none, noneMatches_iff, Bool.not_eq_true']

theorem Pmp.permits_eq_pmpBit (p : Pmp) (i : Nat) (acc : Access) :
    p.permits i acc = pmpBit p i (permissionBit acc) := by cases acc <;> rfl

/-- The PMP check of an access in parts is that of R174. -/
theorem Pmp.allowsParts_iff_pmpGrants {p : Pmp} {c : Config} {acc : Access} {priv : Priv}
    {parts : List (Nat × Nat)} (hpos : ∀ q ∈ parts, 0 < q.2) :
    p.allowsParts c acc priv parts = true ↔ PmpGrants p c acc priv parts := by
  unfold Pmp.allowsParts
  cases hd : p.decidingParts c parts with
  | none =>
    have hnone : NoneMatches p c parts c.pmpCount := Pmp.decidingParts_none.mp hd
    simp only [Bool.or_eq_true, beq_iff_eq]
    constructor
    · exact fun h => .inr ⟨hnone, h⟩
    · rintro (⟨i, hi, ⟨a, ha, hm⟩, -⟩ | ⟨-, h⟩)
      · exact absurd hm (hnone i hi a ha)
      · exact h
  | some i =>
    obtain ⟨hi, htouch, hfirst⟩ := Pmp.decidingParts_some.mp hd
    simp only [Bool.and_eq_true, Pmp.all_covers_iff hpos, Bool.or_eq_true, beq_iff_eq, Bool.not_eq_true',
      Pmp.permits_eq_pmpBit]
    constructor
    · rintro ⟨hcover, hperm⟩
      exact .inl ⟨i, hi, htouch, hfirst, hcover, hperm⟩
    · rintro (⟨j, hj, hjtouch, hjfirst, hcover, hperm⟩ | ⟨hnone, -⟩)
      · obtain rfl : i = j := Option.some.inj (hd.symm.trans (Pmp.decidingParts_some.mpr ⟨hj, hjtouch, hjfirst⟩))
        exact ⟨hcover, hperm⟩
      · obtain ⟨a, ha, hm⟩ := htouch
        exact absurd hm (hnone i hi a ha)

/-! ## Physical memory attributes -/

theorem regionAt_eq_some_iff {l : List PmaRegion} {a : Nat} {r : PmaRegion} :
    regionAt l a = some r ↔ HasRegion l a r := by
  simp only [regionAt, HasRegion, PmaRegion.Holds, List.find?_eq_some_iff_getElem, Bool.and_eq_true,
    decide_eq_true_eq, Bool.not_eq_true', Bool.and_eq_false_iff, decide_eq_false_iff_not, ← not_and_or]
  constructor
  · rintro ⟨hr, i, hi, hir, hbefore⟩
    refine ⟨i, List.getElem?_eq_some_iff.mpr ⟨hi, hir⟩, hr, fun j q hj hq => ?_⟩
    obtain ⟨_, rfl⟩ := List.getElem?_eq_some_iff.mp hq
    exact hbefore j hj
  · rintro ⟨i, hir, hr, hbefore⟩
    obtain ⟨hi, hir⟩ := List.getElem?_eq_some_iff.mp hir
    exact ⟨hr, i, hi, hir, fun j hj => hbefore j _ hj (List.getElem?_eq_getElem _)⟩

theorem pmaAllowsByte_iff {l : List PmaRegion} {acc : Access} {width a : Nat} :
    pmaAllowsByte l acc width a = true ↔ AttributesPermit l acc width a := by
  simp only [AttributesPermit, ← regionAt_eq_some_iff, pmaAllowsByte]
  cases regionAt l a with
  | none => simp
  | some r => cases acc <;> simp [regionPermits] <;> tauto

theorem pmaAllows_iff {l : List PmaRegion} {acc : Access} {pa n width : Nat} :
    pmaAllows l acc pa n width = true ↔ ∀ k, k < n → AttributesPermit l acc width (pa + k) := by
  simp only [pmaAllows, List.all_eq_true, List.mem_range, pmaAllowsByte_iff]

theorem pmaAtomic_iff {l : List PmaRegion} {pa n : Nat} :
    pmaAtomic l pa n = true ↔ ∀ k, k < n → ∃ r, HasRegion l (pa + k) r ∧ r.atomic = true := by
  simp only [pmaAtomic, List.all_eq_true, List.mem_range, Option.any_eq_true, regionAt_eq_some_iff]

theorem isIo_iff {l : List PmaRegion} {a : Nat} :
    isIo l a = true ↔ ∃ r, HasRegion l a r ∧ r.kind = .io := by
  simp only [← regionAt_eq_some_iff, isIo]
  cases regionAt l a <;> simp

/-- An access passes where PMP grants it and the attributes of each of its bytes permit it (R171, R174). -/
theorem State.physAllows_iff {s : State} {q : Pmp} {acc : Access} {p : Priv} {pa n : Nat} (hn : 0 < n) :
    s.physAllows q acc p pa n = true ↔
      PmpGrants q s.cfg acc p [(pa, n)] ∧ ∀ k, k < n → AttributesPermit s.pma acc n (pa + k) := by
  rw [State.physAllows, Bool.and_eq_true, pmaAllows_iff, Pmp.allows, Pmp.allowsParts_iff_pmpGrants (by simpa using hn)]

/-! ## Page-table entries: the predicates of the walk -/

theorem pteInvalid_eq_false_iff {pte : Word} : pteInvalid pte = false ↔ PteValid pte := by
  unfold pteInvalid PteValid
  cases pteV pte <;> cases pteR pte <;> cases pteW pte <;> simp

theorem pteInvalid_iff {pte : Word} : pteInvalid pte = true ↔ ¬ PteValid pte := by
  rw [← pteInvalid_eq_false_iff, Bool.not_eq_false]

theorem PteValid.not_invalid {pte : Word} (h : PteValid pte) : ¬ pteInvalid pte = true := by
  rw [pteInvalid_iff, not_not]
  exact h

theorem pteLeaf_iff {pte : Word} : pteLeaf pte = true ↔ PteLeaf pte := Bool.or_eq_true_iff

theorem pteLeaf_eq_false_iff {pte : Word} : pteLeaf pte = false ↔ ¬ PteLeaf pte := by
  rw [← pteLeaf_iff, Bool.not_eq_true]

theorem not_pteLeaf_iff {pte : Word} : ¬ PteLeaf pte ↔ pteR pte = false ∧ pteX pte = false := by
  rw [PteLeaf, not_or, Bool.not_eq_true, Bool.not_eq_true]

theorem ptePermitted_iff {pte : Word} {acc : Access} {p : Priv} {sum mxr : Bool} :
    ptePermitted pte acc p sum mxr = true ↔ Permitted pte acc p sum mxr := by
  unfold ptePermitted Permitted
  rw [Bool.and_eq_true]
  refine and_congr ?_ ?_
  · cases acc <;> simp [and_comm]
  · cases p <;> simp

/-- Step 7 of R181 has a bit to set. -/
def NeedsUpdate (acc : Access) (pte : Word) : Prop := pteA pte = false ∨ (acc = .store ∧ pteD pte = false)

theorem needsAD_iff {pte : Word} {acc : Access} : needsAD pte acc = true ↔ NeedsUpdate acc pte := by
  simp [needsAD, NeedsUpdate]

theorem not_needsUpdate_iff {pte : Word} {acc : Access} :
    ¬ NeedsUpdate acc pte ↔ pteA pte = true ∧ (acc = .store → pteD pte = true) := by
  simp [NeedsUpdate]

theorem misalignedSuperpage_iff {sch : Scheme} {l : Nat} {pte : Word} :
    misalignedSuperpage sch l pte = true ↔ ptePpn sch pte % 2 ^ (l * vpnBits sch) ≠ 0 := bne_iff_ne

theorem or_twoPow_of_getLsbD {v : Word} {i : Nat} (h : v.getLsbD i = true) : v ||| BitVec.twoPow 64 i = v := by
  apply Word.ext
  intro j
  rw [BitVec.getLsbD_or, BitVec.getLsbD_twoPow]
  by_cases hij : i = j
  · simp [← hij, h]
  · simp [hij]

/-- The update of R183 leaves an entry whose bits are set. -/
theorem updatedPte_of_set {acc : Access} {pte : Word} (h : ¬ NeedsUpdate acc pte) : updatedPte acc pte = pte := by
  obtain ⟨hA, hD⟩ := not_needsUpdate_iff.mp h
  have hA' : pte ||| 0x40 = pte := or_twoPow_of_getLsbD hA
  rw [updatedPte, hA']
  split
  · next hst => exact or_twoPow_of_getLsbD (hD hst)
  · exact BitVec.or_zero

/-- Step 8 of R181: the page of an aligned leaf, with the offset. -/
theorem leafAddress_eq {sch : Scheme} {l : Nat} {pte : Word} (va : Nat)
    (hal : ptePpn sch pte % 2 ^ (l * vpnBits sch) = 0) :
    leafAddress sch l pte va = ptePpn sch pte * 4096 + va % 2 ^ (12 + l * vpnBits sch) := by
  have hpage : ptePpn sch pte / 2 ^ (l * vpnBits sch) * 2 ^ (l * vpnBits sch) = ptePpn sch pte :=
    Nat.div_mul_cancel (Nat.dvd_of_mod_eq_zero hal)
  rw [leafAddress, pageShift, Nat.add_comm 12, Nat.pow_add, ← Nat.mul_assoc, hpage]

theorem not_leafPageFaults_iff {s : State} {sch : Scheme} {acc : Access} {p : Priv} {l : Nat} {pte : Word} :
    ¬ LeafPageFaults s sch acc p l pte ↔
      Permitted pte acc p s.mstatus.sum s.mstatus.mxr ∧ ptePpn sch pte % 2 ^ (l * vpnBits sch) = 0
        ∧ (NeedsUpdate acc pte → s.cfg.hardwareADUpdate = true) := by
  unfold LeafPageFaults
  rw [not_or, not_or, not_not, not_not, not_and', Bool.not_eq_false]
  rfl

/-- Steps 5 to 7 of R181 on a leaf: a page fault, no update, or the update of R183. -/
theorem leaf_cases (s : State) (sch : Scheme) (acc : Access) (p : Priv) (l : Nat) (pte : Word) :
    LeafPageFaults s sch acc p l pte ∨ LeafReady s sch acc p l pte
      ∨ (¬ LeafPageFaults s sch acc p l pte ∧ NeedsUpdate acc pte) := by
  by_cases hf : LeafPageFaults s sch acc p l pte
  · exact .inl hf
  · by_cases hn : NeedsUpdate acc pte
    · exact .inr (.inr ⟨hf, hn⟩)
    · obtain ⟨hperm, hal, -⟩ := not_leafPageFaults_iff.mp hf
      exact .inr (.inl ⟨hperm, hal, not_needsUpdate_iff.mp hn⟩)

theorem LeafReady.not_needsUpdate {s : State} {sch : Scheme} {acc : Access} {p : Priv} {l : Nat} {pte : Word}
    (h : LeafReady s sch acc p l pte) : ¬ NeedsUpdate acc pte :=
  not_needsUpdate_iff.mpr h.2.2

theorem LeafReady.not_leafPageFaults {s : State} {sch : Scheme} {acc : Access} {p : Priv} {l : Nat} {pte : Word}
    (h : LeafReady s sch acc p l pte) : ¬ LeafPageFaults s sch acc p l pte := by
  obtain ⟨hperm, hal, hset⟩ := h
  exact not_leafPageFaults_iff.mpr ⟨hperm, hal, fun hn => absurd hn (not_needsUpdate_iff.mpr hset)⟩

/-! ## Physical reads and writes -/

/-- Where the hart can read it can write: no byte lies in an unknown device. -/
theorem State.physWrite_of_physRead {s : State} {a n v : Nat} (h : s.physRead a n = .ok v) (w : Nat) :
    ∃ u, s.physWrite a n w = .ok u := by
  have hknown : ((List.range n).find? fun k => s.unknownDevice (a + k)) = none := by
    rw [List.find?_range_eq_none]
    intro k hk
    rcases State.physByte_ok_iff.mp ((State.physRead_ok_iff.mp h).2 k hk) with hd | ⟨-, hio, -⟩
    · simp [State.unknownDevice, hd]
    · simp [State.unknownDevice, hio]
  exact ⟨_, by rw [State.physWrite, hknown]⟩

theorem State.physWrite_mem {s u : State} {a n : Nat} {w : Word} (h : s.physWrite a n w.toNat = .ok u) (x : Nat) :
    u.mem.read x = if isMemory s.cfg x = true ∧ a ≤ x ∧ x < a + n then some (w.extractLsb' (8 * (x - a)) 8)
      else s.mem.read x := by
  have hbyte : w.extractLsb' (8 * (x - a)) 8 = BitVec.ofNat 8 (w.toNat / 256 ^ (x - a)) := by
    apply BitVec.eq_of_toNat_eq
    rw [BitVec.extractLsb'_toNat, Nat.shiftRight_eq_div_pow, Nat.pow_mul, BitVec.toNat_ofNat]
  unfold State.physWrite at h
  split at h
  · cases h
  · cases h
    rw [State.storeBytes_mem, hbyte]

/-! ## Steps 5 to 8 of R181 -/

section
variable {s : State} {sch : Scheme} {acc : Access} {p : Priv} {va : Word} {l at_ : Nat} {g : Bool} {pte : Word}
  {path : List TlbEntry}

/-- A leaf that steps 5 and 6 of R181 let pass raises a page fault only where software must set a bit. -/
theorem LeafPageFaults.software_update (h : LeafPageFaults s sch acc p l pte)
    (hperm : ¬ (!ptePermitted pte acc p s.mstatus.sum s.mstatus.mxr) = true)
    (hal : ¬ misalignedSuperpage sch l pte = true) : needsAD pte acc = true ∧ s.cfg.hardwareADUpdate = false := by
  rcases h with hf | hf | ⟨hhw, hn⟩
  · exact absurd (ptePermitted_iff.mp (by simpa using hperm)) hf
  · exact absurd (misalignedSuperpage_iff.mpr hf) hal
  · exact ⟨needsAD_iff.mpr hn, hhw⟩

theorem State.walkLeaf_of_leafPageFaults (h : LeafPageFaults s sch acc p l pte) :
    s.walkLeaf sch acc p va l g pte at_ path = .exc acc.pageFault va := by
  unfold State.walkLeaf
  split
  · rfl
  · next hperm =>
    split
    · rfl
    · next hal =>
      obtain ⟨hn, hhw⟩ := h.software_update hperm hal
      rw [if_pos hn, if_pos (by simp [hhw])]

/-- A leaf that raises no page fault is used as it is, or updated where the update passes its checks. -/
theorem State.walkLeaf_of_not_leafPageFaults (h : ¬ LeafPageFaults s sch acc p l pte) :
    s.walkLeaf sch acc p va l g pte at_ path =
      if needsAD pte acc then
        if s.physAllows s.pmp .store .supervisor at_ (pteSize sch) && pmaAtomic s.pma at_ (pteSize sch) then
          (s.physWrite at_ (pteSize sch) (updatedPte acc pte).toNat).bind fun u =>
            .ok
              { state := { u with
                  tlb := addTlb u.tlb (s.tlbEntryFor sch va.toNat l g (updatedPte acc pte) :: path) }
                pa := leafAddress sch l pte va.toNat
                pmp := s.pmp }
        else .exc acc.accessFault va
      else
        .ok
          { state := { s with tlb := addTlb s.tlb (s.tlbEntryFor sch va.toNat l g pte :: path) }
            pa := leafAddress sch l pte va.toNat
            pmp := s.pmp } := by
  obtain ⟨hperm, hal, hhw⟩ := not_leafPageFaults_iff.mp h
  unfold State.walkLeaf
  rw [if_neg (by simpa using ptePermitted_iff.mpr hperm), if_neg (mt misalignedSuperpage_iff.mp (not_not.mpr hal))]
  split
  · next hn =>
    rw [if_neg (by simpa using hhw (needsAD_iff.mp hn))]
    cases s.physAllows s.pmp .store .supervisor at_ (pteSize sch) && pmaAtomic s.pma at_ (pteSize sch) <;> rfl
  · rfl

end

/-- The translation `t` through the leaf `pte`, read at `at_` on level `l`, with the leaf, global as `g` says, and
the entries of `path` added to the cache. -/
structure LeafDone (s : State) (sch : Scheme) (acc : Access) (p : Priv) (va l : Nat) (g : Bool) (at_ : Nat)
    (pte : Word) (path : List TlbEntry) (t : Translated) : Prop where
  gives : LeafGives s sch acc p va l at_ pte t
  tlb : t.state.tlb = addTlb s.tlb (s.tlbEntryFor sch va l g (updatedPte acc pte) :: path)

section
variable {s : State} {sch : Scheme} {acc : Access} {p : Priv} {va : Word} {l at_ : Nat} {g : Bool} {pte : Word}
  {path : List TlbEntry}

theorem State.walkLeaf_of_leafReady (h : LeafReady s sch acc p l pte) :
    ∃ t, s.walkLeaf sch acc p va l g pte at_ path = .ok t ∧ LeafDone s sch acc p va.toNat l g at_ pte path t := by
  obtain ⟨hperm, hal, hA, hD⟩ := h
  have hn : ¬ NeedsUpdate acc pte := not_needsUpdate_iff.mpr ⟨hA, hD⟩
  rw [State.walkLeaf_of_not_leafPageFaults (LeafReady.not_leafPageFaults ⟨hperm, hal, hA, hD⟩),
    if_neg (mt needsAD_iff.mp hn)]
  exact ⟨_, rfl, ⟨hperm, hal, leafAddress_eq _ hal, rfl, .inl ⟨hA, hD, rfl⟩⟩, by rw [updatedPte_of_set hn]⟩

theorem State.walkLeaf_of_update {u : State} (hf : ¬ LeafPageFaults s sch acc p l pte) (hn : NeedsUpdate acc pte)
    (hallow : s.physAllows s.pmp .store .supervisor at_ (pteSize sch) = true)
    (hatomic : pmaAtomic s.pma at_ (pteSize sch) = true)
    (hwrite : s.physWrite at_ (pteSize sch) (updatedPte acc pte).toNat = .ok u) :
    ∃ t, s.walkLeaf sch acc p va l g pte at_ path = .ok t ∧ LeafDone s sch acc p va.toNat l g at_ pte path t := by
  obtain ⟨hperm, hal, hhw⟩ := not_leafPageFaults_iff.mp hf
  have hmem := State.physWrite_mem hwrite
  rcases s.physWrite_spec at_ (pteSize sch) (updatedPte acc pte).toNat with ⟨b, hw⟩ | ⟨m, tm, c, ms, hw, -⟩
  · rw [hw] at hwrite; cases hwrite
  · obtain rfl := Res.ok.inj (hw.symm.trans hwrite)
    rw [State.walkLeaf_of_not_leafPageFaults hf, if_pos (needsAD_iff.mpr hn), hallow, hatomic, hw]
    exact ⟨_, rfl, ⟨hperm, hal, leafAddress_eq _ hal, rfl, .inr ⟨hn, hhw hn, hmem, rfl⟩⟩, rfl⟩

theorem State.walkLeaf_of_refused_update (hf : ¬ LeafPageFaults s sch acc p l pte) (hn : NeedsUpdate acc pte)
    (hno : s.physAllows s.pmp .store .supervisor at_ (pteSize sch) = false
      ∨ pmaAtomic s.pma at_ (pteSize sch) = false) :
    s.walkLeaf sch acc p va l g pte at_ path = .exc acc.accessFault va := by
  rw [State.walkLeaf_of_not_leafPageFaults hf, if_pos (needsAD_iff.mpr hn), 
    if_neg (by rwa [Bool.and_eq_true, not_and_or, Bool.not_eq_true, Bool.not_eq_true])]

end

section
variable {s : State} {sch : Scheme} {acc : Access} {p : Priv} {va : Word} {l at_ : Nat} {g : Bool} {pte : Word}
  {path : List TlbEntry}

/-- Where steps 5 to 8 of R181 succeed they do as `LeafDone` says. -/
theorem State.walkLeaf_done {t : Translated} (h : s.walkLeaf sch acc p va l g pte at_ path = .ok t) :
    LeafDone s sch acc p va.toNat l g at_ pte path t := by
  have hdone : ∃ t, s.walkLeaf sch acc p va l g pte at_ path = .ok t
      ∧ LeafDone s sch acc p va.toNat l g at_ pte path t := by
    rcases leaf_cases s sch acc p l pte with hf | hr | ⟨hf, hn⟩
    · rw [State.walkLeaf_of_leafPageFaults hf] at h
      cases h
    · exact State.walkLeaf_of_leafReady hr
    · rw [State.walkLeaf_of_not_leafPageFaults hf, if_pos (needsAD_iff.mpr hn)] at h
      split at h
      · next hchecks =>
        obtain ⟨hallow, hatomic⟩ := Bool.and_eq_true_iff.mp hchecks
        obtain ⟨u, hwrite, -⟩ := Res.bind_ok.mp h
        exact State.walkLeaf_of_update hf hn hallow hatomic hwrite
      · cases h
  obtain ⟨t', ht', hd⟩ := hdone
  obtain rfl := Res.ok.inj (ht'.symm.trans h)
  exact hd

theorem Access.accessFault_ne_pageFault (acc : Access) : acc.accessFault ≠ acc.pageFault := by
  cases acc <;> decide

theorem Access.pageFault_ne_accessFault (acc : Access) : acc.pageFault ≠ acc.accessFault :=
  acc.accessFault_ne_pageFault.symm

/-- Of a leaf that raises no page fault an exception is the access fault of a refused update. -/
theorem State.walkLeaf_exc_of_not_leafPageFaults {e : Exception} {tval : Word}
    (hf : ¬ LeafPageFaults s sch acc p l pte) (h : s.walkLeaf sch acc p va l g pte at_ path = .exc e tval) :
    e = acc.accessFault ∧ NeedsUpdate acc pte
      ∧ (s.physAllows s.pmp .store .supervisor at_ (pteSize sch) = false
        ∨ pmaAtomic s.pma at_ (pteSize sch) = false) := by
  rw [State.walkLeaf_of_not_leafPageFaults hf] at h
  split at h
  · next hn =>
    split at h
    · rcases s.physWrite_spec at_ (pteSize sch) (updatedPte acc pte).toNat with ⟨b, hw⟩ | ⟨_, _, _, _, hw, -⟩
      · rw [hw] at h; cases h
      · rw [hw] at h; cases h
    · next hno =>
      cases h
      rw [Bool.and_eq_true, not_and_or, Bool.not_eq_true, Bool.not_eq_true] at hno
      exact ⟨rfl, needsAD_iff.mp hn, hno⟩
  · cases h

theorem State.walkLeaf_pageFault_iff :
    s.walkLeaf sch acc p va l g pte at_ path = .exc acc.pageFault va ↔ LeafPageFaults s sch acc p l pte := by
  refine ⟨fun h => ?_, State.walkLeaf_of_leafPageFaults⟩
  by_contra hf
  exact acc.pageFault_ne_accessFault (State.walkLeaf_exc_of_not_leafPageFaults hf h).1

theorem State.walkLeaf_accessFault_iff :
    s.walkLeaf sch acc p va l g pte at_ path = .exc acc.accessFault va ↔
      ¬ LeafPageFaults s sch acc p l pte ∧ NeedsUpdate acc pte
        ∧ (s.physAllows s.pmp .store .supervisor at_ (pteSize sch) = false
          ∨ pmaAtomic s.pma at_ (pteSize sch) = false) := by
  constructor
  · intro h
    have hf : ¬ LeafPageFaults s sch acc p l pte := fun hf =>
      acc.pageFault_ne_accessFault (Res.exc.inj ((State.walkLeaf_of_leafPageFaults hf).symm.trans h)).1
    exact ⟨hf, (State.walkLeaf_exc_of_not_leafPageFaults hf h).2⟩
  · rintro ⟨hf, hn, hno⟩
    exact State.walkLeaf_of_refused_update hf hn hno

end

/-! ## Steps 2 to 4 of R181 -/

theorem pteAt_iff {s : State} {sch : Scheme} {at_ : Nat} {pte : Word} :
    PteAt s sch at_ pte ↔ PteRead s sch at_ pte ∧ PteValid pte := by
  simp only [PteAt, PteRead, PteValid, and_assoc]

theorem PteRead.unique {s : State} {sch : Scheme} {at_ : Nat} {pte pte' : Word} (h : PteRead s sch at_ pte)
    (h' : PteRead s sch at_ pte') : pte = pte' := by
  obtain ⟨-, v, hv, rfl⟩ := h
  obtain ⟨-, v', hv', rfl⟩ := h'
  rw [Res.ok.inj (hv.symm.trans hv')]

theorem PteAt.unique {s : State} {sch : Scheme} {at_ : Nat} {pte pte' : Word} (h : PteAt s sch at_ pte)
    (h' : PteRead s sch at_ pte') : pte' = pte :=
  h'.unique (pteAt_iff.mp h).1

theorem PteAt.valid {s : State} {sch : Scheme} {at_ : Nat} {pte : Word} (h : PteAt s sch at_ pte) : PteValid pte :=
  (pteAt_iff.mp h).2

theorem State.loadPte_ok_iff {s : State} {sch : Scheme} {acc : Access} {va pte : Word} {at_ : Nat} :
    s.loadPte sch acc va at_ = .ok pte ↔ PteRead s sch at_ pte := State.loadPte_ok

theorem State.readPte_ok_iff {s : State} {sch : Scheme} {acc : Access} {va pte : Word} {at_ : Nat} :
    s.readPte sch acc va at_ = .ok pte ↔ PteAt s sch at_ pte := by
  rw [State.readPte_ok, pteInvalid_eq_false_iff]
  rfl

theorem State.loadPte_exc_iff {s : State} {sch : Scheme} {acc : Access} {va tval : Word} {at_ : Nat} {e : Exception} :
    s.loadPte sch acc va at_ = .exc e tval ↔
      s.physAllows s.pmp .load .supervisor at_ (pteSize sch) = false ∧ e = acc.accessFault ∧ tval = va := by
  have hread : ∀ v n, s.physRead at_ n ≠ .exc e v := fun v n => State.physRead_no_exc n s at_ e v
  unfold State.loadPte
  cases s.physAllows s.pmp .load .supervisor at_ (pteSize sch) with
  | false => simp [eq_comm]
  | true => simp [Res.bind_exc, hread]

/-- Step 3 of R181 refuses an entry that is not valid, with the page fault. -/
theorem State.readPte_exc_iff {s : State} {sch : Scheme} {acc : Access} {va tval : Word} {at_ : Nat} {e : Exception} :
    s.readPte sch acc va at_ = .exc e tval ↔
      (s.physAllows s.pmp .load .supervisor at_ (pteSize sch) = false ∧ e = acc.accessFault ∧ tval = va)
        ∨ ∃ pte, PteRead s sch at_ pte ∧ ¬ PteValid pte ∧ e = acc.pageFault ∧ tval = va := by
  rw [State.readPte, Res.bind_exc, State.loadPte_exc_iff]
  refine or_congr_right (exists_congr fun pte => and_congr State.loadPte_ok_iff ?_)
  rw [← pteInvalid_iff]
  split <;> simp [*, eq_comm]

theorem State.readPte_pageFault_iff {s : State} {sch : Scheme} {acc : Access} {va : Word} {at_ : Nat} :
    s.readPte sch acc va at_ = .exc acc.pageFault va ↔ ∃ pte, PteRead s sch at_ pte ∧ ¬ PteValid pte := by
  simp [State.readPte_exc_iff, acc.pageFault_ne_accessFault]

theorem State.readPte_accessFault_iff {s : State} {sch : Scheme} {acc : Access} {va : Word} {at_ : Nat} :
    s.readPte sch acc va at_ = .exc acc.accessFault va ↔
      s.physAllows s.pmp .load .supervisor at_ (pteSize sch) = false := by
  simp [State.readPte_exc_iff, acc.accessFault_ne_pageFault]

/-- The walk raises what its read raises, what its leaf raises, and what the walk below a pointer raises; a
pointer on the last level is a page fault. -/
theorem State.walk_exc_iff {s : State} {sch : Scheme} {acc : Access} {p : Priv} {va tval : Word} {level a : Nat}
    {g : Bool} {path : List TlbEntry} {e : Exception} :
    s.walk sch acc p va level a g path = .exc e tval ↔
      s.readPte sch acc va (pteAddress sch va level a) = .exc e tval ∨
      ∃ pte, PteAt s sch (pteAddress sch va level a) pte ∧
        ((PteLeaf pte ∧ s.walkLeaf sch acc p va level (g || pteG pte) pte (pteAddress sch va level a) path
            = .exc e tval)
          ∨ (¬ PteLeaf pte ∧ ((level = 0 ∧ e = acc.pageFault ∧ tval = va)
            ∨ ∃ i, level = i + 1 ∧ s.walk sch acc p va i (ptePpn sch pte * 4096) (g || pteG pte)
                (s.tlbEntryFor sch va.toNat (i + 1) (g || pteG pte) pte :: path) = .exc e tval))) := by
  rw [State.walk.eq_def, Res.bind_exc]
  simp only [State.readPte_ok_iff]
  refine or_congr_right (exists_congr fun pte => and_congr_right fun _ => ?_)
  by_cases hl : PteLeaf pte
  · simp [hl, pteLeaf_iff.mpr hl]
  · cases level <;> simp [hl, pteLeaf_eq_false_iff.mpr hl, eq_comm]

theorem not_pteValid_iff {pte : Word} : ¬ PteValid pte ↔ pteV pte = false ∨ (pteR pte = false ∧ pteW pte = true) := by
  rw [PteValid, not_and_or, not_or, Bool.not_eq_true, Bool.not_eq_true, Bool.not_eq_false]

theorem walkPageFaults_iff {s : State} {sch : Scheme} {acc : Access} {p : Priv} {va i a : Nat} :
    WalkPageFaults s sch acc p va i a ↔
      (∃ pte, PteRead s sch (a + vpnField sch va i * pteSize sch) pte ∧ ¬ PteValid pte) ∨
      ∃ pte, PteAt s sch (a + vpnField sch va i * pteSize sch) pte ∧
        ((PteLeaf pte ∧ LeafPageFaults s sch acc p i pte)
          ∨ (¬ PteLeaf pte ∧ (i = 0 ∨ ∃ j, i = j + 1 ∧ WalkPageFaults s sch acc p va j (ptePpn sch pte * 4096)))) := by
  rw [WalkPageFaults.eq_def s sch acc p va i a, ← exists_or]
  simp only [pteAt_iff, and_assoc, ← and_or_left]
  refine exists_congr fun pte => and_congr_right fun _ => ?_
  rw [← or_assoc, ← not_pteValid_iff]
  by_cases hv : PteValid pte
  · have hW : ¬ PteLeaf pte → pteW pte = false := fun hl =>
      hv.2.resolve_left (by simp [(not_pteLeaf_iff.mp hl).1])
    simp only [hv, not_true_eq_false, false_or, true_and]
    refine or_congr Iff.rfl ⟨?_, ?_⟩
    · rintro ⟨hR, -, hX, hrest⟩
      exact ⟨not_pteLeaf_iff.mpr ⟨hR, hX⟩, by cases i; exacts [.inl rfl, .inr ⟨_, rfl, hrest⟩]⟩
    · rintro ⟨hl, rfl | ⟨j, rfl, hnext⟩⟩
      · exact ⟨(not_pteLeaf_iff.mp hl).1, hW hl, (not_pteLeaf_iff.mp hl).2, trivial⟩
      · exact ⟨(not_pteLeaf_iff.mp hl).1, hW hl, (not_pteLeaf_iff.mp hl).2, hnext⟩
  · simp [hv]

theorem walkAccessFaults_iff {s : State} {sch : Scheme} {acc : Access} {p : Priv} {va i a : Nat} :
    WalkAccessFaults s sch acc p va i a ↔
      s.physAllows s.pmp .load .supervisor (a + vpnField sch va i * pteSize sch) (pteSize sch) = false ∨
      ∃ pte, PteAt s sch (a + vpnField sch va i * pteSize sch) pte ∧
        ((PteLeaf pte ∧ ¬ LeafPageFaults s sch acc p i pte ∧ NeedsUpdate acc pte
            ∧ (s.physAllows s.pmp .store .supervisor (a + vpnField sch va i * pteSize sch) (pteSize sch) = false
              ∨ pmaAtomic s.pma (a + vpnField sch va i * pteSize sch) (pteSize sch) = false))
          ∨ (¬ PteLeaf pte ∧ ∃ j, i = j + 1 ∧ WalkAccessFaults s sch acc p va j (ptePpn sch pte * 4096))) := by
  rw [WalkAccessFaults.eq_def s sch acc p va i a]
  refine or_congr_right (exists_congr fun pte => and_congr_right fun _ => or_congr_right ?_)
  rw [not_pteLeaf_iff, and_assoc]
  cases i <;> simp

/-- A walk raises the page fault exactly as the steps of R181 do. -/
theorem State.walk_pageFault_iff {s : State} {sch : Scheme} {acc : Access} {p : Priv} {va : Word} (level : Nat)
    {a : Nat} {g : Bool} {path : List TlbEntry} :
    s.walk sch acc p va level a g path = .exc acc.pageFault va ↔ WalkPageFaults s sch acc p va.toNat level a := by
  induction level using Nat.strong_induction_on generalizing a g path with
  | _ level ih =>
    rw [State.walk_exc_iff, walkPageFaults_iff, State.readPte_pageFault_iff]
    refine or_congr Iff.rfl (exists_congr fun pte => and_congr_right fun _ => ?_)
    rw [State.walkLeaf_pageFault_iff, exists_congr fun i => and_congr_right fun hi => ih i (by omega)]
    simp only [and_true]

/-- A walk raises the access fault exactly where a read, or the update of R183, fails its checks. -/
theorem State.walk_accessFault_iff {s : State} {sch : Scheme} {acc : Access} {p : Priv} {va : Word} (level : Nat)
    {a : Nat} {g : Bool} {path : List TlbEntry} :
    s.walk sch acc p va level a g path = .exc acc.accessFault va ↔
      WalkAccessFaults s sch acc p va.toNat level a := by
  induction level using Nat.strong_induction_on generalizing a g path with
  | _ level ih =>
    rw [State.walk_exc_iff, walkAccessFaults_iff, State.readPte_accessFault_iff]
    refine or_congr Iff.rfl (exists_congr fun pte => and_congr_right fun _ => ?_)
    rw [State.walkLeaf_accessFault_iff, exists_congr fun i => and_congr_right fun hi => ih i (by omega)]
    simp only [acc.accessFault_ne_pageFault, false_and, and_false, false_or]
    rfl

/-! ## The entries that a walk reads -/

theorem State.walk_of_leaf {s : State} {sch : Scheme} {acc : Access} {p : Priv} {va pte : Word} {i a : Nat} {g : Bool}
    {path : List TlbEntry} (hr : PteAt s sch (pteAddress sch va i a) pte) (hl : PteLeaf pte) :
    s.walk sch acc p va i a g path =
      s.walkLeaf sch acc p va i (g || pteG pte) pte (pteAddress sch va i a) path := by
  rw [State.walk.eq_def, State.readPte_ok_iff.mpr hr]
  exact if_pos (pteLeaf_iff.mpr hl)

theorem State.walk_of_pointer {s : State} {sch : Scheme} {acc : Access} {p : Priv} {va ptr : Word} {i a : Nat}
    {g : Bool} {path : List TlbEntry} (hr : PteAt s sch (pteAddress sch va (i + 1) a) ptr) (hl : ¬ PteLeaf ptr) :
    s.walk sch acc p va (i + 1) a g path =
      s.walk sch acc p va i (ptePpn sch ptr * 4096) (g || pteG ptr)
        (s.tlbEntryFor sch va.toNat (i + 1) (g || pteG ptr) ptr :: path) := by
  rw [State.walk.eq_def, State.readPte_ok_iff.mpr hr]
  exact if_neg (mt pteLeaf_iff.mp hl)

/-- A walk that succeeds reaches a leaf. -/
theorem State.walk_reaches {s : State} {sch : Scheme} {acc : Access} {p : Priv} {va : Word} (level : Nat)
    {a : Nat} {g : Bool} {path : List TlbEntry} {t : Translated}
    (h : s.walk sch acc p va level a g path = .ok t) :
    ∃ l at_ pte, LeafReached s sch va.toNat level a l at_ pte := by
  induction level generalizing a g path with
  | zero =>
    obtain ⟨pte, hr, ⟨hl, -⟩ | ⟨-, i, hi, -⟩⟩ := State.walk_ok.mp h
    · exact ⟨_, _, _, .leaf 0 a pte (State.readPte_ok_iff.mp hr) (pteLeaf_iff.mp hl)⟩
    · cases hi
  | succ i ih =>
    obtain ⟨pte, hr, ⟨hl, -⟩ | ⟨hl, j, hj, hw⟩⟩ := State.walk_ok.mp h
    · exact ⟨_, _, _, .leaf (i + 1) a pte (State.readPte_ok_iff.mp hr) (pteLeaf_iff.mp hl)⟩
    · cases hj
      obtain ⟨l, at_, leaf, hreach⟩ := ih hw
      exact ⟨l, at_, leaf, .pointer i a l at_ pte leaf (State.readPte_ok_iff.mp hr)
        (not_pteLeaf_iff.mp (pteLeaf_eq_false_iff.mp hl)) hreach⟩

/-- The leaf that a walk reaches is what the hart reads there. -/
theorem LeafReached.pteRead {s : State} {sch : Scheme} {va i a l at_ : Nat} {pte : Word}
    (h : LeafReached s sch va i a l at_ pte) : PteRead s sch at_ pte := by
  induction h with
  | leaf _ _ _ hr _ => exact (pteAt_iff.mp hr).1
  | pointer _ _ _ _ _ _ _ _ _ ih => exact ih

/-- Of a valid entry the `G` bit counts. -/
theorem PteValid.global {pte : Word} (h : PteValid pte) (g : Bool) :
    (g || (pteV pte && (pteR pte || !pteW pte) && pteG pte)) = (g || pteG pte) := by
  obtain ⟨hV, hR | hW⟩ := h
  · simp [hV, hR]
  · simp [hV, hW]

theorem entryRead_leaf_iff {s : State} {sch : Scheme} {va i a l : Nat} {g g' : Bool} {pte q : Word}
    (hr : PteAt s sch (a + vpnField sch va i * pteSize sch) pte) (hl : PteLeaf pte) :
    EntryRead s sch va i a g l q g' ↔ l = i ∧ q = pte ∧ g' = (g || pteG pte) := by
  constructor
  · intro h
    cases h with
    | here _ _ _ _ hq =>
      obtain rfl := hr.unique hq
      exact ⟨rfl, rfl, hr.valid.global g⟩
    | deeper _ _ _ _ _ ptr _ hptr hnot =>
      obtain rfl := hr.unique (pteAt_iff.mp hptr).1
      exact absurd hl (not_pteLeaf_iff.mpr hnot)
  · rintro ⟨rfl, rfl, rfl⟩
    rw [← hr.valid.global g]
    exact .here _ _ _ _ (pteAt_iff.mp hr).1

theorem entryRead_pointer_iff {s : State} {sch : Scheme} {va i a l : Nat} {g g' : Bool} {ptr q : Word}
    (hr : PteAt s sch (a + vpnField sch va (i + 1) * pteSize sch) ptr) (hl : ¬ PteLeaf ptr) :
    EntryRead s sch va (i + 1) a g l q g' ↔
      (l = i + 1 ∧ q = ptr ∧ g' = (g || pteG ptr))
        ∨ EntryRead s sch va i (ptePpn sch ptr * 4096) (g || pteG ptr) l q g' := by
  constructor
  · intro h
    cases h with
    | here _ _ _ _ hq =>
      obtain rfl := hr.unique hq
      exact .inl ⟨rfl, rfl, hr.valid.global g⟩
    | deeper _ _ _ _ _ ptr' _ hptr _ hnext =>
      obtain rfl := hr.unique (pteAt_iff.mp hptr).1
      exact .inr hnext
  · rintro (⟨rfl, rfl, rfl⟩ | hnext)
    · rw [← hr.valid.global g]
      exact .here _ _ _ _ (pteAt_iff.mp hr).1
    · exact .deeper _ _ _ _ _ ptr _ hr (not_pteLeaf_iff.mp hl) hnext

/-- The cache entry `e` holds an entry that the walk reads from level `i` of the table at `a` on, a leaf as `f`
makes it. -/
structure ReadFrom (s : State) (sch : Scheme) (va : Nat) (f : Word → Word) (i a : Nat) (g : Bool)
    (e : TlbEntry) : Prop where
  read : ∃ pte, EntryRead s sch va i a g e.level pte e.global
    ∧ e.pte = if pteR pte || pteX pte then f pte else pte
  asid : e.asid = presentAsid s
  page : e.vpn = va / 2 ^ (12 + e.level * vpnBits sch)
  pmp : e.pmp = s.pmp

theorem eq_tlbEntryFor_iff {s : State} {sch : Scheme} {va l : Nat} {g : Bool} {pte : Word} {e : TlbEntry} :
    e = s.tlbEntryFor sch va l g pte ↔
      (e.level = l ∧ e.pte = pte ∧ e.global = g) ∧ e.asid = presentAsid s
        ∧ e.vpn = va / 2 ^ (12 + e.level * vpnBits sch) ∧ e.pmp = s.pmp := by
  constructor
  · rintro rfl
    exact ⟨⟨rfl, rfl, rfl⟩, rfl, rfl, rfl⟩
  · obtain ⟨asid, global, level, vpn, q, pmp⟩ := e
    rintro ⟨⟨rfl, rfl, rfl⟩, hasid, hpage, hpmp⟩
    dsimp only at hasid hpage hpmp
    rw [hasid, hpage, hpmp]
    rfl

section
variable {s : State} {sch : Scheme} {va i a : Nat} {f : Word → Word} {g : Bool} {e : TlbEntry}

theorem readFrom_leaf_iff {pte : Word} (hr : PteAt s sch (a + vpnField sch va i * pteSize sch) pte)
    (hl : PteLeaf pte) : ReadFrom s sch va f i a g e ↔ e = s.tlbEntryFor sch va i (g || pteG pte) (f pte) := by
  have hif : (pteR pte || pteX pte) = true := pteLeaf_iff.mpr hl
  rw [eq_tlbEntryFor_iff]
  constructor
  · rintro ⟨⟨q, hq, hpte⟩, hasid, hpage, hpmp⟩
    obtain ⟨hlev, rfl, hg⟩ := (entryRead_leaf_iff hr hl).mp hq
    rw [if_pos hif] at hpte
    exact ⟨⟨hlev, hpte, hg⟩, hasid, hpage, hpmp⟩
  · rintro ⟨⟨hlev, hpte, hg⟩, hasid, hpage, hpmp⟩
    exact ⟨⟨pte, (entryRead_leaf_iff hr hl).mpr ⟨hlev, rfl, hg⟩, by rw [if_pos hif, hpte]⟩, hasid, hpage, hpmp⟩

theorem readFrom_pointer_iff {ptr : Word} (hr : PteAt s sch (a + vpnField sch va (i + 1) * pteSize sch) ptr)
    (hl : ¬ PteLeaf ptr) :
    ReadFrom s sch va f (i + 1) a g e ↔ e = s.tlbEntryFor sch va (i + 1) (g || pteG ptr) ptr
      ∨ ReadFrom s sch va f i (ptePpn sch ptr * 4096) (g || pteG ptr) e := by
  have hif : ¬ (pteR ptr || pteX ptr) = true := mt pteLeaf_iff.mp hl
  rw [eq_tlbEntryFor_iff]
  constructor
  · rintro ⟨⟨q, hq, hpte⟩, hasid, hpage, hpmp⟩
    rcases (entryRead_pointer_iff hr hl).mp hq with ⟨hlev, rfl, hg⟩ | hnext
    · rw [if_neg hif] at hpte
      exact .inl ⟨⟨hlev, hpte, hg⟩, hasid, hpage, hpmp⟩
    · exact .inr ⟨⟨q, hnext, hpte⟩, hasid, hpage, hpmp⟩
  · rintro (⟨⟨hlev, hpte, hg⟩, hasid, hpage, hpmp⟩ | ⟨⟨q, hnext, hpte⟩, hasid, hpage, hpmp⟩)
    · exact ⟨⟨ptr, (entryRead_pointer_iff hr hl).mpr (.inl ⟨hlev, rfl, hg⟩), by rw [if_neg hif, hpte]⟩, hasid,
        hpage, hpmp⟩
    · exact ⟨⟨q, (entryRead_pointer_iff hr hl).mpr (.inr hnext), hpte⟩, hasid, hpage, hpmp⟩

end

/-- A walk that reaches a leaf is steps 5 to 8 of R181 on it, and the leaf with the path to it are the entries that
the walk reads. -/
theorem LeafReached.walk_eq {s : State} {sch : Scheme} {va : Word} {i a l at_ : Nat} {pte : Word}
    (h : LeafReached s sch va.toNat i a l at_ pte) (acc : Access) (p : Priv) (g : Bool) (path : List TlbEntry) :
    ∃ g' path', s.walk sch acc p va i a g path = s.walkLeaf sch acc p va l g' pte at_ path'
      ∧ ∀ f e, e ∈ s.tlbEntryFor sch va.toNat l g' (f pte) :: path' ↔
          e ∈ path ∨ ReadFrom s sch va.toNat f i a g e := by
  induction h generalizing g path with
  | leaf i a pte hr hl =>
    refine ⟨_, path, State.walk_of_leaf hr hl, fun f e => ?_⟩
    rw [List.mem_cons, readFrom_leaf_iff hr hl, or_comm]
  | pointer i a l at_ ptr pte hr hl hnext ih =>
    have hl : ¬ PteLeaf ptr := not_pteLeaf_iff.mpr hl
    obtain ⟨g', path', hwalk, hmem⟩ :=
      ih (g || pteG ptr) (s.tlbEntryFor sch va.toNat (i + 1) (g || pteG ptr) ptr :: path)
    refine ⟨g', path', (State.walk_of_pointer hr hl).trans hwalk, fun f e => ?_⟩
    rw [hmem, List.mem_cons, readFrom_pointer_iff hr hl, or_assoc, or_left_comm]

/-! ## Cached entries that serve -/

section
variable {s : State} {sch : Scheme} {acc : Access} {p : Priv}

theorem State.updateDue_iff {e : TlbEntry} :
    s.updateDue sch e acc p = true ↔ s.cfg.hardwareADUpdate = true ∧ PteValid e.pte ∧ PteLeaf e.pte
      ∧ ¬ LeafPageFaults s sch acc p e.level e.pte ∧ NeedsUpdate acc e.pte := by
  simp only [State.updateDue, Bool.and_eq_true, Bool.not_eq_true', pteLeaf_iff, ptePermitted_iff, needsAD_iff,
    ← Bool.not_eq_true, pteInvalid_iff, misalignedSuperpage_iff, not_not, not_leafPageFaults_iff]
  tauto

theorem State.tlbServes_iff {va : Nat} {e : TlbEntry} :
    s.tlbServes sch e va acc p = true ↔ e.vpn = va / 2 ^ (12 + e.level * vpnBits sch)
      ∧ (e.global = true ∨ e.asid = presentAsid s ∨ s.cfg.asidTagged = false)
      ∧ ¬(s.cfg.hardwareADUpdate = true ∧ PteValid e.pte ∧ PteLeaf e.pte
        ∧ ¬ LeafPageFaults s sch acc p e.level e.pte ∧ NeedsUpdate acc e.pte) := by
  rw [← State.updateDue_iff]
  simp only [State.tlbServes, Bool.and_eq_true, Bool.or_eq_true, beq_iff_eq, Bool.not_eq_true', Bool.not_eq_true,
    and_assoc, or_assoc]
  rfl

/-- The cached entry that the machine uses is the one that serves (R186). -/
theorem State.tlbChoice_some {va : Nat} {e : TlbEntry} :
    s.tlbChoice sch va acc p = some e ↔ CachedServes s sch acc p va e := by
  unfold State.tlbChoice
  constructor
  · intro h
    split at h
    · cases h
    · next k hk =>
      split at h
      · cases h
      · next e' he =>
        split at h
        · next hserves =>
          cases h
          obtain ⟨hpage, hspace, hno⟩ := State.tlbServes_iff.mp hserves
          exact ⟨⟨k, hk, he⟩, hpage, hspace, hno⟩
        · cases h
  · rintro ⟨⟨k, hk, he⟩, hpage, hspace, hno⟩
    have hserves := State.tlbServes_iff.mpr ⟨hpage, hspace, hno⟩
    simp only [hk, he, hserves, if_true]

theorem State.tlbChoice_none {va : Nat} :
    s.tlbChoice sch va acc p = none ↔ ∀ e, ¬ CachedServes s sch acc p va e := by
  simp only [Option.eq_none_iff_forall_ne_some, ne_eq, State.tlbChoice_some]

theorem CachedServes.unique {va : Nat} {e e' : TlbEntry} (h : CachedServes s sch acc p va e)
    (h' : CachedServes s sch acc p va e') : e = e' :=
  Option.some.inj ((State.tlbChoice_some.mpr h).symm.trans (State.tlbChoice_some.mpr h'))

/-- A leaf that serves is ready or raises a page fault: it never comes to the update of R183. -/
theorem CachedServes.leafReady {va : Nat} {e : TlbEntry} (h : CachedServes s sch acc p va e) (hv : PteValid e.pte)
    (hl : PteLeaf e.pte) (hf : ¬ LeafPageFaults s sch acc p e.level e.pte) : LeafReady s sch acc p e.level e.pte := by
  rcases leaf_cases s sch acc p e.level e.pte with hf' | hr | ⟨-, hn⟩
  · exact absurd hf' hf
  · exact hr
  · exact absurd ⟨(not_leafPageFaults_iff.mp hf).2.2 hn, hv, hl, hf, hn⟩ h.noUpdate

/-- How a translation starts: with a walk, with a cached leaf that is ready, or with a cached entry that raises a
page fault. -/
theorem translation_cases (s : State) (sch : Scheme) (acc : Access) (p : Priv) (va : Nat) :
    (∃ i a g, WalkStartsBelow s sch acc p va i a g)
      ∨ (∃ e, CachedServes s sch acc p va e ∧ PteValid e.pte ∧ PteLeaf e.pte ∧ LeafReady s sch acc p e.level e.pte)
      ∨ CachedPageFaults s sch acc p va := by
  by_cases hnone : ∀ e, ¬ CachedServes s sch acc p va e
  · exact .inl ⟨_, _, _, .inl ⟨hnone, rfl, rfl, rfl⟩⟩
  · obtain ⟨e, he⟩ := not_forall_not.mp hnone
    by_cases hv : PteValid e.pte
    · by_cases hl : PteLeaf e.pte
      · by_cases hf : LeafPageFaults s sch acc p e.level e.pte
        · exact .inr (.inr ⟨e, he, .inr (.inl ⟨hl, hf⟩)⟩)
        · exact .inr (.inl ⟨e, he, hv, hl, he.leafReady hv hl hf⟩)
      · cases hlev : e.level with
        | zero => exact .inr (.inr ⟨e, he, .inr (.inr ⟨hl, hlev⟩)⟩)
        | succ i => exact .inl ⟨i, _, _, .inr ⟨e, he, hv, hl, hlev, rfl, rfl⟩⟩
    · exact .inr (.inr ⟨e, he, .inl hv⟩)

/-- There is one place where the walk of an address starts. -/
theorem WalkStartsBelow.unique {va i a j b : Nat} {g g' : Bool} (h : WalkStartsBelow s sch acc p va i a g)
    (h' : WalkStartsBelow s sch acc p va j b g') : i = j ∧ a = b ∧ g = g' := by
  rcases h with ⟨hnone, rfl, rfl, rfl⟩ | ⟨e, he, -, -, hi, rfl, rfl⟩
  · rcases h' with ⟨-, rfl, rfl, rfl⟩ | ⟨e', he', -⟩
    · exact ⟨rfl, rfl, rfl⟩
    · exact absurd he' (hnone e')
  · rcases h' with ⟨hnone, -⟩ | ⟨e', he', -, -, hj, rfl, rfl⟩
    · exact absurd he (hnone e)
    · obtain rfl := he.unique he'
      exact ⟨Nat.succ.inj (hi.symm.trans hj), rfl, rfl⟩

/-- A leaf that serves leaves nothing to walk. -/
theorem CachedServes.not_walkStartsBelow {va i a : Nat} {g : Bool} {e : TlbEntry}
    (h : CachedServes s sch acc p va e) (hl : PteLeaf e.pte) : ¬ WalkStartsBelow s sch acc p va i a g := by
  rintro (⟨hnone, -⟩ | ⟨e', he', -, hl', -⟩)
  · exact hnone e h
  · exact hl' (h.unique he' ▸ hl)

/-! ## Translations -/

variable {va : Word} (hs : s.activeScheme p = some sch)
include hs

theorem State.translate_of_not_canonical (hc : canonical sch va = false) :
    s.translate acc p va = .exc acc.pageFault va := by
  simp [State.translate, hs, hc]

theorem CachedServes.translate_eq {e : TlbEntry} (h : CachedServes s sch acc p va.toNat e)
    (hc : canonical sch va = true) : s.translate acc p va = s.translateCached sch acc p va e := by
  simp [State.translate, hs, hc, State.tlbChoice_some.mpr h]

/-- Where the walk starts, the translation is that walk. -/
theorem WalkStartsBelow.translate_eq {i a : Nat} {g : Bool} (h : WalkStartsBelow s sch acc p va.toNat i a g)
    (hc : canonical sch va = true) : s.translate acc p va = s.walk sch acc p va i a g [] := by
  rcases h with ⟨hnone, rfl, rfl, rfl⟩ | ⟨e, he, hv, hl, hlev, rfl, rfl⟩
  · simp [State.translate, hs, hc, State.tlbChoice_none.mpr hnone]
  · rw [he.translate_eq hs hc, State.translateCached, if_neg hv.not_invalid,
      if_neg (mt pteLeaf_iff.mp hl), hlev]

theorem CachedServes.translate_of_leafReady {e : TlbEntry} (h : CachedServes s sch acc p va.toNat e)
    (hc : canonical sch va = true) (hv : PteValid e.pte) (hl : PteLeaf e.pte)
    (hr : LeafReady s sch acc p e.level e.pte) :
    s.translate acc p va = .ok
      { state := s
        pa := ptePpn sch e.pte * 4096 + va.toNat % 2 ^ (12 + e.level * vpnBits sch)
        pmp := if s.draws.cachedPmp then e.pmp else s.pmp } := by
  obtain ⟨hperm, hal, -⟩ := not_leafPageFaults_iff.mp hr.not_leafPageFaults
  rw [h.translate_eq hs hc, State.translateCached, if_neg hv.not_invalid,
    if_pos (pteLeaf_iff.mpr hl), if_neg (by simpa using ptePermitted_iff.mpr hperm),
    if_neg (mt misalignedSuperpage_iff.mp (not_not.mpr hal)), if_neg (mt needsAD_iff.mp hr.not_needsUpdate),
    leafAddress_eq _ hal]

theorem CachedPageFaults.translate_eq (h : CachedPageFaults s sch acc p va.toNat) (hc : canonical sch va = true) :
    s.translate acc p va = .exc acc.pageFault va := by
  obtain ⟨e, he, hcase⟩ := h
  rw [he.translate_eq hs hc, State.translateCached]
  by_cases hv : PteValid e.pte
  · rw [if_neg hv.not_invalid]
    rcases hcase with hv' | ⟨hl, hf⟩ | ⟨hl, hlev⟩
    · exact absurd hv hv'
    · rw [if_pos (pteLeaf_iff.mpr hl)]
      split
      · rfl
      · next hperm =>
        split
        · rfl
        · next hal =>
          rw [if_pos (hf.software_update hperm hal).1]
    · rw [if_neg (mt pteLeaf_iff.mp hl), hlev]
  · rw [if_pos (pteInvalid_iff.mpr hv)]

theorem State.translate_pageFault_iff (hc : canonical sch va = true) :
    s.translate acc p va = .exc acc.pageFault va ↔
      (∃ i a, WalkStartsAt s sch acc p va.toNat i a ∧ WalkPageFaults s sch acc p va.toNat i a)
        ∨ CachedPageFaults s sch acc p va.toNat := by
  constructor
  · intro h
    rcases translation_cases s sch acc p va.toNat with ⟨i, a, g, hstart⟩ | ⟨e, he, hv, hl, hr⟩ | hfault
    · rw [hstart.translate_eq hs hc, State.walk_pageFault_iff] at h
      exact .inl ⟨i, a, ⟨g, hstart⟩, h⟩
    · rw [he.translate_of_leafReady hs hc hv hl hr] at h
      cases h
    · exact .inr hfault
  · rintro (⟨i, a, ⟨g, hstart⟩, hwalk⟩ | hfault)
    · rw [hstart.translate_eq hs hc, State.walk_pageFault_iff]
      exact hwalk
    · exact hfault.translate_eq hs hc

/-- A cached entry raises no access fault: only the walk does. -/
theorem State.translate_accessFault_iff (hc : canonical sch va = true) :
    s.translate acc p va = .exc acc.accessFault va ↔
      ∃ i a, WalkStartsAt s sch acc p va.toNat i a ∧ WalkAccessFaults s sch acc p va.toNat i a := by
  constructor
  · intro h
    rcases translation_cases s sch acc p va.toNat with ⟨i, a, g, hstart⟩ | ⟨e, he, hv, hl, hr⟩ | hfault
    · rw [hstart.translate_eq hs hc, State.walk_accessFault_iff] at h
      exact ⟨i, a, ⟨g, hstart⟩, h⟩
    · rw [he.translate_of_leafReady hs hc hv hl hr] at h
      cases h
    · rw [hfault.translate_eq hs hc] at h
      exact absurd (Res.exc.inj h).1 acc.pageFault_ne_accessFault
  · rintro ⟨i, a, ⟨g, hstart⟩, hwalk⟩
    rw [hstart.translate_eq hs hc, State.walk_accessFault_iff]
    exact hwalk

end

/-- What a translation that walks adds to the cache is what the walk reads. -/
theorem WalkStartsBelow.cachedRead_iff {s : State} {sch : Scheme} {acc : Access} {p : Priv} {va i a : Nat} {g : Bool}
    {f : Word → Word} {e : TlbEntry} (h : WalkStartsBelow s sch acc p va i a g) :
    CachedRead s sch acc p va f e ↔ ReadFrom s sch va f i a g e := by
  constructor
  · rintro ⟨⟨j, b, g', pte, hstart, hread, hpte⟩, hasid, hpage, hpmp⟩
    obtain ⟨rfl, rfl, rfl⟩ := h.unique hstart
    exact ⟨⟨pte, hread, hpte⟩, hasid, hpage, hpmp⟩
  · rintro ⟨⟨pte, hread, hpte⟩, hasid, hpage, hpmp⟩
    exact ⟨⟨i, a, g, pte, h, hread, hpte⟩, hasid, hpage, hpmp⟩

/-- A walk of a translation that reaches a leaf is steps 5 to 8 of R181 on it, with in the cache what the walk
reads. -/
theorem LeafReached.translate_eq {s : State} {sch : Scheme} {acc : Access} {p : Priv} {va : Word} {i a l at_ : Nat}
    {g : Bool} {pte : Word} (h : LeafReached s sch va.toNat i a l at_ pte) (hs : s.activeScheme p = some sch)
    (hc : canonical sch va = true) (hstart : WalkStartsBelow s sch acc p va.toNat i a g) :
    ∃ g' path, s.translate acc p va = s.walkLeaf sch acc p va l g' pte at_ path
      ∧ ∀ f e, e ∈ s.tlbEntryFor sch va.toNat l g' (f pte) :: path ↔ CachedRead s sch acc p va.toNat f e := by
  obtain ⟨g', path, hwalk, hmem⟩ := h.walk_eq acc p g []
  refine ⟨g', path, (hstart.translate_eq hs hc).trans hwalk, fun f e => ?_⟩
  rw [hmem, hstart.cachedRead_iff]
  simp

/-! ## The statements -/

/-- Settles O50: a translation is a walk, or what a cached entry gives (`translation_cases`); a walk that succeeds is
its leaf's (`LeafReached.translate_eq`). -/
theorem translationIsThePageTableWalk : Obligations.TranslationIsThePageTableWalk := by
  intro s sch acc p va hs
  refine ⟨fun t ht => ?sound, fun i a l at_ pte hc ⟨g, hstart⟩ hreach hr => ?ready,
    fun i a l at_ pte hc ⟨g, hstart⟩ hreach hhw hf hallow hatomic => ?update, fun e hc he hv hl hr =>
      he.translate_of_leafReady hs hc hv hl hr⟩
  case sound =>
    cases hc : canonical sch va with
    | false =>
      rw [State.translate_of_not_canonical hs hc] at ht
      cases ht
    | true =>
      refine ⟨rfl, ?_⟩
      rcases translation_cases s sch acc p va.toNat with ⟨i, a, g, hstart⟩ | ⟨e, he, hv, hl, hr⟩ | hfault
      · have hwalk : s.walk sch acc p va i a g [] = .ok t := (hstart.translate_eq hs hc).symm.trans ht
        obtain ⟨l, at_, pte, hreach⟩ := State.walk_reaches i hwalk
        obtain ⟨g', path, htrans, hmem⟩ := hreach.translate_eq hs hc hstart
        have hdone := State.walkLeaf_done (htrans.symm.trans ht)
        refine ⟨fun e => ?_, .inl ⟨i, a, l, at_, pte, ⟨g, hstart⟩, hreach, hdone.gives⟩⟩
        rw [hdone.tlb, mem_addTlb, hmem]
      · obtain rfl := Res.ok.inj ((he.translate_of_leafReady hs hc hv hl hr).symm.trans ht)
        refine ⟨fun e' => ?_, .inr ⟨e, he, hv, hl, hr, rfl, rfl, rfl⟩⟩
        have hnothing : ¬ CachedRead s sch acc p va.toNat (updatedPte acc) e' := by
          rintro ⟨⟨i, a, g, pte, hstart, -⟩, -⟩
          exact he.not_walkStartsBelow hl hstart
        simp [hnothing]
      · rw [hfault.translate_eq hs hc] at ht
        cases ht
  case ready =>
    obtain ⟨g', path, htrans, -⟩ := hreach.translate_eq hs hc hstart
    obtain ⟨t, hleaf, hdone⟩ := State.walkLeaf_of_leafReady hr
    exact ⟨t, htrans.trans hleaf, hdone.gives⟩
  case update =>
    obtain ⟨g', path, htrans, -⟩ := hreach.translate_eq hs hc hstart
    obtain ⟨t, hleaf, hdone⟩ : ∃ t, s.walkLeaf sch acc p va l g' pte at_ path = .ok t
        ∧ LeafDone s sch acc p va.toNat l g' at_ pte path t := by
      rcases leaf_cases s sch acc p l pte with hf' | hr | ⟨-, hn⟩
      · exact absurd hf' hf
      · exact State.walkLeaf_of_leafReady hr
      · obtain ⟨-, v, hv, -⟩ := hreach.pteRead
        obtain ⟨u, hwrite⟩ := State.physWrite_of_physRead hv (updatedPte acc pte).toNat
        exact State.walkLeaf_of_update hf hn hallow hatomic hwrite
    exact ⟨t, htrans.trans hleaf, hdone.gives⟩

/-- Settles O51: the checks of an access are those of R171 and R174, and a translation raises what its walk, or the
cached entry it starts from, raises (`translation_cases`). -/
theorem translationFaultsAreOfTheAccessType : Obligations.TranslationFaultsAreOfTheAccessType := by
  refine ⟨fun s acc p va n e tval => State.accessAddress_exc, fun s acc p va n t ht => ?denied,
    fun s acc p va n => ⟨fun t => ⟨State.accessAddress_ok, fun ⟨ht, hp⟩ => ?passes⟩, fun e tval ht => ?raises⟩,
    fun s q acc p pa n => State.physAllows_iff, fun l acc pa n width => ⟨pmaAllows_iff, pmaAtomic_iff, isIo_iff⟩,
    fun s sch acc p va hs => ⟨?page, ?access⟩⟩
  case denied =>
    simp only [State.accessAddress, ht, Res.bind]
    cases s.physAllows t.pmp acc p t.pa n <;> simp
  case passes => simp only [State.accessAddress, ht, Res.bind, hp, if_true]
  case raises => simp only [State.accessAddress, ht, Res.bind]
  case page =>
    cases hc : canonical sch va with
    | false => simp [State.translate_of_not_canonical hs hc]
    | true => simp only [State.translate_pageFault_iff hs hc, Bool.true_eq_false, false_or]
  case access =>
    cases hc : canonical sch va with
    | false => simp [State.translate_of_not_canonical hs hc, acc.pageFault_ne_accessFault]
    | true => simp only [State.translate_accessFault_iff hs hc, true_and]

/-- Settles O52: of the outcomes of an instruction (`exec_cases`) a CSR access keeps what `CsrFrame` says, and no
other writes memory, the platform's registers or the inputs. -/
theorem instructionsStoreNothing : Obligations.InstructionsStoreNothing := by
  intro i s t h
  have hkept : t.mem = s.mem ∧ t.mtime = s.mtime ∧ t.mtimecmp = s.mtimecmp ∧ t.lines = s.lines ∧ t.pma = s.pma
      ∧ t.inputs = s.inputs := by
    rcases exec_cases h with ⟨e, tval, rfl⟩ | ⟨f, r, u, hc⟩ | ⟨-, -, rfl⟩ | ⟨-, -, rfl⟩ | ⟨-, -, rfl⟩
      | ⟨-, -, rfl⟩ | ⟨a, b, -, -, rfl⟩
    case inl => simp [State.raise]
    case inr.inl =>
      have hframe : CsrFrame s u := (State.csrUpdate_frame hc.update).1
      obtain ⟨regs, hdone⟩ := s.csrComplete_eq u f.op f.rd r f.src
      rw [hc.result, hdone]
      exact ⟨hframe.mem, hframe.mtime, hframe.mtimecmp, hframe.lines, hframe.pma, hframe.inputs⟩
    all_goals exact ⟨rfl, rfl, rfl, rfl, rfl, rfl⟩
  obtain ⟨hmem, hrest⟩ := hkept
  exact ⟨fun a => by rw [hmem], hrest⟩

end Sys2Proof.Machine
end

section
/-! Family 21, translation and PMP: what a write of a PMP register does to the entries (R172, R175, R176), that
locked entries stay (R175), and that a full SFENCE.VMA leaves no cached translation (R186, R257). -/

namespace Sys2Proof.Machine

/-! ## PMP: writes of an address register -/

/-- `A = 1`, top-of-range, bit by bit (R173). -/
theorem Pmp.isTor_iff {p : Pmp} {i : Nat} :
    p.isTor i = true ↔ pmpBit p i 4 = false ∧ pmpBit p i 3 = true := by
  unfold Pmp.isTor pmpBit
  generalize p.entryCfg[i]?.getD 0 = b
  have hbits : b.extractLsb' 3 2 = 1 ↔ b.getLsbD 4 = false ∧ b.getLsbD 3 = true := by
    constructor
    · intro h
      have hlow := congrArg (BitVec.getLsbD · 0) h
      have hhigh := congrArg (BitVec.getLsbD · 1) h
      exact ⟨by simpa using hhigh, by simpa using hlow⟩
    · rintro ⟨hhigh, hlow⟩
      apply BitVec.eq_of_getLsbD_eq
      intro i hi
      obtain rfl | rfl : i = 0 ∨ i = 1 := by omega
      · simpa using hlow
      · simpa using hhigh
  rw [beq_iff_eq, hbits]

/-- A lock makes writes of address register `i` ignored: that of its own entry, or that of the next one with
top-of-range matching (R175). -/
def PmpAddrLocked (p : Pmp) (c : Config) (i : Nat) : Prop :=
  pmpBit p i 7 = true
    ∨ (i + 1 < c.pmpCount ∧ pmpBit p (i + 1) 7 = true ∧ pmpBit p (i + 1) 4 = false ∧ pmpBit p (i + 1) 3 = true)

theorem pmpAddrLocked_iff {p : Pmp} {c : Config} {i : Nat} :
    (p.locked i || (decide (i + 1 < c.pmpCount) && p.locked (i + 1) && p.isTor (i + 1))) = true
      ↔ PmpAddrLocked p c i := by
  simp only [Bool.or_eq_true, Bool.and_eq_true, decide_eq_true_eq, Pmp.isTor_iff, PmpAddrLocked, and_assoc]
  rfl

theorem State.writePmpaddr_of_locked {s : State} {n : Fin 16} (h : PmpAddrLocked s.pmp s.cfg n.val) (v : Word) :
    s.writePmpaddr n v = s :=
  if_pos (pmpAddrLocked_iff.mpr h)

theorem State.writePmpaddr_of_not_locked {s : State} {n : Fin 16} (h : ¬ PmpAddrLocked s.pmp s.cfg n.val)
    (v : Word) :
    s.writePmpaddr n v = { s with pmp := { s.pmp with entryAddr := s.pmp.entryAddr.set n (s.cfg.legalPmpAddr v) } } :=
  if_neg (mt pmpAddrLocked_iff.mp h)

@[simp] theorem State.writePmpaddr_cfg (s : State) (n : Fin 16) (v : Word) : (s.writePmpaddr n v).cfg = s.cfg := by
  unfold State.writePmpaddr; split <;> rfl

/-- A write of an address register changes no configuration. -/
@[simp] theorem State.writePmpaddr_entryCfg (s : State) (n : Fin 16) (v : Word) :
    (s.writePmpaddr n v).pmp.entryCfg = s.pmp.entryCfg := by
  unfold State.writePmpaddr; split <;> rfl

/-- A write of an address register changes no other address, and none that a lock holds (R175). -/
theorem State.writePmpaddr_keeps {s : State} {n j : Fin 16} (h : j ≠ n ∨ PmpAddrLocked s.pmp s.cfg j.val) (v : Word) :
    (s.writePmpaddr n v).pmp.entryAddr[j] = s.pmp.entryAddr[j] := by
  by_cases hl : PmpAddrLocked s.pmp s.cfg n.val
  · rw [State.writePmpaddr_of_locked hl]
  · have hne : n.val ≠ j.val := by
      intro he
      obtain rfl := Fin.ext he
      exact h.elim (fun hj => hj rfl) hl
    rw [State.writePmpaddr_of_not_locked hl]
    simp [Vector.getElem_set_ne, hne]

/-! ## PMP: writes of a configuration register -/

/-- `pmpcfg k` holds the configuration of entry `i` (R172). -/
def PmpcfgHolds (c : Config) (k : Fin 4) (i : Fin 16) : Prop :=
  4 * k.val ≤ i.val ∧ i.val < 4 * k.val + pmpPerReg c ∧ i.val < c.pmpCount

theorem pmpPerReg_eq (c : Config) : pmpPerReg c = if c.xlen = .rv32 then 4 else 8 := by
  unfold pmpPerReg; cases c.xlen <;> rfl

/-- An entry that the register holds, and that is not locked, takes its byte of the value, made legal. -/
theorem State.writePmpcfg_sets {s : State} {k : Fin 4} {i : Fin 16} (hi : PmpcfgHolds s.cfg k i)
    (hu : pmpBit s.pmp i.val 7 = false) (v : Word) :
    (s.writePmpcfg k v).pmp.entryCfg[i] = s.cfg.legalPmpByte i (v.extractLsb' (8 * (i.val - 4 * k.val)) 8) := by
  obtain ⟨hlo, hhi, hcount⟩ := hi
  have hlock : s.pmp.locked i.val = false := hu
  simp [State.writePmpcfg, hlo, hhi, hcount, hlock]

/-- An entry that the register does not hold, or that is locked, keeps its configuration (R175). -/
theorem State.writePmpcfg_keeps {s : State} {k : Fin 4} {i : Fin 16}
    (h : ¬ PmpcfgHolds s.cfg k i ∨ pmpBit s.pmp i.val 7 = true) (v : Word) :
    (s.writePmpcfg k v).pmp.entryCfg[i] = s.pmp.entryCfg[i] := by
  have hno : ¬(4 * k.val ≤ i.val ∧ i.val < 4 * k.val + pmpPerReg s.cfg ∧ i.val < s.cfg.pmpCount
      ∧ s.pmp.locked i.val = false) := by
    rintro ⟨hlo, hhi, hcount, hlock⟩
    rcases h with h | h
    · exact h ⟨hlo, hhi, hcount⟩
    · exact Bool.false_ne_true (hlock.symm.trans h)
  simp only [State.writePmpcfg, Fin.getElem_fin, Vector.getElem_ofFn, if_neg hno]

/-! ## PMP: what the registers read as -/

theorem byteOf_or (v w : Word) (j : Nat) : byteOf (v ||| w) j = byteOf v j ||| byteOf w j := by
  apply BitVec.eq_of_getLsbD_eq
  intro k hk
  simp [byteOf, hk]

/-- A byte put at place `i` of a word stands there and nowhere else. -/
theorem byteOf_shiftLeft (b : Byte) (i : Nat) {j : Nat} (hj : j < 8) :
    byteOf (b.zeroExtend 64 <<< (8 * i)) j = if i = j then b else 0 := by
  apply BitVec.eq_of_getLsbD_eq
  intro k hk
  have hword : 8 * j + k < 64 := by omega
  have hbit : (byteOf (b.zeroExtend 64 <<< (8 * i)) j).getLsbD k
      = (!decide (8 * j + k < 8 * i) && b.getLsbD (8 * j + k - 8 * i)) := by
    simp [byteOf, hk, hword]
  rw [hbit]
  rcases Nat.lt_trichotomy i j with hlt | rfl | hlt
  · rw [if_neg (by omega), BitVec.getLsbD_of_ge b _ (by omega)]
    simp
  · rw [if_pos rfl, Nat.add_sub_cancel_left]
    simp
  · rw [if_neg (by omega), decide_eq_true (by omega : 8 * j + k < 8 * i)]
    simp

/-- Each byte of `pmpcfg k` is the configuration of its entry; bytes of entries that do not exist read zero (R172). -/
theorem State.byteOf_pmpcfgValue (s : State) (k : Fin 4) {j : Nat} (hj : j < pmpPerReg s.cfg) :
    byteOf (s.pmpcfgValue k) j
      = if 4 * k.val + j < s.cfg.pmpCount then s.pmp.entryCfg[4 * k.val + j]?.getD 0 else 0 := by
  have hplace : ∀ i, j < 8 → byteOf (if 4 * k.val + i < s.cfg.pmpCount then
        ((s.pmp.entryCfg[4 * k.val + i]?.getD 0).zeroExtend 64) <<< (8 * i) else 0) j
      = if i = j then (if 4 * k.val + j < s.cfg.pmpCount then s.pmp.entryCfg[4 * k.val + j]?.getD 0 else 0)
        else 0 := by
    intro i hj8
    by_cases hij : i = j
    · subst hij
      split
      · rw [byteOf_shiftLeft _ _ hj8]
      · simp [byteOf]
    · rw [if_neg hij]
      split
      · rw [byteOf_shiftLeft _ _ hj8, if_neg hij]
      · simp [byteOf]
  unfold pmpPerReg at hj
  unfold State.pmpcfgValue
  cases hx : s.cfg.xlen <;> rw [hx] at hj <;> dsimp only at hj ⊢
  case rv32 =>
    have hj8 : j < 8 := by omega
    simp only [byteOf_or, hplace _ hj8]
    interval_cases j <;> simp
  case rv64 =>
    simp only [byteOf_or, hplace _ hj]
    interval_cases j <;> simp

theorem State.readCsr_pmpcfg_byte {s : State} {k : Fin 4} {i : Fin 16} (h : PmpcfgHolds s.cfg k i) :
    (s.readCsr (.pmpcfg k)).extractLsb' (8 * (i.val - 4 * k.val)) 8 = s.pmp.entryCfg[i] := by
  obtain ⟨hlo, hhi, hcount⟩ := h
  have hplace : 4 * k.val + (i.val - 4 * k.val) = i.val := by omega
  have hbyte := s.byteOf_pmpcfgValue k (j := i.val - 4 * k.val) (by omega)
  rw [hplace, if_pos hcount] at hbyte
  simpa [byteOf, State.readCsr] using hbyte

/-- The bits that an address register implements: 33:2 of an address on RV32, 55:2 on RV64 (R172). -/
theorem legalPmpAddr_getLsbD (c : Config) (v : Word) (b : Nat) :
    (c.legalPmpAddr v).getLsbD b = (decide (b < (if c.xlen = .rv32 then 32 else 54)) && v.getLsbD b) := by
  have hlow : ∀ n, n ≤ 64 → (v &&& lowMask n).getLsbD b = (decide (b < n) && v.getLsbD b) := by
    intro n hn
    rw [BitVec.getLsbD_and, lowMask_getLsbD, Bool.and_comm]
    congr 2
    simp only [eq_iff_iff]
    omega
  unfold Config.legalPmpAddr
  cases c.xlen
  case rv32 => exact hlow 32 (by decide)
  case rv64 => exact hlow 54 (by decide)

/-- The bits of an address register: those below the granularity read as ones for NAPOT, and otherwise as zeros
(R176; log entry 14). -/
theorem State.readCsr_pmpaddr_getLsbD (s : State) (n : Fin 16) (b : Nat) :
    (s.readCsr (.pmpaddr n)).getLsbD b =
      (decide (b < (if s.cfg.xlen = .rv32 then 32 else 54))
        && (if s.pmp.entryCfg[n].getLsbD 4 then s.pmp.entryAddr[n].getLsbD b || decide (b < s.cfg.pmpGrain - 1)
          else s.pmp.entryAddr[n].getLsbD b && decide (s.cfg.pmpGrain ≤ b))) := by
  have hwidth : (if s.cfg.xlen = .rv32 then 32 else 54) ≤ 64 := by split <;> decide
  unfold State.readCsr State.pmpaddrValue
  rw [legalPmpAddr_getLsbD]
  by_cases hb : b < (if s.cfg.xlen = .rv32 then 32 else 54)
  · have hb64 : b < 64 := by omega
    congr 1
    split
    · rw [BitVec.getLsbD_or, lowMask_getLsbD]
      simp [hb64]
    · exact clearLow_getLsbD _ _ _
  · simp [hb]

/-! ## PMP: CSR instructions that write -/

section
variable {s t : State} {v : Word}

theorem CsrWritten.pmpcfg_eq {k : Fin 4} (h : CsrWritten s t (.pmpcfg k) v) :
    t.cfg = s.cfg ∧ t.pmp = (s.writePmpcfg k v).pmp := by
  obtain ⟨_, _, _, rfl⟩ := h.eq_write rfl rfl
  rw [h.trunc_eq]
  exact ⟨rfl, rfl⟩

theorem CsrWritten.pmpaddr_eq {i : Fin 16} (h : CsrWritten s t (.pmpaddr i) v) :
    t.cfg = s.cfg ∧ t.pmp = (s.writePmpaddr i v).pmp := by
  obtain ⟨_, _, _, rfl⟩ := h.eq_write rfl rfl
  rw [h.trunc_eq]
  exact ⟨s.writePmpaddr_cfg i v, rfl⟩

/-- Where the parameters make no exception, a byte that can be held is kept (R172, R176). -/
theorem legalPmpByte_of_unexcepted {c : Config} {i : Fin 16} {b : Byte} (hu : Unexcepted c (.pmpcfg i))
    (hb : pmpByteHeld c b) : c.legalPmpByte i b = b := by
  rw [Config.legalPmpByte, Config.legalize_of_unexcepted hu, Config.warlForm, extract_zeroExtend_byte,
    extract_zeroExtend_byte, pmpByteForm_of_held hb]

theorem CsrWritten.pmpcfg_entry {k : Fin 4} {i : Fin 16} (h : CsrWritten s t (.pmpcfg k) v)
    (hi : PmpcfgHolds s.cfg k i) :
    (t.readCsr (.pmpcfg k)).extractLsb' (8 * (i.val - 4 * k.val)) 8 = t.pmp.entryCfg[i]
      ∧ (pmpBit s.pmp i.val 7 = true → t.pmp.entryCfg[i] = s.pmp.entryCfg[i])
      ∧ (pmpBit s.pmp i.val 7 = false → pmpByteHeld s.cfg t.pmp.entryCfg[i]
          ∧ (Unexcepted s.cfg (.pmpcfg i) →
              pmpByteHeld s.cfg (v.extractLsb' (8 * (i.val - 4 * k.val)) 8) →
              t.pmp.entryCfg[i] = v.extractLsb' (8 * (i.val - 4 * k.val)) 8)) := by
  obtain ⟨hcfg, hpmp⟩ := h.pmpcfg_eq
  refine ⟨State.readCsr_pmpcfg_byte (hcfg.symm ▸ hi), fun hlock => ?locked, fun hfree => ?free⟩
  case locked => rw [hpmp, State.writePmpcfg_keeps (.inr hlock)]
  case free =>
    rw [hpmp, State.writePmpcfg_sets hi hfree]
    exact ⟨pmpByteHeld_legalPmpByte _ _ _, legalPmpByte_of_unexcepted⟩

/-- What an address register reads as after a write that no lock makes ignored. -/
theorem CsrWritten.readCsr_pmpaddr {i : Fin 16} (h : CsrWritten s t (.pmpaddr i) v)
    (hfree : ¬ PmpAddrLocked s.pmp s.cfg i.val) (b : Nat) :
    (t.readCsr (.pmpaddr i)).getLsbD b =
      (decide (b < (if s.cfg.xlen = .rv32 then 32 else 54))
        && (if t.pmp.entryCfg[i].getLsbD 4 then v.getLsbD b || decide (b < s.cfg.pmpGrain - 1)
          else v.getLsbD b && decide (s.cfg.pmpGrain ≤ b))) := by
  obtain ⟨hcfg, hpmp⟩ := h.pmpaddr_eq
  have haddr : t.pmp.entryAddr[i] = s.cfg.legalPmpAddr v := by
    rw [hpmp, State.writePmpaddr_of_not_locked hfree]
    exact Vector.getElem_set_self _
  rw [State.readCsr_pmpaddr_getLsbD, hcfg, haddr, legalPmpAddr_getLsbD]
  cases decide (b < (if s.cfg.xlen = .rv32 then 32 else 54)) <;> simp

end

/-- Settles O47: a write of a PMP register is `writePmpcfg` or `writePmpaddr`, which reach the entries that no lock
holds, and the check is that of the lowest-numbered matching entry. -/
theorem pmpCheckFollowsMatchedEntry : Obligations.PmpCheckFollowsMatchedEntry := by
  refine ⟨?cfg, ?cfgFrame, ?addrFrame, ?addr, fun p c acc priv => ⟨fun pa n hn => ?one, fun parts _ hpos => ?parts⟩⟩
  case cfg =>
    intro s t v k i h hlo hhi hcount
    exact h.pmpcfg_entry ⟨hlo, by rwa [pmpPerReg_eq], hcount⟩
  case cfgFrame =>
    intro s t v k h
    obtain ⟨-, hpmp⟩ := h.pmpcfg_eq
    rw [hpmp]
    exact ⟨rfl, fun i hi => State.writePmpcfg_keeps (.inl (by rwa [PmpcfgHolds, pmpPerReg_eq])) v⟩
  case addrFrame =>
    intro s t v i h
    obtain ⟨-, hpmp⟩ := h.pmpaddr_eq
    rw [hpmp]
    exact ⟨s.writePmpaddr_entryCfg i v, fun j hj => State.writePmpaddr_keeps (.inl hj) v,
      fun hl => State.writePmpaddr_keeps (.inr hl) v⟩
  case addr =>
    intro s t v i h hown hnext
    exact h.readCsr_pmpaddr (not_or.mpr ⟨by simp [hown], hnext⟩)
  case one => exact Pmp.allowsParts_iff_pmpGrants (by simpa using hn)
  case parts => exact Pmp.allowsParts_iff_pmpGrants hpos

/-! ## PMP: locked entries stay (R175) -/

/-- `q` holds every configuration that is locked in `p`, and every address that a lock in `p` holds. -/
structure PmpLocksKept (c : Config) (p q : Pmp) : Prop where
  cfg : ∀ i : Fin 16, pmpBit p i.val 7 = true → q.entryCfg[i] = p.entryCfg[i]
  addr : ∀ i : Fin 16, PmpAddrLocked p c i.val → q.entryAddr[i] = p.entryAddr[i]

theorem PmpLocksKept.refl (c : Config) (p : Pmp) : PmpLocksKept c p p := ⟨fun _ _ => rfl, fun _ _ => rfl⟩

theorem PmpLocksKept.of_eq {c : Config} {p q : Pmp} (h : q = p) : PmpLocksKept c p q :=
  h ▸ PmpLocksKept.refl c p

/-- A write of a CSR keeps what is locked: only those of the PMP registers reach the entries. -/
theorem State.writeCsr_pmpLocksKept {s t : State} {r : Csr} {v : Word} (h : s.writeCsr r v = some t) :
    PmpLocksKept s.cfg s.pmp t.pmp := by
  by_cases hg : r.group = .pmp
  · cases r <;> simp only [Csr.group, reduceCtorEq] at hg
    case pmpcfg k =>
      obtain rfl := Option.some.inj h
      exact ⟨fun i hi => State.writePmpcfg_keeps (.inr hi) _, fun _ _ => rfl⟩
    case pmpaddr n =>
      obtain rfl := Option.some.inj h
      exact ⟨fun i _ => by rw [State.writePmpaddr_entryCfg], fun i hi => State.writePmpaddr_keeps (.inr hi) _⟩
  · exact .of_eq (State.writeCsr_sameGroup h (g := .pmp) (Ne.symm hg))

theorem State.csrUpdate_pmpLocksKept {s t : State} {op : CsrOp} {rd : Reg} {r : Csr} {src : CsrSource}
    (h : s.csrUpdate op rd r src = some t) : PmpLocksKept s.cfg s.pmp t.pmp := by
  obtain ⟨u, hu, ht⟩ := State.csrUpdate_cases h
  have hread : u.cfg = s.cfg ∧ u.pmp = s.pmp := by
    rcases hu with rfl | rfl
    · exact ⟨rfl, rfl⟩
    · rcases s.afterRead_cases r with ⟨-, e⟩ | ⟨-, -, -, e⟩ | e <;> rw [e] <;> exact ⟨rfl, rfl⟩
  rw [← hread.1, ← hread.2]
  rcases ht with rfl | ⟨v, hw⟩
  · exact .refl _ _
  · exact State.writeCsr_pmpLocksKept hw

@[simp] theorem State.csrComplete_pmp (s t : State) (op : CsrOp) (rd : Reg) (r : Csr) (src : CsrSource) :
    (s.csrComplete t op rd r src).pmp = t.pmp := by
  obtain ⟨regs, he⟩ := s.csrComplete_eq t op rd r src
  rw [he]

/-- Of the instructions those that access CSRs reach the PMP entries. -/
theorem exec_pmpLocksKept {i : Instr} {s t : State} (h : exec i s = .next t) : PmpLocksKept s.cfg s.pmp t.pmp := by
  rcases exec_cases h with ⟨e, tval, rfl⟩ | ⟨f, r, u, hc⟩ | ⟨-, -, rfl⟩ | ⟨-, -, rfl⟩ | ⟨-, -, rfl⟩
    | ⟨-, -, rfl⟩ | ⟨a, b, -, -, rfl⟩
  case inl => exact .of_eq (by simp [State.raise])
  case inr.inl =>
    rw [hc.result, State.csrComplete_pmp]
    exact State.csrUpdate_pmpLocksKept hc.update
  all_goals exact .of_eq rfl

theorem State.runNext_pmpLocksKept {s t : State} (h : s.runNext = .next t) : PmpLocksKept s.cfg s.pmp t.pmp := by
  rcases State.runNext_cases h with ⟨e, tval, -, rfl⟩ | ⟨u, w, -, hf, hd⟩
  · exact .of_eq (by simp [State.raise])
  · have hu := hf.inputFrame
    rw [← hu.cfg, ← hu.pmp]
    rcases hd with ⟨i, -, he⟩ | ⟨w', -, rfl⟩
    · exact exec_pmpLocksKept he
    · exact .of_eq (by simp [State.illegal, State.raise])

theorem State.cycle_pmpLocksKept {s t : State} {wake : Bool} (h : s.cycle wake = .next t) :
    PmpLocksKept s.cfg s.pmp t.pmp := by
  rcases State.cycle_cases h with ⟨-, rfl⟩ | ⟨i, -, rfl⟩ | ⟨-, hr⟩
  · exact .refl _ _
  · exact .of_eq (by simp [State.takeInterrupt])
  · exact State.runNext_pmpLocksKept (s := { s with waiting := false }) hr

/-- A step that is no reset keeps every PMP register that a lock holds. -/
theorem step_pmpLocksKept {s t : State} (hn : s.noReset = true) (h : step s = .next t) :
    PmpLocksKept s.cfg s.pmp t.pmp := by
  rcases step_cases h with ⟨i, rest, hi, hr, -⟩ | ⟨-, hc⟩ | ⟨i, rest, u, -, -, hu, hc⟩
  · simp [State.noReset, hi, hr] at hn
  · exact State.cycle_pmpLocksKept hc
  · have hkept := State.cycle_pmpLocksKept hc
    rwa [hu.cfg, hu.pmp] at hkept

/-- A locked entry that decides for an access of M-mode must permit it (R175). -/
theorem Pmp.permitted_of_locked {p : Pmp} {c : Config} {acc : Access} {priv : Priv} {pa n i : Nat}
    (hd : p.deciding c pa n = some i) (hlock : pmpBit p i 7 = true) (ha : p.allows c acc priv pa n = true) :
    pmpBit p i (permissionBit acc) = true := by
  have hd : p.decidingParts c [(pa, n)] = some i := hd
  have hlock : p.locked i = true := hlock
  rw [Pmp.allows, Pmp.allowsParts, hd] at ha
  rw [← Pmp.permits_eq_pmpBit]
  simpa [hlock] using (Bool.and_eq_true_iff.mp ha).2

/-- Settles O48: a step that is no reset keeps what a lock holds, the address below a locked top-of-range entry among
it, and the check takes a locked entry's bits in M-mode too. -/
theorem lockedPmpEntriesStayUntilReset : Obligations.LockedPmpEntriesStayUntilReset := by
  intro s t k hn hstep hk hlock
  have hkept : PmpLocksKept s.cfg s.pmp t.pmp := step_pmpLocksKept hn hstep
  refine ⟨hkept.cfg k hlock, hkept.addr k (.inl hlock), fun j hj hhigh hlow => ?_, fun acc pa n hd ha =>
    Pmp.permitted_of_locked hd hlock ha⟩
  exact hkept.addr j (.inr (hj ▸ ⟨hk, hlock, hhigh, hlow⟩))

/-! ## SFENCE.VMA -/

theorem exec_sfenceVma_of_legal {s : State} (rs1 rs2 : Reg)
    (h : s.cfg.hasS = true ∧ s.priv ≠ .user ∧ ¬(s.priv = .supervisor ∧ s.mstatus.tvm = true)) :
    exec (.sfenceVma rs1 rs2) s = .next ((s.sfence rs1 rs2).advance true) := by
  obtain ⟨hs, hu, htvm⟩ := h
  have hlegal : s.sfenceIllegal = false := by
    simpa [State.sfenceIllegal, hs, hu] using htvm
  show Host.Outcome.next _ = _
  rw [hlegal]
  rfl

/-- SFENCE.VMA `x0, x0` drops every entry (R257). -/
theorem State.sfence_zero_zero_tlb (s : State) : (s.sfence 0 0).tlb = [] := by
  simp [State.sfence, State.sfenceSelects, sfenceDrops]

/-- With an empty cache a translation walks from the root (R181 step 1). -/
theorem State.translate_of_tlb_nil {s : State} {acc : Access} {p : Priv} {va : Word} {sch : Scheme}
    (htlb : s.tlb = []) (hs : s.activeScheme p = some sch) (hc : canonical sch va = true) :
    s.translate acc p va = s.walk sch acc p va (schemeLevels sch - 1) (s.cfg.satpPpn s.satp * 4096) false [] := by
  have hnone : ∀ e, ¬ CachedServes s sch acc p va.toNat e := by
    intro e he
    obtain ⟨k, -, hk⟩ := he.drawn
    simp [htlb] at hk
  exact WalkStartsBelow.translate_eq hs (.inl ⟨hnone, rfl, rfl, rfl⟩) hc

/-- Settles O46: the fence leaves the cache empty, so that no draw of the boundary finds an entry. -/
theorem afterFullFenceTranslationsWalk : Obligations.AfterFullFenceTranslationsWalk := by
  intro s t d acc p va sch hexec hlegal hs hc
  obtain rfl := Host.Outcome.next.inj ((exec_sfenceVma_of_legal 0 0 hlegal).symm.trans hexec)
  have htlb : ((s.sfence 0 0).advance true).tlb = [] := s.sfence_zero_zero_tlb
  exact ⟨htlb, State.translate_of_tlb_nil htlb hs hc⟩

end Sys2Proof.Machine
end

section
/-! Family 30, encoding: the encoder and the decoder are inverse to each other, the decoder is the match and mask
table, and what a fetched word that is no instruction does. -/

namespace Sys2Proof

/-! ## Words that decode to an instruction are encodings -/

/-- A word under the SYSTEM opcode, put together again from its I-type fields (R202). -/
theorem encodeI_of_fields {w : BitVec 32} {f3 : BitVec 3} (ho : fieldOpcode w = opSystem) (h3 : fieldFunct3 w = f3) :
    encodeI (fieldCsr w) (fieldUimm w) f3 (fieldRd w) = w := by
  rw [← h3]
  exact (word_eq_fieldsI w).mpr ho

/-- A word with the fixed fields of SFENCE.VMA encodes it, with the registers its other fields name (R203, R207). -/
theorem encode_sfenceVma_of_fields {w : BitVec 32} (ho : fieldOpcode w = opSystem) (h3 : fieldFunct3 w = 0)
    (hd : fieldRd w = 0) (h7 : fieldFunct7 w = 0b0001001) : encode (.sfenceVma (fieldRs1 w) (fieldRs2 w)) = w := by
  have hcsr : fieldFunct7 w ++ regField (fieldRs2 w) = fieldCsr w := by
    rw [fieldFunct7_eq, fieldRs2_eq]
    exact append_parts (fieldCsr w)
  have hw := encodeI_of_fields ho h3
  rw [hd, ← hcsr, h7] at hw
  exact hw

/-- An instruction of R207 that fixes `rs1` and `rd` to zero is the word with its CSR field. -/
theorem encodeI_priv_of_fields {w : BitVec 32} {imm : BitVec 12} (ho : fieldOpcode w = opSystem)
    (h3 : fieldFunct3 w = 0) (hd : fieldRd w = 0) (h1 : fieldRs1 w = 0) (hi : fieldCsr w = imm) :
    encodeI imm 0 0 0 = w := by
  have hu : fieldUimm w = 0 := congrArg regField h1
  have hw := encodeI_of_fields ho h3
  rw [hd, hu, hi] at hw
  exact hw

theorem encode_of_decodePriv {w : BitVec 32} {i : Instr} (ho : fieldOpcode w = opSystem) (h3 : fieldFunct3 w = 0)
    (h : decodePriv w = .instr i) : encode i = w := by
  unfold decodePriv at h
  split_ifs at h with hs hz
  · cases h
    obtain ⟨hd, h7⟩ := hs
    exact encode_sfenceVma_of_fields ho h3 hd h7
  all_goals
    cases h
    obtain ⟨hd, h1⟩ := hz
    exact encodeI_priv_of_fields ho h3 hd h1 ‹_›

/-- Settles O2: each branch of the decoder has tested every field that the encoder fixes, and takes the operands from
the others. -/
theorem encodeInvertsDecode : Obligations.EncodeInvertsDecode := by
  intro w i h
  unfold decodeWord at h
  split_ifs at h with ho h0
  · exact encode_of_decodePriv ho h0 h
  all_goals
    cases h
    exact encodeI_of_fields ho ‹_›

/-! ## Encodings decode to their instruction -/

@[simp] theorem toFin_regField (r : Reg) : (regField r).toFin = r := rfl

@[simp] theorem fieldRs1_encodeI (imm : BitVec 12) (rs1 : BitVec 5) (f3 : BitVec 3) (rd : Reg) :
    fieldRs1 (encodeI imm rs1 f3 rd) = rs1.toFin := by
  rw [fieldRs1_eq, fieldUimm_encodeI]

section
variable (f7 : BitVec 7) (rs2 rs1 : Reg) (f3 : BitVec 3) (rd : Reg)

@[simp] theorem fieldOpcode_encodeR : fieldOpcode (encodeR f7 rs2 rs1 f3 rd) = opSystem := fieldOpcode_encodeI ..

@[simp] theorem fieldRd_encodeR : fieldRd (encodeR f7 rs2 rs1 f3 rd) = rd := fieldRd_encodeI ..

@[simp] theorem fieldFunct3_encodeR : fieldFunct3 (encodeR f7 rs2 rs1 f3 rd) = f3 := fieldFunct3_encodeI ..

@[simp] theorem fieldRs1_encodeR : fieldRs1 (encodeR f7 rs2 rs1 f3 rd) = rs1 := fieldRs1_encodeI ..

@[simp] theorem fieldRs2_encodeR : fieldRs2 (encodeR f7 rs2 rs1 f3 rd) = rs2 := by
  rw [encodeR_eq, fieldRs2_eq, fieldCsr_encodeI, append_low, toFin_regField]

@[simp] theorem fieldFunct7_encodeR : fieldFunct7 (encodeR f7 rs2 rs1 f3 rd) = f7 := by
  rw [encodeR_eq, fieldFunct7_eq, fieldCsr_encodeI, append_high]

end

/-- The decoder reads from each word the fields that the encoder put there. -/
theorem decodeWord_encode (i : Instr) : decodeWord (encode i) = .instr i := by
  cases i with
  | csrrw rd csr rs1 | csrrs rd csr rs1 | csrrc rd csr rs1 | csrrwi rd csr uimm | csrrsi rd csr uimm
  | csrrci rd csr uimm => simp [decodeWord, encode]
  | ecall | ebreak | uret | sret | mret | wfi => decide
  | sfenceVma rs1 rs2 => simp [decodeWord, decodePriv, encode]

/-- Settles O1: the decoder on each constructor's word, and the four bytes of a word are the word. -/
theorem decodeInvertsEncode : Obligations.DecodeInvertsEncode := fun i =>
  ⟨decodeWord_encode i, (decodeBytes_bytesOf (encode i)).trans (decodeWord_encode i)⟩

/-! ## The match and mask table (R208) -/

/-- The word of an instruction matches the row with its mnemonic. -/
theorem exists_row_matches_encode (i : Instr) : Laws.MatchesItsRow.Statement i := by
  cases i with
  | csrrw rd csr rs1 => exact Laws.MatchesItsRow.csrrw rd csr rs1
  | csrrs rd csr rs1 => exact Laws.MatchesItsRow.csrrs rd csr rs1
  | csrrc rd csr rs1 => exact Laws.MatchesItsRow.csrrc rd csr rs1
  | csrrwi rd csr uimm => exact Laws.MatchesItsRow.csrrwi rd csr uimm
  | csrrsi rd csr uimm => exact Laws.MatchesItsRow.csrrsi rd csr uimm
  | csrrci rd csr uimm => exact Laws.MatchesItsRow.csrrci rd csr uimm
  | ecall => exact Laws.MatchesItsRow.ecall
  | ebreak => exact Laws.MatchesItsRow.ebreak
  | uret => exact Laws.MatchesItsRow.uret
  | sret => exact Laws.MatchesItsRow.sret
  | mret => exact Laws.MatchesItsRow.mret
  | wfi => exact Laws.MatchesItsRow.wfi
  | sfenceVma rs1 rs2 => exact Laws.MatchesItsRow.sfenceVma rs1 rs2

/-- No two rows have the same mnemonic. -/
theorem eq_of_mnemonic_eq : ∀ r ∈ opcodeRows, ∀ q ∈ opcodeRows, r.mnemonic = q.mnemonic → r = q := by decide

/-- A word that the mask of the CSR instructions matches is the encoding of its fields (R206). -/
theorem encodeI_of_csr_mask {w : BitVec 32} {f3 : BitVec 3} (h : w &&& 0x0000707F = encodeI 0 0 f3 0) :
    encodeI (fieldCsr w) (fieldUimm w) f3 (fieldRd w) = w :=
  have ⟨ho, h3⟩ := (csr_mask_iff w f3).mp h
  encodeI_of_fields ho h3

/-- A mask of all ones matches one word. -/
theorem eq_of_full_mask {w v : BitVec 32} (h : w &&& 0xFFFFFFFF = v) : v = w :=
  h.symm.trans BitVec.and_allOnes

/-- A word that matches a row is the encoding of an instruction with the mnemonic of the row. -/
theorem exists_encode_of_matches {r : OpcodeRow} {w : BitVec 32} (hr : r ∈ opcodeRows) (h : r.Matches w) :
    ∃ i : Instr, encode i = w ∧ i.mnemonic = r.mnemonic := by
  simp only [opcodeRows, List.mem_cons, List.not_mem_nil, or_false] at hr
  rcases hr with rfl | rfl | rfl | rfl | rfl | rfl | rfl | rfl | rfl | rfl | rfl | rfl | rfl
  · exact ⟨.csrrw (fieldRd w) (fieldCsr w) (fieldRs1 w), encodeI_of_csr_mask h, rfl⟩
  · exact ⟨.csrrs (fieldRd w) (fieldCsr w) (fieldRs1 w), encodeI_of_csr_mask h, rfl⟩
  · exact ⟨.csrrc (fieldRd w) (fieldCsr w) (fieldRs1 w), encodeI_of_csr_mask h, rfl⟩
  · exact ⟨.csrrwi (fieldRd w) (fieldCsr w) (fieldUimm w), encodeI_of_csr_mask h, rfl⟩
  · exact ⟨.csrrsi (fieldRd w) (fieldCsr w) (fieldUimm w), encodeI_of_csr_mask h, rfl⟩
  · exact ⟨.csrrci (fieldRd w) (fieldCsr w) (fieldUimm w), encodeI_of_csr_mask h, rfl⟩
  · exact ⟨.ecall, eq_of_full_mask h, rfl⟩
  · exact ⟨.ebreak, eq_of_full_mask h, rfl⟩
  · exact ⟨.uret, eq_of_full_mask h, rfl⟩
  · exact ⟨.sret, eq_of_full_mask h, rfl⟩
  · exact ⟨.mret, eq_of_full_mask h, rfl⟩
  · exact ⟨.wfi, eq_of_full_mask h, rfl⟩
  · obtain ⟨ho, h3, hd, h7⟩ := (sfence_mask_iff w).mp h
    exact ⟨.sfenceVma (fieldRs1 w) (fieldRs2 w), encode_sfenceVma_of_fields ho h3 hd h7, rfl⟩

/-- A word matches a row exactly where it decodes to an instruction with the row's mnemonic. -/
theorem matches_iff_decodeWord {r : OpcodeRow} (hr : r ∈ opcodeRows) (w : BitVec 32) :
    r.Matches w ↔ ∃ i, decodeWord w = .instr i ∧ i.mnemonic = r.mnemonic := by
  constructor
  · intro h
    obtain ⟨i, rfl, hm⟩ := exists_encode_of_matches hr h
    exact ⟨i, decodeWord_encode i, hm⟩
  · rintro ⟨i, hi, hm⟩
    obtain rfl := encodeInvertsDecode w i hi
    obtain ⟨q, hq, hqi, hmatch⟩ := exists_row_matches_encode i
    obtain rfl := eq_of_mnemonic_eq q hq r hr (hqi.trans hm)
    exact hmatch

/-- Settles O3: rows that a word matches have the mnemonic of the one instruction it decodes to, and so are one. -/
theorem decoderIsMatchMaskTable : Obligations.DecoderIsMatchMaskTable := by
  refine ⟨fun w r hr => matches_iff_decodeWord hr w, ?disjoint⟩
  rintro r hr q hq hne w ⟨hrw, hqw⟩
  obtain ⟨i, hi, hri⟩ := (matches_iff_decodeWord hr w).mp hrw
  obtain ⟨j, hj, hqj⟩ := (matches_iff_decodeWord hq w).mp hqw
  obtain rfl : i = j := Decoded.instr.inj (hi.symm.trans hj)
  exact hne (eq_of_mnemonic_eq r hr q hq (hri.symm.trans hqj))

/-! ## Reserved words (R209) -/

theorem decodePriv_instr_or_reserved (w : BitVec 32) :
    (∃ i, decodePriv w = .instr i) ∨ decodePriv w = .reserved w := by
  unfold decodePriv
  split_ifs <;> simp

/-- Under the SYSTEM opcode a word is an instruction or reserved. -/
theorem decodeWord_instr_or_reserved {w : BitVec 32} (ho : fieldOpcode w = opSystem) :
    (∃ i, decodeWord w = .instr i) ∨ decodeWord w = .reserved w := by
  rw [decodeWord, if_pos ho]
  split_ifs with h0
  · exact decodePriv_instr_or_reserved w
  all_goals simp

/-- A word under the SYSTEM opcode that matches no row is reserved. -/
theorem decodeWord_of_no_match {w : BitVec 32} (ho : fieldOpcode w = opSystem)
    (hno : ∀ r ∈ opcodeRows, ¬ r.Matches w) : decodeWord w = .reserved w := by
  rcases decodeWord_instr_or_reserved ho with ⟨i, hi⟩ | h
  · obtain rfl := encodeInvertsDecode w i hi
    obtain ⟨r, hr, -, hmatch⟩ := exists_row_matches_encode i
    exact absurd hmatch (hno r hr)
  · exact h

theorem decodeWord_of_not_system {w : BitVec 32} (ho : fieldOpcode w ≠ opSystem) : decodeWord w = .notSystem w :=
  if_neg ho

/-- A written word that is the encoding of an instruction decodes to it. -/
theorem decodeWord_of_encode_eq {w : BitVec 32} {i : Instr} (h : encode i = w) : decodeWord w = .instr i :=
  h ▸ decodeWord_encode i

/-- Settles O5: thirteen words are encodings (`decodeWord_encode`), and the two that version 1.10 removed match no
row. -/
theorem writtenWordsDecode : Obligations.WrittenWordsDecode := by
  refine ⟨?_, ?_, ?_, ?_, ?_, ?_, ?_, ?_, ?_, ?_, ?_, ?_, ?_, decodeWord_of_no_match (by decide) ?_,
    decodeWord_of_no_match (by decide) ?_⟩
  case refine_14 => unfold OpcodeRow.Matches; decide
  case refine_15 => unfold OpcodeRow.Matches; decide
  all_goals exact decodeWord_of_encode_eq (by decide)

end Sys2Proof

namespace Sys2Proof.Machine

/-! ## Fetched words that are no instruction -/

/-- What runs next after a fetch is what the decoder makes of the word. -/
theorem State.runNext_of_fetch {s t : State} {w : BitVec 32} (hf : s.fetch = .ok (t, w)) :
    s.runNext = t.runDecoded (decodeWord w) := by
  simp only [State.runNext, hf]

/-- Settles O4: a word that matches no row is reserved (`decodeWord_of_no_match`), and its exception is taken from
the state after the fetch. -/
theorem reservedWordsRaiseIllegal : Obligations.ReservedWordsRaiseIllegal := by
  intro s t w hf
  have hrun := State.runNext_of_fetch hf
  refine ⟨fun ho hno => ?reserved, fun ho => ?other⟩
  case reserved =>
    rw [decodeWord_of_no_match ho hno] at hrun
    obtain ⟨hnext, hstep⟩ := State.runNext_and_step hrun
    exact ⟨t.illegal w, hnext, hstep, t.raise_trapped .illegalInstruction (t.illegalTval w)⟩
  case other =>
    rw [decodeWord_of_not_system ho] at hrun
    exact State.runNext_and_step hrun

end Sys2Proof.Machine
end

section
/-! Family 40, CSR instructions: the checks of an access and what fails them (R221 to R228), which registers exist
(R222), the six instructions as their pseudocode (R230 to R236), and their result and frame. -/

namespace Sys2Proof.Machine

/-! ## Accesses that raise -/

section
variable {s : State} {i : Instr} {f : CsrForm} (hf : csrForm i = some f)
include hf

/-- A CSR instruction whose access fails a check raises an illegal-instruction exception (R221 to R228). -/
theorem raisesIllegal_of_csrAccess_none (h : s.csrAccess f.csr (f.op.writes f.src) = none) : RaisesIllegal i s := by
  refine ⟨s.illegal (encode i), ?_, s.raise_trapped .illegalInstruction (s.illegalTval (encode i))⟩
  rw [exec_csrForm hf, State.csrInstr, h]

theorem raisesIllegal_of_csrAt_none (h : csrAt s.cfg f.csr = none) : RaisesIllegal i s :=
  raisesIllegal_of_csrAccess_none hf (State.csrAccess_none.mpr (.inr (.inr (.inr (.inr h)))))

theorem raisesIllegal_of_gated (h : s.gated f.csr = true) : RaisesIllegal i s :=
  raisesIllegal_of_csrAccess_none hf (State.csrAccess_none.mpr (.inr (.inr (.inr (.inl h)))))

theorem raisesIllegal_of_debugOnly (h : debugOnly f.csr = true) : RaisesIllegal i s :=
  raisesIllegal_of_csrAccess_none hf (State.csrAccess_none.mpr (.inr (.inr (.inl h))))

end

theorem State.mayAccess_eq_false_iff {s : State} {a : CsrAddr} : s.mayAccess a = false ↔ s.priv.enc < csrLevel a := by
  simp [State.mayAccess]

theorem debugOnly_iff {a : CsrAddr} : debugOnly a = true ↔ 0x7B0 ≤ a.toNat ∧ a.toNat ≤ 0x7BF := by
  simp [debugOnly]

/-- Settles O10: the privilege check of `csrAccess` fails. -/
theorem csrNeedsPrivilege : Obligations.CsrNeedsPrivilege := by
  intro s i f hf hlevel
  have hlow : s.mayAccess f.csr = false := State.mayAccess_eq_false_iff.mpr (BitVec.lt_def.mpr hlevel)
  exact raisesIllegal_of_csrAccess_none hf (State.csrAccess_none.mpr (.inl hlow))

/-- Settles O12: the check of `csrAccess` takes the attempt to write, and not the value. -/
theorem csrReadOnlyRefusesWrites : Obligations.CsrReadOnlyRefusesWrites := by
  intro s i f hf hro hw
  have hread : csrReadOnly f.csr = true := beq_iff_eq.mpr hro
  exact raisesIllegal_of_csrAccess_none hf (State.csrAccess_none.mpr (.inr (.inl ⟨hw, hread⟩)))

/-! ## Gates -/

section
variable {s : State} {a : CsrAddr}

/-- An interception: the access is one that a more privileged level traps (R226). -/
theorem State.intercepted_iff : s.intercepted a = true ↔ s.priv ≠ .machine ∧ (s.priv, a) ∈ s.cfg.interceptCsr := by
  simp [State.intercepted]

theorem isUserCounter_iff : isUserCounter a = true ↔
    (0xC00 ≤ a.toNat ∧ a.toNat ≤ 0xC1F) ∨ (0xC80 ≤ a.toNat ∧ a.toNat ≤ 0xC9F) := by
  simp [isUserCounter]

/-- R228 (a): in S-mode `mcounteren` decides, in U-mode `scounteren` too where S-mode exists. -/
theorem State.counterGate_iff : s.counterGate a = true ↔
    (0xC00 ≤ a.toNat ∧ a.toNat ≤ 0xC1F ∨ 0xC80 ≤ a.toNat ∧ a.toNat ≤ 0xC9F) ∧
      (s.priv = .supervisor ∧ s.counters.mcounteren.getLsbD (a.toNat % 32) = false
        ∨ s.priv = .user ∧ s.cfg.hasS = true
            ∧ (s.counters.mcounteren.getLsbD (a.toNat % 32) = false
                ∨ s.counters.scounteren.getLsbD (a.toNat % 32) = false)
        ∨ s.priv = .user ∧ s.cfg.hasS = false
            ∧ s.counters.mcounteren.getLsbD (a.toNat % 32) = false) := by
  rw [State.counterGate, Bool.and_eq_true, isUserCounter_iff]
  refine and_congr_right fun _ => ?_
  cases s.priv with
  | machine => simp
  | supervisor => simp
  | user => cases s.cfg.hasS <;> simp

theorem State.tvmGate_iff : s.tvmGate a = true ↔ a = 0x180 ∧ s.priv = .supervisor ∧ s.mstatus.tvm = true := by
  simp [State.tvmGate, and_assoc]

theorem State.fsGate_iff : s.fsGate a = true ↔ (a = 0x001 ∨ a = 0x002 ∨ a = 0x003) ∧ s.mstatus.fs = 0 := by
  simp [State.fsGate, or_assoc]

/-- What gates an access: an interception, or one of the standard gates (R226, R228). -/
theorem State.gated_iff : s.gated a = true ↔
    (s.priv ≠ .machine ∧ (s.priv, a) ∈ s.cfg.interceptCsr) ∨ standardGate s a := by
  rw [State.gated, Bool.or_eq_true, Bool.or_eq_true, Bool.or_eq_true, State.intercepted_iff, State.counterGate_iff,
    State.tvmGate_iff, State.fsGate_iff, or_assoc, or_assoc]
  rfl

end

/-- Settles O13: an intercepted access is gated. -/
theorem csrInterceptionRaises : Obligations.CsrInterceptionRaises :=
  fun _ _ _ hf hp hin => raisesIllegal_of_gated hf (State.gated_iff.mpr (.inl ⟨hp, hin⟩))

/-- Settles O15: an access is gated by an interception or a standard gate, and by nothing else. -/
theorem csrStandardGates : Obligations.CsrStandardGates := by
  intro s i f hf
  refine ⟨fun hg => raisesIllegal_of_gated hf (State.gated_iff.mpr (.inr hg)), fun hng hni => ?_⟩
  refine Bool.eq_false_iff.mpr fun hgated => ?_
  rcases State.gated_iff.mp hgated with ⟨hp, hin⟩ | hg
  · exact hni.elim hp (absurd hin)
  · exact hng hg

/-! ## Which registers exist -/

section
variable {c : Config}

theorem Config.hasU_iff : c.hasU = true ↔ c.modes ≠ .m := by simp [Config.hasU]

theorem Config.hasS_iff : c.hasS = true ↔ c.modes = .msu := by simp [Config.hasS]

theorem Config.n_iff : c.n = true ↔ c.hasN = true ∧ c.modes ≠ .m := by
  rw [Config.n, Bool.and_eq_true, Config.hasU_iff]

/-- The machine delegation registers exist with S-mode, or with user-level traps (R44, R46). -/
theorem Config.hasMdeleg_iff : c.hasMdeleg = true ↔ c.modes = .msu ∨ (c.modes = .mu ∧ c.hasN = true) := by
  rw [Config.hasMdeleg, Bool.or_eq_true, Config.hasS_iff, Config.n_iff]
  cases c.modes <;> simp

theorem isRv32_iff : isRv32 c = true ↔ c.xlen = .rv32 := by simp [isRv32]

theorem notAbsent_iff {r : Csr} : notAbsent c r = true ↔ ∀ b ∈ c.absentCsrs, b.toNat ≠ r.addr := by
  simp [notAbsent]

theorem nonStandard_not_mem_standardCsrs (a : CsrAddr) : .nonStandard a ∉ standardCsrs := by
  simp [standardCsrs, singleCsrs, trapCsrs, trapModes, pmpCsrs, hpmCsrs]

theorem pmpcfg_implemented_iff {k : Fin 4} :
    Csr.implemented c (.pmpcfg k) = true ↔ 4 * k.val < c.pmpCount ∧ (c.xlen = .rv32 ∨ k.val = 0 ∨ k.val = 2) := by
  have heven : k.val % 2 = 0 ↔ k.val = 0 ∨ k.val = 2 := by omega
  simp [Csr.implemented, isRv32_iff, heven]

/-- A standard register exists where R40 to R46 give it to the implementation. -/
theorem csrExists_iff {r : Csr} (hr : r ∈ standardCsrs) : CsrExists c r.addr r ↔ r.implemented c = true := by
  cases r with
  | nonStandard a => exact absurd hr (nonStandard_not_mem_standardCsrs a)
  | pmpcfg k => exact pmpcfg_implemented_iff.symm
  | tvec x | scratch x | epc x | cause x | tval x =>
    cases x with
    | user => exact Config.n_iff.symm
    | supervisor => exact Config.hasS_iff.symm
    | machine => exact iff_of_true trivial rfl
  | sedeleg | sideleg =>
    rw [CsrExists, Csr.implemented, Bool.and_eq_true, Config.hasS_iff, Config.n_iff]
    exact and_congr_right fun hs => by simp [hs]
  | _ =>
    simp only [CsrExists, Csr.implemented, Bool.and_eq_true, decide_eq_true_eq, Config.n_iff, Config.hasS_iff,
      Config.hasU_iff, Config.hasMdeleg_iff, isRv32_iff, notAbsent_iff]

end

/-! ## The tables of addresses -/

theorem namedCsrRows_mem : ∀ p ∈ namedCsrRows, p.2 ∈ standardCsrs ∧ p.2.addr = p.1 := by decide

theorem mem_namedCsrRows : ∀ r ∈ singleCsrs ++ trapCsrs, (r.addr, r) ∈ namedCsrRows := by decide

theorem mem_hpmCsrs_iff {r : Csr} : r ∈ hpmCsrs ↔
    ∃ n, r = .mhpmcounter n ∨ r = .mhpmcounterh n ∨ r = .mhpmevent n ∨ r = .hpmcounter n ∨ r = .hpmcounterh n := by
  simp [hpmCsrs]

theorem mem_pmpCsrs_iff {r : Csr} : r ∈ pmpCsrs ↔ (∃ k, r = .pmpcfg k) ∨ ∃ n, r = .pmpaddr n := by
  simp [pmpCsrs, eq_comm]

theorem mem_standardCsrs_iff {r : Csr} :
    r ∈ standardCsrs ↔ r ∈ singleCsrs ++ trapCsrs ∨ r ∈ pmpCsrs ∨ r ∈ hpmCsrs := by
  simp [standardCsrs, or_assoc]

/-- Tables 2.2 to 2.5 list the standard registers, each at its address (R33 to R39). -/
theorem inCsrTables_iff {a : Nat} {r : Csr} : InCsrTables a r ↔ r ∈ standardCsrs ∧ r.addr = a := by
  constructor
  · rintro (hnamed | ⟨k, rfl, rfl⟩ | ⟨n, rfl, rfl⟩ | ⟨n, hhpm⟩)
    · exact namedCsrRows_mem _ hnamed
    · exact ⟨mem_standardCsrs_iff.mpr (.inr (.inl (mem_pmpCsrs_iff.mpr (.inl ⟨k, rfl⟩)))), rfl⟩
    · exact ⟨mem_standardCsrs_iff.mpr (.inr (.inl (mem_pmpCsrs_iff.mpr (.inr ⟨n, rfl⟩)))), rfl⟩
    · have hmem : r ∈ hpmCsrs := mem_hpmCsrs_iff.mpr ⟨n, by tauto⟩
      refine ⟨mem_standardCsrs_iff.mpr (.inr (.inr hmem)), ?_⟩
      rcases hhpm with ⟨rfl, rfl⟩ | ⟨rfl, rfl⟩ | ⟨rfl, rfl⟩ | ⟨rfl, rfl⟩ | ⟨rfl, rfl⟩ <;> simp only [Csr.addr] <;> omega
  · rintro ⟨hr, rfl⟩
    rcases mem_standardCsrs_iff.mp hr with hnamed | hpmp | hhpm
    · exact .inl (mem_namedCsrRows r hnamed)
    · rcases mem_pmpCsrs_iff.mp hpmp with ⟨k, rfl⟩ | ⟨n, rfl⟩
      · exact .inr (.inl ⟨k, rfl, rfl⟩)
      · exact .inr (.inr (.inl ⟨n, rfl, rfl⟩))
    · obtain ⟨n, hn⟩ := mem_hpmCsrs_iff.mp hhpm
      refine .inr (.inr (.inr ⟨n, ?_⟩))
      rcases hn with rfl | rfl | rfl | rfl | rfl <;> simp [Csr.addr] <;> omega

/-- No two standard registers share an address (R33 to R39). -/
theorem standardCsrs_addr_nodup : (standardCsrs.map Csr.addr).Nodup := by decide +kernel

theorem standardCsrAt_mem {a : CsrAddr} {r : Csr} (h : standardCsrAt a = some r) :
    r ∈ standardCsrs ∧ r.addr = a.toNat :=
  ⟨List.mem_of_find?_eq_some h, by simpa using List.find?_some h⟩

theorem standardCsrAt_eq_some_iff {a : CsrAddr} {r : Csr} :
    standardCsrAt a = some r ↔ r ∈ standardCsrs ∧ r.addr = a.toNat := by
  refine ⟨standardCsrAt_mem, fun ⟨hr, ha⟩ => ?_⟩
  cases h : standardCsrAt a with
  | none => exact absurd (beq_iff_eq.mpr ha) (List.find?_eq_none.mp h r hr)
  | some q =>
    obtain ⟨hq, hqa⟩ := standardCsrAt_mem h
    rw [List.inj_on_of_nodup_map standardCsrs_addr_nodup hq hr (hqa.trans ha.symm)]

theorem namedCsrRows_not_nonStandard : ∀ p ∈ namedCsrRows, ¬ NonStandardRange p.1 := by
  unfold NonStandardRange
  decide

/-- The tables leave the non-standard ranges free (R28). -/
theorem InCsrTables.not_nonStandard {a : Nat} {r : Csr} (h : InCsrTables a r) : ¬ NonStandardRange a := by
  rcases h with hnamed | ⟨k, rfl, -⟩ | ⟨n, rfl, -⟩ | ⟨n, hhpm⟩
  · exact namedCsrRows_not_nonStandard _ hnamed
  all_goals
    unfold NonStandardRange
    omega

theorem inNonStandardRange_iff {a : CsrAddr} : inNonStandardRange a = true ↔ NonStandardRange a.toNat := by
  simp [inNonStandardRange, NonStandardRange, or_assoc]

theorem nonStandard_implemented_iff {c : Config} {a : CsrAddr} :
    Csr.implemented c (.nonStandard a) = true ↔ a ∈ c.nonStandardCsrs ∧ NonStandardRange a.toNat := by
  rw [Csr.implemented, Bool.and_eq_true, inNonStandardRange_iff, List.contains_iff_mem, and_comm]

theorem standardCsrAt_of_nonStandardRange {a : CsrAddr} (h : NonStandardRange a.toNat) : standardCsrAt a = none := by
  refine Option.eq_none_iff_forall_ne_some.mpr fun r hr => ?_
  exact (inCsrTables_iff.mpr (standardCsrAt_eq_some_iff.mp hr)).not_nonStandard h

/-- Which register an address has: that of the tables where the implementation has it, or its own non-standard one. -/
theorem csrAt_eq_some_iff {c : Config} {a : CsrAddr} {r : Csr} : csrAt c a = some r ↔
    (InCsrTables a.toNat r ∧ CsrExists c a.toNat r)
      ∨ (r = .nonStandard a ∧ a ∈ c.nonStandardCsrs ∧ NonStandardRange a.toNat) := by
  constructor
  · intro h
    obtain ⟨himp, ⟨hr, ha⟩ | ⟨rfl, -⟩⟩ := csrAt_some h
    · exact .inl ⟨inCsrTables_iff.mpr ⟨hr, ha⟩, ha ▸ (csrExists_iff hr).mpr himp⟩
    · exact .inr ⟨rfl, nonStandard_implemented_iff.mp himp⟩
  · rintro (⟨htable, hexists⟩ | ⟨rfl, hown⟩)
    · obtain ⟨hr, ha⟩ := inCsrTables_iff.mp htable
      have himp : r.implemented c = true := (csrExists_iff hr).mp (ha ▸ hexists)
      rw [csrAt, standardCsrAt_eq_some_iff.mpr ⟨hr, ha⟩]
      exact if_pos himp
    · rw [csrAt, standardCsrAt_of_nonStandardRange hown.2]
      exact if_pos (nonStandard_implemented_iff.mpr hown)

/-- Settles O11: an address without a register fails the last check, and `csrAt_eq_some_iff` says which have one. -/
theorem csrMustExist : Obligations.CsrMustExist :=
  ⟨fun _ _ _ hf hnone => raisesIllegal_of_csrAt_none hf hnone, fun _ _ _ => csrAt_eq_some_iff⟩

/-! ## The debug ranges -/

theorem namedCsrRows_debug : ∀ p ∈ namedCsrRows, 0x7A0 ≤ p.1 → p.1 ≤ 0x7BF →
    p.1 ≤ 0x7A3 ∧ p.2 ∈ [Csr.tselect, .tdata1, .tdata2, .tdata3] := by decide

/-- The tables have the four trigger registers alone between 0x7A0 and 0x7BF (R39). -/
theorem InCsrTables.trigger {a : Nat} {r : Csr} (h : InCsrTables a r) (hlow : 0x7A0 ≤ a) (hhigh : a ≤ 0x7BF) :
    a ≤ 0x7A3 ∧ r ∈ [Csr.tselect, .tdata1, .tdata2, .tdata3] := by
  rcases h with hnamed | ⟨k, rfl, -⟩ | ⟨n, rfl, -⟩ | ⟨n, hhpm⟩
  · exact namedCsrRows_debug _ hnamed hlow hhigh
  all_goals omega

/-- A register between 0x7A0 and 0x7BF is one of the four trigger registers, which need debug triggers (D22). -/
theorem csrAt_debug {c : Config} {a : CsrAddr} {r : Csr} (h : csrAt c a = some r) (hlow : 0x7A0 ≤ a.toNat)
    (hhigh : a.toNat ≤ 0x7BF) : a.toNat ≤ 0x7A3 ∧ c.hasDebugTriggers = true := by
  rcases csrAt_eq_some_iff.mp h with ⟨htable, hexists⟩ | ⟨-, -, hrange⟩
  · obtain ⟨ha, hr⟩ := htable.trigger hlow hhigh
    refine ⟨ha, ?_⟩
    simp only [List.mem_cons, List.not_mem_nil, or_false] at hr
    rcases hr with rfl | rfl | rfl | rfl <;> exact hexists
  · unfold NonStandardRange at hrange
    omega

theorem csrLevel_eq (a : CsrAddr) : (csrLevel a).toNat = a.toNat / 0x100 % 4 := by
  simp [csrLevel, Nat.shiftRight_eq_div_pow]

theorem csrReadOnly_eq_false_iff {a : CsrAddr} : csrReadOnly a = false ↔ a.toNat / 0x400 ≠ 3 := by
  have := a.isLt
  rw [csrReadOnly, beq_eq_false_iff_ne, ne_eq, ← BitVec.toNat_inj]
  simp [Nat.shiftRight_eq_div_pow]
  omega

/-- Settles O14: 0x7B0 to 0x7BF is `DebugOnly`, and the rest of the range has the trigger registers alone. -/
theorem csrDebugRangesRaise : Obligations.CsrDebugRangesRaise := by
  refine ⟨fun s i f hf hrange => ?raises, fun c hc => ?triggers⟩
  case raises =>
    rcases hrange with hdebug | ⟨hno, hlow, hhigh⟩
    · exact raisesIllegal_of_debugOnly hf (debugOnly_iff.mpr hdebug)
    · refine raisesIllegal_of_csrAt_none hf (Option.eq_none_iff_forall_ne_some.mpr fun r hr => ?_)
      rw [(csrAt_debug hr hlow hhigh).2] at hno
      cases hno
  case triggers =>
    refine ⟨csrAt_eq_some_iff.mpr (.inl ⟨.inl (by decide), hc⟩), csrAt_eq_some_iff.mpr (.inl ⟨.inl (by decide), hc⟩),
      csrAt_eq_some_iff.mpr (.inl ⟨.inl (by decide), hc⟩), csrAt_eq_some_iff.mpr (.inl ⟨.inl (by decide), hc⟩),
      fun a hlow hhigh => ⟨?level, csrReadOnly_eq_false_iff.mpr (by omega)⟩, fun a hlow hhigh => ?none⟩
    case level =>
      refine BitVec.eq_of_toNat_eq ((csrLevel_eq a).trans ?_)
      show _ = 3
      omega
    case none =>
      refine Option.eq_none_iff_forall_ne_some.mpr fun r hr => ?_
      have := (csrAt_debug hr (by omega) (by omega)).1
      omega

/-! ## The pseudocode of the accesses (R224, R225) -/

section
variable {s : State} {a : CsrAddr} {r : Csr}

/-- An access that may write may read. -/
theorem State.csrAccess_weaken {w : Bool} (h : s.csrAccess a w = some r) : s.csrAccess a false = some r := by
  obtain ⟨hlevel, -, hrest⟩ := State.csrAccess_some.mp h
  exact State.csrAccess_some.mpr ⟨hlevel, fun hw => absurd hw (by decide), hrest⟩

/-- `csr_read` of R224 answers where the access of a read passes. -/
theorem csrReadSpec_eq (s : State) (a : CsrAddr) :
    csrReadSpec s a = (s.csrAccess a false).map fun r => (s.readCsr r, s.afterRead r) := by
  unfold csrReadSpec State.csrAccess
  simp only [← State.mayAccess_eq_false_iff, ← debugOnly_iff]
  cases csrAt s.cfg a <;> cases s.mayAccess a <;> cases debugOnly a <;> cases s.gated a <;> rfl

/-- `csr_write` of R225 writes where the access of a write passes. -/
theorem csrWriteSpec_eq (s : State) (a : CsrAddr) (v : Word) :
    csrWriteSpec s a v = (s.csrAccess a true).bind fun r => s.writeCsr r v := by
  have hro : a.extractLsb' 10 2 = 0b11 ↔ csrReadOnly a = true := beq_iff_eq.symm
  unfold csrWriteSpec State.csrAccess
  simp only [← State.mayAccess_eq_false_iff, ← debugOnly_iff, hro]
  cases csrAt s.cfg a <;> cases s.mayAccess a <;> cases csrReadOnly a <;> cases debugOnly a <;> cases s.gated a <;> rfl

/-- The side effect of a read opens no gate: floating-point state that it makes Dirty was on (R97). -/
theorem State.gated_afterRead (q : Csr) (h : s.gated a = false) : (s.afterRead q).gated a = false := by
  rcases s.afterRead_cases q with ⟨-, he⟩ | ⟨-, -, -, he⟩ | he
  · rw [he]; exact h
  · obtain ⟨hothers, -⟩ := Bool.or_eq_false_iff.mp h
    rw [he]
    exact Bool.or_eq_false_iff.mpr ⟨hothers, by simp [State.fsGate]⟩
  · rw [he]; exact h

/-- After a permitted read a write of the same address is permitted as before it. -/
theorem State.csrAccess_afterRead (h : s.csrAccess a false = some r) (w : Bool) :
    (s.afterRead r).csrAccess a w = s.csrAccess a w := by
  obtain ⟨-, -, -, hgated, -⟩ := State.csrAccess_some.mp h
  have hframe := s.afterRead_frame r
  simp only [State.csrAccess, State.mayAccess, hframe.cfg, hframe.priv, hgated, State.gated_afterRead r hgated]

theorem isInstretAddr_eq (a : CsrAddr) : isInstretAddr a = (a.toNat == 0xB02 || a.toNat == 0xB82) := by
  rw [isInstretAddr, Bool.eq_iff_iff]
  simp [← BitVec.toNat_inj]

theorem namedCsrRows_isInstret : ∀ p ∈ namedCsrRows, p.2.isInstret = (p.1 == 0xB02 || p.1 == 0xB82) := by decide

/-- The registers of R239 are those at the addresses of `minstret` and `minstreth`. -/
theorem isInstret_eq {c : Config} (h : csrAt c a = some r) : r.isInstret = isInstretAddr a := by
  have hother {n : Nat} (hn : ¬(n = 0xB02 ∨ n = 0xB82)) : false = (n == 0xB02 || n == 0xB82) := by simpa using hn
  rw [isInstretAddr_eq]
  rcases csrAt_eq_some_iff.mp h with
    ⟨hnamed | ⟨k, ha, rfl⟩ | ⟨n, ha, rfl⟩ | ⟨n, hhpm⟩, -⟩ | ⟨rfl, -, hrange⟩
  · exact namedCsrRows_isInstret _ hnamed
  · exact hother (by omega)
  · exact hother (by omega)
  · rcases hhpm with ⟨ha, rfl⟩ | ⟨ha, rfl⟩ | ⟨ha, rfl⟩ | ⟨ha, rfl⟩ | ⟨ha, rfl⟩ <;> exact hother (by omega)
  · unfold NonStandardRange at hrange
    exact hother (by omega)

/-- `mip` as a set or clear takes it: `SEIP` and `UEIP` without the signals of the controller (R102, R231). -/
theorem State.mipRmw_eq (s : State) : s.mipRmw = (s.mip &&& ~~~0x300) ||| (s.mip &&& s.mipSw &&& 0x300) := by
  refine BitVec.eq_of_getLsbD_eq fun k hk => ?_
  rw [BitVec.getLsbD_or, BitVec.getLsbD_and, BitVec.getLsbD_and, BitVec.getLsbD_and, BitVec.getLsbD_not, mip_getLsbD,
    mipRmw_getLsbD, getLsbD_eq_contains (w := (0x300 : Word)) (l := [8, 9]) (by decide) (by decide), decide_eq_true hk]
  cases hc : [8, 9].contains k
  · have hsignal : ([3, 7, 11].contains k && s.mipSignal k) = s.mipSignal k := by
      unfold State.mipSignal
      split <;> simp_all
    rw [hsignal]
    simp
  · have hno : [3, 7, 11].contains k = false := by
      simp at hc ⊢
      omega
    rw [hno]
    cases s.mipSw.getLsbD k <;> simp

/-- `rmw_old` of R231 is the old value of the machine's read-modify-write. -/
theorem rmwOld_eq (h : csrAt s.cfg a = some r) : rmwOld s a = s.rmwValue r := by
  have hview (x m : Word) : (x &&& m &&& ~~~0x300) ||| (x &&& m &&& s.mipSw &&& 0x300)
      = ((x &&& ~~~0x300) ||| (x &&& s.mipSw &&& 0x300)) &&& m := by
    refine BitVec.eq_of_getLsbD_eq fun k _ => ?_
    simp only [BitVec.getLsbD_or, BitVec.getLsbD_and]
    cases m.getLsbD k <;> simp
  unfold rmwOld
  rw [h]
  cases r with
  | mip => exact s.mipRmw_eq.symm
  | sip | uip => rw [State.rmwValue, State.mipRmw_eq, ← hview]; rfl
  | _ => rfl

end

/-! ## The pseudocode of the instructions (R230 to R235) -/

section
variable {s : State} {i : Instr} {op : CsrOp} {rd : Reg} {a : CsrAddr} {src : CsrSource} {r : Csr}

theorem State.csrInstr_of_refused (h : s.csrAccess a (op.writes src) = none) :
    s.csrInstr i op rd a src = s.illegal (encode i) := by
  rw [State.csrInstr, h]

theorem State.writeReg_zero (s : State) (v : Word) : s.writeReg 0 v = s := if_pos rfl

/-- An instruction that reads nothing has `x0` as `rd` (R236). -/
theorem CsrOp.rd_eq_zero (h : op.reads rd = false) : rd = 0 := by
  unfold CsrOp.reads at h
  simpa using (Bool.or_eq_false_iff.mp h).2

/-- A permitted CSR instruction ends as the pseudocode does, with the read and the write of the register before it. -/
theorem State.csrInstr_of_access (h : s.csrAccess a (op.writes src) = some r) {old : Word}
    (hold : op.reads rd = true → old = s.readCsr r) :
    s.csrInstr i op rd a src =
      csrFinish s i rd old (!(op.writes src && isInstretAddr a)) (s.csrUpdate op rd r src) := by
  obtain ⟨-, -, -, -, hr⟩ := State.csrAccess_some.mp h
  rw [State.csrInstr, h, ← isInstret_eq hr]
  cases hu : s.csrUpdate op rd r src with
  | none => simp only [hu, csrFinish]
  | some t =>
    simp only [hu, csrFinish, State.csrComplete]
    cases hread : op.reads rd with
    | true => rw [hold hread]; rfl
    | false => rw [CsrOp.rd_eq_zero hread, State.writeReg_zero]; rfl

end

/-- CSRRW and CSRRWI are their pseudocode (R230, R233). -/
theorem csrInstr_write (s : State) (i : Instr) (rd : Reg) (a : CsrAddr) (src : CsrSource) :
    s.csrInstr i .write rd a src = csrrwSpec s i rd a (s.sourceValue src) := by
  unfold csrrwSpec
  rw [csrReadSpec_eq, csrWriteSpec_eq]
  cases hw : s.csrAccess a true with
  | none =>
    rw [State.csrInstr_of_refused hw]
    split
    · rfl
    · cases hr : s.csrAccess a false with
      | none => rfl
      | some q =>
        show _ = csrFinish s i rd _ _ (csrWriteSpec _ a _)
        rw [csrWriteSpec_eq, State.csrAccess_afterRead hr, hw]
        rfl
  | some r =>
    have hr := State.csrAccess_weaken hw
    by_cases hrd : rd = 0
    · subst hrd
      exact State.csrInstr_of_access hw (old := 0) fun h => absurd h (by decide)
    · have hread : CsrOp.write.reads rd = true := by simpa [CsrOp.reads] using hrd
      rw [State.csrInstr_of_access hw fun _ => rfl, if_neg hrd, hr]
      show _ = csrFinish s i rd _ _ (csrWriteSpec _ a _)
      rw [csrWriteSpec_eq, State.csrAccess_afterRead hr, hw, State.csrUpdate, hread]
      rfl

/-- CSRRS, CSRRC and their immediate forms are their pseudocode (R231, R232, R234, R235). -/
theorem csrInstr_modify (s : State) (i : Instr) {op : CsrOp} (hop : op ≠ .write) (rd : Reg) (a : CsrAddr)
    (src : CsrSource) : s.csrInstr i op rd a src =
      csrModifySpec s i rd a (!src.isZero) fun old => op.result old (s.sourceValue src) := by
  have hwrites : op.writes src = !src.isZero := by cases op <;> first | rfl | exact absurd rfl hop
  have hreads : op.reads rd = true := by cases op <;> first | rfl | exact absurd rfl hop
  unfold csrModifySpec
  rw [csrReadSpec_eq]
  cases hr : s.csrAccess a false with
  | none =>
    refine State.csrInstr_of_refused (Option.eq_none_iff_forall_ne_some.mpr fun q hq => ?_)
    exact absurd (State.csrAccess_weaken hq) (by simp [hr])
  | some r =>
    obtain ⟨-, -, -, -, hat⟩ := State.csrAccess_some.mp hr
    cases hz : src.isZero with
    | true =>
      have hw : op.writes src = false := by rw [hwrites, hz]; rfl
      rw [State.csrInstr_of_access (hw ▸ hr) fun _ => rfl, State.csrUpdate, hreads, hw]
      rfl
    | false =>
      have hw : op.writes src = true := by rw [hwrites, hz]; rfl
      show _ = csrFinish s i rd _ _ (csrWriteSpec _ a _)
      rw [csrWriteSpec_eq, State.csrAccess_afterRead hr, rmwOld_eq hat]
      cases hacc : s.csrAccess a true with
      | none => exact State.csrInstr_of_refused (hw ▸ hacc)
      | some q =>
        obtain rfl : r = q := Option.some.inj (hr.symm.trans (State.csrAccess_weaken hacc))
        rw [State.csrInstr_of_access (hw ▸ hacc) fun _ => rfl, State.csrUpdate, hreads, hw]
        rfl

/-- Settles O8: the two shapes of pseudocode are `csrInstr`, with a register or an immediate as the source. -/
theorem csrInstructionsFollowPseudocode : Obligations.CsrInstructionsFollowPseudocode := by
  intro s rd rs1 a uimm
  refine ⟨?rw, ?rs, ?rc, ?rwi, ?rsi, ?rci⟩
  case rw => exact congrArg Host.Outcome.next (csrInstr_write s _ rd a (.reg rs1))
  case rs => exact congrArg Host.Outcome.next (csrInstr_modify s _ (op := .set) (by decide) rd a (.reg rs1))
  case rc => exact congrArg Host.Outcome.next (csrInstr_modify s _ (op := .clear) (by decide) rd a (.reg rs1))
  case rwi => exact congrArg Host.Outcome.next (csrInstr_write s _ rd a (.imm uimm))
  case rsi => exact congrArg Host.Outcome.next (csrInstr_modify s _ (op := .set) (by decide) rd a (.imm uimm))
  case rci => exact congrArg Host.Outcome.next (csrInstr_modify s _ (op := .clear) (by decide) rd a (.imm uimm))

/-! ## The parts of a group that a write leaves -/

section
variable {s t : State} {r : Csr} {v : Word} (h : s.writeCsr r v = some t)
include h

theorem State.writeCsr_interrupts (hg : r.group ≠ .interrupts) :
    t.mie = s.mie ∧ t.mipSw = s.mipSw ∧ t.deleg.mideleg = s.deleg.mideleg :=
  State.writeCsr_sameGroup h (Ne.symm hg)

/-- Interrupt enables are written by `mie` and its views (R101, R114, R122). -/
theorem State.writeCsr_mie (hr : r ∉ [Csr.mie, .sie, .uie]) : t.mie = s.mie := by
  cases r with
  | mie | sie | uie => simp at hr
  | mip | sip | uip | mideleg => obtain rfl := Option.some.inj h; rfl
  | _ => exact (State.writeCsr_interrupts h (by simp [Csr.group])).1

/-- Software-writable interrupt bits are written by `mip` and its views (R102, R114, R122). -/
theorem State.writeCsr_mipSw (hr : r ∉ [Csr.mip, .sip, .uip]) : t.mipSw = s.mipSw := by
  cases r with
  | mip | sip | uip => simp at hr
  | mie | sie | uie | mideleg => obtain rfl := Option.some.inj h; rfl
  | _ => exact (State.writeCsr_interrupts h (by simp [Csr.group])).2.1

/-- Delegated interrupts are written by `mideleg` (R99). -/
theorem State.writeCsr_mideleg (hr : r ≠ .mideleg) : t.deleg.mideleg = s.deleg.mideleg := by
  cases r with
  | mideleg => exact absurd rfl hr
  | mie | sie | uie | mip | sip | uip => obtain rfl := Option.some.inj h; rfl
  | _ => exact (State.writeCsr_interrupts h (by simp [Csr.group])).2.2

theorem State.writeCsr_status (hg : r.group ≠ .status) : t.mstatus = s.mstatus ∧ t.fcsr = s.fcsr :=
  State.writeCsr_sameGroup h (Ne.symm hg)

/-- Floating-point state is written by `fcsr` and its parts (R123). -/
theorem State.writeCsr_fcsr (hr : r ∉ [Csr.fflags, .frm, .fcsr]) : t.fcsr = s.fcsr := by
  cases r with
  | fflags | frm | fcsr => simp at hr
  | mstatus => obtain ⟨_, -, rfl⟩ := Option.map_eq_some_iff.mp h; rfl
  | sstatus | ustatus => obtain rfl := Option.some.inj h; rfl
  | _ => exact (State.writeCsr_status h (by simp [Csr.group])).2

/-- `mstatus` is written by itself and its views, but for `FS` (R97, R112). -/
theorem State.writeCsr_mstatus (hr : r ∉ [Csr.mstatus, .sstatus, .ustatus]) (x : BitVec 2) :
    { t.mstatus with fs := x } = { s.mstatus with fs := x } := by
  have hdirty (b : Bool) : { s.mstatus.dirtyFs b with fs := x } = { s.mstatus with fs := x } := by cases b <;> rfl
  cases r with
  | mstatus | sstatus | ustatus => simp at hr
  | fflags | frm | fcsr => obtain rfl := Option.some.inj h; exact hdirty _
  | _ => rw [(State.writeCsr_status h (by simp [Csr.group])).1]

/-- The retirement counter is written by `minstret` and `minstreth` (R104). -/
theorem State.writeCsr_minstret (hr : r.isInstret = false) : t.counters.minstret = s.counters.minstret := by
  cases r with
  | minstret | minstreth => cases hr
  | instret | instreth => obtain rfl := Option.some.inj h; rfl
  | _ => exact State.writeCsr_sameGroup h (g := .instret) (by simp [Csr.group])

end

/-! ## CSR instructions that complete -/

section
variable {s u : State} {op : CsrOp} {rd : Reg} {r : Csr} {src : CsrSource}

/-- A permitted access goes through where no WLRL field raises (R74, R237). -/
theorem State.csrUpdate_isSome (rd : Reg)
    (h : op.writes src = true → wlrlAccepts s.cfg r (op.result (s.rmwValue r) (s.sourceValue src)) = true) :
    ∃ u, s.csrUpdate op rd r src = some u := by
  have hcfg : (if op.reads rd then s.afterRead r else s).cfg = s.cfg := by
    split
    · exact (s.afterRead_frame r).cfg
    · rfl
  refine Option.isSome_iff_exists.mp ?_
  unfold State.csrUpdate
  cases hw : op.writes src with
  | false => rfl
  | true => exact (State.writeCsr_isSome _ r _).trans (hcfg ▸ h hw)

/-- What the side effects of a read do not touch, and no write of the register, a CSR instruction keeps. -/
theorem State.csrUpdate_keeps {α : Type} {g : State → α} (h : s.csrUpdate op rd r src = some u)
    (hread : ∀ (s : State) n x, g { s with drawCount := n, mstatus := { s.mstatus with fs := x } } = g s)
    (hwrite : op.writes src = true → ∀ {s t : State} {v : Word}, s.writeCsr r v = some t → g t = g s) : g u = g s := by
  have hafter : g (s.afterRead r) = g s := by
    rcases s.afterRead_cases r with ⟨-, he⟩ | ⟨-, -, -, he⟩ | he
    · rw [he]; exact hread s _ s.mstatus.fs
    · rw [he]; exact hread s s.drawCount 3
    · rw [he]
  cases hw : op.writes src with
  | true =>
    obtain ⟨q, -, -, rfl | rfl, hq⟩ := State.csrUpdate_write h hw
    · exact hwrite hw hq
    · exact (hwrite hw hq).trans hafter
  | false =>
    unfold State.csrUpdate at h
    rw [hw] at h
    obtain rfl := Option.some.inj h
    split
    · exact hafter
    · rfl

/-- An instruction that attempts no write, on a register whose read has no side effect, changes no CSR. -/
theorem State.csrUpdate_eq_self (h : s.csrUpdate op rd r src = some u) (hw : op.writes src = false)
    (hr : s.afterRead r = s) : u = s := by
  rw [State.csrUpdate, hr, hw, ite_self] at h
  exact (Option.some.inj h).symm

section
variable (h : s.csrUpdate op rd r src = some u)
include h

theorem State.csrUpdate_mie (hr : op.writes src = true → r ∉ [Csr.mie, .sie, .uie]) : u.mie = s.mie :=
  State.csrUpdate_keeps (g := State.mie) h (fun _ _ _ => rfl) fun hw _ _ _ h => State.writeCsr_mie h (hr hw)

theorem State.csrUpdate_mipSw (hr : op.writes src = true → r ∉ [Csr.mip, .sip, .uip]) : u.mipSw = s.mipSw :=
  State.csrUpdate_keeps (g := State.mipSw) h (fun _ _ _ => rfl) fun hw _ _ _ h => State.writeCsr_mipSw h (hr hw)

theorem State.csrUpdate_mideleg (hr : op.writes src = true → r ≠ .mideleg) : u.deleg.mideleg = s.deleg.mideleg :=
  State.csrUpdate_keeps (g := fun s => s.deleg.mideleg) h (fun _ _ _ => rfl) fun hw _ _ _ h =>
    State.writeCsr_mideleg h (hr hw)

theorem State.csrUpdate_fcsr (hr : op.writes src = true → r ∉ [Csr.fflags, .frm, .fcsr]) : u.fcsr = s.fcsr :=
  State.csrUpdate_keeps (g := State.fcsr) h (fun _ _ _ => rfl) fun hw _ _ _ h => State.writeCsr_fcsr h (hr hw)

theorem State.csrUpdate_mstatus (hr : op.writes src = true → r ∉ [Csr.mstatus, .sstatus, .ustatus]) :
    { u.mstatus with fs := s.mstatus.fs } = s.mstatus :=
  State.csrUpdate_keeps (g := fun t => { t.mstatus with fs := s.mstatus.fs }) h (fun _ _ _ => rfl) fun hw _ _ _ h =>
    State.writeCsr_mstatus h (hr hw) _

theorem State.csrUpdate_minstret (hr : (op.writes src && r.isInstret) = false) :
    u.counters.minstret = s.counters.minstret :=
  State.csrUpdate_keeps (g := fun s => s.counters.minstret) h (fun _ _ _ => rfl) fun hw _ _ _ h =>
    State.writeCsr_minstret h (by simpa [hw] using hr)

end

end

/-- What a CSR instruction leaves, once the read and the write of its register are done (R230 to R235). -/
theorem csrDone_csrComplete {s u : State} {f : CsrForm} {r : Csr} (hu : s.csrUpdate f.op f.rd r f.src = some u) :
    CsrDone s (s.csrComplete u f.op f.rd r f.src) f r := by
  obtain ⟨hframe, hsame⟩ := State.csrUpdate_frame hu
  have hread := State.csrComplete_readReg f.op f.rd r f.src (hc := hframe.cfg) (hr := hframe.regs)
  have hcsr (q : Csr) (hq : q.group ≠ .instret) := s.readCsr_csrComplete u f.op f.rd (r := r) f.src (.inl hq)
  obtain ⟨regs, he⟩ := s.csrComplete_eq u f.op f.rd r f.src
  rw [he] at hread hcsr ⊢
  exact {
    result := by rw [hread, if_pos rfl]
    regs := fun x hx => by
      rw [hread, if_neg hx]
      split
      · next h0 => rw [h0, State.readReg, if_pos rfl]
      · rfl
    pc := by rw [← hframe.cfg, ← hframe.pc]
    retired := fun hno => by
      rw [hno, ← State.csrUpdate_minstret hu hno]
      rfl
    others := fun q hq hni =>
      (hcsr q hni).trans (readCsr_congr hframe.cfg hframe.lines hframe.mtime hframe.mtimecmp (hsame _ hq))
    enables := (State.csrUpdate_mie hu :)
    pending := (State.csrUpdate_mipSw hu :)
    delegated := (State.csrUpdate_mideleg hu :)
    floatState := (State.csrUpdate_fcsr hu :)
    status := (State.csrUpdate_mstatus hu :)
    protection := fun hr => hsame .pmp (Ne.symm hr)
    pureRead := fun hw hfs hns q hq => by
      rw [hcsr q hq, State.csrUpdate_eq_self hu hw (s.afterRead_eq hns hfs)]
    mem := fun a => by rw [← hframe.mem]
    rest := ⟨hframe.cfg, hframe.priv, hframe.lines, hframe.mtime, hframe.mtimecmp, hframe.pma, hframe.tlb,
      hframe.waiting, hframe.inputs, hframe.draws⟩ }

/-- Settles O9: the access passes, the update goes through, and `csrDone_csrComplete` says what is left. -/
theorem csrInstructionsComplete : Obligations.CsrInstructionsComplete := by
  intro s i f r hf hr hallowed hwlrl
  obtain ⟨u, hu⟩ := State.csrUpdate_isSome f.rd hwlrl
  refine ⟨s.csrComplete u f.op f.rd r f.src, ?_, csrDone_csrComplete hu⟩
  rw [exec_csrForm hf, State.csrInstr, hallowed.access hr]
  simp only [hu]

end Sys2Proof.Machine
end

section
/-! Family 41, the other privileged instructions: ECALL and EBREAK raise (R251, R252); the trap returns, WFI and
SFENCE.VMA have their result and frame, or are illegal (R253 to R257). -/

namespace Sys2Proof.Machine

/-! ## Instructions that raise -/

theorem raises_of_exec {i : Instr} {s : State} {e : Exception} {tval : Word}
    (h : exec i s = .next (s.raise e tval)) : Raises i s e tval :=
  ⟨s.raise e tval, h, s.raise_trapped e tval⟩

/-- Settles O31: ECALL is the trap of its mode's exception. -/
theorem ecallRaises : Obligations.EcallRaises := by
  intro s
  have hcall : ∀ p, s.priv = p → Raises .ecall s (ecallException p) 0 := by
    rintro _ rfl
    exact raises_of_exec rfl
  exact ⟨hcall .user, hcall .supervisor, hcall .machine, rfl, rfl, rfl⟩

/-- `xtval` holds XLEN bits: what is above them in a trap value makes no difference to the trap. -/
theorem State.raise_trunc (s : State) (e : Exception) (tval : Word) :
    s.raise e (s.cfg.trunc tval) = s.raise e tval := by
  simp only [State.raise, State.takeTrap, Config.trunc_trunc]

theorem State.raise_ebreakTval (s : State) (e : Exception) :
    s.raise e s.ebreakTval = s.raise e (if s.cfg.ebreakTvalPc then s.pc else 0) := by
  unfold State.ebreakTval
  split
  · exact s.raise_trunc e s.pc
  · rfl

/-- Settles O32: EBREAK traps with the program counter cut to XLEN bits, or zero, as the trap value. -/
theorem ebreakRaises : Obligations.EbreakRaises := fun s =>
  ⟨raises_of_exec (congrArg Host.Outcome.next (s.raise_ebreakTval .breakpoint)), rfl⟩

/-! ## Instructions with a check: their effect, or an illegal-instruction exception -/

/-- `i` is illegal in `s` where `illegal` holds, and leads to `t` otherwise. -/
def ChecksThenGives (i : Instr) (s : State) (illegal : Bool) (t : State) : Prop :=
  exec i s = .next (if illegal then s.illegal (encode i) else t)

theorem exec_mret (s : State) : ChecksThenGives .mret s s.mretIllegal (s.trapReturn .machine) := rfl

theorem exec_sret (s : State) : ChecksThenGives .sret s s.sretIllegal (s.trapReturn .supervisor) := rfl

theorem exec_uret (s : State) : ChecksThenGives .uret s s.uretIllegal (s.trapReturn .user) := rfl

theorem exec_wfi (s : State) :
    ChecksThenGives .wfi s s.wfiIllegal ({ s with waiting := s.cfg.wfiWaits }.advance true) := rfl

theorem exec_sfenceVma (s : State) (rs1 rs2 : Reg) :
    ChecksThenGives (.sfenceVma rs1 rs2) s s.sfenceIllegal ((s.sfence rs1 rs2).advance true) := rfl

section
variable {i : Instr} {s t : State} {illegal : Bool} (h : ChecksThenGives i s illegal t)
include h

theorem ChecksThenGives.raisesIllegal (hi : illegal = true) : RaisesIllegal i s := by
  subst hi
  exact raises_of_exec h

theorem ChecksThenGives.exec_eq (hl : ¬ illegal = true) : exec i s = .next t := by
  rw [ChecksThenGives, if_neg hl] at h
  exact h

end

theorem State.mretIllegal_iff {s : State} : s.mretIllegal = true ↔ s.priv ≠ .machine := bne_iff_ne

theorem State.sretIllegal_iff {s : State} : s.sretIllegal = true ↔
    s.cfg.hasS = false ∨ s.priv = .user ∨ (s.priv = .supervisor ∧ s.mstatus.tsr = true) := by
  simp [State.sretIllegal, or_assoc]

theorem State.uretIllegal_iff {s : State} : s.uretIllegal = true ↔ s.cfg.n = false := by
  simp [State.uretIllegal]

theorem State.wfiIllegal_iff {s : State} : s.wfiIllegal = true ↔ (s.priv = .user ∧ s.cfg.wfiInU = false)
    ∨ (s.priv ≠ .machine ∧ s.mstatus.tw = true ∧ s.draws.twTimeout = true) := by
  simp [State.wfiIllegal, and_assoc]

theorem State.sfenceIllegal_iff {s : State} : s.sfenceIllegal = true ↔
    s.cfg.hasS = false ∨ s.priv = .user ∨ (s.priv = .supervisor ∧ s.mstatus.tvm = true) := by
  simp [State.sfenceIllegal, or_assoc]

/-- Settles O40: MRET passes its check in M-mode alone, and its effect is the return from M-mode. -/
theorem mretReturns : Obligations.MretReturns := fun s =>
  ⟨fun hm => (exec_mret s).exec_eq (mt State.mretIllegal_iff.mp (not_not.mpr hm)),
    fun hm => (exec_mret s).raisesIllegal (State.mretIllegal_iff.mpr hm)⟩

/-- Settles O41: the modes that pass the check of SRET are those that none of its three illegal cases names. -/
theorem sretReturns : Obligations.SretReturns := by
  refine fun s => ⟨fun ⟨hs, hu, htsr⟩ => (exec_sret s).exec_eq fun hi => ?_,
    fun hi => (exec_sret s).raisesIllegal (State.sretIllegal_iff.mpr hi)⟩
  rcases State.sretIllegal_iff.mp hi with hno | huser | hgate
  · exact Bool.false_ne_true (hno.symm.trans hs)
  · exact hu huser
  · exact htsr hgate

/-- Settles O42: the check of URET is the N extension alone, and its effect the return from U-mode. -/
theorem uretReturns : Obligations.UretReturns := fun s =>
  ⟨fun hn => (exec_uret s).exec_eq (mt State.uretIllegal_iff.mp (ne_false_of_eq_true hn)),
    fun hn => (exec_uret s).raisesIllegal (State.uretIllegal_iff.mpr hn)⟩

/-- Settles O44: the check of WFI is the two cases, and otherwise it moves on with the waiting flag set as the
implementation sets it. -/
theorem wfiCompletesOrRaises : Obligations.WfiCompletesOrRaises := fun s =>
  ⟨fun hl => (exec_wfi s).exec_eq (mt State.wfiIllegal_iff.mp hl),
    fun hi => (exec_wfi s).raisesIllegal (State.wfiIllegal_iff.mpr hi)⟩

/-! ## What SFENCE.VMA drops -/

/-- The operands select by register number: `x0` every address, or every address space (R257). -/
theorem State.sfenceSelects_iff {s : State} {rs1 rs2 : Reg} {e : TlbEntry} : s.sfenceSelects rs1 rs2 e = true ↔
    (rs1 = 0 ∨ ((pteLeaf e.pte = true ∨ pteInvalid e.pte = true ∨ e.level = 0)
        ∧ e.vpn = (s.readReg rs1).toNat / 2 ^ pageShift (pageScheme s.cfg) e.level))
      ∧ (rs2 = 0 ∨ ((e.asid = asidOperand s.cfg (s.readReg rs2) ∨ s.cfg.asidTagged = false) ∧ e.global = false)) := by
  have hends : pteEnds e.level e.pte = true ↔ pteLeaf e.pte = true ∨ pteInvalid e.pte = true ∨ e.level = 0 := by
    simp [pteEnds, or_assoc, or_left_comm]
  simp [State.sfenceSelects, sfenceDrops, hends, or_comm (a := s.cfg.asidTagged = false)]

theorem State.mem_sfence_tlb {s : State} {rs1 rs2 : Reg} {e : TlbEntry} :
    e ∈ (s.sfence rs1 rs2).tlb ↔ e ∈ s.tlb ∧ ¬ s.sfenceSelects rs1 rs2 e = true := by
  simp [State.sfence]

/-- Settles O45: where its check passes, SFENCE.VMA keeps the cached entries that its operands do not select. -/
theorem sfenceVmaDropsSelectedEntries : Obligations.SfenceVmaDropsSelectedEntries := by
  refine fun s rs1 rs2 => ⟨fun hlegal => ⟨_, exec_sfenceVma_of_legal rs1 rs2 hlegal, fun e => ?_, rfl, rfl, rfl⟩,
    fun hi => (exec_sfenceVma s rs1 rs2).raisesIllegal (State.sfenceIllegal_iff.mpr hi)⟩
  rw [← State.sfenceSelects_iff]
  exact State.mem_sfence_tlb

end Sys2Proof.Machine
end

section
/-! Family 41, waiting: the state at an instruction boundary, its input in (R103, R171, R186, R311, R312, R345), and
the hart that waits there or goes on (R256). -/

namespace Sys2Proof.Machine

/-! ## What arrives -/

/-- Bytes that others store change memory, `mtime`, `mtimecmp` and `MSIP` only. -/
theorem State.storeCells_frame (cells : List Host.Cell) (s : State) :
    ∃ m t c l, s.storeCells cells =
      { s with mem := m, mtime := t, mtimecmp := c, lines := { s.lines with msip := l } } := by
  induction cells generalizing s with
  | nil => exact ⟨s.mem, s.mtime, s.mtimecmp, s.lines.msip, rfl⟩
  | cons cell rest ih =>
    obtain ⟨⟨m, t, c, l, h⟩, -⟩ := s.storeByte_frame cell.1 cell.2
    obtain ⟨m', t', c', l', h'⟩ := ih (s.storeByte cell.1 cell.2)
    exact ⟨m', t', c', l', by rw [storeCells_cons, h', h]⟩

/-- Events leave every counter register but the event counters. -/
theorem countEvents_others (c : Config) (l : List (Fin 29 × BitVec 64)) (k : Counters) :
    ∃ x, countEvents c k l = { k with hpmCounter := x } := by
  induction l generalizing k with
  | nil => exact ⟨k.hpmCounter, rfl⟩
  | cons p rest ih =>
    unfold countEvents
    split
    · exact ih { k with hpmCounter := k.hpmCounter.set p.1 ((k.hpmCounter[p.1] + p.2) &&& c.hpmCounterBits p.1) }
    · exact ih k

/-- An event counter adds, one after the other, what was counted for it (R104). -/
theorem countEvents_hpmCounter (c : Config) (l : List (Fin 29 × BitVec 64)) (k : Counters) (n : Fin 29) :
    (countEvents c k l).hpmCounter[n] =
      if c.hpmExists (n.val + 3) = true ∧ k.hpmEvent[n] ≠ 0 then
        (l.filter fun e => e.1 == n).foldl (fun x e => (x + e.2) &&& c.hpmCounterBits n) k.hpmCounter[n]
      else k.hpmCounter[n] := by
  induction l generalizing k with
  | nil => simp [countEvents]
  | cons p rest ih =>
    obtain ⟨m, d⟩ := p
    rw [countEvents, ih]
    by_cases hmn : m = n
    · subst hmn
      by_cases hm : c.hpmExists (m.val + 3) = true ∧ k.hpmEvent[m] ≠ 0
      · simp only [if_pos hm, List.filter_cons, beq_self_eq_true, if_true, List.foldl_cons]
        simp
      · simp only [if_neg hm]
    · have hval : m.val ≠ n.val := fun h => hmn (Fin.ext h)
      have hfilter : ((m, d) :: rest).filter (fun e => e.1 == n) = rest.filter fun e => e.1 == n := by simp [hmn]
      rw [hfilter]
      split <;> simp [hval]

/-- What the input brings before any byte is stored: time, cycles, events, the signals, the attributes of memory and
the draws. -/
def State.tick (s : State) (i : Input) : State :=
  { s with
    mtime := s.mtime + i.mtimeTicks
    counters := countEvents s.cfg { s.counters with mcycle := s.counters.mcycle + i.mcycleTicks } i.hpmTicks
    lines := { s.lines with meip := i.meip, seip := i.seip, ueip := i.ueip }
    pma := i.pma.getD s.pma
    draws := i.draws }

theorem State.applyInput_eq (s : State) (i : Input) :
    s.applyInput i = ((s.tick i).storeCells i.writes).speculateAll i.speculate := rfl

/-- What arrives, before any speculative walk. -/
theorem State.tick_arrived (s : State) (i : Input) (rest : List Input) :
    Arrived s i rest (({ s with inputs := rest }.tick i).storeCells i.writes) := by
  obtain ⟨hmtime, hmtimeBytes⟩ := ({ s with inputs := rest }.tick i).storeCells_mtime i.writes
  obtain ⟨hcmp, hcmpBytes⟩ := ({ s with inputs := rest }.tick i).storeCells_mtimecmp i.writes
  have hmsip := ({ s with inputs := rest }.tick i).storeCells_msip i.writes
  have hmem := ({ s with inputs := rest }.tick i).storeCells_mem i.writes
  obtain ⟨m, t, c, l, hframe⟩ := State.storeCells_frame i.writes ({ s with inputs := rest }.tick i)
  obtain ⟨x, hx⟩ :=
    countEvents_others s.cfg i.hpmTicks { s.counters with mcycle := s.counters.mcycle + i.mcycleTicks }
  exact {
    mtime := hmtime
    mtimeBytes := hmtimeBytes
    mtimecmp := hcmp
    mtimecmpBytes := hcmpBytes
    msip := hmsip
    signals := by rw [hframe]; exact ⟨rfl, rfl, rfl⟩
    mcycle := by rw [hframe]; exact congrArg Counters.mcycle hx
    events := fun n => by rw [hframe]; exact countEvents_hpmCounter s.cfg i.hpmTicks _ n
    otherCounters := by
      rw [hframe]
      exact congrArg
        (fun k : Counters => { k with mcycle := s.counters.mcycle, hpmCounter := s.counters.hpmCounter }) hx
    mem := hmem
    pma := by rw [hframe]; rfl
    draws := by rw [hframe]; rfl
    inputs := by rw [hframe]; rfl
    rest := by rw [hframe]; rfl }

/-! ## Speculative walks -/

theorem pteEnds_eq_false_iff {level : Nat} {pte : Word} :
    pteEnds level pte = false ↔ PteValid pte ∧ ¬ PteLeaf pte ∧ level ≠ 0 := by
  rw [pteEnds, Bool.or_eq_false_iff, Bool.or_eq_false_iff, pteInvalid_eq_false_iff, pteLeaf_eq_false_iff,
    beq_eq_false_iff_ne, and_assoc]

/-- The entry that ends a walk is the only one read from its level on; its `G` bit counts where it is valid. -/
theorem entryRead_of_ends_iff {s : State} {sch : Scheme} {va i a l : Nat} {g g' : Bool} {pte q : Word}
    (hr : PteRead s sch (a + vpnField sch va i * pteSize sch) pte) (hends : pteEnds i pte = true) :
    EntryRead s sch va i a g l q g' ↔ l = i ∧ q = pte ∧ g' = (g || (!pteInvalid pte && pteG pte)) := by
  have hglobal : (!pteInvalid pte) = (pteV pte && (pteR pte || !pteW pte)) := by simp [pteInvalid]
  rw [hglobal]
  constructor
  · intro h
    cases h with
    | here _ _ _ _ hq =>
      obtain rfl := hr.unique hq
      exact ⟨rfl, rfl, rfl⟩
    | deeper j _ _ _ _ ptr _ hptr hnot =>
      obtain rfl := hr.unique (pteAt_iff.mp hptr).1
      have hgoes : pteEnds (j + 1) pte = false :=
        pteEnds_eq_false_iff.mpr ⟨hptr.valid, not_pteLeaf_iff.mpr hnot, Nat.succ_ne_zero j⟩
      exact absurd hends (ne_true_of_eq_false hgoes)
  · rintro ⟨rfl, rfl, rfl⟩
    exact .here _ _ _ _ hr

theorem readFrom_of_ends_iff {s : State} {sch : Scheme} {va i a : Nat} {g : Bool} {pte : Word} {e : TlbEntry}
    (hr : PteRead s sch (a + vpnField sch va i * pteSize sch) pte) (hends : pteEnds i pte = true) :
    ReadFrom s sch va id i a g e ↔ e = s.tlbEntryFor sch va i (g || (!pteInvalid pte && pteG pte)) pte := by
  rw [eq_tlbEntryFor_iff]
  constructor
  · rintro ⟨⟨q, hq, hpte⟩, hasid, hpage, hpmp⟩
    obtain ⟨hlev, rfl, hg⟩ := (entryRead_of_ends_iff hr hends).mp hq
    exact ⟨⟨hlev, by simpa using hpte, hg⟩, hasid, hpage, hpmp⟩
  · rintro ⟨⟨hlev, hpte, hg⟩, hasid, hpage, hpmp⟩
    exact ⟨⟨pte, (entryRead_of_ends_iff hr hends).mpr ⟨hlev, rfl, hg⟩, by simpa using hpte⟩, hasid, hpage, hpmp⟩

/-- Every walk starts by reading an entry. -/
theorem EntryRead.exists_pteRead {s : State} {sch : Scheme} {va i a l : Nat} {g g' : Bool} {q : Word}
    (h : EntryRead s sch va i a g l q g') : ∃ pte, PteRead s sch (a + vpnField sch va i * pteSize sch) pte := by
  cases h with
  | here _ _ _ _ hr => exact ⟨q, hr⟩
  | deeper _ _ _ _ _ ptr _ hr => exact ⟨ptr, (pteAt_iff.mp hr).1⟩

section
variable {s : State} {sch : Scheme} {va : Word}

theorem State.walkReads_of_not_read {i a : Nat} {g : Bool}
    (h : ¬ ∃ pte, PteRead s sch (a + vpnField sch va.toNat i * pteSize sch) pte) : s.walkReads sch va i a g = [] := by
  rw [State.walkReads.eq_def]
  split
  · next pte hpte => exact absurd ⟨pte, State.loadPte_ok_iff.mp hpte⟩ h
  all_goals rfl

theorem State.walkReads_of_read {i a : Nat} {g : Bool} {pte : Word}
    (hr : PteRead s sch (a + vpnField sch va.toNat i * pteSize sch) pte) :
    s.walkReads sch va i a g =
      s.tlbEntryFor sch va.toNat i (g || (!pteInvalid pte && pteG pte)) pte ::
        (if pteEnds i pte then [] else s.walkReads sch va (i - 1) (ptePpn sch pte * 4096) (g || pteG pte)) := by
  have hload : s.loadPte sch .load va (pteAddress sch va i a) = .ok pte := State.loadPte_ok_iff.mpr hr
  rw [State.walkReads.eq_def, hload]
  cases i with
  | zero => simp [pteEnds]
  | succ j => rfl

/-- The entries that a walk reads from a level on are those of steps 2 to 4 of R181. -/
theorem State.mem_walkReads {e : TlbEntry} (i : Nat) {a : Nat} {g : Bool} :
    e ∈ s.walkReads sch va i a g ↔ ReadFrom s sch va.toNat id i a g e := by
  induction i using Nat.strongRecOn generalizing a g with
  | ind i ih =>
    by_cases hread : ∃ pte, PteRead s sch (a + vpnField sch va.toNat i * pteSize sch) pte
    · obtain ⟨pte, hr⟩ := hread
      rw [State.walkReads_of_read hr, List.mem_cons]
      cases hends : pteEnds i pte with
      | true =>
        rw [readFrom_of_ends_iff hr hends]
        exact or_iff_left List.not_mem_nil
      | false =>
        obtain ⟨hv, hl, hi⟩ := pteEnds_eq_false_iff.mp hends
        obtain ⟨j, rfl⟩ := Nat.exists_eq_succ_of_ne_zero hi
        rw [readFrom_pointer_iff (pteAt_iff.mpr ⟨hr, hv⟩) hl, pteInvalid_eq_false_iff.mpr hv]
        exact or_congr Iff.rfl (ih j (Nat.lt_succ_self j))
    · rw [State.walkReads_of_not_read hread]
      refine ⟨fun h => absurd h List.not_mem_nil, ?_⟩
      rintro ⟨⟨q, hq, -⟩, -⟩
      exact absurd hq.exists_pteRead hread

end

theorem mem_translationReads_iff {s : State} {sch : Scheme} {acc : Access} {p : Priv} {va : Word} {e : TlbEntry}
    (hs : s.activeScheme p = some sch) (hc : canonical sch va = true) :
    e ∈ s.translationReads acc p va ↔ CachedRead s sch acc p va.toNat id e := by
  have hwalk : ∀ {i a g}, WalkStartsBelow s sch acc p va.toNat i a g →
      (e ∈ s.walkReads sch va i a g ↔ CachedRead s sch acc p va.toNat id e) := fun h => by
    rw [State.mem_walkReads, h.cachedRead_iff]
  simp only [State.translationReads, hs, hc, Bool.not_true, Bool.false_eq_true, if_false]
  cases hchoice : s.tlbChoice sch va.toNat acc p with
  | none => exact hwalk (.inl ⟨State.tlbChoice_none.mp hchoice, rfl, rfl, rfl⟩)
  | some c =>
    have hserves : CachedServes s sch acc p va.toNat c := State.tlbChoice_some.mp hchoice
    dsimp only
    split
    · next hends =>
      refine ⟨fun h => absurd h List.not_mem_nil, ?_⟩
      rintro ⟨⟨i, a, g, pte, ⟨hnone, -⟩ | ⟨c', hc', hv, hl, hlev, -⟩, -⟩, -⟩
      · exact absurd hserves (hnone c)
      · obtain rfl := hserves.unique hc'
        have hgoes : pteEnds c.level c.pte = false := pteEnds_eq_false_iff.mpr ⟨hv, hl, by omega⟩
        exact absurd hends (ne_true_of_eq_false hgoes)
    · next hends =>
      obtain ⟨hv, hl, hlev⟩ := pteEnds_eq_false_iff.mp (Bool.eq_false_iff.mpr hends)
      exact hwalk (.inr ⟨c, hserves, hv, hl, by omega, rfl, rfl⟩)

theorem State.translationReads_of_not_canonical {s : State} {sch : Scheme} {acc : Access} {p : Priv} {va : Word}
    (hs : s.activeScheme p = some sch) (hc : canonical sch va = false) : s.translationReads acc p va = [] := by
  simp [State.translationReads, hs, hc]

theorem State.speculateOne_of_ok {v : State} {w : SpecWalk} {t : Translated}
    (h : v.translate (specAccess w) w.priv (v.cfg.trunc w.va) = .ok t) : v.speculateOne w = t.state := by
  rw [specAccess] at h
  simp only [State.speculateOne, h]

theorem State.speculateOne_of_not_ok {v : State} {w : SpecWalk}
    (h : ∀ t, v.translate (specAccess w) w.priv (v.cfg.trunc w.va) ≠ .ok t) :
    v.speculateOne w = v.cacheReads (specAccess w) w := by
  rw [specAccess] at h
  unfold State.speculateOne
  dsimp only
  split
  · next t ht => exact absurd ht (h t)
  all_goals rfl

theorem State.speculatedBy_speculateOne (v : State) (w : SpecWalk) : SpeculatedBy w v (v.speculateOne w) where
  succeeds _ ht := State.speculateOne_of_ok ht
  fails hno := by
    rw [State.speculateOne_of_not_ok hno]
    refine ⟨rfl, fun sch hs => ⟨fun hc => ?_, fun hc e => ?_⟩⟩
    · rw [State.cacheReads, State.translationReads_of_not_canonical hs hc]
      rfl
    · rw [State.cacheReads, mem_addTlb, mem_translationReads_iff hs hc]

theorem State.speculatedInTurn (l : List SpecWalk) (v : State) : SpeculatedInTurn l v (v.speculateAll l) := by
  induction l generalizing v with
  | nil => rfl
  | cons w rest ih => exact ⟨v.speculateOne w, v.speculatedBy_speculateOne w, ih _⟩

/-- Speculative walks together change what one can: of memory, Accessed bits alone (R183, R186). -/
theorem State.speculateAll_spec (l : List SpecWalk) (v : State) :
    WalkFrame v (v.speculateAll l) ∧ ∀ a, (v.speculateAll l).mem.read a = v.mem.read a
      ∨ ∃ b, v.mem.read a = some b ∧ (v.speculateAll l).mem.read a = some (b ||| 0x40) := by
  induction l generalizing v with
  | nil => exact ⟨WalkFrame.refl v, fun _ => .inl rfl⟩
  | cons w rest ih =>
    obtain ⟨hone, hbytes⟩ := v.speculateOne_spec w
    obtain ⟨hall, hrest⟩ := ih (v.speculateOne w)
    refine ⟨hone.trans hall, fun a => ?_⟩
    rw [State.speculateAll]
    rcases hbytes a with h | ⟨b, hb, h⟩
    · rw [← h]
      exact hrest a
    · rcases hrest a with h' | ⟨b', hb', h'⟩
      · exact .inr ⟨b, hb, h'.trans h⟩
      · obtain rfl := Option.some.inj (h.symm.trans hb')
        exact .inr ⟨b, hb, by rw [h', BitVec.or_assoc, BitVec.or_self]⟩

theorem State.speculated_speculateAll (l : List SpecWalk) (v : State) : Speculated v (v.speculateAll l) := by
  obtain ⟨hframe, hbytes⟩ := v.speculateAll_spec l
  refine ⟨hbytes, fun hno => ?_, hframe.signals, hframe.rest⟩
  obtain ⟨hmem, hmtime, hcmp, hlines⟩ := hframe.kept hno
  have hrest := hframe.rest
  rwa [← hmem, ← hmtime, ← hcmp, ← hlines] at hrest

/-! ## Boundaries -/

/-- A step that is no reset is what the hart does at its boundary, the input in. -/
theorem exists_atBoundary {s : State} (hn : s.noReset = true) :
    ∃ u wake, AtBoundary s u wake ∧ u.waiting = s.waiting ∧ step s = u.cycle wake := by
  unfold AtBoundary step State.boundary
  unfold State.noReset at hn
  cases hi : s.inputs with
  | nil => exact ⟨s, false, ⟨rfl, rfl⟩, rfl, rfl⟩
  | cons i rest =>
    have hreset : i.reset = false := by simpa [hi] using hn
    refine ⟨{ s with inputs := rest }.applyInput i, i.wake, ⟨rfl, _, s.tick_arrived i rest, State.applyInput_eq _ i,
      State.speculated_speculateAll _ _, State.speculatedInTurn _ _⟩, (applyInput_frame _ i).waiting, ?_⟩
    dsimp only
    rw [hreset, if_neg Bool.false_ne_true]

/-! ## Interrupts -/

theorem State.interruptReady_iff {s : State} {i : Interrupt} : s.interruptReady i = true ↔ InterruptEnabled s i := by
  simp [State.interruptReady, State.modeEnabled, InterruptEnabled, BitVec.lt_def, and_assoc]

/-- Where no interrupt meets the conditions of R292 none is taken. -/
theorem State.pendingInterrupt_eq_none {s : State} (h : ∀ i, ¬ InterruptEnabled s i) : s.pendingInterrupt = none := by
  have hnone : ∀ x, s.readyFor x = none := fun x =>
    List.find?_eq_none.mpr fun i _ hi => h i (State.interruptReady_iff.mp (Bool.and_eq_true_iff.mp hi).1)
  rw [State.pendingInterrupt, hnone, hnone, hnone]
  rfl

/-! ## Waiting -/

section
variable {s : State} {wake : Bool}

theorem State.resumes_iff (hw : s.waiting = true) : s.resumes wake = true ↔ s.mip &&& s.mie ≠ 0 ∨ wake = true := by
  simp [State.resumes, hw]

/-- A hart that is not to go on keeps waiting: nothing executes (R256). -/
theorem State.cycle_of_not_resumes (h : ¬ s.resumes wake = true) : s.cycle wake = .next s := if_neg h

/-- A hart that goes on does what one that does not wait does. -/
theorem State.cycle_of_resumes (h : s.resumes wake = true) : s.cycle wake = { s with waiting := false }.cycle false :=
  if_pos h

theorem State.cycle_of_waiting (hw : s.waiting = true) :
    (s.mip &&& s.mie = 0 → wake = false → s.cycle wake = .next s)
      ∧ ((s.mip &&& s.mie ≠ 0 ∨ wake = true) → s.cycle wake = { s with waiting := false }.cycle false) := by
  refine ⟨fun hnone hwake => State.cycle_of_not_resumes ?_, fun hgo =>
    State.cycle_of_resumes ((State.resumes_iff hw).mpr hgo)⟩
  intro hgo
  rcases (State.resumes_iff hw).mp hgo with hpend | hwake'
  · exact hpend hnone
  · exact Bool.false_ne_true (hwake.symm.trans hwake')

end

/-- Settles O39: at the boundary (`exists_atBoundary`) a waiting hart stays or goes on (`State.cycle_of_waiting`), and
where no interrupt is enabled it goes on with the next instruction. -/
theorem waitingHartResumes : Obligations.WaitingHartResumes := by
  refine ⟨fun s wake hw => State.cycle_of_waiting hw, fun s hn hw => ?_⟩
  obtain ⟨u, wake, hat, hwait, hstep⟩ := exists_atBoundary hn
  rw [hstep]
  obtain ⟨hstays, hgoes⟩ := State.cycle_of_waiting (s := u) (wake := wake) (hwait.trans hw)
  exact ⟨u, wake, hat, hwait.trans hw, hstays, fun hgo hnone =>
    (hgoes hgo).trans (State.cycle_of_runs false rfl (State.pendingInterrupt_eq_none hnone))⟩

end Sys2Proof.Machine
end


section
/-! Family 60, exceptions: the mode that takes a trap and what taking it does (R276, R284, R299, R300), the way back
(R302), and which interrupt is taken, and when (R292, R293). -/

namespace Sys2Proof.Machine

/-! ## Taking a trap -/

theorem State.takeInterrupt_trapped (s : State) (i : Interrupt) :
    Trapped s (s.takeInterrupt i) (s.interruptTarget i) true i.code 0 :=
  s.takeTrap_trapped _ true 0 i.code_lt

/-- Settles O33: exceptions and interrupts are both taken by `State.takeTrap`, with a code below 16. -/
theorem trapEntry : Obligations.TrapEntry :=
  ⟨State.raise_trapped, State.takeInterrupt_trapped⟩

/-! ## The mode that takes a trap -/

/-- Settles O34: the tests of the machine are those of R299, one by one; for an interrupt without S-mode the
delegation registers exist only where user-level traps do. -/
theorem trapTarget : Obligations.TrapTarget := by
  refine ⟨fun s e => ?exception, fun s i => ?interrupt⟩
  case exception =>
    simp only [State.exceptionTarget, Bool.and_eq_true, beq_iff_eq, Bool.not_eq_true', and_assoc,
      and_comm (a := s.priv = .user)]
  case interrupt =>
    have hdeleg : s.cfg.hasMdeleg = true ↔ s.cfg.hasS = true ∨ s.cfg.n = true := Bool.or_eq_true_iff
    simp only [State.interruptTarget, Bool.and_eq_true, hdeleg]
    split
    · next hd =>
      split
      · rfl
      · next hs => rw [if_pos (hd.1.resolve_left hs)]
    · rfl

/-- An exception is taken in the mode that raises it or in a more privileged one (R276). -/
theorem State.priv_le_exceptionTarget (s : State) (e : Exception) :
    s.priv.enc.toNat ≤ (s.exceptionTarget e).enc.toNat := by
  cases hp : s.priv with
  | user => exact Nat.zero_le _
  | machine => simp [State.exceptionTarget, hp]
  | supervisor =>
    have hother : (Priv.supervisor == Priv.user) = false := rfl
    simp only [State.exceptionTarget, hp, hother, reduceCtorEq, Bool.false_and, Bool.false_eq_true, if_false]
    split <;> decide

/-- An address of the tables reaches no register where the implementation has not the one that stands there. -/
theorem csrAt_eq_none_of_not_implemented {c : Config} {a : CsrAddr} {r : Csr} (hr : r ∈ standardCsrs)
    (ha : r.addr = a.toNat) (hi : r.implemented c = false) : csrAt c a = none := by
  rw [csrAt, standardCsrAt_eq_some_iff.mpr ⟨hr, ha⟩]
  exact if_neg (ne_true_of_eq_false hi)

/-- Settles O36: `medeleg` and `mideleg` exist only with S-mode or user-level traps, and of the cases of R299
(`trapTarget`) only M-mode is left. -/
theorem withoutDelegationTrapsGoToMachineMode : Obligations.WithoutDelegationTrapsGoToMachineMode := by
  intro s hs hn
  have hdeleg : s.cfg.hasMdeleg = false := Bool.or_eq_false_iff.mpr ⟨hs, hn⟩
  obtain ⟨hexception, hinterrupt⟩ := trapTarget
  exact ⟨csrAt_eq_none_of_not_implemented (r := .medeleg) (by decide) rfl hdeleg,
    csrAt_eq_none_of_not_implemented (r := .mideleg) (by decide) rfl hdeleg,
    fun e => by simp [hexception s e, hs, hn], fun i => by simp [hinterrupt s i, hs, hn]⟩

/-! ## Which interrupt is taken -/

theorem Priv.enc_toNat_injective {x y : Priv} (h : x.enc.toNat = y.enc.toNat) : x = y := by
  revert h
  cases x <;> cases y <;> decide

theorem mem_interruptOrder (i : Interrupt) : i ∈ interruptOrder := by cases i <;> decide

/-- What `find?` gives stands before everything else that it looks for. -/
theorem idxOf_le_of_find?_eq_some {α : Type} [BEq α] [LawfulBEq α] {l : List α} {p : α → Bool} {a b : α}
    (ha : l.find? p = some a) (hb : p b = true) : l.idxOf a ≤ l.idxOf b := by
  induction l with
  | nil => cases ha
  | cons x xs ih =>
    cases hx : p x with
    | true =>
      obtain rfl : x = a := by simpa [hx] using ha
      rw [List.idxOf_cons_self]
      exact Nat.zero_le _
    | false =>
      rw [List.find?_cons_of_neg (ne_true_of_eq_false hx)] at ha
      have hne : ∀ c, p c = true → x ≠ c := fun c hc he => Bool.false_ne_true (hx.symm.trans (he ▸ hc))
      rw [List.idxOf_cons_ne xs (hne a (List.find?_some ha)), List.idxOf_cons_ne xs (hne b hb)]
      exact Nat.succ_le_succ (ih ha)

section
variable {s : State} {x : Priv} {i j : Interrupt}

/-- The test that `State.readyFor` makes of an interrupt. -/
theorem State.readyFor_test_iff :
    (s.interruptReady i && s.interruptTarget i == x) = true ↔ InterruptEnabled s i ∧ s.interruptTarget i = x := by
  rw [Bool.and_eq_true, State.interruptReady_iff, beq_iff_eq]

theorem State.readyFor_some (h : s.readyFor x = some i) : InterruptEnabled s i ∧ s.interruptTarget i = x := by
  have htest := List.find?_some h
  exact State.readyFor_test_iff.mp htest

/-- The interrupt found for a mode is the first of the enabled ones destined for it. -/
theorem State.readyFor_first (h : s.readyFor x = some i) (hj : InterruptEnabled s j) (hx : s.interruptTarget j = x) :
    interruptRank i ≤ interruptRank j :=
  idxOf_le_of_find?_eq_some h (State.readyFor_test_iff.mpr ⟨hj, hx⟩)

/-- An enabled interrupt is found, or another one before it, for the mode that it is destined for. -/
theorem State.readyFor_ne_none (hj : InterruptEnabled s j) : s.readyFor (s.interruptTarget j) ≠ none := fun h =>
  List.find?_eq_none.mp h j (mem_interruptOrder j) (State.readyFor_test_iff.mpr ⟨hj, rfl⟩)

/-- The interrupt that is pending is the one found for its mode, and none is found for a more privileged mode. -/
theorem State.pendingInterrupt_some (h : s.pendingInterrupt = some i) :
    ∃ x, s.readyFor x = some i ∧ ∀ y, x.enc.toNat < y.enc.toNat → s.readyFor y = none := by
  rcases Option.or_eq_some_iff.mp h with hm | ⟨hm, h⟩
  · exact ⟨.machine, hm, fun y hy => absurd hy (by cases y <;> decide)⟩
  rcases Option.or_eq_some_iff.mp h with hs | ⟨hs, hu⟩
  · refine ⟨.supervisor, hs, fun y hy => ?_⟩
    cases y with
    | machine => exact hm
    | supervisor | user => exact absurd hy (by decide)
  · refine ⟨.user, hu, fun y hy => ?_⟩
    cases y with
    | machine => exact hm
    | supervisor => exact hs
    | user => exact absurd hy (by decide)

theorem State.pendingInterrupt_enabled (h : s.pendingInterrupt = some i) : InterruptEnabled s i := by
  obtain ⟨x, hi, -⟩ := State.pendingInterrupt_some h
  exact (State.readyFor_some hi).1

/-- The order of R293: every other enabled interrupt is destined for a less privileged mode, or for the same mode
and does not come before. -/
theorem State.pendingInterrupt_priority (h : s.pendingInterrupt = some i) (hj : InterruptEnabled s j) :
    (s.interruptTarget j).enc.toNat < (s.interruptTarget i).enc.toNat
      ∨ (s.interruptTarget j = s.interruptTarget i ∧ interruptRank i ≤ interruptRank j) := by
  obtain ⟨x, hi, habove⟩ := State.pendingInterrupt_some h
  obtain rfl := (State.readyFor_some hi).2
  rcases Nat.lt_trichotomy (s.interruptTarget j).enc.toNat (s.interruptTarget i).enc.toNat with hlt | heq | hgt
  · exact .inl hlt
  · have hsame := Priv.enc_toNat_injective heq
    exact .inr ⟨hsame, State.readyFor_first hi hj hsame⟩
  · exact absurd (habove _ hgt) (State.readyFor_ne_none hj)

/-- Where an interrupt is enabled one is taken. -/
theorem State.exists_pendingInterrupt (hj : InterruptEnabled s j) : ∃ i, s.pendingInterrupt = some i := by
  refine Option.ne_none_iff_exists'.mp fun hnone => ?_
  obtain ⟨hm, hrest⟩ := Option.or_eq_none_iff.mp hnone
  obtain ⟨hs, hu⟩ := Option.or_eq_none_iff.mp hrest
  refine State.readyFor_ne_none hj ?_
  cases s.interruptTarget j with
  | machine => exact hm
  | supervisor => exact hs
  | user => exact hu

end

/-- Settles O38, by `State.pendingInterrupt_priority`. -/
theorem interruptPriority : Obligations.InterruptPriority :=
  ⟨fun _ _ _ => State.pendingInterrupt_priority, rfl⟩

/-- Settles O35: an exception by its target, an interrupt by the third condition of R292. -/
theorem noTrapLowersPrivilege : Obligations.NoTrapLowersPrivilege := by
  refine ⟨State.priv_le_exceptionTarget, fun s i h => ?_⟩
  obtain ⟨-, -, habove | ⟨hsame, -⟩⟩ := State.pendingInterrupt_enabled h
  · exact Nat.le_of_lt habove
  · exact Nat.le_of_eq (congrArg (fun x => x.enc.toNat) hsame)

/-! ## When an interrupt is taken -/

/-- An enabled interrupt ends a wait: it is pending and `mie` enables it (R256). -/
theorem State.resumes_of_enabled {s : State} {i : Interrupt} (wake : Bool) (h : InterruptEnabled s i) :
    s.resumes wake = true := by
  obtain ⟨hpending, henabled, -⟩ := h
  have hboth : s.mip &&& s.mie ≠ 0 := by
    intro hzero
    have hbit : (s.mip &&& s.mie).getLsbD i.code = true := by rw [BitVec.getLsbD_and, hpending, henabled]; rfl
    rw [hzero, BitVec.ofNat_eq_ofNat, BitVec.getLsbD_zero] at hbit
    exact Bool.false_ne_true hbit
  rw [State.resumes, bne_iff_ne.mpr hboth, Bool.or_true, Bool.true_or]

/-- The entry to an interrupt ends the wait itself (R300). -/
theorem State.takeInterrupt_of_waiting (s : State) (i : Interrupt) :
    { s with waiting := false }.takeInterrupt i = s.takeInterrupt i := by
  change State.takeTrap _ (s.interruptTarget i) _ _ _ = State.takeTrap _ _ _ _ _
  cases s.interruptTarget i <;> rfl

theorem State.cycle_of_pendingInterrupt {s : State} {i : Interrupt} (wake : Bool)
    (h : s.pendingInterrupt = some i) : s.cycle wake = .next (s.takeInterrupt i) := by
  have hawake : { s with waiting := false }.pendingInterrupt = some i := h
  rw [State.cycle, if_pos (State.resumes_of_enabled wake (State.pendingInterrupt_enabled h)), hawake]
  exact congrArg Host.Outcome.next (s.takeInterrupt_of_waiting i)

/-- Settles O37: at the boundary (`exists_atBoundary`) the interrupt that `State.pendingInterrupt` finds is taken, and
where none is enabled the next instruction runs. -/
theorem interruptTakenExactlyWhenEnabled : Obligations.InterruptTakenExactlyWhenEnabled := by
  intro s hn
  obtain ⟨u, wake, hat, -, hstep⟩ := exists_atBoundary hn
  rw [hstep]
  refine ⟨u, wake, hat, fun ⟨j, hj⟩ => ?taken, fun hnone hwait =>
    State.cycle_of_runs wake hwait (State.pendingInterrupt_eq_none hnone)⟩
  case taken =>
    obtain ⟨i, hi⟩ := State.exists_pendingInterrupt hj
    exact ⟨i, u.takeInterrupt i, State.pendingInterrupt_enabled hi, fun _ => State.pendingInterrupt_priority hi,
      State.cycle_of_pendingInterrupt wake hi, u.takeInterrupt_trapped i⟩

/-! ## Returning from a trap -/

section
variable {s t : State} {x : Priv} {intr : Bool} {code : Nat} {tval : Word}

theorem Trapped.cfg_eq (h : Trapped s t x intr code tval) : t.cfg = s.cfg := by
  simpa only using congrArg State.cfg h.rest

theorem Trapped.regs_eq (h : Trapped s t x intr code tval) : t.regs = s.regs := by
  simpa only using congrArg State.regs h.rest

/-- A trap leaves the mode that it came from in `xPP`, so that the return finds it (R89): a trap into `x` comes
from a mode not above it. -/
theorem Trapped.previous_eq (h : Trapped s t x intr code tval) (hle : s.priv.enc.toNat ≤ x.enc.toNat) :
    t.mstatus.previous x = s.priv := by
  obtain ⟨hmpp, hspp⟩ := h.previousMode
  cases x with
  | machine => exact hmpp
  | supervisor =>
    rw [Mstatus.previous, hspp]
    cases hp : s.priv with
    | user | supervisor => rfl
    | machine => exact absurd (hp ▸ hle) (by decide)
  | user =>
    cases hp : s.priv with
    | user => rfl
    | supervisor | machine => exact absurd (hp ▸ hle) (by decide)

/-- A return sets the interrupt enable from the previous one (R302). -/
theorem Mstatus.pop_ie (c : Config) (m : Mstatus) (x : Priv) : (m.pop c x).ie x = m.pie x := by cases x <;> rfl

/-- `xepc` holds the program counter of before, where that is legal. -/
theorem Trapped.alignPc_epc (h : Trapped s t x intr code tval) (hpc : s.cfg.alignPc s.pc = s.pc) :
    t.cfg.alignPc (t.trapRegs x).epc = s.pc := by
  have hepc : (t.trapRegs x).epc = s.cfg.alignPc s.pc := h.epc
  rw [h.cfg_eq, hepc, Config.alignPc_alignPc, hpc]

/-- The return instruction of the mode that took a trap passes its check. -/
theorem Trapped.exec_returnInstr (h : Trapped s t x intr code tval)
    (hS : x = .supervisor → s.cfg.hasS = true ∧ s.mstatus.tsr = false) (hU : x = .user → s.cfg.n = true) :
    exec (returnInstr x) t = .next (t.trapReturn x) := by
  cases x with
  | machine => exact (exec_mret t).exec_eq fun hi => State.mretIllegal_iff.mp hi h.priv
  | supervisor =>
    obtain ⟨hs, htsr⟩ := hS rfl
    obtain ⟨-, -, -, -, -, -, htsr'⟩ := h.otherFields
    refine (exec_sret t).exec_eq fun hi => ?_
    rw [State.sretIllegal_iff, h.cfg_eq, h.priv, htsr', hs, htsr] at hi
    simp at hi
  | user =>
    refine (exec_uret t).exec_eq fun hi => ?_
    rw [State.uretIllegal_iff, h.cfg_eq, hU rfl] at hi
    cases hi

end

/-- Settles O43: the return passes its check and undoes what the trap pushed. -/
theorem trapThenReturnRestores : Obligations.TrapThenReturnRestores := by
  intro s t x intr code tval hlegal h hle hS hU
  refine ⟨t.trapReturn x, h.exec_returnInstr hS hU, h.previous_eq hle, h.alignPc_epc hlegal.pc, ?_, h.regs_eq, h.mem⟩
  rw [State.trapReturn_mstatus, Mstatus.pop_ie, h.previousEnable]

/-! ## How the privilege level rises -/

/-- A return goes to a mode not above the one it returns from, but for what `MPP` holds. -/
theorem Mstatus.previous_le {m : Mstatus} {x : Priv} (hx : x ≠ .machine) :
    (m.previous x).enc.toNat ≤ x.enc.toNat := by
  cases x with
  | machine => exact absurd rfl hx
  | supervisor =>
    rw [Mstatus.previous]
    split <;> decide
  | user => exact Nat.le_refl _

/-- SRET is executed in S-mode or above. -/
theorem State.supervisor_le_of_sret {s : State} (h : s.sretIllegal = false) :
    Priv.supervisor.enc.toNat ≤ s.priv.enc.toNat := by
  cases hp : s.priv with
  | user => simp [State.sretIllegal, hp] at h
  | supervisor | machine => decide

/-- An instruction raises an exception or does not raise the privilege level. -/
theorem exec_raises_or_priv_le {i : Instr} {s t : State} (h : exec i s = .next t) :
    (∃ e tval, t = s.raise e tval) ∨ t.priv.enc.toNat ≤ s.priv.enc.toNat := by
  rcases exec_cases h with hraise | ⟨f, r, u, hc⟩ | ⟨-, hm, rfl⟩ | ⟨-, hl, rfl⟩ | ⟨-, -, rfl⟩ | ⟨-, -, rfl⟩
    | ⟨a, b, -, -, rfl⟩
  case inl => exact .inl hraise
  all_goals right
  case inr.inl =>
    obtain ⟨regs, he⟩ := s.csrComplete_eq u f.op f.rd r f.src
    rw [hc.result, he]
    exact Nat.le_of_eq (congrArg (fun x => x.enc.toNat) (State.csrUpdate_frame hc.update).1.priv)
  case inr.inr.inl =>
    rw [hm]
    cases (s.trapReturn .machine).priv <;> decide
  case inr.inr.inr.inl =>
    exact Nat.le_trans (Mstatus.previous_le (x := .supervisor) (by decide)) (State.supervisor_le_of_sret hl)
  case inr.inr.inr.inr.inl => exact Nat.zero_le _
  all_goals exact Nat.le_refl _

/-- Settles O54: what is left of `exec_raises_or_priv_le` is the exception. -/
theorem privilegeRisesOnlyByTrap : Obligations.PrivilegeRisesOnlyByTrap := by
  intro i s t h hrise
  rcases exec_raises_or_priv_le h with ⟨e, tval, rfl⟩ | hle
  · exact ⟨e, tval, s.raise_trapped e tval⟩
  · exact absurd hrise (Nat.not_lt.mpr hle)

end Sys2Proof.Machine
end


section
/-! Family 70, reset and hazards: the state a reset leads to (R341, R342, D4), and the counter of retired instructions
(R345). -/

namespace Sys2Proof.Machine

/-! ## The retirement counter -/

/-- The register that an access reaches, every check passed, is that of a permitted access. -/
theorem CsrAllowed.of_access {s : State} {op : CsrOp} {a : CsrAddr} {src : CsrSource} {r : Csr}
    (h : s.csrAccess a (op.writes src) = some r) : csrAt s.cfg a = some r ∧ CsrAllowed s op a src := by
  obtain ⟨hlevel, hwritable, hdebug, hgated, hat⟩ := State.csrAccess_some.mp h
  exact ⟨hat, {
    level := by simpa [State.mayAccess, BitVec.le_def] using hlevel
    present := Option.isSome_of_eq_some hat
    writable := hwritable
    notDebug := hdebug
    notGated := hgated }⟩

/-- A register that counts retired instructions stands at the address of `minstret` or `minstreth` (R104). -/
theorem addr_of_isInstret {c : Config} {a : CsrAddr} {r : Csr} (h : csrAt c a = some r) (hr : r.isInstret = true) :
    a = 0xB02 ∨ a = 0xB82 := by
  rw [isInstret_eq h] at hr
  simpa [isInstretAddr] using hr

/-- A trap leaves the counters. -/
theorem State.raise_counters (s : State) (e : Exception) (tval : Word) :
    (s.raise e tval).counters = s.counters := s.takeTrap_counters _ _ _ _

/-- A CSR instruction that completes counts itself, or writes the counter (R104, R345). -/
theorem CsrCompletes.minstret {i : Instr} {s t u : State} {f : CsrForm} {r : Csr} (h : CsrCompletes i s t f r u) :
    t.counters.minstret = s.counters.minstret + 1 ∨ (f.op.writes f.src = true ∧ r.isInstret = true) := by
  cases hcounter : f.op.writes f.src && r.isInstret with
  | false => exact .inl (h.result ▸ (csrDone_csrComplete h.update).retired hcounter)
  | true => exact .inr (Bool.and_eq_true_iff.mp hcounter)

/-- Settles O53, over the outcomes of an instruction (`exec_cases`): an exception leaves the counters, a CSR instruction
is `CsrCompletes.minstret`, and each other one retires. -/
theorem minstretCountsRetiredInstructions : Obligations.MinstretCountsRetiredInstructions := by
  intro i s t h
  rcases exec_cases h with ⟨e, tval, rfl⟩ | ⟨f, r, u, hc⟩ | ⟨-, -, rfl⟩ | ⟨-, -, rfl⟩ | ⟨-, -, rfl⟩
    | ⟨-, -, rfl⟩ | ⟨a, b, -, -, rfl⟩
  case inl =>
    exact .inl ⟨congrArg Counters.minstret (s.raise_counters e tval), e, tval, s.raise_trapped e tval⟩
  case inr.inl =>
    right
    refine hc.minstret.imp_right fun ⟨hwrites, hinstret⟩ => ?_
    obtain ⟨hat, hallowed⟩ := CsrAllowed.of_access hc.access
    exact ⟨f, r, hc.form, hat, hallowed, hwrites, addr_of_isInstret hat hinstret⟩
  all_goals exact .inr (.inl rfl)

/-! ## Reset -/

/-- Settles O58, by `State.hartReset_legal`: nothing stands in the memory of `State.resetWith`. -/
theorem hartResetGivesLegalState : Obligations.HartResetGivesLegalState :=
  ⟨fun _ => State.hartReset_legal, fun _ => State.hartReset_legal rfl⟩

/-- Settles O57: the state after reset is that of the second half of O58 with the parameters of `CFG0`. -/
theorem resetStateIsLegal : Obligations.ResetStateIsLegal :=
  hartResetGivesLegalState.2 Config.cfg0

section
variable (s : State)

/-- Every PMP entry is unlocked and off after a reset (D4). -/
theorem State.hartReset_pmp_off (k : Fin 16) :
    s.hartReset.pmp.locked k.val = false ∧ s.hartReset.pmp.entryCfg[k].extractLsb' 3 2 = 0 := by
  obtain ⟨-, -, hoff, hunlocked⟩ := resetPmpByte_held s.cfg k s.pmp.entryCfg[k]
  have hbyte : s.hartReset.pmp.entryCfg[k] = resetPmpByte s.cfg k s.pmp.entryCfg[k] := by simp [State.hartReset]
  have hlocked : s.hartReset.pmp.locked k.val = s.hartReset.pmp.entryCfg[k].getLsbD 7 := by simp [Pmp.locked]
  rw [hlocked, hbyte]
  exact ⟨hunlocked, hoff⟩

/-- `mcause` reads zero after a reset (R341). -/
theorem State.hartReset_mcause : s.hartReset.readCsr (.cause .machine) = 0 := s.cfg.trunc_zero

end

/-- A boundary at which a reset arrives resets the hart and does nothing else (R341). -/
theorem step_of_reset {s : State} {i : Input} {rest : List Input} (hi : s.inputs = i :: rest) (hr : i.reset = true) :
    step s = .next { s with inputs := rest }.hartReset := by
  simp only [step, State.boundary, hi, hr, if_true]

/-- Settles O59: the step is the reset (`step_of_reset`), which sets each of the registers and leaves memory. -/
theorem resetValues : Obligations.ResetValues := by
  intro s i rest hi hr
  exact ⟨_, step_of_reset hi hr, rfl, rfl, rfl, rfl, State.hartReset_mcause _, rfl, State.hartReset_pmp_off _,
    rfl, rfl, rfl, rfl, rfl, rfl, fun _ => rfl⟩

end Sys2Proof.Machine
end
